-- ==== Sys2Proof/Word.lean ====
section
/-! DEFINITION. The word types of the block (spec/00_scope.md R11). -/

namespace Sys2Proof

/-- `u8` (spec/00_scope.md R11). -/
abbrev Byte := BitVec 8

/-- `u16` (spec/00_scope.md R11). -/
abbrev Half := BitVec 16

/-- `u32` (spec/00_scope.md R11). -/
abbrev Word := BitVec 32

end Sys2Proof
end

