-- ==== Sys2Proof/Config.lean ====
section
/-! DEFINITION. The names of slots and lines, the parameters of spec/00_scope.md R8 and R9, and the free
values (R14). The parameters are fields of the record `Config`, which the machine's state carries and no
step writes; `Config.reference` is the test configuration TC of spec/95_test_vectors.md (log entry 1). -/

namespace Sys2Proof

/-- The four slots of the registry (spec/00_scope.md R8, `NPORTS = 4`; numbering spec/42_registry.md R145). -/
inductive Slot where
  | p0 | p1 | p2 | p3
  deriving DecidableEq, Repr

/-- The three interrupt lines (spec/00_scope.md R9, `NLINES = 3`). -/
inductive Line where
  | l0 | l1 | l2
  deriving DecidableEq, Repr

/-- The two UART variants (spec/00_scope.md R2). -/
inductive Variant where
  | std | integ
  deriving DecidableEq, Repr

/-- The slots whose variant is STD (spec/42_registry.md R145). -/
inductive StdSlot where
  | p0 | p1 | p3
  deriving DecidableEq, Repr

/-- `VARIANT_OF` together with the STD chip a slot owns (spec/42_registry.md R145). -/
inductive SlotKind where
  | std (q : StdSlot)
  | integ
  deriving DecidableEq, Repr

/-- One value per slot. -/
structure PerSlot (α : Type) where
  p0 : α
  p1 : α
  p2 : α
  p3 : α
  deriving DecidableEq, Repr

/-- One value per interrupt line. -/
structure PerLine (α : Type) where
  l0 : α
  l1 : α
  l2 : α
  deriving DecidableEq, Repr

/-- One value per STD slot. -/
structure PerStd (α : Type) where
  p0 : α
  p1 : α
  p3 : α
  deriving DecidableEq, Repr

/-- One value per variant. -/
structure PerVariant (α : Type) where
  std : α
  integ : α
  deriving DecidableEq, Repr

/-- `LINE_TRIGGER` (spec/00_scope.md R9, spec/10_state.md R35). -/
inductive LineTrigger where
  | level | edge
  deriving DecidableEq, Repr

/-- `ACK_KIND` of a line (spec/43_hal_variant_mux.md R163). -/
inductive AckKind where
  | none | explicit
  deriving DecidableEq, Repr

/-- `ERRCODE[kind]` (spec/60_exceptions.md R300). -/
structure ErrCodes where
  invalidPortNumber : Byte
  noUartDetected : Byte
  portAlreadyOpen : Byte
  portNotOpen : Byte
  invalidBufferSize : Byte
  illegalSetting : Byte
  unsupportedUart : Byte
  outOfMemory : Byte
  deriving DecidableEq, Repr

/-- `CAUSECODE[c]` (spec/60_exceptions.md R313). -/
structure CauseCodes where
  none : Nat
  modemStatus : Nat
  lineStatus : Nat
  txEmpty : Nat
  rxReady : Nat
  rxTimeout : Nat
  deriving DecidableEq, Repr

/-- The receive trigger levels of a STD device (spec/48_environment_device.md R270). -/
inductive RxTrigger where
  | t1 | t4 | t8 | t14
  deriving DecidableEq, Repr

/-- The eight locations of a STD block (spec/43_hal_variant_mux.md R153): `data` is RBR and THR, `iir` is IIR
and FCR; under divisor-latch access `data` is DLL and `ier` is DLM. -/
inductive SReg where
  | data | ier | iir | lcr | mcr | lsr | msr | scr
  deriving DecidableEq, Repr

/-- `STD_OFF_*` and the STD bit values (spec/00_scope.md R9, spec/43_hal_variant_mux.md R153, R161). A single
bit is given as its mask, a field of several bits as the position of its lowest bit (log entry 35). -/
structure StdMap where
  /-- the offset of each location -/
  offData : BitVec 3
  offIer : BitVec 3
  offIir : BitVec 3
  offLcr : BitVec 3
  offMcr : BitVec 3
  offLsr : BitVec 3
  offMsr : BitVec 3
  offScr : BitVec 3
  /-- IER: receive-data, transmit-empty, line-status and modem-status enable -/
  ierRx : Byte
  ierTx : Byte
  ierLs : Byte
  ierMs : Byte
  /-- IIR: nothing pending -/
  iirNone : Byte
  /-- IIR: the bits of the identity, and its value for each cause -/
  iirId : Byte
  iirMs : Byte
  iirTx : Byte
  iirRx : Byte
  iirLs : Byte
  iirTo : Byte
  /-- IIR: the bits that show enabled FIFOs (spec/48_environment_device.md R273) -/
  iirFifo : Byte
  /-- FCR: FIFO enable, receive FIFO reset, transmit FIFO reset -/
  fcrEn : Byte
  fcrRx : Byte
  fcrTx : Byte
  /-- FCR: the position of the two trigger bits -/
  fcrTrig : Nat
  /-- FCR: the trigger code of each level -/
  fcrT1 : BitVec 2
  fcrT4 : BitVec 2
  fcrT8 : BitVec 2
  fcrT14 : BitVec 2
  /-- LCR: the position of the two bits that hold data bits minus 5 -/
  lcrData : Nat
  /-- LCR: stop, parity enable, even, stick, break, divisor-latch access -/
  lcrStop : Byte
  lcrParity : Byte
  lcrEven : Byte
  lcrStick : Byte
  lcrBreak : Byte
  lcrDlab : Byte
  /-- LSR: data ready, transmit holding empty, transmitter empty -/
  lsrDr : Byte
  lsrThre : Byte
  lsrTemt : Byte
  /-- LSR: the position of the four error bits -/
  lsrErr : Nat
  /-- MSR: the position of the four change flags -/
  msrDelta : Nat
  deriving DecidableEq, Repr

/-- The parameters of spec/00_scope.md R9, as plain data. Functions of the spec are finite tables here (log
entry 22); what each field may hold is log entry 35. -/
structure Config where
  /-- `VARIANT_OF[p]` -/
  variantOf : PerSlot Variant
  /-- `INTEG_PRESENT` -/
  integPresent : Bool
  /-- `STD_PRESENT[p]` -/
  stdPresent : PerStd Bool
  /-- `NLINES` -/
  nlines : Nat
  /-- `LINE_OF[p]` -/
  lineOf : PerSlot Line
  /-- `PORTS_OF[l]` -/
  visitOrder : PerLine (List Slot)
  /-- `LINE_TRIGGER` -/
  trigger : LineTrigger
  /-- `CAP_MIN` -/
  capMin : Nat
  /-- `CAP_MAX` -/
  capMax : Nat
  /-- `TX_BURST[v]`, a `u8` (spec/43_hal_variant_mux.md R160) -/
  txBurst : PerVariant Byte
  /-- `RX_DRAIN_CAP[v]` -/
  rxDrainCap : PerVariant Nat
  /-- `STD_RX_TRIGGER` -/
  stdRxTrigger : RxTrigger
  /-- `HADDR_BITS` -/
  haddrBits : Nat
  /-- `IOADDR_BITS` -/
  ioaddrBits : Nat
  /-- `RXDROP_MAX` -/
  rxdropMax : Nat
  /-- `STD_OFF_*` and the STD bit values -/
  stdMap : StdMap
  /-- `STD_BASE[p]` -/
  stdBase : PerStd Half
  /-- `STD_BAUD_OK` (the listed speeds) with `STD_DIVISOR` (their values) -/
  stdBaud : List (Word × Half)
  /-- `I_IEN` -/
  iIen : Half
  /-- `I_LCTL` -/
  iLctl : Half
  /-- `I_BAUD` -/
  iBaud : Half
  /-- `I_STAT` -/
  iStat : Half
  /-- `I_TXD` -/
  iTxd : Half
  /-- `I_RXD` -/
  iRxd : Half
  /-- `IM_RXIE` -/
  imRxie : Half
  /-- `IM_TXIE` -/
  imTxie : Half
  /-- `IS_RXRDY` -/
  isRxrdy : Half
  /-- `IS_THRE` -/
  isThre : Half
  /-- `IS_TXINT` -/
  isTxint : Half
  /-- `IS_LINEERR` -/
  isLineerr : Half
  /-- `INTEG_BAUD_OK`: the speeds the table has an entry for -/
  integBaudOk : List Word
  /-- `INTEG_BAUD_TABLE`, where this configuration says it -/
  integBaudTable : List (Word × Half)
  /-- `INTEG_STOP_OK`: the accepted stop-bit operands -/
  integStopOk : List Word
  /-- `INTEG_FRAME_WORD` at (parity, data_bits, stop_bits), where this configuration says it -/
  integFrame : List ((Word × Word × Word) × Half)
  /-- `INTEG_INIT_WORD` -/
  integInitWord : Half
  /-- `EOI_ADDR` -/
  eoiAddr : Half
  /-- `EOI_VALUE[l]` -/
  eoiValue : PerLine Half
  /-- `ACK_KIND[l]` -/
  ackKind : PerLine AckKind
  /-- `ERRCODE[kind]` -/
  errCode : ErrCodes
  /-- `CAUSECODE[c]` -/
  causeCode : CauseCodes
  /-- `LOOPBACK[p]` -/
  loopback : PerSlot Bool
  deriving DecidableEq, Repr

/-- The free values (`draw`, spec/00_scope.md R14): no body, so nothing is known of them. The n-th draw for
which the environment has supplied no value takes `freeWord n` (log entry 2). -/
opaque Config.freeWord : Nat → Half

/-- `INTEG_BAUD_TABLE` at a speed for which the configuration names no value (log entry 22). -/
opaque Config.integBaudFree : Word → Half

/-- `INTEG_FRAME_WORD` at settings for which the configuration names no value (log entry 22). -/
opaque Config.integFrameFree : Word → Word → Word → Half

/-- `STD_DIVISOR` at a speed outside `STD_BAUD_OK`, where the spec states no value (log entry 16). -/
opaque Config.stdDivisorFree : Word → Half

/-- `STD_FRAME` at settings outside spec/43_hal_variant_mux.md R172, where the spec states no value
(log entry 16). -/
opaque Config.stdFrameFree : Word → Word → Word → Byte

/-- The register map of the 16550 class, the reference values of spec/43_hal_variant_mux.md R153 and R161. -/
def StdMap.reference : StdMap where
  offData := 0#3
  offIer := 1#3
  offIir := 2#3
  offLcr := 3#3
  offMcr := 4#3
  offLsr := 5#3
  offMsr := 6#3
  offScr := 7#3
  ierRx := 0x01#8
  ierTx := 0x02#8
  ierLs := 0x04#8
  ierMs := 0x08#8
  iirNone := 0x01#8
  iirId := 0x0E#8
  iirMs := 0x00#8
  iirTx := 0x02#8
  iirRx := 0x04#8
  iirLs := 0x06#8
  iirTo := 0x0C#8
  iirFifo := 0xC0#8
  fcrEn := 0x01#8
  fcrRx := 0x02#8
  fcrTx := 0x04#8
  fcrTrig := 6
  fcrT1 := 0#2
  fcrT4 := 1#2
  fcrT8 := 2#2
  fcrT14 := 3#2
  lcrData := 0
  lcrStop := 0x04#8
  lcrParity := 0x08#8
  lcrEven := 0x10#8
  lcrStick := 0x20#8
  lcrBreak := 0x40#8
  lcrDlab := 0x80#8
  lsrDr := 0x01#8
  lsrThre := 0x20#8
  lsrTemt := 0x40#8
  lsrErr := 1
  msrDelta := 0

/-- The reference `STD_BAUD_OK` and `STD_DIVISOR` of spec/43_hal_variant_mux.md R172: the divisors of
115200, written `2^a * 3^b * 5^c`. -/
def refStdBaud : List (Word × Half) :=
  (List.range 10).flatMap fun a => (List.range 3).flatMap fun b => (List.range 3).map fun c =>
    let baud := 2 ^ a * 3 ^ b * 5 ^ c
    (BitVec.ofNat 32 baud, BitVec.ofNat 16 (115200 / baud))

/-- The table of spec/60_exceptions.md R300. -/
def ErrCodes.reference : ErrCodes := ⟨1#8, 2#8, 3#8, 4#8, 5#8, 6#8, 7#8, 8#8⟩

/-- The table of spec/60_exceptions.md R313. -/
def CauseCodes.reference : CauseCodes := ⟨0, 1, 2, 3, 4, 5⟩

/-- The test configuration TC of spec/95_test_vectors.md section 0 (DESIGN CHOICE as the configuration of
`State.reset`, log entry 1). `EOI_VALUE[l]` for the lines TC gives none is 0. -/
def Config.reference : Config where
  variantOf := ⟨.std, .std, .integ, .std⟩
  integPresent := true
  stdPresent := ⟨true, true, true⟩
  nlines := 3
  lineOf := ⟨.l0, .l0, .l1, .l2⟩
  visitOrder := ⟨[.p0, .p1], [.p2], [.p3]⟩
  trigger := .level
  capMin := 1
  capMax := 65535
  txBurst := ⟨16#8, 1#8⟩
  rxDrainCap := ⟨16, 1⟩
  stdRxTrigger := .t14
  haddrBits := 16
  ioaddrBits := 16
  rxdropMax := 4294967295
  stdMap := StdMap.reference
  stdBase := ⟨0x03F8#16, 0x02F8#16, 0x03E8#16⟩
  stdBaud := refStdBaud
  iIen := 0xFF10#16
  iLctl := 0xFF14#16
  iBaud := 0xFF16#16
  iStat := 0xFF12#16
  iTxd := 0xFF18#16
  iRxd := 0xFF1A#16
  imRxie := 0x0001#16
  imTxie := 0x0002#16
  isRxrdy := 0x0001#16
  isThre := 0x0002#16
  isTxint := 0x0004#16
  isLineerr := 0x0008#16
  integBaudOk := [1200#32, 2400#32, 4800#32, 9600#32, 19200#32, 38400#32, 57600#32, 115200#32]
  integBaudTable := [(9600#32, 0x0003#16)]
  integStopOk := [1#32]
  integFrame := [((0#32, 8#32, 1#32), 0x0013#16)]
  integInitWord := 0x0003#16
  eoiAddr := 0xFF22#16
  eoiValue := ⟨0#16, 0x000C#16, 0#16⟩
  ackKind := ⟨.none, .explicit, .none⟩
  errCode := ErrCodes.reference
  causeCode := CauseCodes.reference
  loopback := ⟨false, false, false, false⟩

end Sys2Proof
end

