-- ==== Sys2Proof/Syntax.lean ====
section
/-! DEFINITION. The 54 operations (spec/30_encoding.md R93 to R100), one constructor per row of the opcode
table. Ports and lines are the raw 4-bit `sel` field (R102). -/

namespace Sys2Proof

/-- The ring selector `dir` (spec/30_encoding.md R103). -/
inductive Dir where
  | rx | tx
  deriving DecidableEq, Repr

/-- The operations, in the order of the opcode table. -/
inductive Instr where
  -- class 1, API (R94)
  | openPort (p : BitVec 4)
  | configure (p : BitVec 4)
  | send (p : BitVec 4)
  | recv (p : BitVec 4)
  | clear (p : BitVec 4) (d : Dir)
  | available (p : BitVec 4)
  | close (p : BitVec 4)
  | rxDropped (p : BitVec 4)
  -- class 2, RB (R95)
  | rbPush (p : BitVec 4) (d : Dir) (b : Byte)
  | rbPop (p : BitVec 4) (d : Dir)
  | rbAvail (p : BitVec 4) (d : Dir)
  | rbClear (p : BitVec 4) (d : Dir)
  | rbPushN (p : BitVec 4) (d : Dir) (n : Half)
  | rbPopN (p : BitVec 4) (d : Dir) (n : Half)
  -- class 3, REG (R96)
  | regLookup (p : BitVec 4)
  | regAlloc (p : BitVec 4)
  | regFree (p : BitVec 4)
  -- class 4, HAL (R97)
  | halEnRx (p : BitVec 4)
  | halEnTx (p : BitVec 4)
  | halDisInt (p : BitVec 4)
  | halCause (p : BitVec 4)
  | halDrainRx (p : BitVec 4)
  | halFillTx (p : BitVec 4) (m : Byte)
  | halConfig (p : BitVec 4)
  | halAckLine (l : BitVec 4)
  | halTxEmpty (p : BitVec 4)
  | halDetect (p : BitVec 4)
  | halInit (p : BitVec 4)
  | halSnapshot (p : BitVec 4)
  | halRestore (p : BitVec 4)
  | halClrMs (p : BitVec 4)
  | halClrLs (p : BitVec 4)
  | halDisTx (p : BitVec 4)
  -- class 5, DSP (R98)
  | dspEnter (l : BitVec 4)
  | dspVisit (p : BitVec 4)
  | dspExit (l : BitVec 4)
  | dspOnModem (p : BitVec 4)
  | dspOnLine (p : BitVec 4)
  | dspOnTxEmpty (p : BitVec 4)
  | dspOnRxReady (p : BitVec 4)
  | dspOnRxTimeout (p : BitVec 4)
  -- class 6, HOST (R99)
  | hostRd8 (a : Half)
  | hostRd16 (a : Half)
  | hostWr8 (a : Half)
  | hostWr16 (a : Half)
  | hostInstall (l : BitVec 4)
  | hostRestore (l : BitVec 4)
  | hostMask (l : BitVec 4)
  | hostUnmask (l : BitVec 4)
  -- class 7, ENV (R100)
  | envRxArrive (p : BitVec 4) (b : Byte)
  | envTxShift (p : BitVec 4)
  | envLineEvent (p : BitVec 4)
  | envModemEvent (p : BitVec 4)
  | envRxTimeout (p : BitVec 4)
  deriving DecidableEq, Repr

end Sys2Proof
end

