-- ==== Sys2Proof/Machine/State.lean ====
section
/-! DEFINITION. The state of the block (spec/10_state.md R20 to R47), of the reference devices
(spec/48_environment_device.md R270, R280), the model's own fields, and the state after reset. -/

namespace Sys2Proof.Machine

open Sys2Proof

/-- The addresses of a port (spec/10_state.md R37). The constructor is the `variant` of R23. -/
inductive Regs where
  | std (base : Half)
  | integ (ien lctl baud stat txd rxd : Half)
  deriving DecidableEq, Repr

/-- A ring buffer (spec/10_state.md R24). `storage` lists the bytes written so far, by rising index; an
index not listed has never been written (R26, log entry 13). -/
structure RingBuffer where
  capacity : Half
  storage : List Host.Cell
  head : Half
  tail : Half
  count : Half
  deriving DecidableEq, Repr

/-- A PortState (spec/10_state.md R23). -/
structure PortState where
  regs : Regs
  rx : RingBuffer
  tx : RingBuffer
  blocking : Bool
  rxDropped : Word
  deriving DecidableEq, Repr

/-- The lifecycle states (spec/10_state.md R29). -/
inductive Life where
  | closed | opening | opened | closing
  deriving DecidableEq, Repr

/-- The vector of a line (spec/10_state.md R31). The spec gives an external handler's value no type; a 32-bit
word stands for it (DESIGN CHOICE, log entry 8), which the block stores and returns and never inspects. -/
inductive Handler where
  | dispatcher
  | external (h : Word)
  deriving DecidableEq, Repr

/-- `saved_integ` (spec/10_state.md R36). -/
structure IntegRegs where
  ien : Half
  lctl : Half
  baud : Half
  deriving DecidableEq, Repr

/-- Which register of `saved_integ` an access fills or restores (spec/43_hal_variant_mux.md R167, R168). -/
inductive CfgReg where
  | ien | lctl | baud
  deriving DecidableEq, Repr

/-- The value an access writes: a constant, or one formed from the value read before
(spec/43_hal_variant_mux.md R155 to R157, R171). -/
inductive WVal where
  | const (c : Half)
  | orV (m : Half)
  | andNotV (m : Half)
  deriving DecidableEq, Repr

/-- One step of a HAL capability: an `IO` access with the ring operation written on its line
(spec/43_hal_variant_mux.md R151, spec/00_scope.md R15). -/
inductive Acc where
  /-- `v <- IoRd8(a)` -/
  | rd8 (a : Half)
  /-- `v <- IoRd16(a)` -/
  | rd16 (a : Half)
  /-- `IoWr8(a, e)` -/
  | wr8 (a : Half) (e : WVal)
  /-- `IoWr16(a, e)` -/
  | wr16 (a : Half) (e : WVal)
  /-- `saved_integ.r <- IoRd16(a)` (R167) -/
  | snap (a : Half) (r : CfgReg)
  /-- `IoWr16(a, saved_integ.r)` (R168) -/
  | rest (a : Half) (r : CfgReg)
  /-- `s <- IoRd8(a)`; the capability returns if `s & m = 0` (R158, STD) -/
  | test8 (a : Half) (m : Byte)
  /-- `s <- IoRd16(a)`; the capability returns if `s & m = 0` (R158, INTEG) -/
  | test16 (a : Half) (m : Half)
  /-- `b <- IoRd8(a)` and RB.PUSH to `rx`, or the byte is dropped and counted (R158) -/
  | take8 (a : Half)
  /-- as `take8` with `IoRd16(a)` (R158) -/
  | take16 (a : Half)
  /-- RB.POP from `tx` and `IoWr8(a, byte)`; the capability returns if the ring is empty (R160) -/
  | fill8 (a : Half)
  /-- as `fill8` with `IoWr16(a, byte)` (R160) -/
  | fill16 (a : Half)
  deriving DecidableEq, Repr

/-- The API operations (spec/30_encoding.md R94). -/
inductive ApiOp where
  | openPort | configure | send | recv | clear (d : Dir) | available | close | rxDropped
  deriving DecidableEq, Repr

/-- A decoded API command (spec/30_encoding.md R92). -/
structure Cmd where
  op : ApiOp
  p : BitVec 4
  deriving DecidableEq, Repr

/-- The mainline locals (spec/10_state.md R39): `moved` is `done`; `sub`, `hal` and `v` say
how far the capability on the current line has come. -/
structure MLocals where
  moved : Word
  k : Word
  sub : Nat
  hal : List Acc
  v : Half
  deriving DecidableEq, Repr

/-- `mseq` (spec/10_state.md R38). -/
inductive MSeq where
  | idle
  | run (cmd : Cmd) (line : Nat) (loc : MLocals)
  deriving DecidableEq, Repr

/-- The interrupt causes (spec/60_exceptions.md R313). -/
inductive Cause where
  | none | modemStatus | lineStatus | txEmpty | rxReady | rxTimeout
  deriving DecidableEq, Repr

/-- `dseq[l]` (spec/10_state.md R40): `line` is the line of DSP.VISIT (spec/44_dispatcher.md R192), `i`
indexes `PORTS_OF[l]`, `c` is the cause just read, `hal` and `v` belong to the capability in progress. -/
inductive DSeq where
  | idle
  | run (line : Nat) (i : Nat) (c : Cause) (hal : List Acc) (v : Half)
  deriving DecidableEq, Repr

/-- A STD device (spec/48_environment_device.md R270). -/
structure StdDev where
  fifoEn : Bool
  trigger : RxTrigger
  rxf : List Byte
  txf : List Byte
  ier : Byte
  lcr : Byte
  dll : Byte
  dlm : Byte
  mcr : Byte
  scr : Byte
  threInt : Bool
  rxTo : Bool
  lsErr : BitVec 4
  msDelta : BitVec 4
  deriving DecidableEq, Repr

/-- The INTEG device (spec/48_environment_device.md R280). -/
structure IntegDev where
  rxd : Option Byte
  txd : Option Byte
  ien : Half
  lctl : Half
  baud : Half
  lineErr : Bool
  deriving DecidableEq, Repr

/-- The devices of the four slots (spec/10_state.md R42). -/
structure Devices where
  std : PerStd StdDev
  integ : IntegDev
  deriving DecidableEq, Repr

/-- The error kinds (spec/60_exceptions.md R300). -/
inductive ErrKind where
  | invalidPortNumber | noUartDetected | portAlreadyOpen | portNotOpen | invalidBufferSize
  | illegalSetting | unsupportedUart | outOfMemory
  deriving DecidableEq, Repr

/-- The answers of REG.LOOKUP (spec/42_registry.md R140). -/
inductive Lookup where
  | invalid | absent | present
  deriving DecidableEq, Repr

/-- One class-6 operation with its operands and result, an element of the trace
(spec/47_host_primitives.md R260). -/
inductive HostEvent where
  | rd8 (a : Half) (v : Byte)
  | rd16 (a : Half) (v : Half)
  | wr8 (a : Half) (v : Byte)
  | wr16 (a : Half) (v : Half)
  | install (l : Line) (h prev : Handler)
  | restore (l : Line) (h : Handler)
  | mask (l : Line)
  | unmask (l : Line)
  deriving DecidableEq, Repr

/-- The value a micro-operation returns to the rule that invoked it (spec/00_scope.md R16). -/
inductive Ret where
  | unit
  | bool (b : Bool)
  | byte (b : Option Byte)
  | count (n : Half)
  | lookup (r : Lookup)
  | alloc (granted : Bool)
  | cause (c : Cause)
  | u8 (v : Byte)
  | u16 (v : Half)
  | handler (h : Handler)
  deriving DecidableEq, Repr

/-- The sideband operands of an operation issued as a word (spec/30_encoding.md R105, log entry 5). -/
structure Sideband where
  /-- the `HBUF` address of RB.PUSHN and RB.POPN -/
  addr : Word
  /-- the value of HOST.WR8 (low byte) and HOST.WR16 -/
  value : Half
  /-- the handler of HOST.INSTALL and HOST.RESTORE -/
  handler : Handler
  deriving DecidableEq, Repr

/-- The moves the schedule is made of (log entry 3). -/
inductive Move where
  /-- an operation word is issued and performed undisturbed (log entry 4) -/
  | word (w : Word)
  /-- HOST writes `CMD` (spec/10_state.md R21); the command then runs by `core` moves -/
  | cmd (w : Word)
  /-- HOST writes mailbox register `i` (spec/10_state.md R20) -/
  | setX (i : BitVec 3) (v : Word)
  /-- HOST writes a byte of `HBUF` (spec/20_memory.md R60, R84) -/
  | poke (a : Word) (b : Byte)
  /-- HOST reads a byte of `HBUF` (spec/20_memory.md R60, R84) -/
  | peek (a : Word)
  /-- the running agent takes its next step (spec/10_state.md R41) -/
  | core
  deriving DecidableEq, Repr

/-- The state. The first fields are the spec's (spec/10_state.md R47); those after `hbuf` are the model's. -/
structure State where
  a0 : Word
  a1 : Word
  a2 : Word
  a3 : Word
  r0 : Word
  lasterr : Byte
  slots : PerSlot (Option PortState)
  life : PerSlot Life
  handler : PerLine Handler
  savedHandler : PerLine Handler
  lineRefs : PerLine Nat
  masked : PerLine Bool
  inService : PerLine Bool
  latched : PerLine Bool
  savedInteg : IntegRegs
  mseq : MSeq
  dseq : PerLine DSeq
  ctx : List Line
  dev : Devices
  wireTx : PerSlot (List Byte)
  wireRx : PerSlot (List Byte)
  hbuf : List Host.Cell
  /-- the configuration record (spec/00_scope.md R9); no step writes it -/
  cfg : Config
  /-- the observed class-6 operations, oldest first (spec/47_host_primitives.md R260) -/
  trace : List HostEvent
  /-- sideband operands of the next word (spec/30_encoding.md R105) -/
  side : Sideband
  /-- what the last micro-operation issued as a word returned (spec/00_scope.md R16) -/
  ret : Ret
  /-- the schedule still to come (spec/10_state.md R46) -/
  moves : List Move
  /-- values the environment supplies for the next draws (spec/00_scope.md R14) -/
  draws : List Half
  /-- how many draws took a free value because `draws` was empty -/
  drawn : Nat
  deriving DecidableEq, Repr

/-- The faults. -/
inductive Fault where
  /-- Raised by SEND, RB.PUSHN and HOST's read of `HBUF` at a byte nothing has written
  (spec/20_memory.md R60: "or is a model fault if none was"). Safe. -/
  | hbufUnwritten
  deriving DecidableEq, Repr

/-- The refusals: the situations to which the spec gives no meaning (spec/00_scope.md R14). All are safe. -/
inductive Refusal where
  /-- Raised by `exec`'s arms of instructions without a meaning; no arm raises it now. Safe. -/
  | notModelled (mnemonic : String)
  /-- An illegal word (spec/30_encoding.md R107; V1). Safe. -/
  | illegalWord
  /-- A legal word of class 2 to 7 written to `CMD` (spec/30_encoding.md R92; V1). Safe. -/
  | notOnCmd
  /-- A write of `CMD` or `A0..A3` while a command runs (spec/10_state.md R20, R21; V2). Safe. -/
  | busy
  /-- A HOST write of `R0` or `LASTERR`, which HOST only reads (spec/10_state.md R20, log entry 30). Safe. -/
  | mailboxReadOnly
  /-- A buffer that leaves `HBUF` (spec/20_memory.md R70; V3), and a HOST access to an address that `HBUF` does
  not have (R60). Safe. -/
  | bufferOutside
  /-- HOST touches the buffer of a running SEND or RECV (spec/20_memory.md R84; V4). Safe. -/
  | bufferInUse
  /-- RB.PUSHN above the room or RB.POPN above the count (spec/41_ring_buffer.md R127, R129; V5). Safe. -/
  | bulkTooLong
  /-- A ring mutator outside a critical section and outside the line's handler
  (spec/41_ring_buffer.md R121; V6). Safe. -/
  | ringUnprotected
  /-- A reserved STD cause identity (spec/43_hal_variant_mux.md R161; V7). Safe. -/
  | reservedCause
  /-- HAL.DIS_TX on a STD port (spec/43_hal_variant_mux.md R171; V8). Safe. -/
  | disTxOnStd
  /-- An `IO` access of the wrong width: 8 bits at an INTEG register or `EOI_ADDR`, 16 bits at a STD register
  (spec/48_environment_device.md R289), a 16-bit read in any STD block (spec/47_host_primitives.md R251); V9.
  Safe. -/
  | wrongWidth
  /-- A configuration whose `IO` ranges overlap, or that breaks another constraint on parameters
  (spec/20_memory.md R68, spec/93_implementation_defined.md 1.5, log entries 32, 35). Safe. -/
  | badConfig
  /-- A micro-operation on a port 4 to 15 (spec/30_encoding.md R102, log entry 17). Safe. -/
  | noSuchSlot
  /-- An ill-formed term whose line identifier names no line; no word decodes to one
  (spec/30_encoding.md R102). Safe. -/
  | noSuchLine
  /-- A ring operation on a slot that is absent: there is no ring (spec/42_registry.md R146). Safe. -/
  | portAbsent
  /-- REG.ALLOC of an occupied slot (spec/42_registry.md R141, log entry 16). Safe. -/
  | slotOccupied
  /-- REG.ALLOC with capacities that OPEN would have rejected (spec/42_registry.md R141, log entry 16). Safe. -/
  | notValidated
  /-- DSP.EXIT of a line whose handler is not the running agent (spec/10_state.md R41, log entry 18). Safe. -/
  | handlerNotRunning
  /-- A write of a value to `EOI_ADDR` that is no completion value (spec/48_environment_device.md R288,
  log entry 19). Safe. -/
  | eoiValueUnknown
  deriving DecidableEq, Repr

/-- The outcome of a step. -/
abbrev Out := Host.Outcome State Fault Refusal

/-- A STD device after reset (spec/48_environment_device.md R290; `dll`, `dlm`, `scr` log entry 11). -/
def StdDev.reset : StdDev where
  fifoEn := false
  trigger := .t1
  rxf := []
  txf := []
  ier := 0#8
  lcr := 0#8
  dll := 0#8
  dlm := 0#8
  mcr := 0#8
  scr := 0#8
  threInt := false
  rxTo := false
  lsErr := 0#4
  msDelta := 0#4

/-- The INTEG device after reset (spec/48_environment_device.md R290; the three registers log entry 11). -/
def IntegDev.reset : IntegDev where
  rxd := none
  txd := none
  ien := 0#16
  lctl := 0#16
  baud := 0#16
  lineErr := false

/-- The state after reset under a configuration (spec/10_state.md R47, spec/70_reset_and_hazards.md R340 to
R342; values the spec leaves open: log entries 6 to 12). -/
def State.resetWith (cfg : Config) : State where
  a0 := 0#32
  a1 := 0#32
  a2 := 0#32
  a3 := 0#32
  r0 := 0#32
  lasterr := 0#8
  slots := ⟨none, none, none, none⟩
  life := ⟨.closed, .closed, .closed, .closed⟩
  handler := ⟨.external 0#32, .external 0#32, .external 0#32⟩
  savedHandler := ⟨.external 0#32, .external 0#32, .external 0#32⟩
  lineRefs := ⟨0, 0, 0⟩
  masked := ⟨false, false, false⟩
  inService := ⟨false, false, false⟩
  latched := ⟨false, false, false⟩
  savedInteg := ⟨0#16, 0#16, 0#16⟩
  mseq := .idle
  dseq := ⟨.idle, .idle, .idle⟩
  ctx := []
  dev := ⟨⟨StdDev.reset, StdDev.reset, StdDev.reset⟩, IntegDev.reset⟩
  wireTx := ⟨[], [], [], []⟩
  wireRx := ⟨[], [], [], []⟩
  hbuf := []
  cfg := cfg
  trace := []
  side := ⟨0#32, 0#16, .dispatcher⟩
  ret := .unit
  moves := []
  draws := []
  drawn := 0

/-- The state after reset, under the reference configuration (log entry 1). -/
def State.reset : State := State.resetWith Config.reference

end Sys2Proof.Machine
end

