-- ==== Sys2Proof/Machine/Operands.lean ====
section
/-! DEFINITION. Operand forms: what `sel`, the mailbox operands and the configuration stand for, the mux's
address records and values, and the code tables. -/

namespace Sys2Proof

/-- Reads the entry of a slot. -/
def PerSlot.get {α : Type} (v : PerSlot α) : Slot → α
  | .p0 => v.p0
  | .p1 => v.p1
  | .p2 => v.p2
  | .p3 => v.p3

/-- Writes the entry of a slot. -/
def PerSlot.set {α : Type} (v : PerSlot α) : Slot → α → PerSlot α
  | .p0, x => { v with p0 := x }
  | .p1, x => { v with p1 := x }
  | .p2, x => { v with p2 := x }
  | .p3, x => { v with p3 := x }

/-- Reads the entry of a line. -/
def PerLine.get {α : Type} (v : PerLine α) : Line → α
  | .l0 => v.l0
  | .l1 => v.l1
  | .l2 => v.l2

/-- Writes the entry of a line. -/
def PerLine.set {α : Type} (v : PerLine α) : Line → α → PerLine α
  | .l0, x => { v with l0 := x }
  | .l1, x => { v with l1 := x }
  | .l2, x => { v with l2 := x }

/-- Reads the entry of a STD slot. -/
def PerStd.get {α : Type} (v : PerStd α) : StdSlot → α
  | .p0 => v.p0
  | .p1 => v.p1
  | .p3 => v.p3

/-- Writes the entry of a STD slot. -/
def PerStd.set {α : Type} (v : PerStd α) : StdSlot → α → PerStd α
  | .p0, x => { v with p0 := x }
  | .p1, x => { v with p1 := x }
  | .p3, x => { v with p3 := x }

/-- Reads the entry of a variant. -/
def PerVariant.get {α : Type} (v : PerVariant α) : Variant → α
  | .std => v.std
  | .integ => v.integ

/-- The three lines. -/
def Line.all : List Line := [.l0, .l1, .l2]

/-- `ERRCODE[kind]` (spec/60_exceptions.md R300). -/
def ErrCodes.get (m : ErrCodes) : Machine.ErrKind → Byte
  | .invalidPortNumber => m.invalidPortNumber
  | .noUartDetected => m.noUartDetected
  | .portAlreadyOpen => m.portAlreadyOpen
  | .portNotOpen => m.portNotOpen
  | .invalidBufferSize => m.invalidBufferSize
  | .illegalSetting => m.illegalSetting
  | .unsupportedUart => m.unsupportedUart
  | .outOfMemory => m.outOfMemory

/-- `CAUSECODE[c]` (spec/60_exceptions.md R313). -/
def CauseCodes.get (m : CauseCodes) : Machine.Cause → Nat
  | .none => m.none
  | .modemStatus => m.modemStatus
  | .lineStatus => m.lineStatus
  | .txEmpty => m.txEmpty
  | .rxReady => m.rxReady
  | .rxTimeout => m.rxTimeout

/-- The four slots, lowest first. -/
def Slot.all : List Slot := [.p0, .p1, .p2, .p3]

/-- The variant of a slot and its STD chip (spec/42_registry.md R145). -/
def Slot.kind : Slot → SlotKind
  | .p0 => .std .p0
  | .p1 => .std .p1
  | .p2 => .integ
  | .p3 => .std .p3

/-- The variant of a slot of a kind. -/
def SlotKind.variant : SlotKind → Variant
  | .std _ => .std
  | .integ => .integ

/-- The slot a port identifier names, if it names one (spec/30_encoding.md R102). -/
def slotOfSel (p : BitVec 4) : Option Slot :=
  match p.toNat with
  | 0 => some .p0
  | 1 => some .p1
  | 2 => some .p2
  | 3 => some .p3
  | _ => none

/-- The line a line identifier names, if it names one (spec/30_encoding.md R102). -/
def lineOfSel (l : BitVec 4) : Option Line :=
  match l.toNat with
  | 0 => some .l0
  | 1 => some .l1
  | 2 => some .l2
  | _ => none

/-- The port identifier of a slot. -/
def Slot.sel : Slot → BitVec 4
  | .p0 => 0#4
  | .p1 => 1#4
  | .p2 => 2#4
  | .p3 => 3#4

/-- The line identifier of a line. -/
def Line.sel : Line → BitVec 4
  | .l0 => 0#4
  | .l1 => 1#4
  | .l2 => 2#4

/-- `PORTS_OF[l]`, in visiting order (spec/00_scope.md R9). -/
def Config.portsOf (cfg : Config) (l : Line) : List Slot := cfg.visitOrder.get l

/-- `ACK_KIND[l] = explicit` (spec/43_hal_variant_mux.md R163). -/
def Config.ackExplicit (cfg : Config) (l : Line) : Bool := cfg.ackKind.get l = .explicit

/-- The device of the slot is present (spec/00_scope.md R9). -/
def Config.present (cfg : Config) (q : Slot) : Bool :=
  match q.kind with
  | .std c => cfg.stdPresent.get c
  | .integ => cfg.integPresent

/-- A mask of exactly one bit (spec/43_hal_variant_mux.md R154). -/
def oneBit {n : Nat} (m : BitVec n) : Bool := m ≠ 0#n && m &&& (m - 1#n) = 0#n

/-- A bit of the mask is set in the value. -/
def hasBit {n : Nat} (v m : BitVec n) : Bool := v &&& m ≠ 0#n

/-- The seven single `IO` locations of the map (spec/20_memory.md R68). -/
def Config.ioPoints (cfg : Config) : List Half :=
  [cfg.iIen, cfg.iLctl, cfg.iBaud, cfg.iStat, cfg.iTxd, cfg.iRxd, cfg.eoiAddr]

/-- `a` lies in the block of eight locations at `base` (spec/20_memory.md R68). -/
def inBlock (base a : Half) : Bool := base.toNat ≤ a.toNat && a.toNat ≤ base.toNat + 7

/-- Two blocks of eight locations do not meet. -/
def blocksApart (a b : Half) : Bool := a.toNat + 8 ≤ b.toNat || b.toNat + 8 ≤ a.toNat

/-- The `IO` ranges are pairwise disjoint and inside `IO` (spec/20_memory.md R61, R68). -/
def Config.ioDisjoint (cfg : Config) : Bool :=
  let bases := [cfg.stdBase.p0, cfg.stdBase.p1, cfg.stdBase.p3]
  decide cfg.ioPoints.Nodup
  && blocksApart cfg.stdBase.p0 cfg.stdBase.p1
  && blocksApart cfg.stdBase.p0 cfg.stdBase.p3
  && blocksApart cfg.stdBase.p1 cfg.stdBase.p3
  && bases.all (fun b => b.toNat + 8 ≤ 65536 && b.toNat + 8 ≤ 2 ^ cfg.ioaddrBits)
  && cfg.ioPoints.all (fun a => a.toNat < 2 ^ cfg.ioaddrBits)
  && cfg.ioPoints.all (fun a => bases.all fun b => !inBlock b a)

/-- The masks are single bits, distinct within a register (spec/43_hal_variant_mux.md R154). -/
def Config.masksOk (cfg : Config) : Bool :=
  [cfg.imRxie, cfg.imTxie, cfg.isRxrdy, cfg.isThre, cfg.isTxint, cfg.isLineerr].all oneBit
  && cfg.imRxie ≠ cfg.imTxie
  && decide [cfg.isRxrdy, cfg.isThre, cfg.isTxint, cfg.isLineerr].Nodup

/-- Exactly one line has two ports, both STD, and the other lines one each
(spec/92_eei_decisions.md D3, spec/93_implementation_defined.md 1.5). -/
def Config.linesOk (cfg : Config) : Bool :=
  (cfg.portsOf .l0).length ≤ 2 && (cfg.portsOf .l1).length ≤ 2 && (cfg.portsOf .l2).length ≤ 2
  && 1 ≤ (cfg.portsOf .l0).length && 1 ≤ (cfg.portsOf .l1).length && 1 ≤ (cfg.portsOf .l2).length
  && (cfg.portsOf cfg.lineOf.p2).length = 1

/-- The tables over slots and lines agree: the variants and the number of lines are those the spec decides
(spec/92_eei_decisions.md D2, D3), `PORTS_OF` lists the ports of each line once, and a line is acknowledged
explicitly exactly when it holds the INTEG slot (spec/43_hal_variant_mux.md R163). -/
def Config.tablesOk (cfg : Config) : Bool :=
  Slot.all.all (fun q => cfg.variantOf.get q = q.kind.variant) && cfg.nlines = Line.all.length
  && Line.all.all fun l => decide (cfg.portsOf l).Nodup
    && Slot.all.all (fun q => (cfg.portsOf l).contains q = decide (cfg.lineOf.get q = l))
    && cfg.ackExplicit l = (cfg.portsOf l).contains .p2

/-- The codes: those of the errors differ and lie in 1 to 8 (spec/60_exceptions.md R300), those of the causes
differ (spec/60_exceptions.md R313). -/
def Config.codesOk (cfg : Config) : Bool :=
  let e := cfg.errCode
  let c := cfg.causeCode
  let codes := [e.invalidPortNumber, e.noUartDetected, e.portAlreadyOpen, e.portNotOpen, e.invalidBufferSize,
    e.illegalSetting, e.unsupportedUart, e.outOfMemory]
  decide codes.Nodup && codes.all (fun x => 1 ≤ x.toNat && x.toNat ≤ 8)
  && decide [c.none, c.modemStatus, c.lineStatus, c.txEmpty, c.rxReady, c.rxTimeout].Nodup

/-- The enables of the IER, the other bits of which stay 0 (spec/48_environment_device.md R270, R276). -/
def StdMap.ierMask (m : StdMap) : Byte := m.ierRx ||| m.ierTx ||| m.ierLs ||| m.ierMs

/-- The identities of the causes in the IIR (spec/43_hal_variant_mux.md R161). -/
def StdMap.iirIds (m : StdMap) : List Byte := [m.iirMs, m.iirTx, m.iirRx, m.iirLs, m.iirTo]

/-- The STD map is one: the offsets differ, the bits are single and differ within a register, the fields fit
beside them, and the identities differ and lie in their field (log entry 35). -/
def StdMap.wf (m : StdMap) : Bool :=
  decide [m.offData, m.offIer, m.offIir, m.offLcr, m.offMcr, m.offLsr, m.offMsr, m.offScr].Nodup
  && [m.ierRx, m.ierTx, m.ierLs, m.ierMs, m.iirNone, m.fcrEn, m.fcrRx, m.fcrTx, m.lcrStop, m.lcrParity,
    m.lcrEven, m.lcrStick, m.lcrBreak, m.lcrDlab, m.lsrDr, m.lsrThre, m.lsrTemt].all oneBit
  && decide [m.ierRx, m.ierTx, m.ierLs, m.ierMs].Nodup
  && decide m.iirIds.Nodup && m.iirIds.all (fun c => c &&& ~~~m.iirId = 0#8)
  && !hasBit m.iirId m.iirNone && !hasBit m.iirFifo (m.iirId ||| m.iirNone)
  && decide [m.fcrEn, m.fcrRx, m.fcrTx].Nodup && m.fcrTrig ≤ 6
  && decide [m.fcrT1, m.fcrT4, m.fcrT8, m.fcrT14].Nodup
  && !hasBit (0x03#8 <<< m.fcrTrig) (m.fcrEn ||| m.fcrRx ||| m.fcrTx)
  && decide [m.lcrStop, m.lcrParity, m.lcrEven, m.lcrStick, m.lcrBreak, m.lcrDlab].Nodup && m.lcrData ≤ 6
  && !hasBit (0x03#8 <<< m.lcrData)
    (m.lcrStop ||| m.lcrParity ||| m.lcrEven ||| m.lcrStick ||| m.lcrBreak ||| m.lcrDlab)
  && decide [m.lsrDr, m.lsrThre, m.lsrTemt].Nodup && m.lsrErr ≤ 4
  && !hasBit (0x0F#8 <<< m.lsrErr) (m.lsrDr ||| m.lsrThre ||| m.lsrTemt)
  && m.msrDelta ≤ 4

/-- The bounds of the numeric parameters: a capacity and the overflow counter fit their fields
(spec/10_state.md R24, R30) and a burst and a drain move at least one byte (spec/44_dispatcher.md R200; log
entry 35). -/
def Config.limitsOk (cfg : Config) : Bool :=
  1 ≤ cfg.capMin && cfg.capMax ≤ 65535 && cfg.rxdropMax ≤ 4294967295
  && 1 ≤ cfg.txBurst.std.toNat && 1 ≤ cfg.txBurst.integ.toNat
  && 1 ≤ cfg.rxDrainCap.std && 1 ≤ cfg.rxDrainCap.integ

/-- The constraints a parameter choice must meet (spec/93_implementation_defined.md 1.5, log entries 32,
35). -/
def Config.wf (cfg : Config) : Bool :=
  cfg.ioDisjoint && cfg.masksOk && cfg.linesOk && cfg.stdMap.wf && cfg.limitsOk && cfg.tablesOk
  && cfg.codesOk

/-- The number of bytes of `HBUF` (spec/20_memory.md R60). -/
def Config.hbufSize (cfg : Config) : Nat := 2 ^ cfg.haddrBits

/-! ### The STD register map (spec/43_hal_variant_mux.md R153) -/

/-- The offset of a location. -/
def StdMap.off (m : StdMap) : SReg → BitVec 3
  | .data => m.offData
  | .ier => m.offIer
  | .iir => m.offIir
  | .lcr => m.offLcr
  | .mcr => m.offMcr
  | .lsr => m.offLsr
  | .msr => m.offMsr
  | .scr => m.offScr

/-- The location at an offset. -/
def StdMap.regAt (m : StdMap) (k : BitVec 3) : SReg :=
  if k = m.offData then .data
  else if k = m.offIer then .ier
  else if k = m.offIir then .iir
  else if k = m.offLcr then .lcr
  else if k = m.offMcr then .mcr
  else if k = m.offLsr then .lsr
  else if k = m.offMsr then .msr
  else .scr

/-- The `IO` address of a location of the block at `base`. -/
def StdMap.addr (m : StdMap) (base : Half) (r : SReg) : Half := base + (m.off r).setWidth 16

/-- The IIR bits that name a cause (spec/48_environment_device.md R272). -/
def StdMap.iirBits (m : StdMap) : Machine.Cause → Byte
  | .lineStatus => m.iirLs
  | .rxReady => m.iirRx
  | .rxTimeout => m.iirTo
  | .txEmpty => m.iirTx
  | .modemStatus => m.iirMs
  | .none => m.iirNone

/-- The level of a receive trigger in bytes (spec/48_environment_device.md R270). -/
def RxTrigger.level : RxTrigger → Nat
  | .t1 => 1
  | .t4 => 4
  | .t8 => 8
  | .t14 => 14

/-- The FCR code of a trigger (spec/43_hal_variant_mux.md R153, spec/48_environment_device.md R277). -/
def StdMap.triggerCode (m : StdMap) : RxTrigger → BitVec 2
  | .t1 => m.fcrT1
  | .t4 => m.fcrT4
  | .t8 => m.fcrT8
  | .t14 => m.fcrT14

/-- The trigger an FCR value selects (spec/48_environment_device.md R277). -/
def RxTrigger.ofFcr (m : StdMap) (v : Byte) : RxTrigger :=
  if hasBit v m.fcrEn then
    let code := (v >>> m.fcrTrig).extractLsb' 0 2
    if code = m.fcrT1 then .t1 else if code = m.fcrT4 then .t4 else if code = m.fcrT8 then .t8 else .t14
  else .t1

/-- The FCR value of HAL.INIT: FIFO enable, both resets, the trigger `STD_RX_TRIGGER`
(spec/43_hal_variant_mux.md R166; `0xC7` in the reference map). -/
def Config.fcrInit (cfg : Config) : Byte :=
  let m := cfg.stdMap
  m.fcrEn ||| m.fcrRx ||| m.fcrTx ||| ((m.triggerCode cfg.stdRxTrigger).setWidth 8 <<< m.fcrTrig)

/-- The parity bits of a frame byte (spec/43_hal_variant_mux.md R153, R173). -/
def StdMap.parityBits (m : StdMap) (par : Word) : Byte :=
  match par.toNat with
  | 0 => 0x00#8
  | 1 => m.lcrParity
  | 2 => m.lcrParity ||| m.lcrEven
  | 3 => m.lcrParity ||| m.lcrStick
  | _ => m.lcrParity ||| m.lcrEven ||| m.lcrStick

/-- `STD_FRAME` (spec/43_hal_variant_mux.md R173). -/
def StdMap.frame (m : StdMap) (par data stop : Word) : Byte :=
  (BitVec.ofNat 8 (data.toNat - 5) <<< m.lcrData) ||| (if stop = 2#32 then m.lcrStop else 0x00#8)
    ||| m.parityBits par

/-- The bits of the INTEG status word the block uses (spec/48_environment_device.md R282). -/
def Config.statusMask (cfg : Config) : Half :=
  cfg.isRxrdy ||| cfg.isThre ||| cfg.isTxint ||| cfg.isLineerr

/-- The divisor of an accepted STD speed, none where `STD_BAUD_OK` is false
(spec/43_hal_variant_mux.md R172). -/
def Config.stdDivisor? (cfg : Config) (baud : Word) : Option Half := cfg.stdBaud.lookup baud

/-- `INTEG_BAUD_TABLE` (spec/00_scope.md R9, log entry 22). -/
def Config.integBaudWord (cfg : Config) (baud : Word) : Half :=
  (cfg.integBaudTable.lookup baud).getD (Config.integBaudFree baud)

/-- `INTEG_FRAME_WORD` (spec/00_scope.md R9, log entry 22). -/
def Config.integFrameWord (cfg : Config) (par data stop : Word) : Half :=
  (cfg.integFrame.lookup (par, data, stop)).getD (Config.integFrameFree par data stop)

namespace Machine

/-- `slot[p].variant` (spec/10_state.md R23). -/
def Regs.variant : Regs → Variant
  | .std _ => .std
  | .integ _ _ _ _ _ _ => .integ

/-- The address record of a slot (spec/10_state.md R37). -/
def regsOf (cfg : Config) (q : Slot) : Regs :=
  match q.kind with
  | .std c => .std (cfg.stdBase.get c)
  | .integ => .integ cfg.iIen cfg.iLctl cfg.iBaud cfg.iStat cfg.iTxd cfg.iRxd

/-- A capacity operand is accepted (spec/45_lifecycle.md R211). -/
def capacityOk (cfg : Config) (c : Word) : Bool := cfg.capMin ≤ c.toNat && c.toNat ≤ cfg.capMax

/-- The `mode` operand has no bit set but bit 0 (spec/30_encoding.md R104). -/
def modeOk (mode : Word) : Bool := mode.extractLsb' 1 31 = 0#31

/-- `blocking` of a `mode` operand (spec/10_state.md R28). -/
def modeBlocking (mode : Word) : Bool := mode.getLsbD 0

/-- `STD_SETTINGS_OK` (spec/43_hal_variant_mux.md R172). -/
def stdSettingsOk (cfg : Config) (baud par data stop : Word) : Bool :=
  5 ≤ data.toNat && data.toNat ≤ 8 && par.toNat ≤ 4 && (stop = 1#32 || stop = 2#32)
  && (cfg.stdDivisor? baud).isSome

/-- `INTEG_SETTINGS_OK` (spec/43_hal_variant_mux.md R172). -/
def integSettingsOk (cfg : Config) (baud par data stop : Word) : Bool :=
  (data = 7#32 || data = 8#32) && par.toNat ≤ 2 && cfg.integBaudOk.contains baud
  && cfg.integStopOk.contains stop

/-- The settings CONFIGURE accepts for a port (spec/45_lifecycle.md R214). -/
def settingsOk (cfg : Config) (v : Variant) (baud par data stop : Word) : Bool :=
  match v with
  | .std => stdSettingsOk cfg baud par data stop
  | .integ => integSettingsOk cfg baud par data stop

/-- `STD_DIVISOR` (spec/43_hal_variant_mux.md R172), free at a speed the spec gives no divisor (log entry 16). -/
def stdDivisorWord (cfg : Config) (baud : Word) : Half :=
  (cfg.stdDivisor? baud).getD (Config.stdDivisorFree baud)

/-- `STD_FRAME` of any settings: free at those for which spec/43_hal_variant_mux.md R173 states none
(log entry 16). -/
def stdFrameWord (cfg : Config) (par data stop : Word) : Byte :=
  if 5 ≤ data.toNat && data.toNat ≤ 8 && par.toNat ≤ 4 && (stop = 1#32 || stop = 2#32) then
    cfg.stdMap.frame par data stop
  else Config.stdFrameFree par data stop

/-- The codes of the lifecycle states (spec/10_state.md R29). -/
def lifeCode : Life → Nat
  | .closed => 0
  | .opening => 1
  | .opened => 2
  | .closing => 3

/-- `STD_CAUSE` of the value read from the IIR; `none` is a reserved identity
(spec/43_hal_variant_mux.md R161). -/
def stdCauseOf (m : StdMap) (v : Byte) : Option Cause :=
  if hasBit v m.iirNone then some .none
  else
    let n := v &&& m.iirId
    if n = m.iirMs then some .modemStatus
    else if n = m.iirTx then some .txEmpty
    else if n = m.iirRx then some .rxReady
    else if n = m.iirLs then some .lineStatus
    else if n = m.iirTo then some .rxTimeout
    else none

/-- `INTEG_CAUSE` of the status word (spec/43_hal_variant_mux.md R161). -/
def integCauseOf (cfg : Config) (s : Half) : Cause :=
  if s &&& cfg.isLineerr ≠ 0#16 then .lineStatus
  else if s &&& cfg.isRxrdy ≠ 0#16 then .rxReady
  else if s &&& cfg.isTxint ≠ 0#16 then .txEmpty
  else .none

/-- The cause HAL.CAUSE returns for the value it read (spec/43_hal_variant_mux.md R159). -/
def causeOf (cfg : Config) (r : Regs) (v : Half) : Option Cause :=
  match r.variant with
  | .std => stdCauseOf cfg.stdMap (v.setWidth 8)
  | .integ => some (integCauseOf cfg v)

/-- What HAL.TX_EMPTY returns for the value it read (spec/43_hal_variant_mux.md R164). -/
def txEmptyOf (cfg : Config) (r : Regs) (v : Half) : Bool :=
  match r.variant with
  | .std => hasBit (v.setWidth 8) cfg.stdMap.lsrThre
  | .integ => v &&& cfg.isThre ≠ 0#16

/-- What HAL.DETECT returns for the value it read (spec/43_hal_variant_mux.md R165). -/
def detectOf (r : Regs) (v : Half) : Bool :=
  match r.variant with
  | .std => v = 0#16
  | .integ => true

/-- The value an access writes, from the value read before it (spec/43_hal_variant_mux.md R155 to R157). -/
def WVal.eval : WVal → Half → Half
  | .const c, _ => c
  | .orV m, v => v ||| m
  | .andNotV m, v => v &&& ~~~m

/-- The register of `saved_integ` an access names. -/
def IntegRegs.get (g : IntegRegs) : CfgReg → Half
  | .ien => g.ien
  | .lctl => g.lctl
  | .baud => g.baud

/-- `saved_integ` with one register written. -/
def IntegRegs.set (g : IntegRegs) : CfgReg → Half → IntegRegs
  | .ien, v => { g with ien := v }
  | .lctl, v => { g with lctl := v }
  | .baud, v => { g with baud := v }

/-- Locals at the start of a line: `done` and `k` alone are kept (spec/10_state.md R39). -/
def MLocals.at_ (moved k : Word) : MLocals := ⟨moved, k, 0, [], 0#16⟩

end Machine

end Sys2Proof
end

