-- ==== Sys2Proof/Machine/Flags.lean ====
section
/-! DEFINITION. The one-bit conditions: the block has no condition codes (spec/10_state.md R45); these are the
devices' pending conditions and interrupt outputs, the level and the pending predicate of a line. -/

namespace Sys2Proof.Machine

open Sys2Proof

/-- `depth` of a STD device (spec/48_environment_device.md R270). -/
def StdDev.depth (d : StdDev) : Nat := if d.fifoEn then 16 else 1

/-- `lcr[7]`, the divisor-latch access bit (spec/43_hal_variant_mux.md R153). -/
def StdDev.dlab (m : StdMap) (d : StdDev) : Bool := hasBit d.lcr m.lcrDlab

/-- `std_cause` (spec/48_environment_device.md R272): the first pending row. -/
def StdDev.cause (m : StdMap) (d : StdDev) : Cause :=
  if d.lsErr ≠ 0#4 ∧ hasBit d.ier m.ierLs then .lineStatus
  else if d.trigger.level ≤ d.rxf.length ∧ hasBit d.ier m.ierRx then .rxReady
  else if d.rxTo ∧ 0 < d.rxf.length ∧ d.rxf.length < d.trigger.level ∧ hasBit d.ier m.ierRx then .rxTimeout
  else if d.threInt ∧ hasBit d.ier m.ierTx then .txEmpty
  else if d.msDelta ≠ 0#4 ∧ hasBit d.ier m.ierMs then .modemStatus
  else .none

/-- The IIR value (spec/48_environment_device.md R273). -/
def StdDev.iir (m : StdMap) (d : StdDev) : Byte :=
  (if d.fifoEn then m.iirFifo else 0x00#8) ||| m.iirBits (d.cause m)

/-- The LSR value (spec/48_environment_device.md R279). -/
def StdDev.lsr (m : StdMap) (d : StdDev) : Byte :=
  (if d.rxf.isEmpty then 0x00#8 else m.lsrDr) ||| (d.lsErr.setWidth 8 <<< m.lsrErr)
    ||| (if d.txf.isEmpty then m.lsrThre ||| m.lsrTemt else 0x00#8)

/-- The MSR value; the bits outside the change flags are `free` (spec/48_environment_device.md R279). -/
def StdDev.msr (m : StdMap) (d : StdDev) (free : Byte) : Byte :=
  (free &&& ~~~(0x0F#8 <<< m.msrDelta)) ||| (d.msDelta.setWidth 8 <<< m.msrDelta)

/-- The TX-more latch of the INTEG device is set (spec/48_environment_device.md R280). -/
def IntegDev.txMore (cfg : Config) (d : IntegDev) : Bool := d.ien &&& cfg.imTxie ≠ 0#16

/-- The receive enable of the INTEG device is set (spec/48_environment_device.md R280). -/
def IntegDev.rxEnabled (cfg : Config) (d : IntegDev) : Bool := d.ien &&& cfg.imRxie ≠ 0#16

/-- The INTEG status word; the bits outside the masks are `free` (spec/48_environment_device.md R282). -/
def IntegDev.status (cfg : Config) (d : IntegDev) (free : Half) : Half :=
  (free &&& ~~~cfg.statusMask)
    ||| (if d.rxd.isSome then cfg.isRxrdy else 0#16)
    ||| (if d.txd.isNone then cfg.isThre else 0#16)
    ||| (if d.txd.isNone ∧ d.txMore cfg then cfg.isTxint else 0#16)
    ||| (if d.lineErr then cfg.isLineerr else 0#16)

/-- The interrupt output of the INTEG device (spec/48_environment_device.md R281). -/
def IntegDev.irq (cfg : Config) (d : IntegDev) : Bool :=
  (d.rxd.isSome && d.rxEnabled cfg) || (d.txd.isNone && d.txMore cfg) || (d.lineErr && d.rxEnabled cfg)

/-- `dev_irq(p)` (spec/48_environment_device.md R271, R281). -/
def State.devIrq (s : State) (q : Slot) : Bool :=
  match q.kind with
  | .std c => s.cfg.stdPresent.get c && (s.dev.std.get c).cause s.cfg.stdMap ≠ .none
  | .integ => s.cfg.integPresent && s.dev.integ.irq s.cfg

/-- `irq_level[l]` (spec/10_state.md R35). -/
def State.irqLevel (s : State) (l : Line) : Bool := (s.cfg.portsOf l).any s.devIrq

/-- `pending(l)` (spec/10_state.md R35). -/
def State.pending (s : State) (l : Line) : Bool :=
  match s.cfg.trigger with
  | .level => s.irqLevel l
  | .edge => s.latched.get l

/-- The enabling condition of DSP.ENTER (spec/44_dispatcher.md R190). -/
def State.canEnter (s : State) (l : Line) : Bool :=
  s.pending l && !s.masked.get l && !s.inService.get l && s.handler.get l = .dispatcher

/-- The issuing condition of a ring mutator on a ring of slot `q`: M inside the port's critical section, or
the running handler of its line (spec/41_ring_buffer.md R121). -/
def State.ringOwned (s : State) (q : Slot) : Bool :=
  let l := s.cfg.lineOf.get q
  match s.ctx with
  | [] => s.masked.get l
  | top :: _ => top = l

end Sys2Proof.Machine
end

