-- ==== Sys2Proof/Machine/Ops.lean ====
section
/-! DEFINITION. The named operations: results of operations, byte memories, the updates of each piece of
state, draws, the mailbox, the ends of a command, the line primitives, and taking an interrupt with the return
from it beside it. -/

namespace Sys2Proof.Machine

open Sys2Proof

/-! ### Results -/

/-- What an operation answers: a value and the state after it, a fault, or a refusal. -/
inductive Res (α : Type) where
  | ok (a : α) (s : State)
  | fault (f : Fault)
  | refuse (r : Refusal)
  deriving Repr

/-- One operation after another. -/
def Res.andThen {α β : Type} (r : Res α) (f : α → State → Res β) : Res β :=
  match r with
  | .ok a s => f a s
  | .fault e => .fault e
  | .refuse e => .refuse e

/-- An operation as a step. -/
def Res.outcome (r : Res Unit) : Out :=
  match r with
  | .ok _ s => .next s
  | .fault e => .fault e
  | .refuse e => .refused e

/-- A micro-operation as a step: the value it returns goes to `ret` (spec/00_scope.md R16, log entry 5). -/
def Res.returning {α : Type} (r : Res α) (f : α → Ret) : Out :=
  match r with
  | .ok a s => .next { s with ret := f a }
  | .fault e => .fault e
  | .refuse e => .refused e

/-! ### Byte memories: `HBUF` and ring storage -/

/-- Reads a byte; `none` where nothing has been written. -/
def cellsRead : List Host.Cell → Nat → Option Byte
  | [], _ => none
  | (k, v) :: m, a => if a = k then some v else cellsRead m a

/-- Writes a byte, keeping the addresses strictly rising. -/
def cellsWrite : List Host.Cell → Nat → Byte → List Host.Cell
  | [], a, b => [(a, b)]
  | (k, v) :: m, a, b =>
    if a < k then (a, b) :: (k, v) :: m
    else if a = k then (a, b) :: m
    else (k, v) :: cellsWrite m a b

/-- Writes bytes at consecutive addresses from `a`. -/
def cellsWriteList (m : List Host.Cell) (a : Nat) : List Byte → List Host.Cell
  | [] => m
  | b :: bs => cellsWriteList (cellsWrite m a b) (a + 1) bs

/-- Reads `n` bytes at consecutive addresses from `a`; `none` if nothing was written to one of them. -/
def cellsReadList (m : List Host.Cell) (a : Nat) : Nat → Option (List Byte)
  | 0 => some []
  | n + 1 =>
    match cellsRead m a, cellsReadList m (a + 1) n with
    | some b, some bs => some (b :: bs)
    | _, _ => none

/-- The canonical form of a byte memory whose addresses are `lo` or more and below `hi`: strictly rising. -/
def cellsWf (lo hi : Nat) : List Host.Cell → Bool
  | [] => true
  | (k, _) :: m => lo ≤ k && k < hi && cellsWf (k + 1) hi m

/-! ### Updates of the state -/

/-- `slot[p] <- v` (spec/10_state.md R22). -/
def State.setSlot (s : State) (q : Slot) (v : Option PortState) : State :=
  { s with slots := s.slots.set q v }

/-- `life[p] <- v` (spec/10_state.md R29). -/
def State.setLife (s : State) (q : Slot) (v : Life) : State := { s with life := s.life.set q v }

/-- `handler[l] <- h` (spec/10_state.md R31). -/
def State.setHandler (s : State) (l : Line) (h : Handler) : State :=
  { s with handler := s.handler.set l h }

/-- `saved_handler[l] <- h` (spec/10_state.md R32). -/
def State.setSaved (s : State) (l : Line) (h : Handler) : State :=
  { s with savedHandler := s.savedHandler.set l h }

/-- `line_refs[l] <- n` (spec/10_state.md R32). -/
def State.setRefs (s : State) (l : Line) (n : Nat) : State := { s with lineRefs := s.lineRefs.set l n }

/-- `masked[l] <- b` (spec/10_state.md R33). -/
def State.setMasked (s : State) (l : Line) (b : Bool) : State := { s with masked := s.masked.set l b }

/-- `in_service[l] <- b` (spec/10_state.md R34). -/
def State.setInService (s : State) (l : Line) (b : Bool) : State :=
  { s with inService := s.inService.set l b }

/-- `latched[l] <- b` (spec/10_state.md R35). -/
def State.setLatched (s : State) (l : Line) (b : Bool) : State := { s with latched := s.latched.set l b }

/-- `mseq <- m` (spec/10_state.md R38). -/
def State.setMseq (s : State) (m : MSeq) : State := { s with mseq := m }

/-- `dseq[l] <- d` (spec/10_state.md R40). -/
def State.setDseq (s : State) (l : Line) (d : DSeq) : State := { s with dseq := s.dseq.set l d }

/-- The STD device of a slot takes a new state (spec/10_state.md R42). -/
def State.setStd (s : State) (c : StdSlot) (d : StdDev) : State :=
  { s with dev := { s.dev with std := s.dev.std.set c d } }

/-- The INTEG device takes a new state (spec/10_state.md R42). -/
def State.setInteg (s : State) (d : IntegDev) : State := { s with dev := { s.dev with integ := d } }

/-- A byte goes onto the transmit wire (spec/10_state.md R43). -/
def State.onTxWire (s : State) (q : Slot) (b : Byte) : State :=
  { s with wireTx := s.wireTx.set q (s.wireTx.get q ++ [b]) }

/-- A byte arrives on the receive wire (spec/10_state.md R43). -/
def State.onRxWire (s : State) (q : Slot) (b : Byte) : State :=
  { s with wireRx := s.wireRx.set q (s.wireRx.get q ++ [b]) }

/-- A class-6 operation is observed (spec/47_host_primitives.md R260, log entry 27). -/
def State.observe (s : State) (e : HostEvent) : State := { s with trace := s.trace ++ [e] }

/-- One register of `saved_integ` is written (spec/10_state.md R36). -/
def State.setSavedInteg (s : State) (r : CfgReg) (v : Half) : State :=
  { s with savedInteg := s.savedInteg.set r v }

/-- `HBUF` takes new contents (spec/10_state.md R44). -/
def State.setHbuf (s : State) (m : List Host.Cell) : State := { s with hbuf := m }

/-- Puts a word at the head of the schedule (log entry 3). -/
def State.issue (s : State) (w : Word) : State := { s with moves := .word w :: s.moves }

/-- The rings of a port. -/
def PortState.ring (ps : PortState) : Dir → RingBuffer
  | .rx => ps.rx
  | .tx => ps.tx

/-- A port with one ring replaced. -/
def PortState.setRing (ps : PortState) (d : Dir) (rb : RingBuffer) : PortState :=
  match d with
  | .rx => { ps with rx := rb }
  | .tx => { ps with tx := rb }

/-! ### Draws -/

/-- The value of the next draw (spec/00_scope.md R14): the value the environment has supplied, or else the
free value of the counter (log entry 2). -/
def State.drawValue (s : State) : Half :=
  match s.draws with
  | v :: _ => v
  | [] => Config.freeWord s.drawn

/-- The state after a draw. -/
def State.drawn1 (s : State) : State :=
  match s.draws with
  | _ :: vs => { s with draws := vs }
  | [] => { s with drawn := s.drawn + 1 }

/-! ### The mailbox -/

/-- What HOST reads of mailbox register `i` (spec/10_state.md R20). -/
def State.readX (s : State) (i : BitVec 3) : Word :=
  match i.toNat with
  | 0 => s.a0
  | 1 => s.a1
  | 2 => s.a2
  | 3 => s.a3
  | 4 => s.r0
  | 5 => s.lasterr.setWidth 32
  | _ => 0#32

/-- HOST writes mailbox register `i` (spec/10_state.md R20; `R0` and `LASTERR` log entry 30). -/
def hostSetX (i : BitVec 3) (v : Word) (s : State) : Out :=
  match i.toNat with
  | 0 => if s.mseq = .idle then .next { s with a0 := v } else .refused .busy
  | 1 => if s.mseq = .idle then .next { s with a1 := v } else .refused .busy
  | 2 => if s.mseq = .idle then .next { s with a2 := v } else .refused .busy
  | 3 => if s.mseq = .idle then .next { s with a3 := v } else .refused .busy
  | 4 => .refused .mailboxReadOnly
  | 5 => .refused .mailboxReadOnly
  | _ => .next s

/-! ### The ends of a command -/

/-- `fail <Kind>` (spec/00_scope.md R14, spec/60_exceptions.md R301): the one place an error is raised. -/
def State.fail (s : State) (e : ErrKind) : State :=
  { s with r0 := 0xFFFFFFFF#32, lasterr := s.cfg.errCode.get e, mseq := .idle }

/-- `ok(v)` (spec/00_scope.md R14, spec/10_state.md R27): `LASTERR` is a draw. -/
def State.finish (s : State) (v : Word) : State :=
  { s.drawn1 with r0 := v, lasterr := s.drawValue.setWidth 8, mseq := .idle }

/-! ### Line primitives -/

/-- HOST.MASK (spec/47_host_primitives.md R256). -/
def State.maskLine (s : State) (l : Line) : State := (s.setMasked l true).observe (.mask l)

/-- HOST.UNMASK (spec/47_host_primitives.md R257). -/
def State.unmaskLine (s : State) (l : Line) : State := (s.setMasked l false).observe (.unmask l)

/-- HOST.INSTALL (spec/47_host_primitives.md R258); it returns the handler found. -/
def State.installHandler (s : State) (l : Line) (h : Handler) : State :=
  (s.setHandler l h).observe (.install l h (s.handler.get l))

/-- HOST.RESTORE (spec/47_host_primitives.md R259). -/
def State.restoreHandler (s : State) (l : Line) (h : Handler) : State :=
  (s.setHandler l h).observe (.restore l h)

/-- OPEN line 6 (spec/45_lifecycle.md R210): the first port of a line installs the dispatcher and records the
handler found; every port counts. -/
def State.hookLine (s : State) (l : Line) : State :=
  let n := s.lineRefs.get l
  if n = 0 then ((s.installHandler l .dispatcher).setSaved l (s.handler.get l)).setRefs l 1
  else s.setRefs l (n + 1)

/-- CLOSE line 5 (spec/45_lifecycle.md R216): the last port of a line restores the recorded handler. -/
def State.unhookLine (s : State) (l : Line) : State :=
  let n := s.lineRefs.get l - 1
  if n = 0 then (s.setRefs l n).restoreHandler l (s.savedHandler.get l) else s.setRefs l n

/-! ### Interrupts -/

/-- Taking an interrupt on line `l` (spec/44_dispatcher.md R190, spec/60_exceptions.md R317): nothing is
saved, since the interrupted agent keeps its sequencer; the line goes in service, an edge latch is cleared,
the handler becomes the running agent and stands at its first line. No mask bit changes. -/
def State.takeInterrupt (s : State) (l : Line) : State :=
  let s := s.setInService l true
  let s := match s.cfg.trigger with
    | .edge => s.setLatched l false
    | .level => s
  { s with ctx := l :: s.ctx, dseq := s.dseq.set l (.run 1 0 .none [] 0#16) }

/-- The return from the handler of line `l` (spec/44_dispatcher.md R198 line 2, spec/60_exceptions.md R318):
the interrupted agent continues. -/
def State.leaveInterrupt (s : State) (l : Line) : State :=
  { s.setInService l false with ctx := s.ctx.tail, dseq := s.dseq.set l .idle }

/-- A DEV step on slot `q` (spec/10_state.md R35): under edge triggering a rise of the line's level is
latched. -/
def devStep (s : State) (q : Slot) (s' : State) : State :=
  let l := s.cfg.lineOf.get q
  match s.cfg.trigger with
  | .level => s'
  | .edge => if !s.irqLevel l && s'.irqLevel l then s'.setLatched l true else s'

end Sys2Proof.Machine
end

