-- ==== Sys2Proof/Machine/Device.lean ====
section
/-! DEFINITION. The reference devices behind the `IO` space (spec/48_environment_device.md R270 to R288), the
routing of an `IO` address (spec/47_host_primitives.md R254) and the four register primitives (R250 to R253).

The device agent DEV is a parameter as a whole (spec/92_eei_decisions.md D30, spec/93_implementation_defined.md
1.5); the model fixes the reference instance, of the STD chips and of the INTEG device alike (DESIGN CHOICE, log
entry 26). -/

namespace Sys2Proof.Machine

open Sys2Proof

/-- The INTEG registers (spec/43_hal_variant_mux.md R154). -/
inductive IReg where
  | ien | lctl | baud | stat | txd | rxd
  deriving DecidableEq, Repr

/-- Who claims an `IO` address (spec/47_host_primitives.md R254). -/
inductive Target where
  /-- a register of a STD chip that is present -/
  | std (c : StdSlot) (r : SReg)
  /-- a location of the block of an absent STD chip -/
  | stdAbsent
  | integ (r : IReg)
  | eoi
  | nobody
  deriving DecidableEq, Repr

/-- The STD slots in slot order. -/
def StdSlot.all : List StdSlot := [.p0, .p1, .p3]

/-- The INTEG register at an address, if there is one. -/
def integRegAt (cfg : Config) (a : Half) : Option IReg :=
  if a = cfg.iIen then some .ien
  else if a = cfg.iLctl then some .lctl
  else if a = cfg.iBaud then some .baud
  else if a = cfg.iStat then some .stat
  else if a = cfg.iTxd then some .txd
  else if a = cfg.iRxd then some .rxd
  else none

/-- Address routing (spec/47_host_primitives.md R254). An `IO` address is 16 bits wide, as the operand field of
the primitives is, whatever `IOADDR_BITS`; nobody claims an address beyond it (spec/20_memory.md R61: DESIGN
CHOICE, log entry 35). -/
def route (cfg : Config) (a : Half) : Target :=
  match StdSlot.all.find? fun c => inBlock (cfg.stdBase.get c) a with
  | some c =>
    if cfg.stdPresent.get c then .std c (cfg.stdMap.regAt ((a - cfg.stdBase.get c).setWidth 3))
    else .stdAbsent
  | none =>
    match integRegAt cfg a with
    | some r => if cfg.integPresent then .integ r else .nobody
    | none => if a = cfg.eoiAddr then .eoi else .nobody

/-! ### STD registers -/

/-- The value of a read of a STD register; `free` serves the bits the device does not define
(spec/48_environment_device.md R273, R275, R276, R278, R279). -/
def StdDev.readValue (m : StdMap) (d : StdDev) (r : SReg) (free : Half) : Byte :=
  match r with
  | .data => if d.dlab m then d.dll else d.rxf.head?.getD (free.setWidth 8)
  | .ier => if d.dlab m then d.dlm else d.ier
  | .iir => d.iir m
  | .lcr => d.lcr
  | .mcr => d.mcr
  | .lsr => d.lsr m
  | .msr => d.msr m (free.setWidth 8)
  | .scr => d.scr

/-- The device after a read of a STD register (spec/48_environment_device.md R273, R275, R279). -/
def StdDev.afterRead (m : StdMap) (d : StdDev) (r : SReg) : StdDev :=
  match r with
  | .data => if d.dlab m ∨ d.rxf = [] then d else { d with rxf := d.rxf.tail, rxTo := false }
  | .ier => d
  | .iir => if d.cause m = .txEmpty then { d with threInt := false } else d
  | .lcr => d
  | .mcr => d
  | .lsr => { d with lsErr := 0#4 }
  | .msr => { d with msDelta := 0#4 }
  | .scr => d

/-- The read takes a draw: an empty receive FIFO (spec/48_environment_device.md R275) and the MSR bits that are
no change flags (R279). -/
def StdDev.readDraws (m : StdMap) (d : StdDev) (r : SReg) : Bool :=
  match r with
  | .data => !d.dlab m && d.rxf.isEmpty
  | .ier => false
  | .iir => false
  | .lcr => false
  | .mcr => false
  | .lsr => false
  | .msr => true
  | .scr => false

/-- The device after a write to the FCR (spec/48_environment_device.md R277). -/
def StdDev.writeFcr (m : StdMap) (d : StdDev) (v : Byte) : StdDev :=
  let en := hasBit v m.fcrEn
  let changed := en != d.fifoEn
  let clrRx := !en || hasBit v m.fcrRx || changed
  let clrTx := !en || hasBit v m.fcrTx || changed
  { d with
    fifoEn := en
    trigger := RxTrigger.ofFcr m v
    rxf := if clrRx then [] else d.rxf
    rxTo := if clrRx then false else d.rxTo
    txf := if clrTx then [] else d.txf
    threInt := if clrTx ∧ d.txf ≠ [] then true else d.threInt }

/-- The device after a write to a STD register (spec/48_environment_device.md R274, R276 to R279). -/
def StdDev.write (m : StdMap) (d : StdDev) (r : SReg) (v : Byte) : StdDev :=
  match r with
  | .data =>
    if d.dlab m then { d with dll := v }
    else { d with txf := if d.txf.length < d.depth then d.txf ++ [v] else d.txf, threInt := false }
  | .ier =>
    if d.dlab m then { d with dlm := v }
    else
      { d with
        ier := v &&& m.ierMask
        threInt := if !hasBit d.ier m.ierTx ∧ hasBit v m.ierTx ∧ d.txf = [] then true else d.threInt }
  | .iir => d.writeFcr m v
  | .lcr => { d with lcr := v }
  | .mcr => { d with mcr := v }
  | .lsr => d
  | .msr => d
  | .scr => { d with scr := v }

/-! ### INTEG registers -/

/-- The value of a read of an INTEG register (spec/48_environment_device.md R282 to R287). -/
def IntegDev.readValue (cfg : Config) (d : IntegDev) (r : IReg) (free : Half) : Half :=
  match r with
  | .ien => d.ien
  | .lctl => d.lctl
  | .baud => d.baud
  | .stat => d.status cfg free
  | .txd => free
  | .rxd => match d.rxd with
    | some b => b.setWidth 16
    | none => free

/-- The device after a read of an INTEG register (spec/48_environment_device.md R285, R287). -/
def IntegDev.afterRead (d : IntegDev) (r : IReg) : IntegDev :=
  match r with
  | .ien => d
  | .lctl => d
  | .baud => d
  | .stat => { d with lineErr := false }
  | .txd => d
  | .rxd => { d with rxd := none }

/-- The read takes a draw (spec/48_environment_device.md R282, R286, R287). -/
def IntegDev.readDraws (d : IntegDev) (r : IReg) : Bool :=
  match r with
  | .ien => false
  | .lctl => false
  | .baud => false
  | .stat => true
  | .txd => true
  | .rxd => d.rxd.isNone

/-- The device after a write to an INTEG register (spec/48_environment_device.md R283 to R287). -/
def IntegDev.write (d : IntegDev) (r : IReg) (v : Half) : IntegDev :=
  match r with
  | .ien => { d with ien := v }
  | .lctl => { d with lctl := v }
  | .baud => { d with baud := v }
  | .stat => d
  | .txd => if d.txd.isNone then { d with txd := some (v.setWidth 8) } else d
  | .rxd => d

/-! ### The register primitives -/

/-- The state after a draw, if the access takes one. -/
def State.drawnIf (s : State) (b : Bool) : State := if b then s.drawn1 else s

/-- HOST.RD8 (spec/47_host_primitives.md R250). -/
def ioRd8 (a : Half) (s : State) : Res Byte :=
  match route s.cfg a with
  | .std c r =>
    let d := s.dev.std.get c
    let m := s.cfg.stdMap
    let v := d.readValue m r s.drawValue
    .ok v (((s.drawnIf (d.readDraws m r)).setStd c (d.afterRead m r)).observe (.rd8 a v))
  | .stdAbsent => let v := s.drawValue.setWidth 8; .ok v (s.drawn1.observe (.rd8 a v))
  | .integ _ => .refuse .wrongWidth
  | .eoi => .refuse .wrongWidth
  | .nobody => let v := s.drawValue.setWidth 8; .ok v (s.drawn1.observe (.rd8 a v))

/-- HOST.RD16 (spec/47_host_primitives.md R251; a 16-bit read in a STD block, present or not, is refused). The
INTEG device is the reference instance (DESIGN CHOICE, log entry 26). -/
def ioRd16 (a : Half) (s : State) : Res Half :=
  match route s.cfg a with
  | .std _ _ => .refuse .wrongWidth
  | .stdAbsent => .refuse .wrongWidth
  | .integ r =>
    let d := s.dev.integ
    let v := d.readValue s.cfg r s.drawValue
    .ok v (((s.drawnIf (d.readDraws r)).setInteg (d.afterRead r)).observe (.rd16 a v))
  | .eoi => let v := s.drawValue; .ok v (s.drawn1.observe (.rd16 a v))
  | .nobody => let v := s.drawValue; .ok v (s.drawn1.observe (.rd16 a v))

/-- HOST.WR8 (spec/47_host_primitives.md R252). -/
def ioWr8 (a : Half) (v : Byte) (s : State) : Res Unit :=
  match route s.cfg a with
  | .std c r => .ok () ((s.setStd c ((s.dev.std.get c).write s.cfg.stdMap r v)).observe (.wr8 a v))
  | .stdAbsent => .ok () (s.observe (.wr8 a v))
  | .integ _ => .refuse .wrongWidth
  | .eoi => .refuse .wrongWidth
  | .nobody => .ok () (s.observe (.wr8 a v))

/-- `v` is the completion value of a line (spec/48_environment_device.md R288). -/
def eoiKnown (cfg : Config) (v : Half) : Bool :=
  [Line.l0, Line.l1, Line.l2].any fun l => v = cfg.eoiValue.get l

/-- HOST.WR16 (spec/47_host_primitives.md R253; the block of an absent chip R254; a write to the interrupt
controller spec/48_environment_device.md R288, log entry 19). -/
def ioWr16 (a : Half) (v : Half) (s : State) : Res Unit :=
  match route s.cfg a with
  | .std _ _ => .refuse .wrongWidth
  | .stdAbsent => .ok () (s.observe (.wr16 a v))
  | .integ r => .ok () ((s.setInteg (s.dev.integ.write r v)).observe (.wr16 a v))
  | .eoi => if eoiKnown s.cfg v then .ok () (s.observe (.wr16 a v)) else .refuse .eoiValueUnknown
  | .nobody => .ok () (s.observe (.wr16 a v))

end Sys2Proof.Machine
end

