-- ==== Sys2Proof/Machine/Ring.lean ====
section
/-! DEFINITION. The byte-wise ring buffer (spec/41_ring_buffer.md): the ring operations and the meanings of
class RB. -/

namespace Sys2Proof.Machine

open Sys2Proof

/-- A ring at allocation (spec/10_state.md R26). -/
def RingBuffer.new (capacity : Half) : RingBuffer := ⟨capacity, [], 0#16, 0#16, 0#16⟩

/-- `(i + n) mod capacity`, formed in the integers (spec/41_ring_buffer.md R131). -/
def RingBuffer.step (rb : RingBuffer) (i : Half) (n : Nat) : Half :=
  BitVec.ofNat 16 ((i.toNat + n) % rb.capacity.toNat)

/-- Room left: `capacity - count` (spec/41_ring_buffer.md R124). -/
def RingBuffer.room (rb : RingBuffer) : Nat := rb.capacity.toNat - rb.count.toNat

/-- The ring after queueing the bytes `bs` at `head`, in two segments where the run crosses the end of storage
(spec/41_ring_buffer.md R120, R127, R128). -/
def RingBuffer.putAll (rb : RingBuffer) (bs : List Byte) : RingBuffer :=
  let first := min bs.length (rb.capacity.toNat - rb.head.toNat)
  { rb with
    storage := cellsWriteList (cellsWriteList rb.storage rb.head.toNat (bs.take first)) 0 (bs.drop first)
    head := rb.step rb.head bs.length
    count := BitVec.ofNat 16 (rb.count.toNat + bs.length) }

/-- The ring after removing `n` bytes at `tail` (spec/41_ring_buffer.md R122, R129). -/
def RingBuffer.drop (rb : RingBuffer) (n : Nat) : RingBuffer :=
  { rb with tail := rb.step rb.tail n, count := BitVec.ofNat 16 (rb.count.toNat - n) }

/-- The ring after RB.CLEAR (spec/41_ring_buffer.md R125). -/
def RingBuffer.cleared (rb : RingBuffer) : RingBuffer :=
  { rb with head := 0#16, tail := 0#16, count := 0#16 }

/-- The storage index of the `j`-th byte from `tail`, in the two segments of a bulk pop
(spec/41_ring_buffer.md R128, R129). -/
def RingBuffer.popIndex (rb : RingBuffer) (n j : Nat) : Nat :=
  let first := min n (rb.capacity.toNat - rb.tail.toNat)
  if j < first then rb.tail.toNat + j else j - first

/-- The byte of storage at an index; an index nothing has written holds an unspecified byte, which is a draw
(spec/10_state.md R26, log entry 13). -/
def storageByte (rb : RingBuffer) (i : Nat) (s : State) : Byte × State :=
  match cellsRead rb.storage i with
  | some b => (b, s)
  | none => (s.drawValue.setWidth 8, s.drawn1)

/-- The bytes of storage at the indices `idx`, in order. -/
def storageBytes (rb : RingBuffer) : List Nat → State → List Byte × State
  | [], s => ([], s)
  | i :: is, s =>
    let b := storageByte rb i s
    let bs := storageBytes rb is b.2
    (b.1 :: bs.1, bs.2)

/-- Runs `f` on the PortState of a slot (spec/42_registry.md R146: an absent slot has none). -/
def withPort {α : Type} (q : Slot) (s : State) (f : PortState → Res α) : Res α :=
  match s.slots.get q with
  | some ps => f ps
  | none => .refuse .portAbsent

/-- Runs the ring mutator `f` on a ring of slot `q`, which its issuing condition must allow
(spec/41_ring_buffer.md R121). -/
def mutateRing {α : Type} (q : Slot) (s : State) (f : PortState → Res α) : Res α :=
  withPort q s fun ps => if s.ringOwned q then f ps else .refuse .ringUnprotected

/-- RB.PUSH (spec/41_ring_buffer.md R120). -/
def ringPush (q : Slot) (d : Dir) (b : Byte) (s : State) : Res Bool :=
  mutateRing q s fun ps =>
    let rb := ps.ring d
    if rb.count = rb.capacity then .ok false s
    else .ok true (s.setSlot q (some (ps.setRing d (rb.putAll [b]))))

/-- RB.POP (spec/41_ring_buffer.md R122). -/
def ringPop (q : Slot) (d : Dir) (s : State) : Res (Option Byte) :=
  mutateRing q s fun ps =>
    let rb := ps.ring d
    if rb.count = 0#16 then .ok none s
    else
      let b := storageByte rb rb.tail.toNat s
      .ok (some b.1) (b.2.setSlot q (some (ps.setRing d (rb.drop 1))))

/-- RB.AVAIL (spec/41_ring_buffer.md R124): one atomic read, under no issuing condition. -/
def ringAvail (q : Slot) (d : Dir) (s : State) : Res Half :=
  withPort q s fun ps => .ok (ps.ring d).count s

/-- RB.CLEAR (spec/41_ring_buffer.md R125). -/
def ringClear (q : Slot) (d : Dir) (s : State) : Res Unit :=
  mutateRing q s fun ps => .ok () (s.setSlot q (some (ps.setRing d (ps.ring d).cleared)))

/-- The buffer `[a, a + n)` lies inside `HBUF` (spec/20_memory.md R70). -/
def bufferInside (cfg : Config) (a n : Nat) : Bool :=
  a + n ≤ cfg.hbufSize && (a < cfg.hbufSize || n = 0)

/-- RB.PUSHN of `n` bytes from `HBUF` at `src` (spec/41_ring_buffer.md R127, R128). -/
def ringPushN (q : Slot) (d : Dir) (n src : Nat) (s : State) : Res Unit :=
  mutateRing q s fun ps =>
    let rb := ps.ring d
    if rb.room < n then .refuse .bulkTooLong
    else if n ≠ 0 ∧ !bufferInside s.cfg src n then .refuse .bufferOutside
    else
      match cellsReadList s.hbuf src n with
      | none => .fault .hbufUnwritten
      | some bs => .ok () (s.setSlot q (some (ps.setRing d (rb.putAll bs))))

/-- RB.POPN of `n` bytes into `HBUF` at `dst` (spec/41_ring_buffer.md R128, R129). -/
def ringPopN (q : Slot) (d : Dir) (n dst : Nat) (s : State) : Res Unit :=
  mutateRing q s fun ps =>
    let rb := ps.ring d
    if rb.count.toNat < n then .refuse .bulkTooLong
    else if n ≠ 0 ∧ !bufferInside s.cfg dst n then .refuse .bufferOutside
    else
      let bs := storageBytes rb ((List.range n).map (rb.popIndex n)) s
      .ok () ((bs.2.setHbuf (cellsWriteList bs.2.hbuf dst bs.1)).setSlot q
        (some (ps.setRing d (rb.drop n))))

/-- Runs `f` on the slot a port identifier names; a micro-operation is only ever issued on one
(spec/30_encoding.md R102, log entry 17). -/
def onSlot {α : Type} (p : BitVec 4) (f : Slot → Res α) : Res α :=
  match slotOfSel p with
  | some q => f q
  | none => .refuse .noSuchSlot

/-- Runs `f` on the line a line identifier names (spec/30_encoding.md R102). -/
def onLine {α : Type} (l : BitVec 4) (f : Line → Res α) : Res α :=
  match lineOfSel l with
  | some m => f m
  | none => .refuse .noSuchLine

/-! ### The meanings of class RB -/

/-- RB.PUSH (spec/41_ring_buffer.md R120). -/
def execRbPush (p : BitVec 4) (d : Dir) (b : Byte) (s : State) : Out :=
  (onSlot p fun q => ringPush q d b s).returning .bool

/-- RB.POP (spec/41_ring_buffer.md R122). -/
def execRbPop (p : BitVec 4) (d : Dir) (s : State) : Out :=
  (onSlot p fun q => ringPop q d s).returning .byte

/-- RB.AVAIL (spec/41_ring_buffer.md R124). -/
def execRbAvail (p : BitVec 4) (d : Dir) (s : State) : Out :=
  (onSlot p fun q => ringAvail q d s).returning .count

/-- RB.CLEAR (spec/41_ring_buffer.md R125). -/
def execRbClear (p : BitVec 4) (d : Dir) (s : State) : Out :=
  (onSlot p fun q => ringClear q d s).returning fun _ => .unit

/-- RB.PUSHN (spec/41_ring_buffer.md R127); `src` is the sideband address. -/
def execRbPushN (p : BitVec 4) (d : Dir) (n : Half) (s : State) : Out :=
  (onSlot p fun q => ringPushN q d n.toNat s.side.addr.toNat s).returning fun _ => .unit

/-- RB.POPN (spec/41_ring_buffer.md R129); `dst` is the sideband address. -/
def execRbPopN (p : BitVec 4) (d : Dir) (n : Half) (s : State) : Out :=
  (onSlot p fun q => ringPopN q d n.toNat s.side.addr.toNat s).returning fun _ => .unit

end Sys2Proof.Machine
end

