-- ==== Sys2Proof/Machine/Env.lean ====
section
/-! DEFINITION. The environment moves (spec/48_environment_device.md R291 to R295). A move that is not enabled
does not occur: the state stays as it is (log entry 14). -/

namespace Sys2Proof.Machine

open Sys2Proof

/-- A byte reaches a STD device (spec/48_environment_device.md R291). -/
def StdDev.arrive (d : StdDev) (b : Byte) : StdDev :=
  if d.rxf.length < d.depth then { d with rxf := d.rxf ++ [b], rxTo := false }
  else { d with lsErr := d.lsErr ||| 1#4 }

/-- A byte reaches the INTEG device (spec/48_environment_device.md R291). -/
def IntegDev.arrive (d : IntegDev) (b : Byte) : IntegDev :=
  if d.rxd.isNone then { d with rxd := some b } else { d with lineErr := true }

/-- The steps of ENV.RX_ARRIVE but for the edge latch (spec/48_environment_device.md R291). -/
def arriveAt (q : Slot) (b : Byte) (s : State) : State :=
  let s := s.onRxWire q b
  match q.kind with
  | .std c => s.setStd c ((s.dev.std.get c).arrive b)
  | .integ => s.setInteg (s.dev.integ.arrive b)

/-- The byte ENV.TX_SHIFT would put on the wire, if it is enabled (spec/48_environment_device.md R292). -/
def shiftByte (q : Slot) (s : State) : Option Byte :=
  match q.kind with
  | .std c => (s.dev.std.get c).txf.head?
  | .integ => s.dev.integ.txd

/-- The device part of ENV.TX_SHIFT (spec/48_environment_device.md R292). -/
def shiftDevice (q : Slot) (s : State) : State :=
  match q.kind with
  | .std c =>
    let d := s.dev.std.get c
    s.setStd c { d with txf := d.txf.tail, threInt := if d.txf.tail = [] then true else d.threInt }
  | .integ => s.setInteg { s.dev.integ with txd := none }

/-- The steps of ENV.TX_SHIFT but for the edge latch (spec/48_environment_device.md R292). -/
def shiftAt (q : Slot) (b : Byte) (s : State) : State :=
  let s := (shiftDevice q s).onTxWire q b
  if s.cfg.loopback.get q then arriveAt q b s else s

/-- The four non-zero bits an event sets, a draw (spec/93_implementation_defined.md U13, log entry 25). -/
def State.eventBits (s : State) : BitVec 4 := BitVec.ofNat 4 (s.drawValue.toNat % 15 + 1)

/-- The move `f` on slot `q` if `enabled` (spec/48_environment_device.md R297). -/
def envMove (q : Slot) (enabled : Bool) (s : State) (f : State → State) : Res Unit :=
  .ok () (if enabled then devStep s q (f s) else s)

/-! ### The meanings of class ENV -/

/-- ENV.RX_ARRIVE (spec/48_environment_device.md R291). -/
def execEnvRxArrive (p : BitVec 4) (b : Byte) (s : State) : Out :=
  (onSlot p fun q => envMove q (s.cfg.present q) s (arriveAt q b)).outcome

/-- ENV.TX_SHIFT (spec/48_environment_device.md R292). -/
def execEnvTxShift (p : BitVec 4) (s : State) : Out :=
  (onSlot p fun q =>
    match shiftByte q s with
    | some b => envMove q (s.cfg.present q) s (shiftAt q b)
    | none => .ok () s).outcome

/-- ENV.LINE_EVENT (spec/48_environment_device.md R293). -/
def execEnvLineEvent (p : BitVec 4) (s : State) : Out :=
  (onSlot p fun q => envMove q (s.cfg.present q) s fun s =>
    match q.kind with
    | .std c =>
      let d := s.dev.std.get c
      s.drawn1.setStd c { d with lsErr := d.lsErr ||| s.eventBits }
    | .integ => s.drawn1.setInteg { s.dev.integ with lineErr := true }).outcome

/-- ENV.MODEM_EVENT (spec/48_environment_device.md R294): STD only. -/
def execEnvModemEvent (p : BitVec 4) (s : State) : Out :=
  (onSlot p fun q =>
    match q.kind with
    | .std c => envMove q (s.cfg.present q) s fun s =>
      let d := s.dev.std.get c
      s.drawn1.setStd c { d with msDelta := d.msDelta ||| s.eventBits }
    | .integ => .ok () s).outcome

/-- ENV.RX_TIMEOUT (spec/48_environment_device.md R295): STD only. -/
def execEnvRxTimeout (p : BitVec 4) (s : State) : Out :=
  (onSlot p fun q =>
    match q.kind with
    | .std c =>
      let d := s.dev.std.get c
      envMove q (s.cfg.present q && d.fifoEn && !d.rxf.isEmpty) s fun s =>
        s.setStd c { d with rxTo := true }
    | .integ => .ok () s).outcome

end Sys2Proof.Machine
end

