-- ==== Sys2Proof/Machine/HostPrim.lean ====
section
/-! DEFINITION. The host platform primitives (spec/47_host_primitives.md): the meanings of class HOST.

As words HOST.MASK, HOST.UNMASK, HOST.INSTALL and HOST.RESTORE are performed while a handler runs too, where the
block never issues them (R256, spec/60_exceptions.md R321): DESIGN CHOICE, log entry 36. -/

namespace Sys2Proof.Machine

open Sys2Proof

/-- HOST.RD8 (spec/47_host_primitives.md R250). -/
def execHostRd8 (a : Half) (s : State) : Out := (ioRd8 a s).returning .u8

/-- HOST.RD16 (spec/47_host_primitives.md R251). -/
def execHostRd16 (a : Half) (s : State) : Out := (ioRd16 a s).returning .u16

/-- HOST.WR8 (spec/47_host_primitives.md R252); the value is the sideband's. -/
def execHostWr8 (a : Half) (s : State) : Out :=
  (ioWr8 a (s.side.value.setWidth 8) s).returning fun _ => .unit

/-- HOST.WR16 (spec/47_host_primitives.md R253); the value is the sideband's. -/
def execHostWr16 (a : Half) (s : State) : Out := (ioWr16 a s.side.value s).returning fun _ => .unit

/-- HOST.INSTALL (spec/47_host_primitives.md R258); the handler is the sideband's, the previous one is
returned. It is performed whatever `ctx` is (DESIGN CHOICE, log entry 36). -/
def execHostInstall (l : BitVec 4) (s : State) : Out :=
  (onLine l fun m => .ok (s.handler.get m) (s.installHandler m s.side.handler)).returning .handler

/-- HOST.RESTORE (spec/47_host_primitives.md R259); the handler is the sideband's. It is
performed whatever `ctx` is (DESIGN CHOICE, log entry 36). -/
def execHostRestore (l : BitVec 4) (s : State) : Out :=
  (onLine l fun m => .ok () (s.restoreHandler m s.side.handler)).returning fun _ => .unit

/-- HOST.MASK (spec/47_host_primitives.md R256), whatever `ctx` is (DESIGN CHOICE, log entry 36). -/
def execHostMask (l : BitVec 4) (s : State) : Out :=
  (onLine l fun m => .ok () (s.maskLine m)).returning fun _ => .unit

/-- HOST.UNMASK (spec/47_host_primitives.md R257), whatever `ctx` is (DESIGN CHOICE, log entry 36). -/
def execHostUnmask (l : BitVec 4) (s : State) : Out :=
  (onLine l fun m => .ok () (s.unmaskLine m)).returning fun _ => .unit

end Sys2Proof.Machine
end

