-- ==== Sys2Proof/WellFormed.lean ====
section
/-! DEFINITION. Which operations are well formed: the one check a constructor's fields leave open is that a
line identifier is one of the three lines (spec/30_encoding.md R102, R107). Every value of a port identifier
decodes (R102). -/

namespace Sys2Proof

/-- `sel` names a line: `0 .. NLINES-1` (spec/30_encoding.md R102). -/
def lineSelOk (l : BitVec 4) : Bool := l.toNat < 3

/-- The operation has an encoding (spec/30_encoding.md R107). -/
def Instr.wellFormed : Instr → Bool
  | .openPort _ => true
  | .configure _ => true
  | .send _ => true
  | .recv _ => true
  | .clear _ _ => true
  | .available _ => true
  | .close _ => true
  | .rxDropped _ => true
  | .rbPush _ _ _ => true
  | .rbPop _ _ => true
  | .rbAvail _ _ => true
  | .rbClear _ _ => true
  | .rbPushN _ _ _ => true
  | .rbPopN _ _ _ => true
  | .regLookup _ => true
  | .regAlloc _ => true
  | .regFree _ => true
  | .halEnRx _ => true
  | .halEnTx _ => true
  | .halDisInt _ => true
  | .halCause _ => true
  | .halDrainRx _ => true
  | .halFillTx _ _ => true
  | .halConfig _ => true
  | .halAckLine l => lineSelOk l
  | .halTxEmpty _ => true
  | .halDetect _ => true
  | .halInit _ => true
  | .halSnapshot _ => true
  | .halRestore _ => true
  | .halClrMs _ => true
  | .halClrLs _ => true
  | .halDisTx _ => true
  | .dspEnter l => lineSelOk l
  | .dspVisit _ => true
  | .dspExit l => lineSelOk l
  | .dspOnModem _ => true
  | .dspOnLine _ => true
  | .dspOnTxEmpty _ => true
  | .dspOnRxReady _ => true
  | .dspOnRxTimeout _ => true
  | .hostRd8 _ => true
  | .hostRd16 _ => true
  | .hostWr8 _ => true
  | .hostWr16 _ => true
  | .hostInstall l => lineSelOk l
  | .hostRestore l => lineSelOk l
  | .hostMask l => lineSelOk l
  | .hostUnmask l => lineSelOk l
  | .envRxArrive _ _ => true
  | .envTxShift _ => true
  | .envLineEvent _ => true
  | .envModemEvent _ => true
  | .envRxTimeout _ => true

end Sys2Proof
end

