-- ==== Sys2Proof/Decode.lean ====
section
/-! DEFINITION. The operation word, format F-OP (spec/30_encoding.md R91): its fields, the decoder (total;
`none` is an illegal word, R107) and, after it, the encoder. -/

namespace Sys2Proof

/-- The fields of an operation word (spec/30_encoding.md R91). -/
structure Fields where
  cls : BitVec 4
  op : BitVec 4
  sel : BitVec 4
  dir : BitVec 1
  rsv : BitVec 3
  imm : Half
  deriving DecidableEq, Repr

/-- Takes a word apart (spec/30_encoding.md R91). -/
def fields (w : Word) : Fields where
  cls := w.extractLsb' 28 4
  op := w.extractLsb' 24 4
  sel := w.extractLsb' 20 4
  dir := w.extractLsb' 19 1
  rsv := w.extractLsb' 16 3
  imm := w.extractLsb' 0 16

/-- `dir`: 0 selects `rx`, 1 selects `tx` (spec/30_encoding.md R103). -/
def dirOf (b : BitVec 1) : Dir := if b = 0#1 then .rx else .tx

/-- The operation uses neither `dir` nor `imm16`: both must be 0 (spec/30_encoding.md R107). -/
def Fields.plain (f : Fields) (i : BitVec 4 → Instr) : Option Instr :=
  if f.dir = 0#1 ∧ f.imm = 0#16 then some (i f.sel) else none

/-- As `plain`, with `sel` a line identifier, which must name a line (spec/30_encoding.md R102, R107). -/
def Fields.onLine (f : Fields) (i : BitVec 4 → Instr) : Option Instr :=
  if f.dir = 0#1 ∧ f.imm = 0#16 ∧ lineSelOk f.sel then some (i f.sel) else none

/-- The operation uses `dir` and not `imm16`. -/
def Fields.onRing (f : Fields) (i : BitVec 4 → Dir → Instr) : Option Instr :=
  if f.imm = 0#16 then some (i f.sel (dirOf f.dir)) else none

/-- The operation uses `dir` and the whole of `imm16`. -/
def Fields.onRingN (f : Fields) (i : BitVec 4 → Dir → Half → Instr) : Option Instr :=
  some (i f.sel (dirOf f.dir) f.imm)

/-- The operation uses `dir` and a byte in `imm16[7:0]`; `imm16[15:8]` must be 0 (spec/30_encoding.md R101). -/
def Fields.onRingByte (f : Fields) (i : BitVec 4 → Dir → Byte → Instr) : Option Instr :=
  if f.imm.extractLsb' 8 8 = 0#8 then some (i f.sel (dirOf f.dir) (f.imm.extractLsb' 0 8)) else none

/-- The operation uses a byte in `imm16[7:0]` and not `dir` (spec/30_encoding.md R101). -/
def Fields.onByte (f : Fields) (i : BitVec 4 → Byte → Instr) : Option Instr :=
  if f.dir = 0#1 ∧ f.imm.extractLsb' 8 8 = 0#8 then some (i f.sel (f.imm.extractLsb' 0 8)) else none

/-- `imm16` is an `IO` address; `sel` and `dir` must be 0 (spec/30_encoding.md R99). -/
def Fields.onAddr (f : Fields) (i : Half → Instr) : Option Instr :=
  if f.sel = 0#4 ∧ f.dir = 0#1 then some (i f.imm) else none

/-- Class 1 (spec/30_encoding.md R94). -/
def decodeApi (f : Fields) : Option Instr :=
  match f.op.toNat with
  | 0 => f.plain .openPort
  | 1 => f.plain .configure
  | 2 => f.plain .send
  | 3 => f.plain .recv
  | 4 => f.onRing .clear
  | 5 => f.plain .available
  | 6 => f.plain .close
  | 7 => f.plain .rxDropped
  | _ => none

/-- Class 2 (spec/30_encoding.md R95). -/
def decodeRb (f : Fields) : Option Instr :=
  match f.op.toNat with
  | 0 => f.onRingByte .rbPush
  | 1 => f.onRing .rbPop
  | 2 => f.onRing .rbAvail
  | 3 => f.onRing .rbClear
  | 4 => f.onRingN .rbPushN
  | 5 => f.onRingN .rbPopN
  | _ => none

/-- Class 3 (spec/30_encoding.md R96). -/
def decodeReg (f : Fields) : Option Instr :=
  match f.op.toNat with
  | 0 => f.plain .regLookup
  | 1 => f.plain .regAlloc
  | 2 => f.plain .regFree
  | _ => none

/-- Class 4 (spec/30_encoding.md R97). -/
def decodeHal (f : Fields) : Option Instr :=
  match f.op.toNat with
  | 0 => f.plain .halEnRx
  | 1 => f.plain .halEnTx
  | 2 => f.plain .halDisInt
  | 3 => f.plain .halCause
  | 4 => f.plain .halDrainRx
  | 5 => f.onByte .halFillTx
  | 6 => f.plain .halConfig
  | 7 => f.onLine .halAckLine
  | 8 => f.plain .halTxEmpty
  | 9 => f.plain .halDetect
  | 10 => f.plain .halInit
  | 11 => f.plain .halSnapshot
  | 12 => f.plain .halRestore
  | 13 => f.plain .halClrMs
  | 14 => f.plain .halClrLs
  | 15 => f.plain .halDisTx
  | _ => none

/-- Class 5 (spec/30_encoding.md R98). -/
def decodeDsp (f : Fields) : Option Instr :=
  match f.op.toNat with
  | 0 => f.onLine .dspEnter
  | 1 => f.plain .dspVisit
  | 2 => f.onLine .dspExit
  | 3 => f.plain .dspOnModem
  | 4 => f.plain .dspOnLine
  | 5 => f.plain .dspOnTxEmpty
  | 6 => f.plain .dspOnRxReady
  | 7 => f.plain .dspOnRxTimeout
  | _ => none

/-- Class 6 (spec/30_encoding.md R99). -/
def decodeHost (f : Fields) : Option Instr :=
  match f.op.toNat with
  | 0 => f.onAddr .hostRd8
  | 1 => f.onAddr .hostRd16
  | 2 => f.onAddr .hostWr8
  | 3 => f.onAddr .hostWr16
  | 4 => f.onLine .hostInstall
  | 5 => f.onLine .hostRestore
  | 6 => f.onLine .hostMask
  | 7 => f.onLine .hostUnmask
  | _ => none

/-- Class 7 (spec/30_encoding.md R100). -/
def decodeEnv (f : Fields) : Option Instr :=
  match f.op.toNat with
  | 0 => f.onByte .envRxArrive
  | 1 => f.plain .envTxShift
  | 2 => f.plain .envLineEvent
  | 3 => f.plain .envModemEvent
  | 4 => f.plain .envRxTimeout
  | _ => none

/-- The decoder. `none` is an illegal word (spec/30_encoding.md R107). -/
def decode (w : Word) : Option Instr :=
  let f := fields w
  if f.rsv = 0#3 then
    match f.cls.toNat with
    | 1 => decodeApi f
    | 2 => decodeRb f
    | 3 => decodeReg f
    | 4 => decodeHal f
    | 5 => decodeDsp f
    | 6 => decodeHost f
    | 7 => decodeEnv f
    | _ => none
  else none

/-- The operation an opcode-table word of `nbits` bits stands for; the bits above `nbits` are 0. -/
def decodeTableWord (nbits w : Nat) : Option Instr :=
  if nbits ≤ 32 then decode (BitVec.ofNat 32 (w % 2 ^ nbits)) else none

/-- Puts the fields of a word together, `rsv` 0 (spec/30_encoding.md R91). -/
def assemble (cls op sel : BitVec 4) (dir : BitVec 1) (imm : Half) : Word :=
  ((((cls ++ op) ++ sel) ++ dir) ++ 0#3) ++ imm

/-- The bit of a ring selector (spec/30_encoding.md R103). -/
def Dir.bit : Dir → BitVec 1
  | .rx => 0#1
  | .tx => 1#1

/-- The class of an operation (spec/30_encoding.md R93). -/
def Instr.cls : Instr → BitVec 4
  | .openPort _ | .configure _ | .send _ | .recv _ | .clear _ _ | .available _ | .close _ | .rxDropped _ => 1#4
  | .rbPush _ _ _ | .rbPop _ _ | .rbAvail _ _ | .rbClear _ _ | .rbPushN _ _ _ | .rbPopN _ _ _ => 2#4
  | .regLookup _ | .regAlloc _ | .regFree _ => 3#4
  | .halEnRx _ | .halEnTx _ | .halDisInt _ | .halCause _ | .halDrainRx _ | .halFillTx _ _ | .halConfig _
  | .halAckLine _ | .halTxEmpty _ | .halDetect _ | .halInit _ | .halSnapshot _ | .halRestore _
  | .halClrMs _ | .halClrLs _ | .halDisTx _ => 4#4
  | .dspEnter _ | .dspVisit _ | .dspExit _ | .dspOnModem _ | .dspOnLine _ | .dspOnTxEmpty _
  | .dspOnRxReady _ | .dspOnRxTimeout _ => 5#4
  | .hostRd8 _ | .hostRd16 _ | .hostWr8 _ | .hostWr16 _ | .hostInstall _ | .hostRestore _ | .hostMask _
  | .hostUnmask _ => 6#4
  | .envRxArrive _ _ | .envTxShift _ | .envLineEvent _ | .envModemEvent _ | .envRxTimeout _ => 7#4

/-- The word of an operation (spec/30_encoding.md R94 to R100). -/
def encode : Instr → Word
  | .openPort p => assemble 1#4 0#4 p 0#1 0#16
  | .configure p => assemble 1#4 1#4 p 0#1 0#16
  | .send p => assemble 1#4 2#4 p 0#1 0#16
  | .recv p => assemble 1#4 3#4 p 0#1 0#16
  | .clear p d => assemble 1#4 4#4 p d.bit 0#16
  | .available p => assemble 1#4 5#4 p 0#1 0#16
  | .close p => assemble 1#4 6#4 p 0#1 0#16
  | .rxDropped p => assemble 1#4 7#4 p 0#1 0#16
  | .rbPush p d b => assemble 2#4 0#4 p d.bit (b.setWidth 16)
  | .rbPop p d => assemble 2#4 1#4 p d.bit 0#16
  | .rbAvail p d => assemble 2#4 2#4 p d.bit 0#16
  | .rbClear p d => assemble 2#4 3#4 p d.bit 0#16
  | .rbPushN p d n => assemble 2#4 4#4 p d.bit n
  | .rbPopN p d n => assemble 2#4 5#4 p d.bit n
  | .regLookup p => assemble 3#4 0#4 p 0#1 0#16
  | .regAlloc p => assemble 3#4 1#4 p 0#1 0#16
  | .regFree p => assemble 3#4 2#4 p 0#1 0#16
  | .halEnRx p => assemble 4#4 0#4 p 0#1 0#16
  | .halEnTx p => assemble 4#4 1#4 p 0#1 0#16
  | .halDisInt p => assemble 4#4 2#4 p 0#1 0#16
  | .halCause p => assemble 4#4 3#4 p 0#1 0#16
  | .halDrainRx p => assemble 4#4 4#4 p 0#1 0#16
  | .halFillTx p m => assemble 4#4 5#4 p 0#1 (m.setWidth 16)
  | .halConfig p => assemble 4#4 6#4 p 0#1 0#16
  | .halAckLine l => assemble 4#4 7#4 l 0#1 0#16
  | .halTxEmpty p => assemble 4#4 8#4 p 0#1 0#16
  | .halDetect p => assemble 4#4 9#4 p 0#1 0#16
  | .halInit p => assemble 4#4 10#4 p 0#1 0#16
  | .halSnapshot p => assemble 4#4 11#4 p 0#1 0#16
  | .halRestore p => assemble 4#4 12#4 p 0#1 0#16
  | .halClrMs p => assemble 4#4 13#4 p 0#1 0#16
  | .halClrLs p => assemble 4#4 14#4 p 0#1 0#16
  | .halDisTx p => assemble 4#4 15#4 p 0#1 0#16
  | .dspEnter l => assemble 5#4 0#4 l 0#1 0#16
  | .dspVisit p => assemble 5#4 1#4 p 0#1 0#16
  | .dspExit l => assemble 5#4 2#4 l 0#1 0#16
  | .dspOnModem p => assemble 5#4 3#4 p 0#1 0#16
  | .dspOnLine p => assemble 5#4 4#4 p 0#1 0#16
  | .dspOnTxEmpty p => assemble 5#4 5#4 p 0#1 0#16
  | .dspOnRxReady p => assemble 5#4 6#4 p 0#1 0#16
  | .dspOnRxTimeout p => assemble 5#4 7#4 p 0#1 0#16
  | .hostRd8 a => assemble 6#4 0#4 0#4 0#1 a
  | .hostRd16 a => assemble 6#4 1#4 0#4 0#1 a
  | .hostWr8 a => assemble 6#4 2#4 0#4 0#1 a
  | .hostWr16 a => assemble 6#4 3#4 0#4 0#1 a
  | .hostInstall l => assemble 6#4 4#4 l 0#1 0#16
  | .hostRestore l => assemble 6#4 5#4 l 0#1 0#16
  | .hostMask l => assemble 6#4 6#4 l 0#1 0#16
  | .hostUnmask l => assemble 6#4 7#4 l 0#1 0#16
  | .envRxArrive p b => assemble 7#4 0#4 p 0#1 (b.setWidth 16)
  | .envTxShift p => assemble 7#4 1#4 p 0#1 0#16
  | .envLineEvent p => assemble 7#4 2#4 p 0#1 0#16
  | .envModemEvent p => assemble 7#4 3#4 p 0#1 0#16
  | .envRxTimeout p => assemble 7#4 4#4 p 0#1 0#16

end Sys2Proof
end

