-- ==== Sys2Proof/Machine/Hal.lean ====
section
/-! DEFINITION. The register-decode mux (spec/43_hal_variant_mux.md): for each capability and variant the list
of its `IO` accesses (R151), the step of one access, a capability as a whole, and the meanings of class HAL. -/

namespace Sys2Proof.Machine

open Sys2Proof

/-- The address record of a port: that of its PortState; a closed port's is the constant record of its slot
(spec/10_state.md R37, log entry 15). -/
def State.regs (s : State) (q : Slot) : Regs :=
  match s.slots.get q with
  | some ps => ps.regs
  | none => regsOf s.cfg q

/-! ### The mux table (R151) -/

/-- HAL.EN_RX (spec/43_hal_variant_mux.md R155). -/
def accEnRx (cfg : Config) : Regs → List Acc
  | .std b => let a := cfg.stdMap.addr b .ier
    [.rd8 a, .wr8 a (.orV (cfg.stdMap.ierRx.setWidth 16))]
  | .integ ien _ _ _ _ _ => [.rd16 ien, .wr16 ien (.orV cfg.imRxie)]

/-- HAL.EN_TX (spec/43_hal_variant_mux.md R156). -/
def accEnTx (cfg : Config) : Regs → List Acc
  | .std b => let a := cfg.stdMap.addr b .ier
    [.rd8 a, .wr8 a (.orV (cfg.stdMap.ierTx.setWidth 16))]
  | .integ ien _ _ _ _ _ => [.rd16 ien, .wr16 ien (.orV cfg.imTxie)]

/-- HAL.DIS_INT (spec/43_hal_variant_mux.md R157). -/
def accDisInt (cfg : Config) : Regs → List Acc
  | .std b => [.wr8 (cfg.stdMap.addr b .ier) (.const 0x00#16)]
  | .integ ien _ _ _ _ _ => [.rd16 ien, .wr16 ien (.andNotV (cfg.imRxie ||| cfg.imTxie))]

/-- HAL.DIS_TX (spec/43_hal_variant_mux.md R171); a STD port has no sequence. -/
def accDisTx (cfg : Config) : Regs → List Acc
  | .std _ => []
  | .integ ien _ _ _ _ _ => [.rd16 ien, .wr16 ien (.andNotV cfg.imTxie)]

/-- HAL.CAUSE (spec/43_hal_variant_mux.md R159). -/
def accCause (cfg : Config) : Regs → List Acc
  | .std b => [.rd8 (cfg.stdMap.addr b .iir)]
  | .integ _ _ _ stat _ _ => [.rd16 stat]

/-- HAL.CLR_MS (spec/43_hal_variant_mux.md R169). -/
def accClrMs (cfg : Config) : Regs → List Acc
  | .std b => [.rd8 (cfg.stdMap.addr b .msr)]
  | .integ _ _ _ _ _ _ => []

/-- HAL.CLR_LS (spec/43_hal_variant_mux.md R170). -/
def accClrLs (cfg : Config) : Regs → List Acc
  | .std b => [.rd8 (cfg.stdMap.addr b .lsr)]
  | .integ _ _ _ stat _ _ => [.rd16 stat]

/-- HAL.DRAIN_RX (spec/43_hal_variant_mux.md R158): `RX_DRAIN_CAP` rounds of status and data read. -/
def accDrainRx (cfg : Config) : Regs → List Acc
  | .std b => (List.replicate cfg.rxDrainCap.std
      [Acc.test8 (cfg.stdMap.addr b .lsr) cfg.stdMap.lsrDr, .take8 (cfg.stdMap.addr b .data)]).flatten
  | .integ _ _ _ stat _ rxd =>
    (List.replicate cfg.rxDrainCap.integ [Acc.test16 stat cfg.isRxrdy, .take16 rxd]).flatten

/-- HAL.FILL_TX of `m` bytes at most (spec/43_hal_variant_mux.md R160). -/
def accFillTx (m : Nat) (cfg : Config) : Regs → List Acc
  | .std b => List.replicate m (.fill8 (cfg.stdMap.addr b .data))
  | .integ _ _ _ _ txd _ => List.replicate m (.fill16 txd)

/-- HAL.FILL_TX of the variant's burst, as every issuer passes it (spec/43_hal_variant_mux.md R160). -/
def accBurst (cfg : Config) (r : Regs) : List Acc := accFillTx (cfg.txBurst.get r.variant).toNat cfg r

/-- HAL.TX_EMPTY (spec/43_hal_variant_mux.md R164). -/
def accTxEmpty (cfg : Config) : Regs → List Acc
  | .std b => [.rd8 (cfg.stdMap.addr b .lsr)]
  | .integ _ _ _ stat _ _ => [.rd16 stat]

/-- HAL.CONFIG (spec/43_hal_variant_mux.md R162); a divisor, speed word or frame the spec does not state is free
(log entries 16, 22). -/
def accConfig (baud par data stop : Word) (cfg : Config) : Regs → List Acc
  | .std b =>
    let m := cfg.stdMap
    let d := stdDivisorWord cfg baud
    [.wr8 (m.addr b .lcr) (.const (m.lcrDlab.setWidth 16)), .wr8 (m.addr b .data) (.const (d &&& 0x00FF#16)),
      .wr8 (m.addr b .ier) (.const (d >>> 8)),
      .wr8 (m.addr b .lcr) (.const ((stdFrameWord cfg par data stop).setWidth 16))]
  | .integ _ lctl bd _ _ _ =>
    [.wr16 bd (.const (cfg.integBaudWord baud)), .wr16 lctl (.const (cfg.integFrameWord par data stop))]

/-- HAL.DETECT (spec/43_hal_variant_mux.md R165). -/
def accDetect (cfg : Config) : Regs → List Acc
  | .std b => let a := cfg.stdMap.addr b .ier
    [.wr8 a (.const 0x00#16), .rd8 a]
  | .integ _ _ _ _ _ _ => []

/-- HAL.INIT (spec/43_hal_variant_mux.md R166). -/
def accInit (cfg : Config) : Regs → List Acc
  | .std b => [.wr8 (cfg.stdMap.addr b .iir) (.const (cfg.fcrInit.setWidth 16))]
  | .integ _ lctl _ _ _ _ => [.wr16 lctl (.const cfg.integInitWord)]

/-- HAL.SNAPSHOT (spec/43_hal_variant_mux.md R167). -/
def accSnapshot (_ : Config) : Regs → List Acc
  | .std _ => []
  | .integ ien lctl bd _ _ _ => [.snap ien .ien, .snap lctl .lctl, .snap bd .baud]

/-- HAL.RESTORE (spec/43_hal_variant_mux.md R168). -/
def accRestore (_ : Config) : Regs → List Acc
  | .std _ => []
  | .integ ien lctl bd _ _ _ => [.rest ien .ien, .rest lctl .lctl, .rest bd .baud]

/-- HAL.ACK_LINE (spec/43_hal_variant_mux.md R163). -/
def ackLine (l : Line) (s : State) : Res Unit :=
  if s.cfg.ackExplicit l then ioWr16 s.cfg.eoiAddr (s.cfg.eoiValue.get l) s else .ok () s

/-! ### The step of one access -/

/-- The byte a drain has read goes to `rx`, or is dropped and counted (spec/43_hal_variant_mux.md R158,
spec/10_state.md R30). -/
def takeByte (q : Slot) (b : Byte) (s : State) : Res Unit :=
  (ringPush q .rx b s).andThen fun pushed s =>
    if pushed then .ok () s
    else
      withPort q s fun ps =>
        .ok () (s.setSlot q (some { ps with
          rxDropped := BitVec.ofNat 32 (min (ps.rxDropped.toNat + 1) s.cfg.rxdropMax) }))

/-- One access: the new value of the temporary and whether the capability returns here. A `fill` whose RB.POP
finds `tx` empty ends HAL.FILL_TX in a step without an `IO` access (spec/43_hal_variant_mux.md R160 ties only a
pop that answers a byte to its write: DESIGN CHOICE, log entry 39). -/
def accStep (q : Slot) (a : Acc) (v : Half) (s : State) : Res (Half × Bool) :=
  match a with
  | .rd8 a => (ioRd8 a s).andThen fun r s => .ok (r.setWidth 16, false) s
  | .rd16 a => (ioRd16 a s).andThen fun r s => .ok (r, false) s
  | .wr8 a e => (ioWr8 a ((e.eval v).setWidth 8) s).andThen fun _ s => .ok (v, false) s
  | .wr16 a e => (ioWr16 a (e.eval v) s).andThen fun _ s => .ok (v, false) s
  | .snap a r => (ioRd16 a s).andThen fun x s => .ok (v, false) (s.setSavedInteg r x)
  | .rest a r => (ioWr16 a (s.savedInteg.get r) s).andThen fun _ s => .ok (v, false) s
  | .test8 a m => (ioRd8 a s).andThen fun r s => .ok (r.setWidth 16, r &&& m = 0#8) s
  | .test16 a m => (ioRd16 a s).andThen fun r s => .ok (r, r &&& m = 0#16) s
  | .take8 a => (ioRd8 a s).andThen fun b s => (takeByte q b s).andThen fun _ s => .ok (v, false) s
  | .take16 a =>
    (ioRd16 a s).andThen fun b s => (takeByte q (b.setWidth 8) s).andThen fun _ s => .ok (v, false) s
  | .fill8 a => (ringPop q .tx s).andThen fun b s =>
    match b with
    | none => .ok (v, true) s
    | some b => (ioWr8 a b s).andThen fun _ s => .ok (v, false) s
  | .fill16 a => (ringPop q .tx s).andThen fun b s =>
    match b with
    | none => .ok (v, true) s
    | some b => (ioWr16 a (b.setWidth 16) s).andThen fun _ s => .ok (v, false) s

/-- A capability as a whole: its accesses in order, until one returns. It answers the temporary. -/
def runAccs (q : Slot) : List Acc → Half → State → Res Half
  | [], v, s => .ok v s
  | a :: as, v, s => (accStep q a v s).andThen fun r s => if r.2 then .ok r.1 s else runAccs q as r.1 s

/-- A capability on slot `q` performed from its first access, whichever agent runs and whether or not the line is
masked (spec/43_hal_variant_mux.md R152 names the contexts it is issued in and no outcome elsewhere: DESIGN
CHOICE, log entry 36). -/
def runHal (q : Slot) (accs : Config → Regs → List Acc) (s : State) : Res Half :=
  runAccs q (accs s.cfg (s.regs q)) 0#16 s

/-- HAL.CAUSE (spec/43_hal_variant_mux.md R159, R161). -/
def halCause (q : Slot) (s : State) : Res Cause :=
  (runHal q accCause s).andThen fun v t =>
    match causeOf s.cfg (s.regs q) v with
    | some c => .ok c t
    | none => .refuse .reservedCause

/-- HAL.TX_EMPTY (spec/43_hal_variant_mux.md R164). -/
def halTxEmpty (q : Slot) (s : State) : Res Bool :=
  (runHal q accTxEmpty s).andThen fun v t => .ok (txEmptyOf s.cfg (s.regs q) v) t

/-- HAL.DETECT (spec/43_hal_variant_mux.md R165). -/
def halDetect (q : Slot) (s : State) : Res Bool :=
  (runHal q accDetect s).andThen fun v t => .ok (detectOf (s.regs q) v) t

/-- HAL.DIS_TX (spec/43_hal_variant_mux.md R171). -/
def halDisTx (q : Slot) (s : State) : Res Half :=
  match (s.regs q).variant with
  | .std => .refuse .disTxOnStd
  | .integ => runHal q accDisTx s

/-- HAL.CONFIG with the settings of a CONFIGURE (spec/43_hal_variant_mux.md R162). -/
def halConfig (q : Slot) (baud par data stop : Word) (s : State) : Res Half :=
  runHal q (accConfig baud par data stop) s

/-! ### The meanings of class HAL -/

/-- HAL.EN_RX (spec/43_hal_variant_mux.md R155). -/
def execHalEnRx (p : BitVec 4) (s : State) : Out :=
  (onSlot p fun q => runHal q accEnRx s).returning fun _ => .unit

/-- HAL.EN_TX (spec/43_hal_variant_mux.md R156). -/
def execHalEnTx (p : BitVec 4) (s : State) : Out :=
  (onSlot p fun q => runHal q accEnTx s).returning fun _ => .unit

/-- HAL.DIS_INT (spec/43_hal_variant_mux.md R157). -/
def execHalDisInt (p : BitVec 4) (s : State) : Out :=
  (onSlot p fun q => runHal q accDisInt s).returning fun _ => .unit

/-- HAL.CAUSE (spec/43_hal_variant_mux.md R159). -/
def execHalCause (p : BitVec 4) (s : State) : Out :=
  (onSlot p fun q => halCause q s).returning .cause

/-- HAL.DRAIN_RX (spec/43_hal_variant_mux.md R158). -/
def execHalDrainRx (p : BitVec 4) (s : State) : Out :=
  (onSlot p fun q => runHal q accDrainRx s).returning fun _ => .unit

/-- HAL.FILL_TX (spec/43_hal_variant_mux.md R160). -/
def execHalFillTx (p : BitVec 4) (m : Byte) (s : State) : Out :=
  (onSlot p fun q => runHal q (accFillTx m.toNat) s).returning fun _ => .unit

/-- HAL.CONFIG (spec/43_hal_variant_mux.md R162), with the operands CONFIGURE passes it: `A0` to `A3`. -/
def execHalConfig (p : BitVec 4) (s : State) : Out :=
  (onSlot p fun q => halConfig q s.a0 s.a1 s.a2 s.a3 s).returning fun _ => .unit

/-- HAL.ACK_LINE (spec/43_hal_variant_mux.md R163). -/
def execHalAckLine (l : BitVec 4) (s : State) : Out :=
  (onLine l fun m => ackLine m s).returning fun _ => .unit

/-- HAL.TX_EMPTY (spec/43_hal_variant_mux.md R164). -/
def execHalTxEmpty (p : BitVec 4) (s : State) : Out :=
  (onSlot p fun q => halTxEmpty q s).returning .bool

/-- HAL.DETECT (spec/43_hal_variant_mux.md R165). -/
def execHalDetect (p : BitVec 4) (s : State) : Out :=
  (onSlot p fun q => halDetect q s).returning .bool

/-- HAL.INIT (spec/43_hal_variant_mux.md R166). -/
def execHalInit (p : BitVec 4) (s : State) : Out :=
  (onSlot p fun q => runHal q accInit s).returning fun _ => .unit

/-- HAL.SNAPSHOT (spec/43_hal_variant_mux.md R167). -/
def execHalSnapshot (p : BitVec 4) (s : State) : Out :=
  (onSlot p fun q => runHal q accSnapshot s).returning fun _ => .unit

/-- HAL.RESTORE (spec/43_hal_variant_mux.md R168). -/
def execHalRestore (p : BitVec 4) (s : State) : Out :=
  (onSlot p fun q => runHal q accRestore s).returning fun _ => .unit

/-- HAL.CLR_MS (spec/43_hal_variant_mux.md R169). -/
def execHalClrMs (p : BitVec 4) (s : State) : Out :=
  (onSlot p fun q => runHal q accClrMs s).returning fun _ => .unit

/-- HAL.CLR_LS (spec/43_hal_variant_mux.md R170). -/
def execHalClrLs (p : BitVec 4) (s : State) : Out :=
  (onSlot p fun q => runHal q accClrLs s).returning fun _ => .unit

/-- HAL.DIS_TX (spec/43_hal_variant_mux.md R171). -/
def execHalDisTx (p : BitVec 4) (s : State) : Out :=
  (onSlot p fun q => halDisTx q s).returning fun _ => .unit

end Sys2Proof.Machine
end

