-- ==== Sys2Proof/Machine/Dispatcher.lean ====
section
/-! DEFINITION. The interrupt service dispatcher (spec/44_dispatcher.md): the actions, a visit, the step of a
handler's sequencer, and the meanings of class DSP. -/

namespace Sys2Proof.Machine

open Sys2Proof

/-- The accesses of DSP.ON_TXEMPTY (spec/44_dispatcher.md R195): a burst if bytes wait; else, on INTEG, the
latch is cleared; on STD nothing. -/
def accOnTxEmpty (cfg : Config) (ps : PortState) : List Acc :=
  if ps.tx.count ≠ 0#16 then accBurst cfg ps.regs else accDisTx cfg ps.regs

/-- The accesses of the action for a cause (spec/44_dispatcher.md R192 line 3, R193 to R197). -/
def accAction (cfg : Config) (ps : PortState) : Cause → List Acc
  | .none => []
  | .modemStatus => accClrMs cfg ps.regs
  | .lineStatus => accClrLs cfg ps.regs
  | .txEmpty => accOnTxEmpty cfg ps
  | .rxReady => accDrainRx cfg ps.regs
  | .rxTimeout => accDrainRx cfg ps.regs

/-- Lines 2 and 3 of DSP.VISIT, undisturbed, for `n` rounds or until the cause is None; the answer is whether
the visit has ended (spec/44_dispatcher.md R192). -/
def visitLoop (q : Slot) : Nat → State → Res Bool
  | 0, s => .ok false s
  | n + 1, s =>
    withPort q s fun ps => (halCause q s).andThen fun c s =>
      if c = .none then .ok true s
      else (runAccs q (accAction s.cfg ps c) 0#16 s).andThen fun _ s => visitLoop q n s

/-- How many rounds of a visit one step of the word performs: more than a visit of a present device needs (log
entry 24). -/
def visitBound (q : Slot) (s : State) : Nat :=
  match q.kind with
  | .std c => (s.dev.std.get c).rxf.length + 64
  | .integ => 64

/-- The running handler's sequencer passes slot `q` if it stands before the visit of `q`
(spec/44_dispatcher.md R191: the list is visited once per entry). -/
def State.visited (s : State) (q : Slot) : State :=
  match s.ctx with
  | [] => s
  | l :: _ =>
    match s.dseq.get l with
    | .run 1 i _ _ _ =>
      if (s.cfg.portsOf l)[i]? = some q then s.setDseq l (.run 1 (i + 1) .none [] 0#16) else s
    | _ => s

/-- DSP.VISIT (spec/44_dispatcher.md R192). The loop has no cap: a visit that has not ended after the rounds of
one step goes on with the next step, for which the word is put back at the head of the schedule (its first line
finds the slot as before; log entry 24). -/
def visitWhole (q : Slot) (s : State) : Res Unit :=
  (if (s.slots.get q).isNone then .ok true s else visitLoop q (visitBound q s) s).andThen fun ended s =>
    .ok () (if ended then s.visited q else s.issue (encode (.dspVisit q.sel)))

/-- DSP.EXIT (spec/44_dispatcher.md R198): the line acknowledge and the return, one step of the running
handler of `l` (spec/10_state.md R41), whatever ports it has still to visit (the spec never issues it before the
last: DESIGN CHOICE, log entry 18). -/
def exitLine (l : Line) (s : State) : Res Unit :=
  if s.ctx.head? = some l then
    (ackLine l s).andThen fun _ s => .ok () (s.leaveInterrupt l)
  else .refuse .handlerNotRunning

/-- The next step of the handler of line `l` (spec/10_state.md R40, spec/44_dispatcher.md R191, R192). A
sequencer position that no rule reaches takes no step. Which accesses DSP.ON_TXEMPTY has (spec/44_dispatcher.md
R195) is read off `tx.count` in the step of the HAL.CAUSE read that named it (DESIGN CHOICE, log entry 40). -/
def isrStep (l : Line) (s : State) : Res Unit :=
  match s.dseq.get l with
  | .idle => .ok () s
  | .run 1 i _ _ _ =>
    match (s.cfg.portsOf l)[i]? with
    | none => exitLine l s
    | some q =>
      if (s.slots.get q).isNone then .ok () (s.setDseq l (.run 1 (i + 1) .none [] 0#16))
      else .ok () (s.setDseq l (.run 2 i .none [] 0#16))
  | .run 2 i _ _ _ =>
    match (s.cfg.portsOf l)[i]? with
    | none => .ok () s
    | some q =>
      withPort q s fun ps => (halCause q s).andThen fun c s =>
        if c = .none then .ok () (s.setDseq l (.run 1 (i + 1) .none [] 0#16))
        else
          match accAction s.cfg ps c with
          | [] => .ok () (s.setDseq l (.run 2 i .none [] 0#16))
          | accs => .ok () (s.setDseq l (.run 3 i c accs 0#16))
  | .run 3 i c (a :: as) v =>
    match (s.cfg.portsOf l)[i]? with
    | none => .ok () s
    | some q =>
      (accStep q a v s).andThen fun r s =>
        if r.2 ∨ as = [] then .ok () (s.setDseq l (.run 2 i .none [] 0#16))
        else .ok () (s.setDseq l (.run 3 i c as r.1))
  | _ => .ok () s

/-! ### The meanings of class DSP

The spec issues DSP.VISIT and the actions from the handler of the port's line alone (spec/44_dispatcher.md R192);
as words they are performed whichever agent runs (DESIGN CHOICE, log entry 36). -/

/-- DSP.ENTER (spec/44_dispatcher.md R190). Where it is not enabled nothing occurs (log entry 14). -/
def execDspEnter (l : BitVec 4) (s : State) : Out :=
  (onLine l fun m => .ok () (if s.canEnter m then s.takeInterrupt m else s)).outcome

/-- DSP.VISIT (spec/44_dispatcher.md R192). -/
def execDspVisit (p : BitVec 4) (s : State) : Out := (onSlot p fun q => visitWhole q s).outcome

/-- DSP.EXIT (spec/44_dispatcher.md R198). -/
def execDspExit (l : BitVec 4) (s : State) : Out := (onLine l fun m => exitLine m s).outcome

/-- DSP.ON_MODEM (spec/44_dispatcher.md R193). -/
def execDspOnModem (p : BitVec 4) (s : State) : Out :=
  (onSlot p fun q => (runHal q accClrMs s).andThen fun _ s => .ok () s).outcome

/-- DSP.ON_LINE (spec/44_dispatcher.md R194). -/
def execDspOnLine (p : BitVec 4) (s : State) : Out :=
  (onSlot p fun q => (runHal q accClrLs s).andThen fun _ s => .ok () s).outcome

/-- DSP.ON_TXEMPTY (spec/44_dispatcher.md R195). -/
def execDspOnTxEmpty (p : BitVec 4) (s : State) : Out :=
  (onSlot p fun q => withPort q s fun ps =>
    (runAccs q (accOnTxEmpty s.cfg ps) 0#16 s).andThen fun _ s => .ok () s).outcome

/-- DSP.ON_RXREADY (spec/44_dispatcher.md R196). -/
def execDspOnRxReady (p : BitVec 4) (s : State) : Out :=
  (onSlot p fun q => (runHal q accDrainRx s).andThen fun _ s => .ok () s).outcome

/-- DSP.ON_RXTIMEOUT (spec/44_dispatcher.md R197). -/
def execDspOnRxTimeout (p : BitVec 4) (s : State) : Out :=
  (onSlot p fun q => (runHal q accDrainRx s).andThen fun _ s => .ok () s).outcome

end Sys2Proof.Machine
end

