-- ==== Sys2Proof/Machine/Registry.lean ====
section
/-! DEFINITION. The registry (spec/42_registry.md): its operations and the meanings of class REG. -/

namespace Sys2Proof.Machine

open Sys2Proof

/-- REG.LOOKUP (spec/42_registry.md R140). -/
def regLookup (p : BitVec 4) (s : State) : Lookup :=
  match slotOfSel p with
  | none => .invalid
  | some q => if (s.slots.get q).isNone then .absent else .present

/-- The PortState REG.ALLOC publishes (spec/42_registry.md R141). -/
def newPort (cfg : Config) (q : Slot) (mode txCap rxCap : Word) : PortState where
  regs := regsOf cfg q
  rx := RingBuffer.new (rxCap.setWidth 16)
  tx := RingBuffer.new (txCap.setWidth 16)
  blocking := modeBlocking mode
  rxDropped := 0#32

/-- REG.ALLOC (spec/42_registry.md R141): the answer is the allocation oracle's draw (R142); `false` is
OutOfMemory. -/
def regAlloc (q : Slot) (mode txCap rxCap : Word) (s : State) : Res Bool :=
  if (s.slots.get q).isSome then .refuse .slotOccupied
  else if !(capacityOk s.cfg txCap && capacityOk s.cfg rxCap) then .refuse .notValidated
  else
    let a := s.drawValue.getLsbD 0
    let s' := s.drawn1
    if a then .ok true (s'.setSlot q (some (newPort s.cfg q mode txCap rxCap))) else .ok false s'

/-- REG.FREE (spec/42_registry.md R143). -/
def regFree (q : Slot) (s : State) : Res Unit :=
  withPort q s fun _ => .ok () (s.setSlot q none)

/-! ### The meanings of class REG -/

/-- REG.LOOKUP (spec/42_registry.md R140). -/
def execRegLookup (p : BitVec 4) (s : State) : Out :=
  (Res.ok (regLookup p s) s).returning .lookup

/-- REG.ALLOC (spec/42_registry.md R141), with the operands OPEN passes it: `A0`, `A1`, `A2`. -/
def execRegAlloc (p : BitVec 4) (s : State) : Out :=
  (onSlot p fun q => regAlloc q s.a0 s.a1 s.a2 s).returning .alloc

/-- REG.FREE (spec/42_registry.md R143). -/
def execRegFree (p : BitVec 4) (s : State) : Out :=
  (onSlot p fun q => regFree q s).returning fun _ => .unit

end Sys2Proof.Machine
end

