-- ==== Sys2Proof/Machine/Lifecycle.lean ====
section
/-! DEFINITION. The port lifecycle (spec/45_lifecycle.md): the lines of OPEN, CONFIGURE and CLOSE that more
than one form uses, the commands performed undisturbed, and their meanings. -/

namespace Sys2Proof.Machine

open Sys2Proof

/-- The line of a slot's port. -/
def State.lineOf (s : State) (q : Slot) : Line := s.cfg.lineOf.get q

/-- M stands at line `n` of command `c`, with the given `done` and `k`. -/
def State.atLine (s : State) (c : Cmd) (n : Nat) (moved k : Word) : State :=
  s.setMseq (.run c n (MLocals.at_ moved k))

/-- An API command issued as a word (spec/10_state.md R21, spec/30_encoding.md R90): refused while a command
runs; while a handler runs M waits at line 1; else the command is performed undisturbed to its end or to its
first wait (log entry 4). -/
def issueCommand (c : Cmd) (whole : State → Res Unit) (s : State) : Out :=
  if s.mseq ≠ .idle then .refused .busy
  else if s.ctx ≠ [] then .next (s.atLine c 1 0#32 0#32)
  else (whole s).outcome

/-! ### OPEN (R210) -/

/-- OPEN line 1: the tests, in order (spec/45_lifecycle.md R210, spec/60_exceptions.md R312). -/
def openCheck (p : BitVec 4) (s : State) : Except ErrKind Slot :=
  match slotOfSel p with
  | none => .error .invalidPortNumber
  | some q =>
    if s.cfg.variantOf.get q = .integ ∧ !s.cfg.integPresent then .error .unsupportedUart
    else if regLookup p s = .present then .error .portAlreadyOpen
    else if !modeOk s.a0 then .error .illegalSetting
    else if !(capacityOk s.cfg s.a1 && capacityOk s.cfg s.a2) then .error .invalidBufferSize
    else .ok q

/-- The unwinding of OPEN line 3 (spec/45_lifecycle.md R210, R212). -/
def State.openUndo (s : State) (q : Slot) : State :=
  ((s.setSlot q none).setLife q .closed).fail .noUartDetected

/-- OPEN line 3: the presence test, STD only. -/
def openDetect (q : Slot) (s : State) : Res Bool :=
  match (s.regs q).variant with
  | .std => halDetect q s
  | .integ => .ok true s

/-- OPEN line 10. -/
def openEnd (q : Slot) (s : State) : State := (s.setLife q .opened).finish 0#32

/-- OPEN lines 4 to 10. -/
def openHook (q : Slot) (s : State) : Res Unit :=
  (runHal q accSnapshot s).andThen fun _ s =>
    (runHal q accInit ((s.maskLine (s.lineOf q)).hookLine (s.lineOf q))).andThen fun _ s =>
      (runHal q accEnRx s).andThen fun _ s => .ok () (openEnd q (s.unmaskLine (s.lineOf q)))

/-- OPEN lines 3 to 10. -/
def openTail (q : Slot) (s : State) : Res Unit :=
  (openDetect q s).andThen fun d s => if d then openHook q s else .ok () (s.openUndo q)

/-- OPEN, undisturbed (spec/45_lifecycle.md R210). -/
def openWhole (p : BitVec 4) (s : State) : Res Unit :=
  match openCheck p s with
  | .error e => .ok () (s.fail e)
  | .ok q =>
    (regAlloc q s.a0 s.a1 s.a2 s).andThen fun a s =>
      if a then openTail q (s.setLife q .opening) else .ok () (s.fail .outOfMemory)

/-! ### CONFIGURE (R214) -/

/-- The tests of every command but OPEN and CLOSE (spec/46_transfer.md R230). -/
def prologue (p : BitVec 4) (s : State) : Except ErrKind (Slot × PortState) :=
  match slotOfSel p with
  | none => .error .invalidPortNumber
  | some q =>
    match s.slots.get q with
    | none => .error .portNotOpen
    | some ps => .ok (q, ps)

/-- CONFIGURE line 1 (spec/45_lifecycle.md R214). -/
def configureCheck (p : BitVec 4) (s : State) : Except ErrKind Slot :=
  match prologue p s with
  | .error e => .error e
  | .ok (q, ps) =>
    if settingsOk s.cfg ps.regs.variant s.a0 s.a1 s.a2 s.a3 then .ok q else .error .illegalSetting

/-- CONFIGURE, undisturbed (spec/45_lifecycle.md R214). -/
def configureWhole (p : BitVec 4) (s : State) : Res Unit :=
  match configureCheck p s with
  | .error e => .ok () (s.fail e)
  | .ok q =>
    (halConfig q s.a0 s.a1 s.a2 s.a3 (s.maskLine (s.lineOf q))).andThen fun _ s =>
      .ok () ((s.unmaskLine (s.lineOf q)).finish 0#32)

/-! ### CLOSE (R216) -/

/-- CLOSE line 7. -/
def State.dropPort (s : State) (q : Slot) : State := (s.setSlot q none).setLife q .closed

/-- CLOSE line 8. -/
def State.unmaskIfUsed (s : State) (l : Line) : State :=
  if 0 < s.lineRefs.get l then s.unmaskLine l else s

/-- CLOSE lines 3 to 9. -/
def closeTail (q : Slot) (s : State) : Res Unit :=
  (runHal q accDisInt (s.maskLine (s.lineOf q))).andThen fun _ s =>
    (runHal q accRestore (s.unhookLine (s.lineOf q))).andThen fun _ s =>
      .ok () (((s.dropPort q).unmaskIfUsed (s.lineOf q)).finish 0#32)

/-- CLOSE waits at its spin, line 2 (spec/45_lifecycle.md R217). -/
def State.closeWait (s : State) (p : BitVec 4) : State := s.atLine ⟨.close, p⟩ 2 0#32 0#32

/-- CLOSE from line 2, one round of its spin (spec/45_lifecycle.md R216). -/
def closeSpin (p : BitVec 4) (q : Slot) (ps : PortState) (s : State) : Res Unit :=
  if !ps.blocking then closeTail q s
  else if ps.tx.count ≠ 0#16 then .ok () (s.closeWait p)
  else (halTxEmpty q s).andThen fun e s => if e then closeTail q s else .ok () (s.closeWait p)

/-- CLOSE, undisturbed (spec/45_lifecycle.md R216, R218). -/
def closeWhole (p : BitVec 4) (s : State) : Res Unit :=
  match slotOfSel p with
  | none => .ok () (s.fail .invalidPortNumber)
  | some q =>
    match s.slots.get q with
    | none => .ok () (s.finish 0#32)
    | some ps => closeSpin p q ps (s.setLife q .closing)

/-! ### The meanings -/

/-- OPEN (spec/45_lifecycle.md R210). -/
def execOpen (p : BitVec 4) (s : State) : Out := issueCommand ⟨.openPort, p⟩ (openWhole p) s

/-- CONFIGURE (spec/45_lifecycle.md R214). -/
def execConfigure (p : BitVec 4) (s : State) : Out :=
  issueCommand ⟨.configure, p⟩ (configureWhole p) s

/-- CLOSE (spec/45_lifecycle.md R216). -/
def execClose (p : BitVec 4) (s : State) : Out := issueCommand ⟨.close, p⟩ (closeWhole p) s

end Sys2Proof.Machine
end

