-- ==== Sys2Proof/Machine/Transfer.lean ====
section
/-! DEFINITION. The transfer engine (spec/46_transfer.md): the kick, one pass of SEND and RECV, the commands
performed undisturbed, and their meanings. -/

namespace Sys2Proof.Machine

open Sys2Proof

/-- Runs `f` on an open port, or ends the command with the error of the prologue (spec/46_transfer.md R230). -/
def withOpen (p : BitVec 4) (s : State) (f : Slot → PortState → Res Unit) : Res Unit :=
  match prologue p s with
  | .error e => .ok () (s.fail e)
  | .ok (q, ps) => f q ps

/-- KICK (spec/46_transfer.md R232). -/
def kick (q : Slot) (s : State) : Res Unit :=
  withPort q s fun ps =>
    if ps.tx.count = 0#16 then .ok () s
    else
      (halTxEmpty q s).andThen fun e s =>
        if e then
          (runHal q accEnTx s).andThen fun _ s =>
            (runHal q accBurst s).andThen fun _ s => .ok () s
        else .ok () s

/-- The bytes a pass of SEND moves: `min(room, len - done)` (spec/46_transfer.md R231 line 4). -/
def sendCount (ps : PortState) (moved len : Word) : Nat := min ps.tx.room (len.toNat - moved.toNat)

/-- The bytes a pass of RECV moves: `min(rx.count, len - done)` (spec/46_transfer.md R233 line 4). -/
def recvCount (ps : PortState) (moved len : Word) : Nat := min ps.rx.count.toNat (len.toNat - moved.toNat)

/-- Line 4 of SEND (spec/46_transfer.md R231); it answers `k`. -/
def sendCopy (q : Slot) (moved : Word) (s : State) : Res Word :=
  withPort q s fun ps =>
    let k := sendCount ps moved s.a1
    (ringPushN q .tx k (s.a0.toNat + moved.toNat) s).andThen fun _ s => .ok (BitVec.ofNat 32 k) s

/-- Line 4 of RECV (spec/46_transfer.md R233); it answers `k`. -/
def recvCopy (q : Slot) (moved : Word) (s : State) : Res Word :=
  withPort q s fun ps =>
    let k := recvCount ps moved s.a1
    (ringPopN q .rx k (s.a0.toNat + moved.toNat) s).andThen fun _ s => .ok (BitVec.ofNat 32 k) s

/-- Lines 3 to 6 of SEND, one pass (spec/46_transfer.md R231, R238). -/
def sendPass (q : Slot) (moved : Word) (s : State) : Res Word :=
  (sendCopy q moved (s.maskLine (s.lineOf q))).andThen fun k s =>
    (kick q s).andThen fun _ s => .ok k (s.unmaskLine (s.lineOf q))

/-- Lines 3 to 5 of RECV, one pass (spec/46_transfer.md R233, R238). -/
def recvPass (q : Slot) (moved : Word) (s : State) : Res Word :=
  (recvCopy q moved (s.maskLine (s.lineOf q))).andThen fun k s => .ok k (s.unmaskLine (s.lineOf q))

/-- The end of a pass: a non-blocking call returns; a blocking one returns when all is moved and else waits
at its spin iteration boundary, line 2 (spec/46_transfer.md R231, R233, R237). -/
def afterPass (c : Cmd) (blocking : Bool) (moved : Word) (s : State) : State :=
  if !blocking then s.finish moved
  else if moved = s.a1 then s.finish moved
  else s.atLine c 2 moved 0#32

/-- SEND, undisturbed, to its end or to its first wait (spec/46_transfer.md R231). -/
def sendWhole (p : BitVec 4) (s : State) : Res Unit :=
  withOpen p s fun q ps =>
    if !bufferInside s.cfg s.a0.toNat s.a1.toNat then .refuse .bufferOutside
    else if s.a1 = 0#32 then .ok () (s.finish 0#32)
    else (sendPass q 0#32 s).andThen fun k s => .ok () (afterPass ⟨.send, p⟩ ps.blocking k s)

/-- RECV, undisturbed, to its end or to its first wait (spec/46_transfer.md R233). -/
def recvWhole (p : BitVec 4) (s : State) : Res Unit :=
  withOpen p s fun q ps =>
    if !bufferInside s.cfg s.a0.toNat s.a1.toNat then .refuse .bufferOutside
    else if s.a1 = 0#32 then .ok () (s.finish 0#32)
    else (recvPass q 0#32 s).andThen fun k s => .ok () (afterPass ⟨.recv, p⟩ ps.blocking k s)

/-- CLEAR, undisturbed (spec/46_transfer.md R235). -/
def clearWhole (p : BitVec 4) (d : Dir) (s : State) : Res Unit :=
  withOpen p s fun q _ =>
    (ringClear q d (s.maskLine (s.lineOf q))).andThen fun _ s =>
      .ok () ((s.unmaskLine (s.lineOf q)).finish 0#32)

/-- AVAILABLE (spec/46_transfer.md R234). -/
def availableWhole (p : BitVec 4) (s : State) : Res Unit :=
  withOpen p s fun q _ => (ringAvail q .rx s).andThen fun n s => .ok () (s.finish (n.setWidth 32))

/-- The result of RXDROPPED: `min(rx_dropped, 2^31 - 1)` (spec/46_transfer.md R236). -/
def droppedResult (n : Word) : Word := BitVec.ofNat 32 (min n.toNat 2147483647)

/-- RXDROPPED (spec/46_transfer.md R236). -/
def rxDroppedWhole (p : BitVec 4) (s : State) : Res Unit :=
  withOpen p s fun _ ps => .ok () (s.finish (droppedResult ps.rxDropped))

/-! ### The meanings -/

/-- SEND (spec/46_transfer.md R231). -/
def execSend (p : BitVec 4) (s : State) : Out := issueCommand ⟨.send, p⟩ (sendWhole p) s

/-- RECV (spec/46_transfer.md R233). -/
def execRecv (p : BitVec 4) (s : State) : Out := issueCommand ⟨.recv, p⟩ (recvWhole p) s

/-- CLEAR (spec/46_transfer.md R235). -/
def execClear (p : BitVec 4) (d : Dir) (s : State) : Out := issueCommand ⟨.clear d, p⟩ (clearWhole p d) s

/-- AVAILABLE (spec/46_transfer.md R234). -/
def execAvailable (p : BitVec 4) (s : State) : Out :=
  issueCommand ⟨.available, p⟩ (availableWhole p) s

/-- RXDROPPED (spec/46_transfer.md R236). -/
def execRxDropped (p : BitVec 4) (s : State) : Out :=
  issueCommand ⟨.rxDropped, p⟩ (rxDroppedWhole p) s

end Sys2Proof.Machine
end

