-- ==== Sys2Proof/Machine/Sequencer.lean ====
section
/-! DEFINITION. The sequencer of M (spec/10_state.md R38, R39): the next step of a running command, line by
line and access by access, so that other agents can move between any two of them (spec/00_scope.md R15, log
entry 23). A sequencer position that no rule reaches takes no step. -/

namespace Sys2Proof.Machine

open Sys2Proof

/-- The next access of the capability on the current line, from its first access `start`; `fin` ends the line
with the temporary. -/
def mainHal (c : Cmd) (line : Nat) (loc : MLocals) (q : Slot) (start : List Acc)
    (fin : Half → State → Res Unit) (s : State) : Res Unit :=
  match if loc.sub = 0 then start else loc.hal with
  | [] => fin loc.v s
  | a :: as =>
    (accStep q a loc.v s).andThen fun r s =>
      if r.2 ∨ as = [] then fin r.1 s
      else .ok () (s.setMseq (.run c line ⟨loc.moved, loc.k, max loc.sub 1, as, r.1⟩))

/-- OPEN, lines 2 to 10 (spec/45_lifecycle.md R210). -/
def openStep (c : Cmd) (line : Nat) (loc : MLocals) (q : Slot) (s : State) : Res Unit :=
  let goto (n : Nat) (s : State) : Res Unit := .ok () (s.atLine c n 0#32 0#32)
  let regs := s.regs q
  match line with
  | 2 => (regAlloc q s.a0 s.a1 s.a2 s).andThen fun a s =>
      if a then goto 3 (s.setLife q .opening) else .ok () (s.fail .outOfMemory)
  | 3 => match regs.variant with
    | .std => mainHal c 3 loc q (accDetect s.cfg regs)
        (fun v s => if detectOf regs v then goto 4 s else .ok () (s.openUndo q)) s
    | .integ => goto 4 s
  | 4 => mainHal c 4 loc q (accSnapshot s.cfg regs) (fun _ s => goto 5 s) s
  | 5 => goto 6 (s.maskLine (s.lineOf q))
  | 6 => goto 7 (s.hookLine (s.lineOf q))
  | 7 => mainHal c 7 loc q (accInit s.cfg regs) (fun _ s => goto 8 s) s
  | 8 => mainHal c 8 loc q (accEnRx s.cfg regs) (fun _ s => goto 9 s) s
  | 9 => goto 10 (s.unmaskLine (s.lineOf q))
  | 10 => .ok () (openEnd q s)
  | _ => .ok () s

/-- CONFIGURE, lines 2 to 5 (spec/45_lifecycle.md R214). -/
def configureStep (c : Cmd) (line : Nat) (loc : MLocals) (q : Slot) (s : State) : Res Unit :=
  let goto (n : Nat) (s : State) : Res Unit := .ok () (s.atLine c n 0#32 0#32)
  match line with
  | 2 => goto 3 (s.maskLine (s.lineOf q))
  | 3 => mainHal c 3 loc q (accConfig s.a0 s.a1 s.a2 s.a3 s.cfg (s.regs q)) (fun _ s => goto 4 s) s
  | 4 => goto 5 (s.unmaskLine (s.lineOf q))
  | 5 => .ok () (s.finish 0#32)
  | _ => .ok () s

/-- CLOSE, lines 2 to 9 (spec/45_lifecycle.md R216). On line 2 the read of `tx.count` is a step of its own before
the access of HAL.TX_EMPTY of the same round (spec/00_scope.md R15 leaves that boundary open: DESIGN CHOICE, log
entry 37). -/
def closeStep (c : Cmd) (line : Nat) (loc : MLocals) (q : Slot) (s : State) : Res Unit :=
  let goto (n : Nat) (s : State) : Res Unit := .ok () (s.atLine c n 0#32 0#32)
  let regs := s.regs q
  match line with
  | 2 => withPort q s fun ps =>
      if !ps.blocking then goto 3 s
      else if loc.sub = 0 then
        if ps.tx.count ≠ 0#16 then goto 2 s
        else .ok () (s.setMseq (.run c 2 ⟨0#32, 0#32, 1, accTxEmpty s.cfg regs, 0#16⟩))
      else mainHal c 2 loc q [] (fun v s => if txEmptyOf s.cfg regs v then goto 3 s else goto 2 s) s
  | 3 => goto 4 (s.maskLine (s.lineOf q))
  | 4 => mainHal c 4 loc q (accDisInt s.cfg regs) (fun _ s => goto 5 s) s
  | 5 => goto 6 (s.unhookLine (s.lineOf q))
  | 6 => mainHal c 6 loc q (accRestore s.cfg regs) (fun _ s => goto 7 s) s
  | 7 => goto 8 (s.dropPort q)
  | 8 => goto 9 (s.unmaskIfUsed (s.lineOf q))
  | 9 => .ok () (s.finish 0#32)
  | _ => .ok () s

/-- The kick on line 5 of SEND (spec/46_transfer.md R232): the status read, then, if the device is empty, the
enable and the load. -/
def kickStep (c : Cmd) (loc : MLocals) (q : Slot) (s : State) : Res Unit :=
  let next (s : State) : Res Unit := .ok () (s.atLine c 6 loc.moved loc.k)
  withPort q s fun ps =>
    if loc.sub = 0 then
      if ps.tx.count = 0#16 then next s
      else
        mainHal c 5 loc q (accTxEmpty s.cfg ps.regs)
          (fun v s =>
            if txEmptyOf s.cfg ps.regs v then
              .ok () (s.setMseq (.run c 5 ⟨loc.moved, loc.k, 2,
                accEnTx s.cfg ps.regs ++ accBurst s.cfg ps.regs, 0#16⟩))
            else next s) s
    else mainHal c 5 loc q [] (fun _ s => next s) s

/-- SEND, lines 2 to 8 (spec/46_transfer.md R231). -/
def sendStep (c : Cmd) (line : Nat) (loc : MLocals) (q : Slot) (s : State) : Res Unit :=
  let goto (n : Nat) (moved k : Word) (s : State) : Res Unit := .ok () (s.atLine c n moved k)
  match line with
  | 2 => if loc.moved = s.a1 then .ok () (s.finish loc.moved) else goto 3 loc.moved 0#32 s
  | 3 => goto 4 loc.moved 0#32 (s.maskLine (s.lineOf q))
  | 4 => (sendCopy q loc.moved s).andThen fun k s => goto 5 loc.moved k s
  | 5 => kickStep c loc q s
  | 6 => goto 7 loc.moved loc.k (s.unmaskLine (s.lineOf q))
  | 7 => withPort q s fun ps =>
      if !ps.blocking then .ok () (s.finish (loc.moved + loc.k))
      else goto 8 (loc.moved + loc.k) 0#32 s
  | 8 => goto 2 loc.moved 0#32 s
  | _ => .ok () s

/-- RECV, lines 2 to 7 (spec/46_transfer.md R233). -/
def recvStep (c : Cmd) (line : Nat) (loc : MLocals) (q : Slot) (s : State) : Res Unit :=
  let goto (n : Nat) (moved k : Word) (s : State) : Res Unit := .ok () (s.atLine c n moved k)
  match line with
  | 2 => if loc.moved = s.a1 then .ok () (s.finish loc.moved) else goto 3 loc.moved 0#32 s
  | 3 => goto 4 loc.moved 0#32 (s.maskLine (s.lineOf q))
  | 4 => (recvCopy q loc.moved s).andThen fun k s => goto 5 loc.moved k s
  | 5 => goto 6 loc.moved loc.k (s.unmaskLine (s.lineOf q))
  | 6 => withPort q s fun ps =>
      if !ps.blocking then .ok () (s.finish (loc.moved + loc.k))
      else goto 7 (loc.moved + loc.k) 0#32 s
  | 7 => goto 2 loc.moved 0#32 s
  | _ => .ok () s

/-- CLEAR, lines 2 to 5 (spec/46_transfer.md R235, which numbers no lines: DESIGN CHOICE, log entry 38). -/
def clearStep (c : Cmd) (d : Dir) (line : Nat) (q : Slot) (s : State) : Res Unit :=
  let goto (n : Nat) (s : State) : Res Unit := .ok () (s.atLine c n 0#32 0#32)
  match line with
  | 2 => goto 3 (s.maskLine (s.lineOf q))
  | 3 => (ringClear q d s).andThen fun _ s => goto 4 s
  | 4 => goto 5 (s.unmaskLine (s.lineOf q))
  | 5 => .ok () (s.finish 0#32)
  | _ => .ok () s

/-- AVAILABLE and RXDROPPED, lines 2 and 3: the read, then the return, so that an interrupt can fall between them
(spec/20_memory.md R79, spec/46_transfer.md R234, R236, which number no lines: DESIGN CHOICE, log entry 38).
`read` is the value read, `result` what it returns as. -/
def readStep (c : Cmd) (line : Nat) (loc : MLocals) (read : PortState → Word) (result : Word → Word) (q : Slot)
    (s : State) : Res Unit :=
  match line with
  | 2 => withPort q s fun ps => .ok () (s.atLine c 3 0#32 (read ps))
  | 3 => .ok () (s.finish (result loc.k))
  | _ => .ok () s

/-- Line 1 of a command: the tests (spec/60_exceptions.md R312) and what the rule writes with them. -/
def firstLine (c : Cmd) (s : State) : Res Unit :=
  let goto2 (s : State) : Res Unit := .ok () (s.atLine c 2 0#32 0#32)
  match c.op with
  | .openPort => match openCheck c.p s with
    | .error e => .ok () (s.fail e)
    | .ok _ => goto2 s
  | .configure => match configureCheck c.p s with
    | .error e => .ok () (s.fail e)
    | .ok _ => goto2 s
  | .send => withOpen c.p s fun _ _ =>
      if !bufferInside s.cfg s.a0.toNat s.a1.toNat then .refuse .bufferOutside else goto2 s
  | .recv => withOpen c.p s fun _ _ =>
      if !bufferInside s.cfg s.a0.toNat s.a1.toNat then .refuse .bufferOutside else goto2 s
  | .clear _ => withOpen c.p s fun _ _ => goto2 s
  | .available => withOpen c.p s fun _ _ => goto2 s
  | .close => match slotOfSel c.p with
    | none => .ok () (s.fail .invalidPortNumber)
    | some q =>
      if (s.slots.get q).isNone then .ok () (s.finish 0#32) else goto2 (s.setLife q .closing)
  | .rxDropped => withOpen c.p s fun _ _ => goto2 s

/-- A later line of a command. -/
def laterLine (c : Cmd) (line : Nat) (loc : MLocals) (q : Slot) (s : State) : Res Unit :=
  match c.op with
  | .openPort => openStep c line loc q s
  | .configure => configureStep c line loc q s
  | .send => sendStep c line loc q s
  | .recv => recvStep c line loc q s
  | .clear d => clearStep c d line q s
  | .available => readStep c line loc (fun ps => ps.rx.count.setWidth 32) id q s
  | .close => closeStep c line loc q s
  | .rxDropped => readStep c line loc (·.rxDropped) droppedResult q s

/-- The next step of M (spec/10_state.md R38). With no command M waits for one (spec/70_reset_and_hazards.md
R342). -/
def mainStep (s : State) : Res Unit :=
  match s.mseq with
  | .idle => .ok () s
  | .run c 1 _ => firstLine c s
  | .run c line loc =>
    match slotOfSel c.p with
    | none => .ok () s
    | some q => laterLine c line loc q s

/-- The next step of the running agent (spec/10_state.md R41). -/
def coreStep (s : State) : Res Unit :=
  match s.ctx with
  | [] => mainStep s
  | l :: _ => isrStep l s

end Sys2Proof.Machine
end

