-- ==== Sys2Proof/Machine/Schedule.lean ====
section
/-! DEFINITION. The schedule: what the next move is and what the moves of HOST do (spec/00_scope.md R15,
spec/10_state.md R46, log entry 3). -/

namespace Sys2Proof.Machine

open Sys2Proof

/-- The API command an operation is, if it is one (spec/30_encoding.md R92). -/
def apiCommand : Instr → Option Cmd
  | .openPort p => some ⟨.openPort, p⟩
  | .configure p => some ⟨.configure, p⟩
  | .send p => some ⟨.send, p⟩
  | .recv p => some ⟨.recv, p⟩
  | .clear p d => some ⟨.clear d, p⟩
  | .available p => some ⟨.available, p⟩
  | .close p => some ⟨.close, p⟩
  | .rxDropped p => some ⟨.rxDropped, p⟩
  | _ => none

/-- HOST writes `CMD` (spec/10_state.md R21, spec/30_encoding.md R92): an illegal word and a word of another
class are refused; else the command starts. -/
def writeCmd (w : Word) (s : State) : Out :=
  match decode w with
  | none => .refused .illegalWord
  | some i =>
    match apiCommand i with
    | none => .refused .notOnCmd
    | some c => if s.mseq ≠ .idle then .refused .busy else .next (s.atLine c 1 0#32 0#32)

/-- The address lies in the buffer of the SEND or RECV that runs, if one runs (spec/20_memory.md R84). -/
def bufferHeld (s : State) (a : Word) : Bool :=
  let inside := s.a0.toNat ≤ a.toNat && a.toNat < s.a0.toNat + s.a1.toNat
  match s.mseq with
  | .run ⟨.send, _⟩ _ _ => inside
  | .run ⟨.recv, _⟩ _ _ => inside
  | _ => false

/-- RECV runs (spec/20_memory.md R84). -/
def recvRuns (s : State) : Bool :=
  match s.mseq with
  | .run ⟨.recv, _⟩ _ _ => true
  | _ => false

/-- HOST writes a byte of `HBUF` (spec/20_memory.md R60, R84). An address that `HBUF` does not have is refused
(DESIGN CHOICE, log entry 35). -/
def hostPoke (a : Word) (b : Byte) (s : State) : Out :=
  if s.cfg.hbufSize ≤ a.toNat then .refused .bufferOutside
  else if bufferHeld s a then .refused .bufferInUse
  else .next (s.setHbuf (cellsWrite s.hbuf a.toNat b))

/-- HOST reads a byte of `HBUF` (spec/20_memory.md R60, R84). -/
def hostPeek (a : Word) (s : State) : Out :=
  if s.cfg.hbufSize ≤ a.toNat then .refused .bufferOutside
  else if bufferHeld s a && recvRuns s then .refused .bufferInUse
  else if (cellsRead s.hbuf a.toNat).isNone then .fault .hbufUnwritten
  else .next s

/-- What the next step is: an operation to perform from a state, or an outcome. -/
inductive Todo where
  | perform (i : Instr) (s : State)
  | settled (o : Out)

/-- A word issued (log entry 4). -/
def issueWord (w : Word) (s : State) : Todo :=
  match decode w with
  | none => .settled (.refused .illegalWord)
  | some i => .perform i s

/-- The next move: the head of the schedule, taken off it; when the schedule is empty the running agent
moves. -/
def nextTodo (s : State) : Todo :=
  match s.moves with
  | [] => .settled (coreStep s).outcome
  | m :: ms =>
    let s := { s with moves := ms }
    match m with
    | .word w => issueWord w s
    | .cmd w => .settled (writeCmd w s)
    | .setX i v => .settled (hostSetX i v s)
    | .poke a b => .settled (hostPoke a b s)
    | .peek a => .settled (hostPeek a s)
    | .core => .settled (coreStep s).outcome

end Sys2Proof.Machine
end

