-- ==== Sys2Proof/Machine/Dispatch.lean ====
section
/-! DEFINITION. The dispatch of an operation to its meaning, one arm per constructor of Instr.

spec/30_encoding.md R93 names who issues each class and gives no outcome for another issuer. A word of classes 2
to 6 is performed whichever agent runs and whatever the masks (DESIGN CHOICE, log entry 36); ring mutators alone
are refused outside their issuing condition (spec/41_ring_buffer.md R121). -/

namespace Sys2Proof.Machine

open Sys2Proof

def exec (i : Instr) (s : State) : Host.Outcome State Fault Refusal :=
  match i with
  | .openPort p => Sys2Proof.Machine.execOpen p s
  | .configure p => Sys2Proof.Machine.execConfigure p s
  | .send p => Sys2Proof.Machine.execSend p s
  | .recv p => Sys2Proof.Machine.execRecv p s
  | .clear p d => Sys2Proof.Machine.execClear p d s
  | .available p => Sys2Proof.Machine.execAvailable p s
  | .close p => Sys2Proof.Machine.execClose p s
  | .rxDropped p => Sys2Proof.Machine.execRxDropped p s
  | .rbPush p d b => Sys2Proof.Machine.execRbPush p d b s
  | .rbPop p d => Sys2Proof.Machine.execRbPop p d s
  | .rbAvail p d => Sys2Proof.Machine.execRbAvail p d s
  | .rbClear p d => Sys2Proof.Machine.execRbClear p d s
  | .rbPushN p d n => Sys2Proof.Machine.execRbPushN p d n s
  | .rbPopN p d n => Sys2Proof.Machine.execRbPopN p d n s
  | .regLookup p => Sys2Proof.Machine.execRegLookup p s
  | .regAlloc p => Sys2Proof.Machine.execRegAlloc p s
  | .regFree p => Sys2Proof.Machine.execRegFree p s
  | .halEnRx p => Sys2Proof.Machine.execHalEnRx p s
  | .halEnTx p => Sys2Proof.Machine.execHalEnTx p s
  | .halDisInt p => Sys2Proof.Machine.execHalDisInt p s
  | .halCause p => Sys2Proof.Machine.execHalCause p s
  | .halDrainRx p => Sys2Proof.Machine.execHalDrainRx p s
  | .halFillTx p m => Sys2Proof.Machine.execHalFillTx p m s
  | .halConfig p => Sys2Proof.Machine.execHalConfig p s
  | .halAckLine l => Sys2Proof.Machine.execHalAckLine l s
  | .halTxEmpty p => Sys2Proof.Machine.execHalTxEmpty p s
  | .halDetect p => Sys2Proof.Machine.execHalDetect p s
  | .halInit p => Sys2Proof.Machine.execHalInit p s
  | .halSnapshot p => Sys2Proof.Machine.execHalSnapshot p s
  | .halRestore p => Sys2Proof.Machine.execHalRestore p s
  | .halClrMs p => Sys2Proof.Machine.execHalClrMs p s
  | .halClrLs p => Sys2Proof.Machine.execHalClrLs p s
  | .halDisTx p => Sys2Proof.Machine.execHalDisTx p s
  | .dspEnter l => Sys2Proof.Machine.execDspEnter l s
  | .dspVisit p => Sys2Proof.Machine.execDspVisit p s
  | .dspExit l => Sys2Proof.Machine.execDspExit l s
  | .dspOnModem p => Sys2Proof.Machine.execDspOnModem p s
  | .dspOnLine p => Sys2Proof.Machine.execDspOnLine p s
  | .dspOnTxEmpty p => Sys2Proof.Machine.execDspOnTxEmpty p s
  | .dspOnRxReady p => Sys2Proof.Machine.execDspOnRxReady p s
  | .dspOnRxTimeout p => Sys2Proof.Machine.execDspOnRxTimeout p s
  | .hostRd8 a => Sys2Proof.Machine.execHostRd8 a s
  | .hostRd16 a => Sys2Proof.Machine.execHostRd16 a s
  | .hostWr8 a => Sys2Proof.Machine.execHostWr8 a s
  | .hostWr16 a => Sys2Proof.Machine.execHostWr16 a s
  | .hostInstall l => Sys2Proof.Machine.execHostInstall l s
  | .hostRestore l => Sys2Proof.Machine.execHostRestore l s
  | .hostMask l => Sys2Proof.Machine.execHostMask l s
  | .hostUnmask l => Sys2Proof.Machine.execHostUnmask l s
  | .envRxArrive p b => Sys2Proof.Machine.execEnvRxArrive p b s
  | .envTxShift p => Sys2Proof.Machine.execEnvTxShift p s
  | .envLineEvent p => Sys2Proof.Machine.execEnvLineEvent p s
  | .envModemEvent p => Sys2Proof.Machine.execEnvModemEvent p s
  | .envRxTimeout p => Sys2Proof.Machine.execEnvRxTimeout p s

end Sys2Proof.Machine
end

