-- ==== Sys2Proof/Machine/Step.lean ====
section
/-! DEFINITION. One step of the machine, and where a word is placed to be the next one performed. -/

namespace Sys2Proof.Machine

open Sys2Proof

/-- One step: the next move of the schedule (spec/00_scope.md R15). A configuration that breaks its
constraints is refused (spec/20_memory.md R68, log entry 32). -/
def step (s : State) : Host.Outcome State Fault Refusal :=
  match nextTodo s with
  | .perform i s' => if s.cfg.wf then exec i s' else .refused .badConfig
  | .settled o => if s.cfg.wf then o else .refused .badConfig

/-- `s` with the word placed as the next move (log entry 3). -/
def State.withFetchWord (s : State) (nbits w : Nat) : State :=
  s.issue (BitVec.ofNat 32 (w % 2 ^ nbits))

end Sys2Proof.Machine
end

