-- ==== Sys2Proof/Safety.lean ====
section
/-! DEFINITION. What counts as a safe state and a safe run, in the terms the statements use: the contents of a
ring, the invariants of the state, what each class of operation may write, and the runs of a sequencer. -/

namespace Sys2Proof.Machine

open Sys2Proof

/-! ### The opcode table -/

/-- A row of the opcode table: the bits that are fixed, their values, and whether `sel` is a line identifier
(spec/30_encoding.md R94 to R102). -/
structure OpRow where
  mask : Word
  value : Word
  onLine : Bool
  deriving DecidableEq, Repr

/-- The word is one of the row's: its fixed bits are right and a line identifier names a line
(spec/30_encoding.md R107). -/
def OpRow.legal (r : OpRow) (w : Word) : Bool :=
  w &&& r.mask = r.value && (!r.onLine || (w.extractLsb' 20 4).toNat < 3)

/-- The rows of class 1. -/
def apiRows : List OpRow := [
  ⟨0xFF0FFFFF#32, 0x10000000#32, false⟩,
  ⟨0xFF0FFFFF#32, 0x11000000#32, false⟩,
  ⟨0xFF0FFFFF#32, 0x12000000#32, false⟩,
  ⟨0xFF0FFFFF#32, 0x13000000#32, false⟩,
  ⟨0xFF07FFFF#32, 0x14000000#32, false⟩,
  ⟨0xFF0FFFFF#32, 0x15000000#32, false⟩,
  ⟨0xFF0FFFFF#32, 0x16000000#32, false⟩,
  ⟨0xFF0FFFFF#32, 0x17000000#32, false⟩]

/-- The rows of class 2. -/
def rbRows : List OpRow := [
  ⟨0xFF07FF00#32, 0x20000000#32, false⟩,
  ⟨0xFF07FFFF#32, 0x21000000#32, false⟩,
  ⟨0xFF07FFFF#32, 0x22000000#32, false⟩,
  ⟨0xFF07FFFF#32, 0x23000000#32, false⟩,
  ⟨0xFF070000#32, 0x24000000#32, false⟩,
  ⟨0xFF070000#32, 0x25000000#32, false⟩]

/-- The rows of class 3. -/
def regRows : List OpRow := [
  ⟨0xFF0FFFFF#32, 0x30000000#32, false⟩,
  ⟨0xFF0FFFFF#32, 0x31000000#32, false⟩,
  ⟨0xFF0FFFFF#32, 0x32000000#32, false⟩]

/-- The rows of class 4. -/
def halRows : List OpRow := [
  ⟨0xFF0FFFFF#32, 0x40000000#32, false⟩,
  ⟨0xFF0FFFFF#32, 0x41000000#32, false⟩,
  ⟨0xFF0FFFFF#32, 0x42000000#32, false⟩,
  ⟨0xFF0FFFFF#32, 0x43000000#32, false⟩,
  ⟨0xFF0FFFFF#32, 0x44000000#32, false⟩,
  ⟨0xFF0FFF00#32, 0x45000000#32, false⟩,
  ⟨0xFF0FFFFF#32, 0x46000000#32, false⟩,
  ⟨0xFF0FFFFF#32, 0x47000000#32, true⟩,
  ⟨0xFF0FFFFF#32, 0x48000000#32, false⟩,
  ⟨0xFF0FFFFF#32, 0x49000000#32, false⟩,
  ⟨0xFF0FFFFF#32, 0x4A000000#32, false⟩,
  ⟨0xFF0FFFFF#32, 0x4B000000#32, false⟩,
  ⟨0xFF0FFFFF#32, 0x4C000000#32, false⟩,
  ⟨0xFF0FFFFF#32, 0x4D000000#32, false⟩,
  ⟨0xFF0FFFFF#32, 0x4E000000#32, false⟩,
  ⟨0xFF0FFFFF#32, 0x4F000000#32, false⟩]

/-- The rows of class 5. -/
def dspRows : List OpRow := [
  ⟨0xFF0FFFFF#32, 0x50000000#32, true⟩,
  ⟨0xFF0FFFFF#32, 0x51000000#32, false⟩,
  ⟨0xFF0FFFFF#32, 0x52000000#32, true⟩,
  ⟨0xFF0FFFFF#32, 0x53000000#32, false⟩,
  ⟨0xFF0FFFFF#32, 0x54000000#32, false⟩,
  ⟨0xFF0FFFFF#32, 0x55000000#32, false⟩,
  ⟨0xFF0FFFFF#32, 0x56000000#32, false⟩,
  ⟨0xFF0FFFFF#32, 0x57000000#32, false⟩]

/-- The rows of class 6. -/
def hostRows : List OpRow := [
  ⟨0xFFFF0000#32, 0x60000000#32, false⟩,
  ⟨0xFFFF0000#32, 0x61000000#32, false⟩,
  ⟨0xFFFF0000#32, 0x62000000#32, false⟩,
  ⟨0xFFFF0000#32, 0x63000000#32, false⟩,
  ⟨0xFF0FFFFF#32, 0x64000000#32, true⟩,
  ⟨0xFF0FFFFF#32, 0x65000000#32, true⟩,
  ⟨0xFF0FFFFF#32, 0x66000000#32, true⟩,
  ⟨0xFF0FFFFF#32, 0x67000000#32, true⟩]

/-- The rows of class 7. -/
def envRows : List OpRow := [
  ⟨0xFF0FFF00#32, 0x70000000#32, false⟩,
  ⟨0xFF0FFFFF#32, 0x71000000#32, false⟩,
  ⟨0xFF0FFFFF#32, 0x72000000#32, false⟩,
  ⟨0xFF0FFFFF#32, 0x73000000#32, false⟩,
  ⟨0xFF0FFFFF#32, 0x74000000#32, false⟩]

/-- The opcode table (spec/30_encoding.md R93 to R100). -/
def opTable : List OpRow := apiRows ++ rbRows ++ regRows ++ halRows ++ dspRows ++ hostRows ++ envRows

/-! ### Rings -/

/-- The storage index of the `i`-th queued byte (spec/10_state.md R25). -/
def RingBuffer.indexOf (rb : RingBuffer) (i : Nat) : Nat := (rb.tail.toNat + i) % rb.capacity.toNat

/-- The queued bytes, oldest first (spec/10_state.md R25); `none` is a byte nothing has written. -/
def RingBuffer.queued (rb : RingBuffer) : List (Option Byte) :=
  (List.range rb.count.toNat).map fun i => cellsRead rb.storage (rb.indexOf i)

/-- The ring invariant (spec/10_state.md R24, R25), with the storage in its canonical form. -/
def RingBuffer.ok (rb : RingBuffer) : Bool :=
  0 < rb.capacity.toNat && rb.count.toNat ≤ rb.capacity.toNat && rb.head.toNat < rb.capacity.toNat
  && rb.tail.toNat < rb.capacity.toNat
  && (rb.head.toNat + (rb.capacity.toNat - rb.tail.toNat)) % rb.capacity.toNat
    = rb.count.toNat % rb.capacity.toNat
  && cellsWf 0 rb.capacity.toNat rb.storage

/-! ### Invariants of the state -/

/-- The bounds of a STD device (spec/48_environment_device.md R270). -/
def StdDev.ok (m : StdMap) (d : StdDev) : Bool :=
  d.rxf.length ≤ d.depth && d.txf.length ≤ d.depth && d.ier &&& ~~~m.ierMask = 0#8
  && (d.fifoEn || d.trigger = .t1)

/-- A port of slot `q`: both rings meet the invariant and the address record is the slot's
(spec/10_state.md R25, R37). -/
def PortState.ok (cfg : Config) (q : Slot) (ps : PortState) : Bool :=
  ps.rx.ok && ps.tx.ok && ps.regs = regsOf cfg q

/-- What slot `q` holds is absent or such a port. -/
def State.slotOk (s : State) (q : Slot) : Bool :=
  match s.slots.get q with
  | none => true
  | some ps => ps.ok s.cfg q

/-- The data invariant: every port, every STD device and the host buffer in their legal forms. -/
def State.dataOk (s : State) : Bool :=
  Slot.all.all s.slotOk && StdSlot.all.all (fun c => (s.dev.std.get c).ok s.cfg.stdMap)
  && cellsWf 0 s.cfg.hbufSize s.hbuf

/-- The preemption stack agrees with the in-service bits and the handlers' sequencers
(spec/10_state.md R34, R40, R41). -/
def State.ctxOk (s : State) : Bool :=
  decide s.ctx.Nodup
  && Line.all.all fun l => s.inService.get l = s.ctx.contains l && (s.dseq.get l ≠ .idle) = s.ctx.contains l

/-- How many open ports a line has. -/
def State.openOn (s : State) (l : Line) : Nat :=
  (Slot.all.filter fun q => s.cfg.lineOf.get q = l ∧ (s.slots.get q).isSome).length

/-- Registry, lifecycle, reference counts and vectors agree, as they do whenever M is idle
(spec/10_state.md R29, R32). -/
def State.linesAgree (s : State) : Prop :=
  (∀ q, s.life.get q = if (s.slots.get q).isSome then .opened else .closed)
  ∧ ∀ l, s.lineRefs.get l = s.openOn l
    ∧ (s.handler.get l = .dispatcher ↔ 0 < s.lineRefs.get l)
    ∧ (0 < s.lineRefs.get l → s.savedHandler.get l ≠ .dispatcher)

/-- What OPEN and CLOSE make of the lifecycle of slot `q` between their first and their last line: `Opening` from
line 3 of OPEN on, `Closing` at lines 2 to 7 of CLOSE (spec/45_lifecycle.md R210, R216); `none` elsewhere. -/
def State.midway (s : State) (q : Slot) : Option Life :=
  match s.mseq with
  | .idle => none
  | .run c n _ =>
    if slotOfSel c.p = some q then
      match c.op with
      | .openPort => if 3 ≤ n then some .opening else none
      | .close => if 2 ≤ n ∧ n ≤ 7 then some .closing else none
      | _ => none
    else none

/-- Slot `q` has passed line 6 of OPEN and not yet line 5 of CLOSE: `line_refs` counts it
(spec/10_state.md R32). -/
def State.counted (s : State) (q : Slot) : Bool :=
  match s.life.get q, s.mseq with
  | .opened, _ => true
  | .opening, .run _ n _ => 7 ≤ n
  | .closing, .run _ n _ => n ≤ 5
  | _, _ => false

/-- Registry, lifecycle, reference counts and vectors agree, wherever M stands
(spec/10_state.md R29, R32). -/
def State.linesInv (s : State) : Prop :=
  (∀ q, match s.midway q with
    | some f => s.life.get q = f ∧ (s.slots.get q).isSome = true
    | none => s.life.get q = if (s.slots.get q).isSome then .opened else .closed)
  ∧ ∀ l, s.lineRefs.get l = (Slot.all.filter fun q => s.cfg.lineOf.get q = l ∧ s.counted q).length
    ∧ (s.handler.get l = .dispatcher ↔ 0 < s.lineRefs.get l)
    ∧ (0 < s.lineRefs.get l → s.savedHandler.get l ≠ .dispatcher)

/-- The micro-operations that rewrite the registry or a vector by themselves; the block issues them inside OPEN
and CLOSE alone (spec/42_registry.md R141, R143, spec/47_host_primitives.md R258, R259). -/
def rewires : Instr → Bool
  | .regAlloc _ => true
  | .regFree _ => true
  | .hostInstall _ => true
  | .hostRestore _ => true
  | _ => false

/-! ### What a class of operation may write -/

/-- `t` differs from `s` in the devices, the trace, the draws and the returned value alone. -/
def IoFrame (s t : State) : Prop :=
  t = { s with dev := t.dev, trace := t.trace, draws := t.draws, drawn := t.drawn, ret := t.ret }

/-- As `IoFrame`, and the PortState of slot `q` may differ too. -/
def PortIoFrame (q : Slot) (s t : State) : Prop :=
  t = { s with dev := t.dev, trace := t.trace, draws := t.draws, drawn := t.drawn, ret := t.ret,
               slots := s.slots.set q (t.slots.get q) }

/-- The part of a port other than its rings and its overflow counter is the same. -/
def PortState.sameModes (a b : PortState) : Prop := a.regs = b.regs ∧ a.blocking = b.blocking

/-- The fields an operation of a class may write (spec/30_encoding.md R93; spec/60_exceptions.md R317, R321):
the others are those of `s`. Class 1 is not limited here. -/
def ClassFrame (cls : Nat) (s t : State) : Prop :=
  match cls with
  | 2 => t = { s with slots := t.slots, hbuf := t.hbuf, draws := t.draws, drawn := t.drawn, ret := t.ret }
  | 3 => t = { s with slots := t.slots, draws := t.draws, drawn := t.drawn, ret := t.ret }
  | 4 => t = { s with slots := t.slots, dev := t.dev, trace := t.trace, draws := t.draws, drawn := t.drawn,
                      savedInteg := t.savedInteg, ret := t.ret }
  | 5 => t = { s with slots := t.slots, dev := t.dev, trace := t.trace, draws := t.draws, drawn := t.drawn,
                      ctx := t.ctx, inService := t.inService, latched := t.latched, dseq := t.dseq,
                      moves := t.moves }
  | 6 => t = { s with dev := t.dev, trace := t.trace, draws := t.draws, drawn := t.drawn,
                      handler := t.handler, masked := t.masked, ret := t.ret }
  | 7 => t = { s with dev := t.dev, wireTx := t.wireTx, wireRx := t.wireRx, latched := t.latched,
                      draws := t.draws, drawn := t.drawn }
  | _ => True

/-! ### Runs -/

/-- `t` is reached from `s` by `n` steps of the running agent, none of them ending in a fault or a
refusal. -/
def coreSteps : Nat → State → State → Prop
  | 0, s, t => t = s
  | n + 1, s, t => ∃ u, coreStep s = .ok () u ∧ coreSteps n u t

/-- Pushes the bytes one after another; the answer is whether all were taken. -/
def pushEach (q : Slot) (d : Dir) : List Byte → State → Res Bool
  | [], s => .ok true s
  | b :: bs, s => (ringPush q d b s).andThen fun ok s =>
      if ok then pushEach q d bs s else .ok false s

/-- Pops `n` bytes one after another; the answer is the bytes popped. -/
def popEach (q : Slot) (d : Dir) : Nat → State → Res (List Byte)
  | 0, s => .ok [] s
  | n + 1, s => (ringPop q d s).andThen fun b s =>
      match b with
      | none => .ok [] s
      | some b => (popEach q d n s).andThen fun bs s => .ok (b :: bs) s

/-- A ring operation of a sequence of pushes and pops (spec/41_ring_buffer.md R123). -/
inductive RingOp where
  | push (b : Byte)
  | pop
  deriving DecidableEq, Repr

/-- Performs the operations in order. The answer is the bytes whose push was taken and the bytes popped, each
in order (spec/41_ring_buffer.md R123). -/
def runRing (q : Slot) (d : Dir) : List RingOp → State → Res (List Byte × List Byte)
  | [], s => .ok ([], []) s
  | .push b :: ops, s => (ringPush q d b s).andThen fun taken s =>
      (runRing q d ops s).andThen fun r s => .ok (if taken then b :: r.1 else r.1, r.2) s
  | .pop :: ops, s => (ringPop q d s).andThen fun x s =>
      (runRing q d ops s).andThen fun r s => .ok (r.1, x.toList ++ r.2) s

end Sys2Proof.Machine
end

