-- ==== Sys2Proof/Certificates/Slice0/Obligations.lean ====
section
/-! DEFINITION. The statements for the provers. -/

open Sys2Proof Sys2Proof.Machine

/-! ### The operation word -/

/-- Decoding the encoding of a well-formed operation gives it back, for every operation and every value of its
operands (spec/30_encoding.md R91, R94 to R103). -/
def Obligations.DecodeOfEncode : Prop :=
  ∀ i : Instr, i.wellFormed = true → decode (encode i) = some i

/-- Every word that decodes is the encoding of the operation it decodes to, which is well formed: no two words
name one operation and no bit of a legal word is ignored (spec/30_encoding.md R91, R107). -/
def Obligations.EncodeOfDecode : Prop :=
  ∀ (w : Word) (i : Instr), decode w = some i → i.wellFormed = true ∧ encode i = w

/-- R107: a word is illegal exactly when it is of no row of the opcode table with a line identifier below three;
written to `CMD`, an illegal word is refused. (That words other than a command stand on a schedule, and that an
illegal one is refused there too, is the model's choice, log entries 3, 4 and 5.) -/
def Obligations.IllegalWordsAreTheOthers : Prop :=
  ∀ w : Word,
    (decode w = none ↔ ∀ r ∈ opTable, r.legal w = false)
    ∧ (decode w = none → ∀ s : State, writeCmd w s = .refused .illegalWord
        ∧ (s.cfg.wf = true → step (s.issue w) = .refused .illegalWord))

/-- Words written out from the encoding tables decode to the operations they stand for
(spec/30_encoding.md R94 to R100). -/
def Obligations.SpecWordsDecode : Prop :=
  decode 0x10000000#32 = some (.openPort 0#4)
  ∧ decode 0x14080000#32 = some (.clear 0#4 .tx)
  ∧ decode 0x20080041#32 = some (.rbPush 0#4 .tx 0x41#8)
  ∧ decode 0x24080003#32 = some (.rbPushN 0#4 .tx 3#16)
  ∧ decode 0x30500000#32 = some (.regLookup 5#4)
  ∧ decode 0x45000010#32 = some (.halFillTx 0#4 16#8)
  ∧ decode 0x4F200000#32 = some (.halDisTx 2#4)
  ∧ decode 0x52100000#32 = some (.dspExit 1#4)
  ∧ decode 0x6100FF12#32 = some (.hostRd16 0xFF12#16)
  ∧ decode 0x64000000#32 = some (.hostInstall 0#4)
  ∧ decode 0x70300055#32 = some (.envRxArrive 3#4 0x55#8)
  ∧ decode 0x50300000#32 = none
  ∧ decode 0x10000001#32 = none

/-! ### The step -/

/-- The spec gives no fetch (R38) and leaves the order of the agents' steps open (R15, R46); the schedule is the
model's choice (log entries 3, 4 and 5), and this says what it means: a step performs the operation that the
word at the head of the list `moves` decodes to, with that list advanced; a word placed by `withFetchWord` is
the one performed; a write of `CMD` or of a mailbox register and an access of `HBUF` are HOST's, as the next two
statements say them; a `core` move and an empty list are a step of the running agent. A configuration that
breaks the constraints of R68 and the others of log entries 32 and 35 is refused whatever the move. -/
def Obligations.StepRunsTheDecodedInstr : Prop :=
  ∀ s : State, (s.cfg.wf = false → step s = .refused .badConfig) ∧ (s.cfg.wf = true →
    (∀ w ms i, s.moves = .word w :: ms → decode w = some i → step s = exec i { s with moves := ms })
    ∧ (∀ w i, decodeTableWord 32 w = some i → step (s.withFetchWord 32 w) = exec i s)
    ∧ (∀ w ms, s.moves = .cmd w :: ms → step s = writeCmd w { s with moves := ms })
    ∧ (∀ x v ms, s.moves = .setX x v :: ms → step s = hostSetX x v { s with moves := ms })
    ∧ (∀ a b ms, s.moves = .poke a b :: ms → step s = hostPoke a b { s with moves := ms })
    ∧ (∀ a ms, s.moves = .peek a :: ms → step s = hostPeek a { s with moves := ms })
    ∧ (∀ ms, s.moves = .core :: ms → step s = (coreStep { s with moves := ms }).outcome)
    ∧ (s.moves = [] → step s = (coreStep s).outcome))

/-- R92: a write of `CMD` starts the API command its word decodes to, with `p` and, for CLEAR, `d` from the
word, and takes nothing but class 1. While a command runs it is refused (R21). (A command issued as a word is
refused likewise, and only starts while a handler runs, since M takes no step then: the model's choice, log
entry 28.) -/
def Obligations.CommandRegister : Prop :=
  ∀ (w : Word) (s : State) (i : Instr), decode w = some i →
    ((apiCommand i).isSome = true ↔ w.extractLsb' 28 4 = 1#4)
    ∧ (apiCommand i = none → writeCmd w s = .refused .notOnCmd)
    ∧ ∀ c, apiCommand i = some c →
        c.p = w.extractLsb' 20 4
        ∧ (∀ d, c.op = .clear d → d.bit = w.extractLsb' 19 1)
        ∧ (s.mseq ≠ .idle → writeCmd w s = .refused .busy)
        ∧ (s.mseq = .idle → writeCmd w s = .next { s with mseq := .run c 1 ⟨0#32, 0#32, 0, [], 0#16⟩ })
        ∧ (s.mseq ≠ .idle → exec i s = .refused .busy)
        ∧ (s.mseq = .idle → s.ctx ≠ [] →
            exec i s = .next { s with mseq := .run c 1 ⟨0#32, 0#32, 0, [], 0#16⟩ })

/-- R20: HOST writes `A0` to `A3` while M is idle and is refused while a command runs; `x[6]` and `x[7]` read
0 and ignore writes; each register reads what it holds, `LASTERR` zero-extended. R60, R84: a byte that HOST
writes to `HBUF` is read back and leaves every other byte alone; a byte nothing has written faults; the buffer
of a running SEND or RECV is out of bounds. (That a HOST write of `R0` or `LASTERR` is refused, log entry 30,
and a HOST access of an address that `HBUF` does not have, log entry 35, is the model's choice.) -/
def Obligations.HostMailboxAndBuffer : Prop :=
  (∀ (s : State) (v : Word),
    (s.mseq = .idle →
      hostSetX 0#3 v s = .next { s with a0 := v } ∧ hostSetX 1#3 v s = .next { s with a1 := v }
      ∧ hostSetX 2#3 v s = .next { s with a2 := v } ∧ hostSetX 3#3 v s = .next { s with a3 := v })
    ∧ (s.mseq ≠ .idle → ∀ i : BitVec 3, i.toNat < 4 → hostSetX i v s = .refused .busy)
    ∧ (∀ i : BitVec 3, 6 ≤ i.toNat → hostSetX i v s = .next s ∧ s.readX i = 0#32)
    ∧ hostSetX 4#3 v s = .refused .mailboxReadOnly ∧ hostSetX 5#3 v s = .refused .mailboxReadOnly
    ∧ s.readX 0#3 = s.a0 ∧ s.readX 1#3 = s.a1 ∧ s.readX 2#3 = s.a2 ∧ s.readX 3#3 = s.a3
    ∧ s.readX 4#3 = s.r0 ∧ (s.readX 5#3).toNat = s.lasterr.toNat)
  ∧ ∀ (s : State) (a : Word) (b : Byte),
    let present : Prop := a.toNat < 2 ^ s.cfg.haddrBits
    (¬present → hostPoke a b s = .refused .bufferOutside ∧ hostPeek a s = .refused .bufferOutside)
    ∧ (present → bufferHeld s a = true → hostPoke a b s = .refused .bufferInUse)
    ∧ (present → bufferHeld s a = false → ∃ m, hostPoke a b s = .next { s with hbuf := m }
        ∧ ∀ x, cellsRead m x = if x = a.toNat then some b else cellsRead s.hbuf x)
    ∧ (present → bufferHeld s a = true → recvRuns s = true → hostPeek a s = .refused .bufferInUse)
    ∧ (present → (bufferHeld s a = false ∨ recvRuns s = false) →
        hostPeek a s = if (cellsRead s.hbuf a.toNat).isSome then .next s else .fault .hbufUnwritten)
    ∧ (bufferHeld s a = true ↔ s.a0.toNat ≤ a.toNat ∧ a.toNat < s.a0.toNat + s.a1.toNat
        ∧ ∃ p n loc, s.mseq = .run ⟨.send, p⟩ n loc ∨ s.mseq = .run ⟨.recv, p⟩ n loc)

/-! ### Reset -/

/-- The values the spec gives for reset (R47, R290, R341, R342), under every configuration. (That
`State.reset` takes the reference configuration is the model's choice, log entry 1.) -/
def Obligations.ResetValues : Prop :=
  State.reset = State.resetWith Config.reference ∧
  ∀ cfg : Config, let s := State.resetWith cfg
    (∀ q, s.slots.get q = none ∧ s.life.get q = .closed ∧ s.wireTx.get q = [] ∧ s.wireRx.get q = [])
    ∧ (∀ l, (∃ h, s.handler.get l = .external h) ∧ s.lineRefs.get l = 0 ∧ s.inService.get l = false
        ∧ s.latched.get l = false ∧ s.dseq.get l = .idle)
    ∧ s.mseq = .idle ∧ s.ctx = []
    ∧ (∀ c, let d := s.dev.std.get c
        d.fifoEn = false ∧ d.trigger = .t1 ∧ d.rxf = [] ∧ d.txf = [] ∧ d.ier = 0#8 ∧ d.lcr = 0#8
        ∧ d.mcr = 0#8 ∧ d.threInt = false ∧ d.rxTo = false ∧ d.lsErr = 0#4 ∧ d.msDelta = 0#4
        ∧ d.readValue cfg.stdMap .iir 0#16 = cfg.stdMap.iirNone
        ∧ d.readValue cfg.stdMap .lsr 0#16 = cfg.stdMap.lsrThre ||| cfg.stdMap.lsrTemt
        ∧ (cfg.stdMap = StdMap.reference →
            d.readValue cfg.stdMap .iir 0#16 = 0x01#8 ∧ d.readValue cfg.stdMap .lsr 0#16 = 0x60#8))
    ∧ s.dev.integ.rxd = none ∧ s.dev.integ.txd = none ∧ s.dev.integ.lineErr = false

/-- The state after reset meets the invariants that the next statements show every step to keep. -/
def Obligations.ResetMeetsTheInvariants : Prop :=
  State.reset.cfg.wf = true ∧ State.reset.dataOk = true ∧ State.reset.ctxOk = true
  ∧ State.reset.linesAgree ∧ State.reset.linesInv

/-! ### Invariants and rules of the whole machine -/

/-- Every step, from every state, keeps the ring invariant (R25), the address records (R37), the bounds of the
STD devices (R270) and the canonical form of `HBUF`. -/
def Obligations.StepKeepsTheDataInvariant : Prop :=
  ∀ s t : State, s.dataOk = true → step s = .next t → t.dataOk = true

/-- Every step, from every state, keeps the preemption stack without repetition and in agreement with the
in-service bits and the handlers' sequencers (R34, R40, R41). -/
def Obligations.StepKeepsThePreemptionStack : Prop :=
  ∀ s t : State, s.ctxOk = true → step s = .next t → t.ctxOk = true

/-- The registry, the lifecycle states, the reference counts, the vectors and the saved vectors agree (R29, R32,
R213, R219), wherever M stands in a command: at a line of OPEN or CLOSE the port is `Opening` or `Closing` and
is counted exactly from line 6 of OPEN to line 5 of CLOSE. Every operation and every step of the machine keeps
that, of whichever agent and at whatever moment, but for the four micro-operations that rewrite the registry or
a vector by themselves; with M idle it is the agreement of R32. -/
def Obligations.CommandsKeepTheLinesInAgreement : Prop :=
  (∀ (i : Instr) (s t : State), rewires i = false → s.linesInv → exec i s = .next t → t.linesInv)
  ∧ (∀ s t : State, (∀ w ms i, s.moves = .word w :: ms → decode w = some i → rewires i = false) →
      s.linesInv → step s = .next t → t.linesInv)
  ∧ ∀ s : State, s.mseq = .idle → (s.linesInv ↔ s.linesAgree)

/-- Of the operations issued as words only DSP.ENTER pushes a line on the preemption stack, and only DSP.EXIT of
the line on top pops it (R41; wherever that line's handler stands: the model's choice, log entry 18); an
operation that enters writes nothing of the interrupted agents (R317). A step of the core never pushes, and it
pops only where the running handler stands past the last port of its line (R191, R198). -/
def Obligations.StackChangesOnlyByEntryAndReturn : Prop :=
  (∀ (i : Instr) (s t : State), exec i s = .next t → t.ctx ≠ s.ctx →
    (∃ l : Line, i = .dspEnter l.sel ∧ t.ctx = l :: s.ctx ∧ t.mseq = s.mseq
      ∧ ∀ m, m ≠ l → t.dseq.get m = s.dseq.get m)
    ∨ (∃ l : Line, i = .dspExit l.sel ∧ s.ctx = l :: t.ctx))
  ∧ ∀ s t : State, coreStep s = .ok () t → t.ctx ≠ s.ctx →
    ∃ l i c as v, s.ctx = l :: t.ctx ∧ s.dseq.get l = .run 1 i c as v ∧ (s.cfg.portsOf l)[i]? = none

/-- While a handler runs, a step of the core is the handler's (R41, R204): M's sequencer, the mailbox, the
registry's occupancy, the lifecycle, the masks, the vectors and the host buffer stay as they are. -/
def Obligations.HandlerStepsLeaveTheMainlineAlone : Prop :=
  ∀ s t : State, s.ctx ≠ [] → coreStep s = .ok () t →
    t = { s with slots := t.slots, dev := t.dev, trace := t.trace, draws := t.draws, drawn := t.drawn,
                 savedInteg := t.savedInteg, inService := t.inService, ctx := t.ctx, dseq := t.dseq }
    ∧ ∀ q, (t.slots.get q).isSome = (s.slots.get q).isSome

/-- What an operation of classes 2 to 7 may write at most; every other field of the state stays as it is
(R93, R321; R301 for the mailbox). No step of any kind writes the configuration record (R46). -/
def Obligations.ClassFrames : Prop :=
  (∀ (i : Instr) (s t : State), exec i s = .next t → ClassFrame i.cls.toNat s t)
  ∧ ∀ s t : State, step s = .next t → t.cfg = s.cfg

/-- R302, R144: after a command that has ended with -1 the registry, the lifecycle, the vectors, the reference
counts, the masks, the snapshot and the host buffer are as before it. -/
def Obligations.FailedCommandsLeaveNoTrace : Prop :=
  ∀ (i : Instr) (s t : State), i.cls = 1#4 → s.mseq = .idle → s.ctx = [] → s.linesAgree →
    exec i s = .next t → t.mseq = .idle → t.r0 = 0xFFFFFFFF#32 →
    t = { s with r0 := t.r0, lasterr := t.lasterr, dev := t.dev, trace := t.trace, draws := t.draws,
                 drawn := t.drawn }
    ∧ (∃ e, t.lasterr = s.cfg.errCode.get e)
    ∧ (s.cfg.wf = true → 1 ≤ t.lasterr.toNat ∧ t.lasterr.toNat ≤ 8)

/-- A micro-operation on a port 4 to 15, and a line operation on a line 3 to 15, is refused (the model's choice,
log entry 17: the spec says none is ever issued, R102); REG.LOOKUP answers Invalid (R140). -/
def Obligations.MicroOpsNeedASlot : Prop :=
  ∀ (s : State) (p : BitVec 4) (d : Dir) (b m : Byte) (n : Half),
    (4 ≤ p.toNat →
      exec (.regLookup p) s = .next { s with ret := .lookup .invalid }
      ∧ ∀ i ∈ [Instr.rbPush p d b, .rbPop p d, .rbAvail p d, .rbClear p d, .rbPushN p d n, .rbPopN p d n,
          .regAlloc p, .regFree p, .halEnRx p, .halEnTx p, .halDisInt p, .halCause p, .halDrainRx p,
          .halFillTx p m, .halConfig p, .halTxEmpty p, .halDetect p, .halInit p, .halSnapshot p,
          .halRestore p, .halClrMs p, .halClrLs p, .halDisTx p, .dspVisit p, .dspOnModem p, .dspOnLine p,
          .dspOnTxEmpty p, .dspOnRxReady p, .dspOnRxTimeout p, .envRxArrive p b, .envTxShift p,
          .envLineEvent p, .envModemEvent p, .envRxTimeout p],
        exec i s = .refused .noSuchSlot)
    ∧ (3 ≤ p.toNat →
      ∀ i ∈ [Instr.halAckLine p, .dspEnter p, .dspExit p, .hostInstall p, .hostRestore p, .hostMask p,
          .hostUnmask p],
        exec i s = .refused .noSuchLine)

/-! ### Rings (class RB) -/

/-- R120: RB.PUSH on a ring that the issuing condition allows answers false and changes nothing where the ring
is full; else it stores the byte at `head`, advances `head` and `count`, and answers true. -/
def Obligations.RbPush : Prop :=
  ∀ (s : State) (q : Slot) (d : Dir) (b : Byte) (ps : PortState),
    s.slots.get q = some ps → s.ringOwned q = true → (ps.ring d).ok = true →
    let rb := ps.ring d
    (rb.count = rb.capacity → exec (.rbPush q.sel d b) s = .next { s with ret := .bool false })
    ∧ (rb.count ≠ rb.capacity →
        ∃ rb', exec (.rbPush q.sel d b) s
            = .next { s with slots := s.slots.set q (some (ps.setRing d rb')), ret := .bool true }
          ∧ rb'.capacity = rb.capacity ∧ rb'.tail = rb.tail
          ∧ rb'.head.toNat = (rb.head.toNat + 1) % rb.capacity.toNat
          ∧ rb'.count.toNat = rb.count.toNat + 1
          ∧ ∀ i, cellsRead rb'.storage i
              = if i = rb.head.toNat then some b else cellsRead rb.storage i)

/-- R122: RB.POP on a ring that the issuing condition allows answers None and changes nothing where the ring is
empty; else it answers the byte at `tail`, advances `tail` and lowers `count`, the byte staying in storage. (A
byte nothing has written is a draw: log entry 13.) -/
def Obligations.RbPop : Prop :=
  ∀ (s : State) (q : Slot) (d : Dir) (ps : PortState),
    s.slots.get q = some ps → s.ringOwned q = true →
    let rb := ps.ring d
    let next : PortState := ps.setRing d { rb with
      tail := BitVec.ofNat 16 ((rb.tail.toNat + 1) % rb.capacity.toNat), count := rb.count - 1#16 }
    (rb.count = 0#16 → exec (.rbPop q.sel d) s = .next { s with ret := .byte none })
    ∧ (rb.count ≠ 0#16 → ∀ b, cellsRead rb.storage rb.tail.toNat = some b →
        exec (.rbPop q.sel d) s
          = .next { s with slots := s.slots.set q (some next), ret := .byte (some b) })
    ∧ (rb.count ≠ 0#16 → cellsRead rb.storage rb.tail.toNat = none →
        exec (.rbPop q.sel d) s
          = .next { s.drawn1 with slots := s.slots.set q (some next),
                                  ret := .byte (some (s.drawValue.setWidth 8)) })

/-- R124: RB.AVAIL answers `count`, under no issuing condition, and changes nothing. R125, R126: RB.CLEAR sets
`head`, `tail` and `count` to 0 and changes nothing else, neither the device nor `rx_dropped`. -/
def Obligations.RbAvailAndClear : Prop :=
  ∀ (s : State) (q : Slot) (d : Dir) (ps : PortState), s.slots.get q = some ps →
    exec (.rbAvail q.sel d) s = .next { s with ret := .count (ps.ring d).count }
    ∧ (s.ringOwned q = true → exec (.rbClear q.sel d) s
      = .next { s with
          slots := s.slots.set q (some (ps.setRing d { ps.ring d with
            head := 0#16, tail := 0#16, count := 0#16 })),
          ret := .unit })

/-- R127, R128: RB.PUSHN copies `n` bytes of `HBUF` from `src` to storage from `head` on, going on at index 0
where the run crosses the end, advances `head` and `count`, and changes no other byte of storage and nothing of
`HBUF`. -/
def Obligations.RbPushN : Prop :=
  ∀ (s : State) (q : Slot) (d : Dir) (n : Half) (ps : PortState),
    s.slots.get q = some ps → s.ringOwned q = true → (ps.ring d).ok = true →
    let rb := ps.ring d
    let src := s.side.addr.toNat
    n.toNat ≤ rb.capacity.toNat - rb.count.toNat → (n.toNat = 0 ∨ src + n.toNat ≤ 2 ^ s.cfg.haddrBits) →
    (∀ j, j < n.toNat → (cellsRead s.hbuf (src + j)).isSome = true) →
    ∃ rb', exec (.rbPushN q.sel d n) s
        = .next { s with slots := s.slots.set q (some (ps.setRing d rb')), ret := .unit }
      ∧ rb'.capacity = rb.capacity ∧ rb'.tail = rb.tail
      ∧ rb'.head.toNat = (rb.head.toNat + n.toNat) % rb.capacity.toNat
      ∧ rb'.count.toNat = rb.count.toNat + n.toNat
      ∧ (∀ j, j < n.toNat →
          cellsRead rb'.storage
            (if rb.head.toNat + j < rb.capacity.toNat then rb.head.toNat + j
              else rb.head.toNat + j - rb.capacity.toNat)
            = cellsRead s.hbuf (src + j))
      ∧ ∀ i, (∀ j, j < n.toNat → i ≠ (rb.head.toNat + j) % rb.capacity.toNat) →
          cellsRead rb'.storage i = cellsRead rb.storage i

/-- R128, R129: RB.POPN copies the `n` oldest bytes to `HBUF` from `dst` on, advances `tail` and lowers `count`;
no other byte of `HBUF` changes. (Bytes of storage that nothing has written are draws: log entry 13.) -/
def Obligations.RbPopN : Prop :=
  ∀ (s : State) (q : Slot) (d : Dir) (n : Half) (ps : PortState),
    s.slots.get q = some ps → s.ringOwned q = true → (ps.ring d).ok = true →
    let rb := ps.ring d
    let dst := s.side.addr.toNat
    n.toNat ≤ rb.count.toNat → (n.toNat = 0 ∨ dst + n.toNat ≤ 2 ^ s.cfg.haddrBits) →
    ∃ t, exec (.rbPopN q.sel d n) s = .next t
      ∧ t = { s with
          hbuf := t.hbuf, draws := t.draws, drawn := t.drawn, ret := .unit,
          slots := s.slots.set q (some (ps.setRing d { rb with
            tail := BitVec.ofNat 16 ((rb.tail.toNat + n.toNat) % rb.capacity.toNat),
            count := rb.count - n })) }
      ∧ (∀ j, j < n.toNat → ∀ b,
          cellsRead rb.storage ((rb.tail.toNat + j) % rb.capacity.toNat) = some b →
          cellsRead t.hbuf (dst + j) = some b)
      ∧ (∀ j, j < n.toNat → (cellsRead t.hbuf (dst + j)).isSome = true)
      ∧ (∀ x, x < dst ∨ dst + n.toNat ≤ x → cellsRead t.hbuf x = cellsRead s.hbuf x)
      ∧ ((∀ j, j < n.toNat →
            (cellsRead rb.storage ((rb.tail.toNat + j) % rb.capacity.toNat)).isSome = true) →
          t.draws = s.draws ∧ t.drawn = s.drawn)

/-- R121: a ring mutator issued by M while the line of the port is unmasked, or inside the handler of another
line, is refused. What else stops a ring operation: a bulk longer than the room or the count (R127, R129), a
source byte that nothing has written (R60). (That an operation on an absent slot is refused, log entry 15, and
a bulk whose buffer leaves `HBUF`, log entry 16, is the model's choice; R70 says the latter of the commands.) -/
def Obligations.RingStops : Prop :=
  ∀ (s : State) (q : Slot) (d : Dir) (b : Byte) (n : Half),
    (s.slots.get q = none →
      ∀ i ∈ [Instr.rbPush q.sel d b, .rbPop q.sel d, .rbAvail q.sel d, .rbClear q.sel d, .rbPushN q.sel d n,
          .rbPopN q.sel d n],
        exec i s = .refused .portAbsent)
    ∧ ((s.slots.get q).isSome = true →
        (s.ctx = [] ∧ s.masked.get (s.cfg.lineOf.get q) = false)
          ∨ (∃ m rest, s.ctx = m :: rest ∧ m ≠ s.cfg.lineOf.get q) →
        ∀ i ∈ [Instr.rbPush q.sel d b, .rbPop q.sel d, .rbClear q.sel d, .rbPushN q.sel d n,
            .rbPopN q.sel d n],
          exec i s = .refused .ringUnprotected)
    ∧ ∀ ps, s.slots.get q = some ps → s.ringOwned q = true →
      let rb := ps.ring d
      let a := s.side.addr.toNat
      let room := rb.capacity.toNat - rb.count.toNat
      (room < n.toNat → exec (.rbPushN q.sel d n) s = .refused .bulkTooLong)
      ∧ (rb.count.toNat < n.toNat → exec (.rbPopN q.sel d n) s = .refused .bulkTooLong)
      ∧ (n.toNat ≤ room → 0 < n.toNat → 2 ^ s.cfg.haddrBits < a + n.toNat →
          exec (.rbPushN q.sel d n) s = .refused .bufferOutside)
      ∧ (n.toNat ≤ rb.count.toNat → 0 < n.toNat → 2 ^ s.cfg.haddrBits < a + n.toNat →
          exec (.rbPopN q.sel d n) s = .refused .bufferOutside)
      ∧ (n.toNat ≤ room → a + n.toNat ≤ 2 ^ s.cfg.haddrBits →
          (∃ j, j < n.toNat ∧ cellsRead s.hbuf (a + j) = none) →
          exec (.rbPushN q.sel d n) s = .fault .hbufUnwritten)

/-- R130: RB.PUSHN of `n` bytes leaves the state that `n` successive RB.PUSH of those bytes leave, all answering
true; RB.POPN of `n` leaves the state that `n` successive RB.POP leave, with the bytes they answer written to
`dst` in order. -/
def Obligations.BulkAgreesWithSingles : Prop :=
  ∀ (s : State) (q : Slot) (d : Dir) (n a : Nat) (ps : PortState),
    s.slots.get q = some ps → s.ringOwned q = true → (ps.ring d).ok = true →
    n = 0 ∨ a + n ≤ 2 ^ s.cfg.haddrBits →
    (∀ bs, n ≤ (ps.ring d).room → cellsReadList s.hbuf a n = some bs →
      ∃ t, ringPushN q d n a s = .ok () t ∧ pushEach q d bs s = .ok true t)
    ∧ (n ≤ (ps.ring d).count.toNat →
      ∃ bs t, popEach q d n s = .ok bs t ∧ bs.length = n
        ∧ ringPopN q d n a s = .ok () { t with hbuf := cellsWriteList s.hbuf a bs })

/-- R123: over every sequence of pushes and pops, the count is what it was plus the bytes pushed minus the bytes
popped, the ring stays in its invariant whatever the wraps, and the bytes come out in the order in which they
went in. -/
def Obligations.RingIsAFifo : Prop :=
  ∀ (ops : List RingOp) (s : State) (q : Slot) (d : Dir) (ps : PortState),
    s.slots.get q = some ps → s.ringOwned q = true → (ps.ring d).ok = true →
    (∀ x ∈ (ps.ring d).queued, x.isSome = true) →
    ∃ pushed popped t ps', runRing q d ops s = .ok (pushed, popped) t ∧ t.slots.get q = some ps'
      ∧ (ps'.ring d).ok = true ∧ (ps'.ring d).capacity = (ps.ring d).capacity
      ∧ (ps'.ring d).count.toNat + popped.length = (ps.ring d).count.toNat + pushed.length
      ∧ (ps.ring d).queued ++ pushed.map some = popped.map some ++ (ps'.ring d).queued

/-! ### Registry (class REG) -/

/-- R140, R143: REG.LOOKUP classifies a port of `0 .. 3` and changes nothing; REG.FREE makes a present slot
absent and changes nothing else. R141, R142: REG.ALLOC of an absent slot
takes one draw: it publishes a PortState with two empty rings of the given capacities, or answers OutOfMemory
and publishes nothing. (REG.FREE of an absent slot, REG.ALLOC with operands that OPEN would have rejected and
REG.ALLOC of an occupied slot are refused: the model's choice, log entry 16.) -/
def Obligations.RegistryOperations : Prop :=
  ∀ (s : State) (q : Slot),
    let tx := s.a1
    let rx := s.a2
    let legal : Prop := s.cfg.capMin ≤ tx.toNat ∧ tx.toNat ≤ s.cfg.capMax
      ∧ s.cfg.capMin ≤ rx.toNat ∧ rx.toNat ≤ s.cfg.capMax
    let port : PortState :=
      { regs := regsOf s.cfg q
        rx := { capacity := rx.setWidth 16, storage := [], head := 0#16, tail := 0#16, count := 0#16 }
        tx := { capacity := tx.setWidth 16, storage := [], head := 0#16, tail := 0#16, count := 0#16 }
        blocking := s.a0.getLsbD 0, rxDropped := 0#32 }
    exec (.regLookup q.sel) s
      = .next { s with ret := .lookup (if s.slots.get q = none then .absent else .present) }
    ∧ ((s.slots.get q).isSome = true →
        exec (.regFree q.sel) s = .next { s with slots := s.slots.set q none, ret := .unit })
    ∧ (s.slots.get q = none → exec (.regFree q.sel) s = .refused .portAbsent)
    ∧ (s.slots.get q = none → legal → s.drawValue.getLsbD 0 = true →
      exec (.regAlloc q.sel) s
        = .next { s.drawn1 with slots := s.slots.set q (some port), ret := .alloc true })
    ∧ (s.slots.get q = none → legal → s.drawValue.getLsbD 0 = false →
      exec (.regAlloc q.sel) s = .next { s.drawn1 with ret := .alloc false })
    ∧ ((s.slots.get q).isSome = true → exec (.regAlloc q.sel) s = .refused .slotOccupied)
    ∧ (s.slots.get q = none → ¬legal → exec (.regAlloc q.sel) s = .refused .notValidated)

/-! ### The mux (class HAL) -/

/-- R155, R156, R157, R171: the accesses by which the enables of a port are set and cleared, on each variant,
present or not; HAL.DIS_TX has no sequence on a STD port and is refused. Then what they do to a present device
(with R276, R283): on STD with the divisor latch off the enable bits change, and turning the transmit enable on
with nothing to send raises the transmit-empty condition; on INTEG the enable word changes; everything else of
the state but the trace stays. -/
def Obligations.HalEnables : Prop :=
  ∀ (s : State) (q : Slot), s.cfg.wf = true → s.regs q = regsOf s.cfg q →
    (∀ c, q.kind = .std c → let m := s.cfg.stdMap
      let a := s.cfg.stdBase.get c + m.offIer.setWidth 16
      (∃ v t u, ioRd8 a s = .ok v t ∧ ioWr8 a (v ||| m.ierRx) t = .ok () u
        ∧ exec (.halEnRx q.sel) s = .next { u with ret := .unit })
      ∧ (∃ v t u, ioRd8 a s = .ok v t ∧ ioWr8 a (v ||| m.ierTx) t = .ok () u
        ∧ exec (.halEnTx q.sel) s = .next { u with ret := .unit })
      ∧ (∃ u, ioWr8 a 0x00#8 s = .ok () u ∧ exec (.halDisInt q.sel) s = .next { u with ret := .unit })
      ∧ exec (.halDisTx q.sel) s = .refused .disTxOnStd)
    ∧ (q.kind = .integ → let a := s.cfg.iIen
      let rx := s.cfg.imRxie
      let tx := s.cfg.imTxie
      (∃ v t u, ioRd16 a s = .ok v t ∧ ioWr16 a (v ||| rx) t = .ok () u
        ∧ exec (.halEnRx q.sel) s = .next { u with ret := .unit })
      ∧ (∃ v t u, ioRd16 a s = .ok v t ∧ ioWr16 a (v ||| tx) t = .ok () u
        ∧ exec (.halEnTx q.sel) s = .next { u with ret := .unit })
      ∧ (∃ v t u, ioRd16 a s = .ok v t ∧ ioWr16 a (v &&& ~~~(rx ||| tx)) t = .ok () u
        ∧ exec (.halDisInt q.sel) s = .next { u with ret := .unit })
      ∧ (∃ v t u, ioRd16 a s = .ok v t ∧ ioWr16 a (v &&& ~~~tx) t = .ok () u
        ∧ exec (.halDisTx q.sel) s = .next { u with ret := .unit }))
    ∧ (∀ c, q.kind = .std c → s.cfg.stdPresent.get c = true →
      (s.dev.std.get c).lcr &&& s.cfg.stdMap.lcrDlab = 0#8 →
      let m := s.cfg.stdMap
      let mask := m.ierRx ||| m.ierTx ||| m.ierLs ||| m.ierMs
      let a := s.cfg.stdBase.get c + m.offIer.setWidth 16
      let d := s.dev.std.get c
      let after (d' : StdDev) (es : List HostEvent) : State :=
        { s with dev := { s.dev with std := s.dev.std.set c d' }, trace := s.trace ++ es, ret := .unit }
      exec (.halEnRx q.sel) s = .next (after { d with ier := (d.ier ||| m.ierRx) &&& mask }
        [.rd8 a d.ier, .wr8 a (d.ier ||| m.ierRx)])
      ∧ exec (.halEnTx q.sel) s = .next (after
        { d with ier := (d.ier ||| m.ierTx) &&& mask,
                 threInt := d.threInt || (decide (d.ier &&& m.ierTx = 0#8) && d.txf.isEmpty) }
        [.rd8 a d.ier, .wr8 a (d.ier ||| m.ierTx)])
      ∧ exec (.halDisInt q.sel) s = .next (after { d with ier := 0#8 } [.wr8 a 0x00#8]))
    ∧ (q.kind = .integ → s.cfg.integPresent = true →
      let a := s.cfg.iIen
      let d := s.dev.integ
      let after (v : Half) : State :=
        { s with dev := { s.dev with integ := { d with ien := v } },
                 trace := s.trace ++ [.rd16 a d.ien, .wr16 a v], ret := .unit }
      exec (.halEnRx q.sel) s = .next (after (d.ien ||| s.cfg.imRxie))
      ∧ exec (.halEnTx q.sel) s = .next (after (d.ien ||| s.cfg.imTxie))
      ∧ exec (.halDisInt q.sel) s = .next (after (d.ien &&& ~~~(s.cfg.imRxie ||| s.cfg.imTxie)))
      ∧ exec (.halDisTx q.sel) s = .next (after (d.ien &&& ~~~s.cfg.imTxie)))

/-- R159, R161: HAL.CAUSE reads the cause register and answers the cause the value stands for; a reserved
identity is refused. -/
def Obligations.HalCauseDecodes : Prop :=
  ∀ (s : State) (q : Slot), s.cfg.wf = true → s.regs q = regsOf s.cfg q →
    (∀ c, q.kind = .std c → let m := s.cfg.stdMap
      ∃ v t, ioRd8 (s.cfg.stdBase.get c + m.offIir.setWidth 16) s = .ok v t ∧
      let answers (x : Cause) : Prop := exec (.halCause q.sel) s = .next { t with ret := .cause x }
      let id := v &&& m.iirId
      (v &&& m.iirNone ≠ 0#8 → answers .none)
      ∧ (v &&& m.iirNone = 0#8 →
        (id = m.iirMs → answers .modemStatus) ∧ (id = m.iirTx → answers .txEmpty)
        ∧ (id = m.iirRx → answers .rxReady) ∧ (id = m.iirLs → answers .lineStatus)
        ∧ (id = m.iirTo → answers .rxTimeout)
        ∧ (id ∉ [m.iirMs, m.iirTx, m.iirRx, m.iirLs, m.iirTo] →
            exec (.halCause q.sel) s = .refused .reservedCause)))
    ∧ (q.kind = .integ → ∃ v t, ioRd16 s.cfg.iStat s = .ok v t ∧
      let x : Cause := if v &&& s.cfg.isLineerr ≠ 0#16 then .lineStatus
        else if v &&& s.cfg.isRxrdy ≠ 0#16 then .rxReady
        else if v &&& s.cfg.isTxint ≠ 0#16 then .txEmpty else .none
      exec (.halCause q.sel) s = .next { t with ret := .cause x })

/-- R271, R272, R273: the pending cause of a STD device by priority, its interrupt output, and HAL.CAUSE on a
present chip, which answers that cause and takes nothing away but a reported transmit-empty condition. R281,
R282, R285 with R161: the interrupt output of the INTEG device, and HAL.CAUSE on it, whatever the bits that
the status word leaves open: a line error first, then a waiting byte, then an empty transmitter with the latch
set; the read clears the line error. -/
def Obligations.CausePriority : Prop :=
  (∀ (s : State) (q : Slot) (c : StdSlot), q.kind = .std c →
    let d := s.dev.std.get c
    let m := s.cfg.stdMap
    let on (b : Byte) : Prop := d.ier &&& b ≠ 0#8
    let p1 := d.lsErr ≠ 0#4 ∧ on m.ierLs
    let p2 := d.trigger.level ≤ d.rxf.length ∧ on m.ierRx
    let p3 := d.rxTo = true ∧ 0 < d.rxf.length ∧ d.rxf.length < d.trigger.level ∧ on m.ierRx
    let p4 := d.threInt = true ∧ on m.ierTx
    let p5 := d.msDelta ≠ 0#4 ∧ on m.ierMs
    (p1 → d.cause m = .lineStatus) ∧ (¬p1 → p2 → d.cause m = .rxReady) ∧ (¬p1 → p3 → d.cause m = .rxTimeout)
    ∧ (¬p1 → ¬p2 → ¬p3 → p4 → d.cause m = .txEmpty)
    ∧ (¬p1 → ¬p2 → ¬p3 → ¬p4 → p5 → d.cause m = .modemStatus)
    ∧ (¬p1 → ¬p2 → ¬p3 → ¬p4 → ¬p5 → d.cause m = .none)
    ∧ (s.devIrq q = true ↔ s.cfg.stdPresent.get c = true ∧ d.cause m ≠ .none)
    ∧ (s.cfg.wf = true → s.regs q = regsOf s.cfg q → s.cfg.stdPresent.get c = true →
      ∃ v, exec (.halCause q.sel) s = .next { s with
        dev := { s.dev with
          std := s.dev.std.set c (if d.cause m = .txEmpty then { d with threInt := false } else d) },
        trace := s.trace ++ [.rd8 (s.cfg.stdBase.get c + m.offIir.setWidth 16) v], ret := .cause (d.cause m) }))
  ∧ ∀ (s : State), s.cfg.wf = true → s.cfg.integPresent = true →
    let d := s.dev.integ
    let rxOn : Prop := d.ien &&& s.cfg.imRxie ≠ 0#16
    let txOn : Prop := d.ien &&& s.cfg.imTxie ≠ 0#16
    (s.devIrq .p2 = true ↔
      d.rxd ≠ none ∧ rxOn ∨ d.txd = none ∧ txOn ∨ d.lineErr = true ∧ rxOn)
    ∧ (s.regs .p2 = regsOf s.cfg .p2 → ∃ v x, exec (.halCause 2#4) s = .next { s.drawn1 with
          dev := { s.dev with integ := { d with lineErr := false } },
          trace := s.trace ++ [.rd16 s.cfg.iStat v], ret := .cause x }
        ∧ (d.lineErr = true → x = .lineStatus)
        ∧ (d.lineErr = false → d.rxd ≠ none → x = .rxReady)
        ∧ (d.lineErr = false → d.rxd = none → d.txd = none → txOn → x = .txEmpty)
        ∧ (d.lineErr = false → d.rxd = none → d.txd ≠ none ∨ ¬txOn → x = .none))

/-- R158, R196, R197 on STD: a drain of a present chip (the divisor latch off) takes the bytes waiting,
`RX_DRAIN_CAP` at most; they go to `rx` in order as far as there is room and the others are counted in
`rx_dropped`, which saturates; each byte costs a status and a data read, and, unless the cap ends the loop, a
last status read finds nothing. The first status read shows and clears the line errors. -/
def Obligations.DrainTakesTheStdBytes : Prop :=
  ∀ (s : State) (q : Slot) (c : StdSlot) (ps : PortState) (i : Instr), s.cfg.wf = true → q.kind = .std c →
    s.slots.get q = some ps → ps.regs = regsOf s.cfg q → s.ringOwned q = true → ps.rx.ok = true →
    s.cfg.stdPresent.get c = true → (s.dev.std.get c).lcr &&& s.cfg.stdMap.lcrDlab = 0#8 →
    i ∈ [Instr.halDrainRx q.sel, .dspOnRxReady q.sel, .dspOnRxTimeout q.sel] →
    let m := s.cfg.stdMap
    let base := s.cfg.stdBase.get c
    let d := s.dev.std.get c
    let cap := s.cfg.rxDrainCap.std
    let bytes := d.rxf.take cap
    let lost := bytes.length - (ps.rx.capacity.toNat - ps.rx.count.toNat)
    let status (k : Nat) (ready : Bool) : HostEvent := .rd8 (base + m.offLsr.setWidth 16)
      ((if ready then m.lsrDr else 0#8)
        ||| ((if k = 0 then d.lsErr else 0#4).setWidth 8 <<< m.lsrErr)
        ||| (if d.txf = [] then m.lsrThre ||| m.lsrTemt else 0#8))
    ∃ t rx' dropped, exec i s = .next t
      ∧ t = { s with
          slots := s.slots.set q (some { ps with rx := rx', rxDropped := dropped }),
          dev := { s.dev with
            std := s.dev.std.set c
              { d with rxf := d.rxf.drop cap, lsErr := 0#4, rxTo := d.rxTo && d.rxf.isEmpty } },
          trace := s.trace
            ++ (bytes.zipIdx.flatMap fun x =>
                [status x.2 true, .rd8 (base + m.offData.setWidth 16) x.1])
            ++ (if d.rxf.length < cap then [status d.rxf.length false] else []),
          ret := t.ret }
      ∧ rx'.ok = true ∧ rx'.capacity = ps.rx.capacity
      ∧ rx'.queued = ps.rx.queued ++ (bytes.take (ps.rx.capacity.toNat - ps.rx.count.toNat)).map some
      ∧ dropped.toNat = if lost = 0 then ps.rxDropped.toNat
          else min (ps.rxDropped.toNat + lost) s.cfg.rxdropMax

/-- R158, R196, R197 on INTEG: a drain of the present device reads the status word and takes the one byte
waiting, if there is one; it goes to `rx`, or, where `rx` is full, is counted in `rx_dropped`. With
`RX_DRAIN_CAP` above 1 a byte taken is followed by one more status read. -/
def Obligations.DrainTakesTheIntegByte : Prop :=
  ∀ (s : State) (ps : PortState) (i : Instr), s.cfg.wf = true → s.cfg.integPresent = true →
    s.slots.get .p2 = some ps → ps.regs = regsOf s.cfg .p2 → s.ringOwned .p2 = true → ps.rx.ok = true →
    i ∈ [Instr.halDrainRx 2#4, .dspOnRxReady 2#4, .dspOnRxTimeout 2#4] →
    let d := s.dev.integ
    let again := d.rxd ≠ none ∧ 1 < s.cfg.rxDrainCap.integ
    ∃ t rx' dropped v w, exec i s = .next t
      ∧ t = { (if again then s.drawn1.drawn1 else s.drawn1) with
          slots := s.slots.set .p2 (some { ps with rx := rx', rxDropped := dropped }),
          dev := { s.dev with integ := { d with rxd := none, lineErr := false } },
          trace := s.trace ++ [.rd16 s.cfg.iStat v]
            ++ (d.rxd.toList.map fun b => HostEvent.rd16 s.cfg.iRxd (b.setWidth 16))
            ++ (if again then [.rd16 s.cfg.iStat w] else []),
          ret := t.ret }
      ∧ rx'.ok = true ∧ rx'.capacity = ps.rx.capacity
      ∧ (d.rxd = none → rx' = ps.rx ∧ dropped = ps.rxDropped)
      ∧ (∀ b, d.rxd = some b → ps.rx.count ≠ ps.rx.capacity →
          rx'.queued = ps.rx.queued ++ [some b] ∧ dropped = ps.rxDropped)
      ∧ (d.rxd ≠ none → ps.rx.count = ps.rx.capacity →
          rx' = ps.rx ∧ dropped.toNat = min (ps.rxDropped.toNat + 1) s.cfg.rxdropMax)

/-- R160: HAL.FILL_TX of `m` moves the oldest bytes of `tx`, `m` at most, to the device in order; a device that
is full loses what does not fit (R274, R286), and a chip that is absent takes nothing. -/
def Obligations.FillMovesTheOldestBytes : Prop :=
  ∀ (s : State) (q : Slot) (ps : PortState) (m : Byte) (bytes : List Byte), s.cfg.wf = true →
    s.slots.get q = some ps → ps.regs = regsOf s.cfg q → s.ringOwned q = true → ps.tx.ok = true →
    ps.tx.queued.take m.toNat = bytes.map some →
    ∃ t tx', exec (.halFillTx q.sel m) s = .next t
      ∧ tx'.ok = true ∧ tx'.capacity = ps.tx.capacity ∧ tx'.queued = ps.tx.queued.drop m.toNat
      ∧ t = { s with slots := s.slots.set q (some { ps with tx := tx' }), dev := t.dev, trace := t.trace,
                     ret := .unit }
      ∧ (∀ c, q.kind = .std c → let d := s.dev.std.get c
          t.trace = s.trace ++ bytes.map (HostEvent.wr8 (s.cfg.stdBase.get c + s.cfg.stdMap.offData.setWidth 16))
          ∧ (s.cfg.stdPresent.get c = false → t.dev = s.dev)
          ∧ (s.cfg.stdPresent.get c = true → d.lcr &&& s.cfg.stdMap.lcrDlab = 0#8 →
              t.dev = { s.dev with std := s.dev.std.set c { d with
                txf := d.txf ++ bytes.take ((if d.fifoEn then 16 else 1) - d.txf.length),
                threInt := d.threInt && bytes.isEmpty } }))
      ∧ (q.kind = .integ → let d := s.dev.integ
          t.trace = s.trace ++ bytes.map (fun b => HostEvent.wr16 s.cfg.iTxd (b.setWidth 16))
          ∧ (s.cfg.integPresent = false → t.dev = s.dev)
          ∧ (s.cfg.integPresent = true →
              t.dev = { s.dev with integ := { d with
                txd := if d.txd = none then bytes.head? else d.txd } }))

/-- R162, R172, R173: HAL.CONFIG writes the divisor and the frame byte of a STD chip through the mode-switch
bit, and the speed and frame words of the INTEG device. With settings that CONFIGURE would reject the same
registers are written, and the divisor of a speed without one and the frame of such settings are free values
(the model's choice, log entry 16). -/
def Obligations.HalConfig : Prop :=
  ∀ (s : State) (q : Slot), s.cfg.wf = true → s.regs q = regsOf s.cfg q →
    let data := s.a2.toNat
    let par := s.a1.toNat
    (∀ c, q.kind = .std c → let m := s.cfg.stdMap
      let loc (off : BitVec 3) : Half := s.cfg.stdBase.get c + off.setWidth 16
      let d := s.dev.std.get c
      let legal : Prop := 5 ≤ data ∧ data ≤ 8 ∧ par ≤ 4 ∧ (s.a3.toNat = 1 ∨ s.a3.toNat = 2)
      ∃ (dv : Half) (frame : Byte),
        (∀ x, s.cfg.stdBaud.lookup s.a0 = some x → dv = x)
        ∧ (legal → frame = (BitVec.ofNat 8 (data - 5) <<< m.lcrData)
          ||| (if s.a3.toNat = 2 then m.lcrStop else 0#8)
          ||| (if par = 0 then 0#8 else if par = 1 then m.lcrParity
            else if par = 2 then m.lcrParity ||| m.lcrEven
            else if par = 3 then m.lcrParity ||| m.lcrStick else m.lcrParity ||| m.lcrEven ||| m.lcrStick))
        ∧ (legal → m = StdMap.reference → frame = BitVec.ofNat 8 ((data - 5) + 4 * (s.a3.toNat - 1)
          + (if par = 0 then 0x00 else if par = 1 then 0x08 else if par = 2 then 0x18
            else if par = 3 then 0x28 else 0x38)))
        ∧ let lo := dv.extractLsb' 0 8
        let hi := dv.extractLsb' 8 8
        exec (.halConfig q.sel) s = .next { s with
          dev := if s.cfg.stdPresent.get c
            then { s.dev with std := s.dev.std.set c { d with dll := lo, dlm := hi, lcr := frame } }
            else s.dev,
          trace := s.trace ++ [.wr8 (loc m.offLcr) m.lcrDlab, .wr8 (loc m.offData) lo, .wr8 (loc m.offIer) hi,
            .wr8 (loc m.offLcr) frame],
          ret := .unit })
    ∧ (q.kind = .integ →
      let speed := s.cfg.integBaudWord s.a0
      let frame := s.cfg.integFrameWord s.a1 s.a2 s.a3
      exec (.halConfig q.sel) s = .next { s with
          dev := if s.cfg.integPresent
            then { s.dev with integ := { s.dev.integ with baud := speed, lctl := frame } } else s.dev,
          trace := s.trace ++ [.wr16 s.cfg.iBaud speed, .wr16 s.cfg.iLctl frame],
          ret := .unit })

/-- R164: HAL.TX_EMPTY answers whether the transmitter of a present device is empty, and clears its line errors.
R163: HAL.ACK_LINE writes the completion value exactly for the line that holds the INTEG slot. -/
def Obligations.HalTxEmptyAndAckLine : Prop :=
  (∀ (s : State) (q : Slot), s.cfg.wf = true → s.regs q = regsOf s.cfg q →
    (∀ c, q.kind = .std c → let m := s.cfg.stdMap
      let a := s.cfg.stdBase.get c + m.offLsr.setWidth 16
      let d := s.dev.std.get c
      (s.cfg.stdPresent.get c = true → ∃ v, exec (.halTxEmpty q.sel) s = .next { s with
        dev := { s.dev with std := s.dev.std.set c { d with lsErr := 0#4 } },
        trace := s.trace ++ [.rd8 a v], ret := .bool d.txf.isEmpty })
      ∧ (s.cfg.stdPresent.get c = false → ∃ v, exec (.halTxEmpty q.sel) s = .next { s.drawn1 with
        trace := s.trace ++ [.rd8 a v], ret := .bool (v &&& m.lsrThre ≠ 0#8) }))
    ∧ (q.kind = .integ →
      (s.cfg.integPresent = true → ∃ v, exec (.halTxEmpty q.sel) s = .next { s.drawn1 with
        dev := { s.dev with integ := { s.dev.integ with lineErr := false } },
        trace := s.trace ++ [.rd16 s.cfg.iStat v], ret := .bool s.dev.integ.txd.isNone })
      ∧ (s.cfg.integPresent = false → ∃ v, exec (.halTxEmpty q.sel) s = .next { s.drawn1 with
        trace := s.trace ++ [.rd16 s.cfg.iStat v], ret := .bool (v &&& s.cfg.isThre ≠ 0#16) })))
  ∧ ∀ (s : State) (l : Line), s.cfg.wf = true →
    exec (.halAckLine l.sel) s = .next { s with
      trace := if Slot.p2 ∈ s.cfg.portsOf l then s.trace ++ [.wr16 s.cfg.eoiAddr (s.cfg.eoiValue.get l)]
        else s.trace,
      ret := .unit }

/-- R165, R166: HAL.DETECT finds a present STD chip (the divisor latch off) and turns its enables off, finds
an absent one only where the draw is 0, and answers true on INTEG; HAL.INIT resets the FIFOs and sets the
trigger to `STD_RX_TRIGGER` on STD and writes the control word on INTEG. R167, R168: HAL.SNAPSHOT copies the
three configuration registers of the INTEG device to `saved_integ` and HAL.RESTORE writes them back, each in its
order; on STD neither makes an access. -/
def Obligations.LifecycleCapabilities : Prop :=
  ∀ (s : State) (q : Slot), s.cfg.wf = true → s.regs q = regsOf s.cfg q →
    (∀ c, q.kind = .std c → let m := s.cfg.stdMap
      let ier := s.cfg.stdBase.get c + m.offIer.setWidth 16
      let fcr := s.cfg.stdBase.get c + m.offIir.setWidth 16
      let code : BitVec 2 := match s.cfg.stdRxTrigger with
        | .t1 => m.fcrT1 | .t4 => m.fcrT4 | .t8 => m.fcrT8 | .t14 => m.fcrT14
      let init : Byte := m.fcrEn ||| m.fcrRx ||| m.fcrTx ||| (code.setWidth 8 <<< m.fcrTrig)
      let d := s.dev.std.get c
      (m = StdMap.reference → s.cfg.stdRxTrigger = .t14 → init = 0xC7#8)
      ∧ (s.cfg.stdPresent.get c = true →
        (d.lcr &&& m.lcrDlab = 0#8 → exec (.halDetect q.sel) s = .next { s with
          dev := { s.dev with std := s.dev.std.set c { d with ier := 0#8 } },
          trace := s.trace ++ [.wr8 ier 0x00#8, .rd8 ier 0x00#8], ret := .bool true })
        ∧ exec (.halInit q.sel) s = .next { s with
          dev := { s.dev with std := s.dev.std.set c { d with
            fifoEn := true, trigger := s.cfg.stdRxTrigger, rxf := [], txf := [], rxTo := false,
            threInt := d.threInt || !d.txf.isEmpty } },
          trace := s.trace ++ [.wr8 fcr init], ret := .unit })
      ∧ (s.cfg.stdPresent.get c = false →
        let v : Byte := s.drawValue.setWidth 8
        exec (.halDetect q.sel) s = .next { s.drawn1 with
          trace := s.trace ++ [.wr8 ier 0x00#8, .rd8 ier v], ret := .bool (v = 0#8) }
        ∧ exec (.halInit q.sel) s = .next { s with trace := s.trace ++ [.wr8 fcr init], ret := .unit }))
    ∧ (q.kind = .integ →
      exec (.halDetect q.sel) s = .next { s with ret := .bool true }
      ∧ exec (.halInit q.sel) s = .next { s with
        dev := if s.cfg.integPresent
          then { s.dev with integ := { s.dev.integ with lctl := s.cfg.integInitWord } } else s.dev,
        trace := s.trace ++ [.wr16 s.cfg.iLctl s.cfg.integInitWord], ret := .unit })
    ∧ (∀ c, q.kind = .std c →
      exec (.halSnapshot q.sel) s = .next { s with ret := .unit }
      ∧ exec (.halRestore q.sel) s = .next { s with ret := .unit })
    ∧ (q.kind = .integ → let d := s.dev.integ
      let g := s.savedInteg
      (s.cfg.integPresent = true → exec (.halSnapshot q.sel) s = .next { s with
        savedInteg := ⟨d.ien, d.lctl, d.baud⟩,
        trace := s.trace ++ [.rd16 s.cfg.iIen d.ien, .rd16 s.cfg.iLctl d.lctl, .rd16 s.cfg.iBaud d.baud],
        ret := .unit })
      ∧ (s.cfg.integPresent = false → ∃ x y z, exec (.halSnapshot q.sel) s = .next { s.drawn1.drawn1.drawn1 with
        savedInteg := ⟨x, y, z⟩,
        trace := s.trace ++ [.rd16 s.cfg.iIen x, .rd16 s.cfg.iLctl y, .rd16 s.cfg.iBaud z], ret := .unit })
      ∧ exec (.halRestore q.sel) s = .next { s with
        dev := if s.cfg.integPresent
          then { s.dev with integ := { d with ien := g.ien, lctl := g.lctl, baud := g.baud } } else s.dev,
        trace := s.trace ++ [.wr16 s.cfg.iIen g.ien, .wr16 s.cfg.iLctl g.lctl, .wr16 s.cfg.iBaud g.baud],
        ret := .unit })

/-- R169, R170, R193, R194: the two clearing reads, as capabilities and as the dispatcher's actions: they
consume the modem-status and the line-status conditions of a present device and touch no ring. -/
def Obligations.ClearingReads : Prop :=
  ∀ (s : State) (q : Slot), s.cfg.wf = true → s.regs q = regsOf s.cfg q →
    (∀ c, q.kind = .std c → let msr := s.cfg.stdBase.get c + s.cfg.stdMap.offMsr.setWidth 16
      let lsr := s.cfg.stdBase.get c + s.cfg.stdMap.offLsr.setWidth 16
      let d := s.dev.std.get c
      (s.cfg.stdPresent.get c = true →
        (∃ v, let t := { s.drawn1 with
              dev := { s.dev with std := s.dev.std.set c { d with msDelta := 0#4 } },
              trace := s.trace ++ [.rd8 msr v] }
          exec (.halClrMs q.sel) s = .next { t with ret := .unit } ∧ exec (.dspOnModem q.sel) s = .next t)
        ∧ ∃ v, let t := { s with
              dev := { s.dev with std := s.dev.std.set c { d with lsErr := 0#4 } },
              trace := s.trace ++ [.rd8 lsr v] }
          exec (.halClrLs q.sel) s = .next { t with ret := .unit } ∧ exec (.dspOnLine q.sel) s = .next t)
      ∧ (s.cfg.stdPresent.get c = false →
        (∃ v, let t := { s.drawn1 with trace := s.trace ++ [.rd8 msr v] }
          exec (.halClrMs q.sel) s = .next { t with ret := .unit } ∧ exec (.dspOnModem q.sel) s = .next t)
        ∧ ∃ v, let t := { s.drawn1 with trace := s.trace ++ [.rd8 lsr v] }
          exec (.halClrLs q.sel) s = .next { t with ret := .unit } ∧ exec (.dspOnLine q.sel) s = .next t))
    ∧ (q.kind = .integ →
      (exec (.halClrMs q.sel) s = .next { s with ret := .unit } ∧ exec (.dspOnModem q.sel) s = .next s)
      ∧ ∃ v, let t := { s.drawn1 with
            dev := if s.cfg.integPresent
              then { s.dev with integ := { s.dev.integ with lineErr := false } } else s.dev,
            trace := s.trace ++ [.rd16 s.cfg.iStat v] }
        exec (.halClrLs q.sel) s = .next { t with ret := .unit } ∧ exec (.dspOnLine q.sel) s = .next t)

/-- R152, R192: a capability and a visit on one port touch no other port and no other device. R201: HAL.DRAIN_RX
and the two receive actions complete whatever the device, present or not, where the port is present and its
rings may be changed. -/
def Obligations.PortOperationsStayOnTheirPort : Prop :=
  (∀ (s t : State) (q : Slot) (m : Byte) (i : Instr), s.cfg.wf = true → s.regs q = regsOf s.cfg q →
    i ∈ [Instr.halEnRx q.sel, .halEnTx q.sel, .halDisInt q.sel, .halCause q.sel, .halDrainRx q.sel,
      .halFillTx q.sel m, .halConfig q.sel, .halTxEmpty q.sel, .halDetect q.sel, .halInit q.sel,
      .halSnapshot q.sel, .halRestore q.sel, .halClrMs q.sel, .halClrLs q.sel, .halDisTx q.sel,
      .dspVisit q.sel, .dspOnModem q.sel, .dspOnLine q.sel, .dspOnTxEmpty q.sel, .dspOnRxReady q.sel,
      .dspOnRxTimeout q.sel] →
    exec i s = .next t →
    (∀ k, k ≠ q → t.slots.get k = s.slots.get k)
    ∧ (∀ c, q.kind ≠ .std c → t.dev.std.get c = s.dev.std.get c)
    ∧ (q.kind ≠ .integ → t.dev.integ = s.dev.integ)
    ∧ ((t.slots.get q).isSome = (s.slots.get q).isSome)
    ∧ ∀ ps ps', s.slots.get q = some ps → t.slots.get q = some ps' → ps.sameModes ps')
  ∧ ∀ (s : State) (q : Slot) (i : Instr), s.cfg.wf = true → s.regs q = regsOf s.cfg q →
    (s.slots.get q).isSome = true → s.ringOwned q = true →
    i ∈ [Instr.halDrainRx q.sel, .dspOnRxReady q.sel, .dspOnRxTimeout q.sel] →
    ∃ t, exec i s = .next t ∧ t = { s with
      slots := s.slots.set q (t.slots.get q), dev := t.dev, trace := t.trace, draws := t.draws,
      drawn := t.drawn, ret := t.ret }

/-! ### The dispatcher (class DSP) -/

/-- R190, R317: where the line is pending, unmasked, not in service and vectored to the dispatcher, DSP.ENTER
puts it in service, clears an edge latch, pushes it on the preemption stack and starts its handler's
sequencer; the interrupted agents, the masks and the mailbox stay as they are. (Where it is not enabled
nothing occurs: the model's choice, log entry 14.) -/
def Obligations.EnterTakesTheInterrupt : Prop :=
  ∀ (s : State) (l : Line),
    let pending := (s.cfg.trigger = .level ∧ ∃ q ∈ s.cfg.portsOf l, s.devIrq q = true)
      ∨ (s.cfg.trigger = .edge ∧ s.latched.get l = true)
    let enabled := pending ∧ s.masked.get l = false ∧ s.inService.get l = false
      ∧ s.handler.get l = .dispatcher
    (enabled → exec (.dspEnter l.sel) s = .next { s with
      inService := s.inService.set l true,
      latched := if s.cfg.trigger = .edge then s.latched.set l false else s.latched,
      ctx := l :: s.ctx,
      dseq := s.dseq.set l (.run 1 0 .none [] 0#16) })
    ∧ (¬enabled → exec (.dspEnter l.sel) s = .next s)

/-- R198, R318: DSP.EXIT of the running handler writes the completion value of an explicitly acknowledged line,
takes the line out of service, pops the preemption stack and idles the sequencer, in one step. (Of a line whose
handler is not the running agent it is refused: log entry 18.) -/
def Obligations.ExitReturnsFromTheHandler : Prop :=
  ∀ (s : State) (l : Line),
    (∀ rest, s.cfg.wf = true → s.ctx = l :: rest → exec (.dspExit l.sel) s = .next { s with
      trace := if Slot.p2 ∈ s.cfg.portsOf l then s.trace ++ [.wr16 s.cfg.eoiAddr (s.cfg.eoiValue.get l)]
        else s.trace,
      inService := s.inService.set l false, ctx := rest, dseq := s.dseq.set l .idle })
    ∧ (s.ctx.head? ≠ some l → exec (.dspExit l.sel) s = .refused .handlerNotRunning)

/-- R191, R192 line 1: the handler of a line goes through the list of its ports once, in order; it passes over
a closed port without an access, begins the visit of an open one, and after the last port performs DSP.EXIT.
DSP.VISIT of a closed port as a word makes no access either; a handler that stands before that port goes on to
the next. -/
def Obligations.HandlerVisitsItsPortsInOrder : Prop :=
  (∀ (s : State) (l : Line) (rest : List Line) (i : Nat), s.ctx = l :: rest →
    s.dseq.get l = .run 1 i .none [] 0#16 →
    (∀ q, (s.cfg.portsOf l)[i]? = some q → s.slots.get q = none →
      coreStep s = .ok () { s with dseq := s.dseq.set l (.run 1 (i + 1) .none [] 0#16) })
    ∧ (∀ q, (s.cfg.portsOf l)[i]? = some q → (s.slots.get q).isSome = true →
      coreStep s = .ok () { s with dseq := s.dseq.set l (.run 2 i .none [] 0#16) })
    ∧ ((s.cfg.portsOf l)[i]? = none → (coreStep s).outcome = exec (.dspExit l.sel) s))
  ∧ ∀ (s : State) (q : Slot), s.slots.get q = none →
    exec (.dspVisit q.sel) s = .next { s with dseq :=
      match s.ctx with
      | [] => s.dseq
      | l :: _ =>
        match s.dseq.get l with
        | .run 1 i _ _ _ =>
          if (s.cfg.portsOf l)[i]? = some q then s.dseq.set l (.run 1 (i + 1) .none [] 0#16) else s.dseq
        | _ => s.dseq }

/-- R192, R200: a visit of an open STD port, undisturbed, ends (the word is not put back on the schedule), and
it ends because the device has no cause left: every action removes the condition that caused it. -/
def Obligations.VisitServesTheStdPort : Prop :=
  ∀ (s : State) (q : Slot) (c : StdSlot), s.cfg.wf = true → q.kind = .std c →
    s.regs q = regsOf s.cfg q → (s.slots.get q).isSome = true → s.ringOwned q = true →
    s.cfg.stdPresent.get c = true → (s.dev.std.get c).lcr &&& s.cfg.stdMap.lcrDlab = 0#8 →
    ∃ t, exec (.dspVisit q.sel) s = .next t ∧ t.moves = s.moves
      ∧ (t.dev.std.get c).cause s.cfg.stdMap = .none
      ∧ t.devIrq q = false ∧ (t.dev.std.get c).lcr = (s.dev.std.get c).lcr
      ∧ (t.dev.std.get c).ier = (s.dev.std.get c).ier

/-- R192, R195, R200: the same of the INTEG port: the visit ends with no byte waiting, no line error, and either
a byte in the transmitter or the TX-more latch clear. -/
def Obligations.VisitServesTheIntegPort : Prop :=
  ∀ (s : State), s.cfg.wf = true → s.cfg.integPresent = true → s.regs .p2 = regsOf s.cfg .p2 →
    (s.slots.get .p2).isSome = true → s.ringOwned .p2 = true →
    ∃ t, exec (.dspVisit 2#4) s = .next t ∧ t.moves = s.moves ∧ t.dev.integ.rxd = none
      ∧ t.dev.integ.lineErr = false
      ∧ (t.dev.integ.txd ≠ none ∨ t.dev.integ.ien &&& s.cfg.imTxie = 0#16)
      ∧ t.devIrq .p2 = false

/-- R195: DSP.ON_TXEMPTY with bytes queued is HAL.FILL_TX of the variant's burst; with none it clears the
latch on INTEG, as HAL.DIS_TX does, and does nothing on STD. -/
def Obligations.OnTxEmpty : Prop :=
  ∀ (s : State) (q : Slot) (ps : PortState), s.cfg.wf = true → s.slots.get q = some ps →
    ps.regs = regsOf s.cfg q → s.ringOwned q = true →
    (ps.tx.count ≠ 0#16 → ∃ t : State,
      exec (.halFillTx q.sel (match q.kind with
          | .std _ => s.cfg.txBurst.std | .integ => s.cfg.txBurst.integ)) s = .next { t with ret := .unit }
      ∧ exec (.dspOnTxEmpty q.sel) s = .next { t with ret := s.ret })
    ∧ (ps.tx.count = 0#16 → ∀ c, q.kind = .std c → exec (.dspOnTxEmpty q.sel) s = .next s)
    ∧ (ps.tx.count = 0#16 → q.kind = .integ → ∃ t : State,
        exec (.halDisTx q.sel) s = .next { t with ret := .unit }
        ∧ exec (.dspOnTxEmpty q.sel) s = .next { t with ret := s.ret })

/-! ### The host primitives (class HOST) -/

/-- R250, R252, R273 to R279: what HOST.RD8 of each location of a present STD chip answers and what it takes
away, and what HOST.WR8 of each location does, wherever the map puts the locations and their bits. -/
def Obligations.StdRegisters : Prop :=
  (∀ (s : State) (c : StdSlot), s.cfg.wf = true → s.cfg.stdPresent.get c = true →
    let m := s.cfg.stdMap
    let d := s.dev.std.get c
    let dlab : Prop := d.lcr &&& m.lcrDlab ≠ 0#8
    let free : Byte := s.drawValue.setWidth 8
    let reads (k : BitVec 3) (u : State) (d' : StdDev) (v : Byte) : Prop :=
      let a := s.cfg.stdBase.get c + k.setWidth 16
      exec (.hostRd8 a) s = .next { u with
        dev := { s.dev with std := s.dev.std.set c d' }, trace := s.trace ++ [.rd8 a v], ret := .u8 v }
    (dlab → reads m.offData s d d.dll ∧ reads m.offIer s d d.dlm)
    ∧ (¬dlab → (∀ b rest, d.rxf = b :: rest → reads m.offData s { d with rxf := rest, rxTo := false } b)
        ∧ (d.rxf = [] → reads m.offData s.drawn1 d free) ∧ reads m.offIer s d d.ier)
    ∧ reads m.offIir s (if d.cause m = .txEmpty then { d with threInt := false } else d)
        ((if d.fifoEn then m.iirFifo else 0x00#8) ||| (match d.cause m with
          | .none => m.iirNone | .modemStatus => m.iirMs | .lineStatus => m.iirLs | .txEmpty => m.iirTx
          | .rxReady => m.iirRx | .rxTimeout => m.iirTo))
    ∧ reads m.offLcr s d d.lcr ∧ reads m.offMcr s d d.mcr
    ∧ reads m.offLsr s { d with lsErr := 0#4 } ((if d.rxf = [] then 0#8 else m.lsrDr)
        ||| (d.lsErr.setWidth 8 <<< m.lsrErr) ||| (if d.txf = [] then m.lsrThre ||| m.lsrTemt else 0#8))
    ∧ reads m.offMsr s.drawn1 { d with msDelta := 0#4 }
        ((free &&& ~~~(0x0F#8 <<< m.msrDelta)) ||| (d.msDelta.setWidth 8 <<< m.msrDelta))
    ∧ reads m.offScr s d d.scr)
  ∧ ∀ (s : State) (c : StdSlot), s.cfg.wf = true → s.cfg.stdPresent.get c = true →
    let m := s.cfg.stdMap
    let d := s.dev.std.get c
    let dlab : Prop := d.lcr &&& m.lcrDlab ≠ 0#8
    let v : Byte := s.side.value.setWidth 8
    let on (b : Byte) : Bool := v &&& b ≠ 0#8
    let writes (k : BitVec 3) (d' : StdDev) : Prop :=
      let a := s.cfg.stdBase.get c + k.setWidth 16
      exec (.hostWr8 a) s = .next { s with
        dev := { s.dev with std := s.dev.std.set c d' }, trace := s.trace ++ [.wr8 a v], ret := .unit }
    let changed := on m.fcrEn ≠ d.fifoEn
    let resetRx := on m.fcrEn = false ∨ on m.fcrRx = true ∨ changed
    let resetTx := on m.fcrEn = false ∨ on m.fcrTx = true ∨ changed
    let code := (v >>> m.fcrTrig).extractLsb' 0 2
    (dlab → writes m.offData { d with dll := v } ∧ writes m.offIer { d with dlm := v })
    ∧ (¬dlab →
        writes m.offData { d with
          txf := if d.txf.length < (if d.fifoEn then 16 else 1) then d.txf ++ [v] else d.txf,
          threInt := false }
        ∧ writes m.offIer { d with
          ier := v &&& (m.ierRx ||| m.ierTx ||| m.ierLs ||| m.ierMs),
          threInt := d.threInt || (decide (d.ier &&& m.ierTx = 0#8) && on m.ierTx && d.txf.isEmpty) })
    ∧ writes m.offIir { d with
        fifoEn := on m.fcrEn,
        rxf := if resetRx then [] else d.rxf, rxTo := if resetRx then false else d.rxTo,
        txf := if resetTx then [] else d.txf, threInt := d.threInt || decide (resetTx ∧ d.txf ≠ []),
        trigger := if on m.fcrEn = false then .t1
          else if code = m.fcrT1 then .t1 else if code = m.fcrT4 then .t4 else if code = m.fcrT8 then .t8
          else .t14 }
    ∧ writes m.offLcr { d with lcr := v } ∧ writes m.offMcr { d with mcr := v }
    ∧ writes m.offLsr d ∧ writes m.offMsr d ∧ writes m.offScr { d with scr := v }

/-- R251, R253, R283 to R287: the registers of the present INTEG device at HOST.RD16 and HOST.WR16. -/
def Obligations.IntegRegisters : Prop :=
  ∀ (s : State), s.cfg.wf = true → s.cfg.integPresent = true →
    let d := s.dev.integ
    let w := s.side.value
    let reads (a : Half) (u : State) (d' : IntegDev) (v : Half) : Prop :=
      exec (.hostRd16 a) s = .next { u with
        dev := { s.dev with integ := d' }, trace := s.trace ++ [.rd16 a v], ret := .u16 v }
    let writes (a : Half) (d' : IntegDev) : Prop :=
      exec (.hostWr16 a) s = .next { s with
        dev := { s.dev with integ := d' }, trace := s.trace ++ [.wr16 a w], ret := .unit }
    reads s.cfg.iIen s d d.ien ∧ reads s.cfg.iLctl s d d.lctl ∧ reads s.cfg.iBaud s d d.baud
    ∧ (∃ v, reads s.cfg.iStat s.drawn1 { d with lineErr := false } v
        ∧ (v &&& s.cfg.isRxrdy ≠ 0#16 ↔ d.rxd ≠ none) ∧ (v &&& s.cfg.isThre ≠ 0#16 ↔ d.txd = none)
        ∧ (v &&& s.cfg.isTxint ≠ 0#16 ↔ d.txd = none ∧ d.ien &&& s.cfg.imTxie ≠ 0#16)
        ∧ (v &&& s.cfg.isLineerr ≠ 0#16 ↔ d.lineErr = true))
    ∧ reads s.cfg.iTxd s.drawn1 d s.drawValue
    ∧ (∀ b, d.rxd = some b → reads s.cfg.iRxd s { d with rxd := none } (b.setWidth 16))
    ∧ (d.rxd = none → reads s.cfg.iRxd s.drawn1 d s.drawValue)
    ∧ writes s.cfg.iIen { d with ien := w } ∧ writes s.cfg.iLctl { d with lctl := w }
    ∧ writes s.cfg.iBaud { d with baud := w } ∧ writes s.cfg.iStat d ∧ writes s.cfg.iRxd d
    ∧ writes s.cfg.iTxd (if d.txd = none then { d with txd := some (w.extractLsb' 0 8) } else d)

/-- R69, R254, R288, R289: the rest of the `IO` space: an address nobody claims reads a draw and ignores writes
at either width, and so does the block of an absent chip, but for a 16-bit read, which R251 refuses (log entry
21); the interrupt controller takes the completion value of every line and reads a draw; a wrong width is
refused. (A value that is no completion value is refused: log entry 19.) -/
def Obligations.IoRouting : Prop :=
  ∀ (s : State) (a : Half), s.cfg.wf = true →
    let v8 : Byte := s.drawValue.setWidth 8
    let rd8 := exec (.hostRd8 a) s
    let rd16 := exec (.hostRd16 a) s
    let wr8 := exec (.hostWr8 a) s
    let wr16 := exec (.hostWr16 a) s
    let draws8 := rd8 = .next { s.drawn1 with trace := s.trace ++ [.rd8 a v8], ret := .u8 v8 }
      ∧ wr8 = .next { s with trace := s.trace ++ [.wr8 a (s.side.value.setWidth 8)], ret := .unit }
    let drawsRd16 := rd16
      = .next { s.drawn1 with trace := s.trace ++ [.rd16 a s.drawValue], ret := .u16 s.drawValue }
    let ignoresWr16 := wr16 = .next { s with trace := s.trace ++ [.wr16 a s.side.value], ret := .unit }
    let inStd (c : StdSlot) : Prop :=
      (s.cfg.stdBase.get c).toNat ≤ a.toNat ∧ a.toNat ≤ (s.cfg.stdBase.get c).toNat + 7
    let integRegs := [s.cfg.iIen, s.cfg.iLctl, s.cfg.iBaud, s.cfg.iStat, s.cfg.iTxd, s.cfg.iRxd]
    (∀ c, inStd c → rd16 = .refused .wrongWidth
      ∧ (s.cfg.stdPresent.get c = true → wr16 = .refused .wrongWidth)
      ∧ (s.cfg.stdPresent.get c = false → draws8 ∧ ignoresWr16))
    ∧ (a ∈ integRegs → s.cfg.integPresent = true →
        rd8 = .refused .wrongWidth ∧ wr8 = .refused .wrongWidth)
    ∧ (a = s.cfg.eoiAddr → rd8 = .refused .wrongWidth ∧ wr8 = .refused .wrongWidth ∧ drawsRd16
        ∧ (∀ l, s.side.value = s.cfg.eoiValue.get l → ignoresWr16)
        ∧ ((∀ l, s.side.value ≠ s.cfg.eoiValue.get l) → wr16 = .refused .eoiValueUnknown))
    ∧ ((∀ c, ¬inStd c) → a ≠ s.cfg.eoiAddr → (a ∉ integRegs ∨ s.cfg.integPresent = false) →
        draws8 ∧ drawsRd16 ∧ ignoresWr16)

/-- R256 to R259: the mask and the vector of a line; HOST.INSTALL answers the handler it found. -/
def Obligations.LinePrimitives : Prop :=
  ∀ (s : State) (l : Line),
    exec (.hostMask l.sel) s = .next { s with
      masked := s.masked.set l true, trace := s.trace ++ [.mask l], ret := .unit }
    ∧ exec (.hostUnmask l.sel) s = .next { s with
      masked := s.masked.set l false, trace := s.trace ++ [.unmask l], ret := .unit }
    ∧ exec (.hostInstall l.sel) s = .next { s with
      handler := s.handler.set l s.side.handler,
      trace := s.trace ++ [.install l s.side.handler (s.handler.get l)], ret := .handler (s.handler.get l) }
    ∧ exec (.hostRestore l.sel) s = .next { s with
      handler := s.handler.set l s.side.handler, trace := s.trace ++ [.restore l s.side.handler],
      ret := .unit }

/-! ### The environment (class ENV) -/

/-- R291: a byte that arrives goes onto the receive wire and into the device, or, where the device is full, sets
the overrun condition. (What becomes of the edge latch is the statement on edges; a move that is not enabled
leaves the state: log entry 14.) R292:
ENV.TX_SHIFT moves the oldest byte of the transmitter to the transmit wire, raising the transmit-empty condition
of a STD chip when the last one leaves; with the loopback wired the byte arrives at the same port in the same
step. With nothing to send, or no device, it does not occur (log entry 14). -/
def Obligations.WireMoves : Prop :=
  (∀ (s : State) (q : Slot) (b : Byte),
    (s.cfg.present q = false → exec (.envRxArrive q.sel b) s = .next s)
    ∧ (s.cfg.present q = true → ∃ t, exec (.envRxArrive q.sel b) s = .next t
      ∧ t = { s with dev := t.dev, latched := t.latched,
                     wireRx := s.wireRx.set q (s.wireRx.get q ++ [b]) }
      ∧ (∀ c, q.kind = .std c → let d := s.dev.std.get c
          t.dev = { s.dev with
            std := s.dev.std.set c
              (if d.rxf.length < (if d.fifoEn then 16 else 1)
                then { d with rxf := d.rxf ++ [b], rxTo := false }
                else { d with lsErr := d.lsErr ||| 0b0001#4 }) })
      ∧ (q.kind = .integ → let d := s.dev.integ
          t.dev = { s.dev with integ :=
            if d.rxd = none then { d with rxd := some b } else { d with lineErr := true } })))
  ∧ ∀ (s : State) (q : Slot),
    (∀ c b rest, s.cfg.present q = true → q.kind = .std c → (s.dev.std.get c).txf = b :: rest →
      let d := s.dev.std.get c
      let u := { s with
        dev := { s.dev with
          std := s.dev.std.set c { d with txf := rest, threInt := d.threInt || rest.isEmpty } },
        wireTx := s.wireTx.set q (s.wireTx.get q ++ [b]) }
      ∃ g dv wr, exec (.envTxShift q.sel) s = .next { u with latched := g, dev := dv, wireRx := wr }
        ∧ (s.cfg.loopback.get q = false → dv = u.dev ∧ wr = u.wireRx)
        ∧ (s.cfg.loopback.get q = true → ∃ t, exec (.envRxArrive q.sel b) u = .next t
            ∧ dv = t.dev ∧ wr = t.wireRx))
    ∧ (∀ b, s.cfg.present q = true → q.kind = .integ → s.dev.integ.txd = some b →
      let u := { s with
        dev := { s.dev with integ := { s.dev.integ with txd := none } },
        wireTx := s.wireTx.set q (s.wireTx.get q ++ [b]) }
      ∃ g dv wr, exec (.envTxShift q.sel) s = .next { u with latched := g, dev := dv, wireRx := wr }
        ∧ (s.cfg.loopback.get q = false → dv = u.dev ∧ wr = u.wireRx)
        ∧ (s.cfg.loopback.get q = true → ∃ t, exec (.envRxArrive q.sel b) u = .next t
            ∧ dv = t.dev ∧ wr = t.wireRx))
    ∧ (s.cfg.present q = false ∨ (∃ c, q.kind = .std c ∧ (s.dev.std.get c).txf = [])
        ∨ (q.kind = .integ ∧ s.dev.integ.txd = none) →
      exec (.envTxShift q.sel) s = .next s)

/-- R293 to R295: the line, modem and timeout conditions. The bits of a line or modem event are a draw that is
not 0; an event at a port whose device is absent, a modem event or a timeout at the INTEG port, and a timeout
with nothing waiting do not occur (log entry 14). R35: under edge
triggering an environment move that takes the level of its line from 0 to 1 latches it, and no environment move
clears a latch or touches another line's; under level triggering none is written. -/
def Obligations.EnvironmentEventsAndEdges : Prop :=
  (∀ (s : State) (q : Slot),
    (s.cfg.present q = false → exec (.envLineEvent q.sel) s = .next s
      ∧ exec (.envModemEvent q.sel) s = .next s ∧ exec (.envRxTimeout q.sel) s = .next s)
    ∧ (q.kind = .integ → exec (.envModemEvent q.sel) s = .next s
      ∧ exec (.envRxTimeout q.sel) s = .next s
      ∧ (s.cfg.present q = true → ∃ g, exec (.envLineEvent q.sel) s = .next { s.drawn1 with
          dev := { s.dev with integ := { s.dev.integ with lineErr := true } }, latched := g }))
    ∧ (∀ c, q.kind = .std c → s.cfg.present q = true → let d := s.dev.std.get c
      let after (u : State) (d' : StdDev) (g : PerLine Bool) : State :=
        { u with dev := { s.dev with std := s.dev.std.set c d' }, latched := g }
      (∃ e g, e ≠ 0#4 ∧ exec (.envLineEvent q.sel) s
          = .next (after s.drawn1 { d with lsErr := d.lsErr ||| e } g))
      ∧ (∃ e g, e ≠ 0#4 ∧ exec (.envModemEvent q.sel) s
          = .next (after s.drawn1 { d with msDelta := d.msDelta ||| e } g))
      ∧ (d.fifoEn = true → d.rxf ≠ [] →
          ∃ g, exec (.envRxTimeout q.sel) s = .next (after s { d with rxTo := true } g))
      ∧ (d.fifoEn = false ∨ d.rxf = [] → exec (.envRxTimeout q.sel) s = .next s)))
  ∧ ∀ (s t : State) (q : Slot) (b : Byte) (i : Instr),
    i ∈ [Instr.envRxArrive q.sel b, .envTxShift q.sel, .envLineEvent q.sel, .envModemEvent q.sel,
      .envRxTimeout q.sel] →
    exec i s = .next t →
    let l := s.cfg.lineOf.get q
    (s.cfg.trigger = .level → t.latched = s.latched)
    ∧ (s.cfg.trigger = .edge →
        t.latched = s.latched.set l (s.latched.get l || (!s.irqLevel l && t.irqLevel l)))

/-! ### The commands (class API) -/

/-- R230, R303, R306, R312: a port identifier 4 to 15 ends every command with InvalidPortNumber; a closed port
ends every command but OPEN and CLOSE with PortNotOpen; nothing but `R0` and `LASTERR` changes. R210 lines 1 to
3, R212, R312: the errors of OPEN in the order of its tests: UnsupportedUart, PortAlreadyOpen, IllegalSetting,
InvalidBufferSize, OutOfMemory, NoUartDetected; none leaves a trace in the registry, the vectors or the masks.
R300: the codes, 1 to 8 in the order of the table. -/
def Obligations.CommandErrorsInOrder : Prop :=
  let code := Config.reference.errCode.get
  (code .invalidPortNumber = 1#8 ∧ code .noUartDetected = 2#8 ∧ code .portAlreadyOpen = 3#8
    ∧ code .portNotOpen = 4#8 ∧ code .invalidBufferSize = 5#8 ∧ code .illegalSetting = 6#8
    ∧ code .unsupportedUart = 7#8 ∧ code .outOfMemory = 8#8)
  ∧ (∀ (s : State) (d : Dir), s.mseq = .idle → s.ctx = [] →
    let fails (i : Instr) (e : ErrKind) : Prop :=
      exec i s = .next { s with r0 := 0xFFFFFFFF#32, lasterr := s.cfg.errCode.get e }
    (∀ p : BitVec 4, 4 ≤ p.toNat →
      ∀ i ∈ [Instr.openPort p, .configure p, .send p, .recv p, .clear p d, .available p, .close p,
          .rxDropped p], fails i .invalidPortNumber)
    ∧ ∀ q : Slot, s.slots.get q = none →
      ∀ i ∈ [Instr.configure q.sel, .send q.sel, .recv q.sel, .clear q.sel d, .available q.sel,
          .rxDropped q.sel], fails i .portNotOpen)
  ∧ ∀ (s : State) (q : Slot), s.mseq = .idle → s.ctx = [] →
    let fails (u : State) (e : ErrKind) : Prop :=
      exec (.openPort q.sel) s = .next { u with r0 := 0xFFFFFFFF#32, lasterr := s.cfg.errCode.get e }
    let unsupported := s.cfg.variantOf.get q = .integ ∧ s.cfg.integPresent = false
    let badMode := 2 ≤ s.a0.toNat
    let badSize := s.a1.toNat < s.cfg.capMin ∨ s.cfg.capMax < s.a1.toNat ∨ s.a2.toNat < s.cfg.capMin
      ∨ s.cfg.capMax < s.a2.toNat
    (unsupported → fails s .unsupportedUart)
    ∧ (¬unsupported → (s.slots.get q).isSome = true → fails s .portAlreadyOpen)
    ∧ (¬unsupported → s.slots.get q = none → badMode → fails s .illegalSetting)
    ∧ (¬unsupported → s.slots.get q = none → ¬badMode → badSize →
        fails s .invalidBufferSize)
    ∧ (¬unsupported → s.slots.get q = none → ¬badMode → ¬badSize → s.drawValue.getLsbD 0 = false →
        fails s.drawn1 .outOfMemory)
    ∧ (∀ c, q.kind = .std c → s.cfg.wf = true → s.cfg.stdPresent.get c = false → s.slots.get q = none →
        s.life.get q = .closed → ¬badMode → ¬badSize → s.drawValue.getLsbD 0 = true →
        let a := s.cfg.stdBase.get c + s.cfg.stdMap.offIer.setWidth 16
        let v : Byte := s.drawn1.drawValue.setWidth 8
        v ≠ 0#8 → fails { s.drawn1.drawn1 with trace := s.trace ++ [.wr8 a 0x00#8, .rd8 a v] } .noUartDetected)

/-- R210, R345: OPEN of a STD slot with legal operands and the allocation granted: the whole state after it, for
a chip that is present, the divisor latch off (R290), and for one that is absent where the read-back draws 0,
which the presence test lets through (R69, R165); and the same of the INTEG slot with its hardware present. -/
def Obligations.OpenSucceeds : Prop :=
  (∀ (s : State) (q : Slot) (c : StdSlot), s.cfg.wf = true → s.mseq = .idle → s.ctx = [] →
    q.kind = .std c → s.slots.get q = none → s.a0.toNat ≤ 1 →
    s.cfg.capMin ≤ s.a1.toNat → s.a1.toNat ≤ s.cfg.capMax → s.cfg.capMin ≤ s.a2.toNat →
    s.a2.toNat ≤ s.cfg.capMax → s.drawValue.getLsbD 0 = true →
    let m := s.cfg.stdMap
    let l := s.cfg.lineOf.get q
    let ier := s.cfg.stdBase.get c + m.offIer.setWidth 16
    let fcr := s.cfg.stdBase.get c + m.offIir.setWidth 16
    let d := s.dev.std.get c
    let first := s.lineRefs.get l = 0
    let opened (u : State) (dev : Devices) (x : Byte) : State := { u.drawn1 with
      r0 := 0#32, lasterr := u.drawValue.setWidth 8,
      slots := s.slots.set q (some
        { regs := .std (s.cfg.stdBase.get c)
          rx := { capacity := s.a2.setWidth 16, storage := [], head := 0#16, tail := 0#16, count := 0#16 }
          tx := { capacity := s.a1.setWidth 16, storage := [], head := 0#16, tail := 0#16, count := 0#16 }
          blocking := s.a0.getLsbD 0, rxDropped := 0#32 }),
      life := s.life.set q .opened,
      lineRefs := s.lineRefs.set l (s.lineRefs.get l + 1),
      handler := if first then s.handler.set l .dispatcher else s.handler,
      savedHandler := if first then s.savedHandler.set l (s.handler.get l) else s.savedHandler,
      masked := s.masked.set l false, dev := dev,
      trace := s.trace ++ [.wr8 ier 0x00#8, .rd8 ier 0x00#8, .mask l]
        ++ (if first then [.install l .dispatcher (s.handler.get l)] else [])
        ++ [.wr8 fcr s.cfg.fcrInit, .rd8 ier x, .wr8 ier (x ||| m.ierRx), .unmask l] }
    (s.cfg.stdPresent.get c = true → d.lcr &&& m.lcrDlab = 0#8 →
      exec (.openPort q.sel) s = .next (opened s.drawn1
        { s.dev with std := s.dev.std.set c { d with
          ier := m.ierRx, fifoEn := true, trigger := s.cfg.stdRxTrigger, rxf := [], txf := [], rxTo := false,
          threInt := d.threInt || !d.txf.isEmpty } } 0x00#8))
    ∧ (s.cfg.stdPresent.get c = false → let u := s.drawn1
      u.drawValue.setWidth 8 = 0#8 →
      exec (.openPort q.sel) s
        = .next (opened u.drawn1.drawn1 s.dev (u.drawn1.drawValue.setWidth 8))))
  ∧ ∀ (s : State), s.cfg.wf = true → s.mseq = .idle → s.ctx = [] → s.slots.get .p2 = none →
    s.a0.toNat ≤ 1 → s.cfg.capMin ≤ s.a1.toNat → s.a1.toNat ≤ s.cfg.capMax → s.cfg.capMin ≤ s.a2.toNat →
    s.a2.toNat ≤ s.cfg.capMax → s.drawValue.getLsbD 0 = true → s.cfg.integPresent = true →
    let l := s.cfg.lineOf.get .p2
    let d := s.dev.integ
    let g := s.cfg
    let first := s.lineRefs.get l = 0
    let u := s.drawn1
    exec (.openPort 2#4) s = .next { u.drawn1 with
      r0 := 0#32, lasterr := u.drawValue.setWidth 8,
      slots := s.slots.set .p2 (some
        { regs := .integ g.iIen g.iLctl g.iBaud g.iStat g.iTxd g.iRxd
          rx := { capacity := s.a2.setWidth 16, storage := [], head := 0#16, tail := 0#16, count := 0#16 }
          tx := { capacity := s.a1.setWidth 16, storage := [], head := 0#16, tail := 0#16, count := 0#16 }
          blocking := s.a0.getLsbD 0, rxDropped := 0#32 }),
      life := s.life.set .p2 .opened,
      lineRefs := s.lineRefs.set l (s.lineRefs.get l + 1),
      handler := if first then s.handler.set l .dispatcher else s.handler,
      savedHandler := if first then s.savedHandler.set l (s.handler.get l) else s.savedHandler,
      masked := s.masked.set l false,
      savedInteg := ⟨d.ien, d.lctl, d.baud⟩,
      dev := { s.dev with integ := { d with ien := d.ien ||| g.imRxie, lctl := g.integInitWord } },
      trace := s.trace
        ++ [.rd16 g.iIen d.ien, .rd16 g.iLctl d.lctl, .rd16 g.iBaud d.baud, .mask l]
        ++ (if first then [.install l .dispatcher (s.handler.get l)] else [])
        ++ [.wr16 g.iLctl g.integInitWord, .rd16 g.iIen d.ien, .wr16 g.iIen (d.ien ||| g.imRxie),
          .unmask l] }

/-- R214: CONFIGURE of an open port with accepted settings performs HAL.CONFIG between the mask and the unmask
of its line and ends with 0; with settings the variant does not accept it ends with IllegalSetting and makes
no access. -/
def Obligations.Configure : Prop :=
  ∀ (s : State) (q : Slot) (ps : PortState), s.cfg.wf = true → s.mseq = .idle → s.ctx = [] →
    s.slots.get q = some ps → ps.regs = regsOf s.cfg q →
    let l := s.cfg.lineOf.get q
    let accepted : Prop := match q.kind with
      | .std _ => 5 ≤ s.a2.toNat ∧ s.a2.toNat ≤ 8 ∧ s.a1.toNat ≤ 4 ∧ (s.a3.toNat = 1 ∨ s.a3.toNat = 2)
          ∧ (s.cfg.stdBaud.lookup s.a0).isSome = true
      | .integ => (s.a2.toNat = 7 ∨ s.a2.toNat = 8) ∧ s.a1.toNat ≤ 2 ∧ s.a0 ∈ s.cfg.integBaudOk
          ∧ s.a3 ∈ s.cfg.integStopOk
    (¬accepted → exec (.configure q.sel) s
        = .next { s with r0 := 0xFFFFFFFF#32, lasterr := s.cfg.errCode.get .illegalSetting })
    ∧ (accepted → ∃ u : State,
        exec (.halConfig q.sel) { s with masked := s.masked.set l true, trace := s.trace ++ [.mask l] }
            = .next { u with ret := .unit }
        ∧ exec (.configure q.sel) s = .next { u.drawn1 with
            r0 := 0#32, lasterr := u.drawValue.setWidth 8, ret := s.ret,
            masked := s.masked.set l false, trace := u.trace ++ [.unmask l] })

/-- R216, R217: CLOSE of a closed port ends with 0 and nothing else (R218). CLOSE of an open non-blocking
port, and of a blocking one whose `tx` and device are empty, masks the line, disables the device, gives the
vector back if this was the last port of the line, restores the INTEG snapshot, frees the slot and unmasks the
line if another port uses it. A blocking CLOSE that finds bytes queued, or the device not empty, waits: a step
of a waiting CLOSE with bytes queued leaves the state as it is; one without reads the status, and the command
goes to its end or, after the two steps that log entry 37 makes of that round (the model's choice), waits on.
(A line counted 0, which no run reaches, stays counted 0: the model's choice, log entry 31.) -/
def Obligations.Close : Prop :=
  ∀ (s : State) (q : Slot), s.cfg.wf = true → s.ctx = [] →
    let l := s.cfg.lineOf.get q
    let ok (u : State) : State := { u.drawn1 with
      r0 := 0#32, lasterr := u.drawValue.setWidth 8, mseq := .idle }
    let left := s.lineRefs.get l - 1
    let last := left = 0
    let closed (u : State) (dev : Devices) (es gs : List HostEvent) : State := ok { u with
      slots := s.slots.set q none, life := s.life.set q .closed, lineRefs := s.lineRefs.set l left,
      handler := if last then s.handler.set l (s.savedHandler.get l) else s.handler,
      masked := s.masked.set l (decide last), dev := dev,
      trace := u.trace ++ [.mask l] ++ es ++ (if last then [.restore l (s.savedHandler.get l)] else []) ++ gs
        ++ (if last then [] else [.unmask l]) }
    let closesFrom (reaches : State → Prop) (u : State) : Prop :=
      (∀ c, q.kind = .std c → let d := u.dev.std.get c
        reaches (closed u
          (if s.cfg.stdPresent.get c
            then { u.dev with
              std := u.dev.std.set c
                (if d.lcr &&& s.cfg.stdMap.lcrDlab ≠ 0#8 then { d with dlm := 0#8 } else { d with ier := 0#8 }) }
            else u.dev)
          [.wr8 (s.cfg.stdBase.get c + s.cfg.stdMap.offIer.setWidth 16) 0x00#8] []))
      ∧ (q.kind = .integ → s.cfg.integPresent = true → let d := u.dev.integ
        let g := s.savedInteg
        reaches (closed u
          { u.dev with integ := { d with ien := g.ien, lctl := g.lctl, baud := g.baud } }
          [.rd16 s.cfg.iIen d.ien,
            .wr16 s.cfg.iIen (d.ien &&& ~~~(s.cfg.imRxie ||| s.cfg.imTxie))]
          [.wr16 s.cfg.iIen g.ien, .wr16 s.cfg.iLctl g.lctl, .wr16 s.cfg.iBaud g.baud]))
    let waiting : MSeq := .run ⟨.close, q.sel⟩ 2 ⟨0#32, 0#32, 0, [], 0#16⟩
    (s.mseq = .idle →
      let reaches (t : State) : Prop := exec (.close q.sel) s = .next t
      let waits (u : State) : Prop := reaches { u with life := s.life.set q .closing, mseq := waiting }
      (s.slots.get q = none → reaches (ok s))
      ∧ ∀ ps, s.slots.get q = some ps → ps.regs = regsOf s.cfg q →
        (ps.blocking = false → closesFrom reaches s)
        ∧ (ps.blocking = true → ps.tx.count ≠ 0#16 → waits s)
        ∧ (ps.blocking = true → ps.tx.count = 0#16 → ∃ e t, exec (.halTxEmpty q.sel) s = .next t
            ∧ t.ret = .bool e
            ∧ (e = false → waits { t with ret := s.ret })
            ∧ (e = true → closesFrom reaches { t with ret := s.ret })))
    ∧ (s.mseq = waiting → ∀ ps, s.slots.get q = some ps → ps.regs = regsOf s.cfg q →
        let reaches (t : State) : Prop := ∃ n, coreSteps n s t
        (ps.blocking = false → closesFrom reaches s)
        ∧ (ps.blocking = true → ps.tx.count ≠ 0#16 → coreStep s = .ok () s)
        ∧ (ps.blocking = true → ps.tx.count = 0#16 → ∃ e t, exec (.halTxEmpty q.sel) s = .next t
            ∧ t.ret = .bool e
            ∧ (e = false → coreSteps 2 s { t with ret := s.ret })
            ∧ (e = true → closesFrom reaches { t with ret := s.ret })))

/-- R232: the kick: nothing with an empty `tx`; else one status read, and, where the transmitter is empty, the
enable and one load of the variant's burst. -/
def Obligations.Kick : Prop :=
  ∀ (s : State) (q : Slot) (ps : PortState), s.cfg.wf = true → s.slots.get q = some ps →
    ps.regs = regsOf s.cfg q → s.ringOwned q = true →
    (ps.tx.count = 0#16 → kick q s = .ok () s)
    ∧ (ps.tx.count ≠ 0#16 → ∃ e t, exec (.halTxEmpty q.sel) s = .next t ∧ t.ret = .bool e
        ∧ (e = false → kick q s = .ok () { t with ret := s.ret })
        ∧ (e = true → ∃ u w, exec (.halEnTx q.sel) t = .next u
            ∧ exec (.halFillTx q.sel (match q.kind with
              | .std _ => s.cfg.txBurst.std | .integ => s.cfg.txBurst.integ)) u = .next w
            ∧ kick q s = .ok () { w with ret := s.ret }))

/-- R231 (R70, R60): SEND of a buffer that leaves `HBUF` is refused and of no bytes ends with 0; else its
first pass, with the line masked, queues `min(room, len)` bytes of the buffer and kicks, and the command ends
with that count, or, on a blocking port with bytes left, waits with the line unmasked. A SEND that has moved
`done` bytes and stands at its spin boundary ends with `done` where that is all; else its next pass does the
same from address `A0 + done` with `len - done` bytes. -/
def Obligations.Send : Prop :=
  ∀ (s : State) (q : Slot) (ps : PortState), s.cfg.wf = true → s.ctx = [] →
    s.slots.get q = some ps → ps.regs = regsOf s.cfg q →
    let l := s.cfg.lineOf.get q
    let len := s.a1.toNat
    let inside := s.a0.toNat + len ≤ 2 ^ s.cfg.haddrBits ∧ (s.a0.toNat < 2 ^ s.cfg.haddrBits ∨ len = 0)
    let room := ps.tx.capacity.toNat - ps.tx.count.toNat
    let ok (u : State) (v : Word) : State := { u.drawn1 with
      r0 := v, lasterr := u.drawValue.setWidth 8, mseq := .idle }
    let wait (u : State) (v : Word) : State := { u with mseq := .run ⟨.send, q.sel⟩ 2 ⟨v, 0#32, 0, [], 0#16⟩ }
    -- one pass over the bytes `j < k` from address `a` on; `v` is the state after it
    let pass (a k : Nat) (post : State → Prop) : Prop :=
      ∃ tx' w, tx'.ok = true ∧ tx'.capacity = ps.tx.capacity
        ∧ tx'.queued = ps.tx.queued ++ (List.range k).map (fun j => cellsRead s.hbuf (a + j))
        ∧ kick q { s with masked := s.masked.set l true, trace := s.trace ++ [.mask l],
                          slots := s.slots.set q (some { ps with tx := tx' }) } = .ok () w
        ∧ post { w with masked := s.masked.set l false, trace := w.trace ++ [.unmask l] }
    let readable (a k : Nat) : Prop := ∀ j, j < k → (cellsRead s.hbuf (a + j)).isSome = true
    (s.mseq = .idle → let k := min room len
    (¬inside → exec (.send q.sel) s = .refused .bufferOutside)
    ∧ (inside → len = 0 → exec (.send q.sel) s = .next (ok s 0#32))
    ∧ (inside → len ≠ 0 → (∃ j, j < k ∧ cellsRead s.hbuf (s.a0.toNat + j) = none) →
        exec (.send q.sel) s = .fault .hbufUnwritten)
    ∧ (inside → len ≠ 0 → ps.tx.ok = true →
        readable s.a0.toNat k →
        pass s.a0.toNat k fun v => exec (.send q.sel) s = .next
          (if ps.blocking = true ∧ k ≠ len then wait v (BitVec.ofNat 32 k) else ok v (BitVec.ofNat 32 k))))
    ∧ ∀ moved : Word, s.mseq = .run ⟨.send, q.sel⟩ 2 ⟨moved, 0#32, 0, [], 0#16⟩ →
      let a := s.a0.toNat + moved.toNat
      let k := min room (len - moved.toNat)
      (moved = s.a1 → coreStep s = .ok () (ok s moved))
      ∧ (moved.toNat < len → inside → ps.tx.ok = true → readable a k →
        pass a k fun v => ∃ n, coreSteps n s
          (if ps.blocking = true then wait v (moved + BitVec.ofNat 32 k) else ok v (moved + BitVec.ofNat 32 k)))

/-- R231, R232, R239: a SEND of as many bytes as the ring, the burst and the FIFO hold, on a STD port whose
ring and whose enabled FIFO are empty, returns their number and leaves those bytes in the device in the order
of their addresses, the ring empty again, the transmit enable set and the line unmasked. -/
def Obligations.SendLoadsAnIdleDevice : Prop :=
  ∀ (s : State) (q : Slot) (c : StdSlot) (ps : PortState) (bytes : List Byte), s.cfg.wf = true →
    s.mseq = .idle → s.ctx = [] → q.kind = .std c → s.slots.get q = some ps →
    ps.regs = regsOf s.cfg q → ps.tx.ok = true → ps.tx.count = 0#16 →
    s.cfg.stdPresent.get c = true → (s.dev.std.get c).lcr &&& s.cfg.stdMap.lcrDlab = 0#8 →
    (s.dev.std.get c).fifoEn = true → (s.dev.std.get c).txf = [] →
    bytes.length ≤ 16 → bytes.length ≤ s.cfg.txBurst.std.toNat → bytes.length ≤ ps.tx.capacity.toNat →
    s.a1.toNat = bytes.length →
    s.a0.toNat + bytes.length ≤ 2 ^ s.cfg.haddrBits → s.a0.toNat < 2 ^ s.cfg.haddrBits →
    cellsReadList s.hbuf s.a0.toNat bytes.length = some bytes →
    ∃ t ps', exec (.send q.sel) s = .next t ∧ t.mseq = .idle ∧ t.r0 = s.a1
      ∧ (t.dev.std.get c).txf = bytes
      ∧ (bytes ≠ [] → (t.dev.std.get c).ier &&& s.cfg.stdMap.ierTx ≠ 0#8
          ∧ t.masked.get (s.cfg.lineOf.get q) = false)
      ∧ t.slots.get q = some ps' ∧ ps'.tx.count = 0#16 ∧ ps'.tx.ok = true ∧ ps'.rx = ps.rx
      ∧ t.hbuf = s.hbuf

/-- R233 (R70): RECV of a buffer that leaves `HBUF` is refused and of no bytes ends with 0; else its first pass,
with the line masked, moves the `min(rx.count, len)` oldest bytes to the buffer, and the command ends with that
count, or, on a blocking port with bytes missing, waits. A RECV that has moved `done` bytes and stands at its
spin boundary ends with `done` where that is all; else its next pass does the same to address `A0 + done` with
`len - done` bytes. It makes no `IO` access. -/
def Obligations.Recv : Prop :=
  ∀ (s : State) (q : Slot) (ps : PortState), s.ctx = [] → s.slots.get q = some ps →
    let l := s.cfg.lineOf.get q
    let len := s.a1.toNat
    let inside := s.a0.toNat + len ≤ 2 ^ s.cfg.haddrBits ∧ (s.a0.toNat < 2 ^ s.cfg.haddrBits ∨ len = 0)
    let ok (u : State) (v : Word) : State := { u.drawn1 with
      r0 := v, lasterr := u.drawValue.setWidth 8, mseq := .idle }
    let wait (u : State) (v : Word) : State := { u with mseq := .run ⟨.recv, q.sel⟩ 2 ⟨v, 0#32, 0, [], 0#16⟩ }
    -- one pass that moves the `k` oldest bytes to address `a` on
    let pass (a k : Nat) (post : State → Prop) : Prop :=
      ∃ h rx', rx'.ok = true ∧ rx'.capacity = ps.rx.capacity ∧ rx'.queued = ps.rx.queued.drop k
        ∧ (∀ j, j < k → some (cellsRead h (a + j)) = ps.rx.queued[j]?)
        ∧ (∀ x, x < a ∨ a + k ≤ x → cellsRead h x = cellsRead s.hbuf x)
        ∧ post { s with
            hbuf := h, slots := s.slots.set q (some { ps with rx := rx' }),
            masked := s.masked.set l false, trace := s.trace ++ [.mask l, .unmask l] }
    let written (k : Nat) : Prop := ∀ x ∈ ps.rx.queued.take k, x.isSome = true
    (s.mseq = .idle → let k := min ps.rx.count.toNat len
      (¬inside → exec (.recv q.sel) s = .refused .bufferOutside)
      ∧ (inside → len = 0 → exec (.recv q.sel) s = .next (ok s 0#32))
      ∧ (inside → len ≠ 0 → ps.rx.ok = true → written k →
        pass s.a0.toNat k fun v => exec (.recv q.sel) s = .next
          (if ps.blocking = true ∧ k ≠ len then wait v (BitVec.ofNat 32 k) else ok v (BitVec.ofNat 32 k))))
    ∧ ∀ moved : Word, s.mseq = .run ⟨.recv, q.sel⟩ 2 ⟨moved, 0#32, 0, [], 0#16⟩ →
      let a := s.a0.toNat + moved.toNat
      let k := min ps.rx.count.toNat (len - moved.toNat)
      (moved = s.a1 → coreStep s = .ok () (ok s moved))
      ∧ (moved.toNat < len → inside → ps.rx.ok = true → written k →
        pass a k fun v => ∃ n, coreSteps n s
          (if ps.blocking = true then wait v (moved + BitVec.ofNat 32 k) else ok v (moved + BitVec.ofNat 32 k)))

/-- R234 to R236: CLEAR empties the chosen ring between the mask and the unmask of the line; AVAILABLE answers
`rx.count` and RXDROPPED the overflow counter, clamped to `2^31 - 1`, and neither changes anything else. -/
def Obligations.ClearAvailableRxDropped : Prop :=
  ∀ (s : State) (q : Slot) (ps : PortState) (d : Dir), s.mseq = .idle → s.ctx = [] →
    s.slots.get q = some ps →
    let l := s.cfg.lineOf.get q
    let ok (u : State) (v : Word) : State := { u.drawn1 with r0 := v, lasterr := u.drawValue.setWidth 8 }
    exec (.clear q.sel d) s = .next (ok { s with
      slots := s.slots.set q (some (ps.setRing d { ps.ring d with
        head := 0#16, tail := 0#16, count := 0#16 })),
      masked := s.masked.set l false, trace := s.trace ++ [.mask l, .unmask l] } 0#32)
    ∧ exec (.available q.sel) s = .next (ok s (ps.rx.count.setWidth 32))
    ∧ exec (.rxDropped q.sel) s
        = .next (ok s (BitVec.ofNat 32 (min ps.rxDropped.toNat 2147483647)))

/-! ### Words and sequencers -/

/-- R38, R15: an API command performed undisturbed leaves exactly the state that M's sequencer reaches from
the start of the command in some number of its steps, each a line of the command's rule or one `IO` access of
it, or the `tx.count` read of CLOSE's spin (where the boundaries of those steps lie: log entries 23 and 37 to
39; that a word performs them at once: log entry 4). -/
def Obligations.CommandIsARunOfTheSequencer : Prop :=
  ∀ (i : Instr) (c : Cmd) (s t : State), apiCommand i = some c → s.mseq = .idle → s.ctx = [] →
    exec i s = .next t →
    ∃ n, coreSteps n { s with mseq := .run c 1 ⟨0#32, 0#32, 0, [], 0#16⟩ } t

/-- R40, R192: a visit performed undisturbed leaves exactly the state that the handler's sequencer reaches from
before that visit in some number of its steps, standing before the next port of the list; or, where the visit
goes on (the word back at the head of the schedule, log entry 24), one that it reaches in the visit. (Where the
boundaries of the handler's steps lie: log entries 23, 39 and 40.) -/
def Obligations.VisitIsARunOfTheHandler : Prop :=
  ∀ (s t : State) (q : Slot) (l : Line) (rest : List Line) (i : Nat), s.ctx = l :: rest →
    s.dseq.get l = .run 1 i .none [] 0#16 → (s.cfg.portsOf l)[i]? = some q →
    exec (.dspVisit q.sel) s = .next t →
    (t.moves = s.moves ∧ t.dseq.get l = .run 1 (i + 1) .none [] 0#16 ∧ ∃ n, coreSteps n s t)
    ∨ (t.moves = .word (encode (.dspVisit q.sel)) :: s.moves ∧ t.dseq = s.dseq
      ∧ ∃ n, coreSteps n s { t with moves := s.moves, dseq := s.dseq.set l (.run 2 i .none [] 0#16) })
end

