-- ==== Sys2Proof/Laws/State.lean ====
section
/-! SUPPORT. What each update of the state does to each field (one lemma per field per update), and the
reads after writes of the per-slot and per-line tables. -/

namespace Sys2Proof

@[simp] theorem PerSlot.get_set_same {α : Type} (v : PerSlot α) (i : Slot) (x : α) : (v.set i x).get i = x := by
  cases i <;> rfl

theorem PerSlot.get_set {α : Type} (v : PerSlot α) (i j : Slot) (x : α) :
    (v.set i x).get j = if j = i then x else v.get j := by
  cases i <;> cases j <;> rfl

theorem PerSlot.get_set_ne {α : Type} (v : PerSlot α) {i j : Slot} (x : α) (h : j ≠ i) :
    (v.set i x).get j = v.get j := by rw [PerSlot.get_set, if_neg h]

@[simp] theorem PerSlot.set_set {α : Type} (v : PerSlot α) (i : Slot) (x y : α) : (v.set i x).set i y = v.set i y := by
  cases i <;> rfl

@[simp] theorem PerSlot.set_get {α : Type} (v : PerSlot α) (i : Slot) : v.set i (v.get i) = v := by
  cases i <;> rfl

@[simp] theorem PerLine.get_set_same {α : Type} (v : PerLine α) (i : Line) (x : α) : (v.set i x).get i = x := by
  cases i <;> rfl

theorem PerLine.get_set {α : Type} (v : PerLine α) (i j : Line) (x : α) :
    (v.set i x).get j = if j = i then x else v.get j := by
  cases i <;> cases j <;> rfl

theorem PerLine.get_set_ne {α : Type} (v : PerLine α) {i j : Line} (x : α) (h : j ≠ i) :
    (v.set i x).get j = v.get j := by rw [PerLine.get_set, if_neg h]

@[simp] theorem PerLine.set_set {α : Type} (v : PerLine α) (i : Line) (x y : α) : (v.set i x).set i y = v.set i y := by
  cases i <;> rfl

@[simp] theorem PerLine.set_get {α : Type} (v : PerLine α) (i : Line) : v.set i (v.get i) = v := by
  cases i <;> rfl

@[simp] theorem PerStd.get_set_same {α : Type} (v : PerStd α) (i : StdSlot) (x : α) : (v.set i x).get i = x := by
  cases i <;> rfl

theorem PerStd.get_set {α : Type} (v : PerStd α) (i j : StdSlot) (x : α) :
    (v.set i x).get j = if j = i then x else v.get j := by
  cases i <;> cases j <;> rfl

theorem PerStd.get_set_ne {α : Type} (v : PerStd α) {i j : StdSlot} (x : α) (h : j ≠ i) :
    (v.set i x).get j = v.get j := by rw [PerStd.get_set, if_neg h]

@[simp] theorem PerStd.set_set {α : Type} (v : PerStd α) (i : StdSlot) (x y : α) : (v.set i x).set i y = v.set i y := by
  cases i <;> rfl

@[simp] theorem PerStd.set_get {α : Type} (v : PerStd α) (i : StdSlot) : v.set i (v.get i) = v := by
  cases i <;> rfl

namespace Machine

@[simp] theorem setSlot_a0 (s : State) (q : Slot) (v : Option PortState) : (s.setSlot q v).a0 = s.a0 := rfl
@[simp] theorem setSlot_a1 (s : State) (q : Slot) (v : Option PortState) : (s.setSlot q v).a1 = s.a1 := rfl
@[simp] theorem setSlot_a2 (s : State) (q : Slot) (v : Option PortState) : (s.setSlot q v).a2 = s.a2 := rfl
@[simp] theorem setSlot_a3 (s : State) (q : Slot) (v : Option PortState) : (s.setSlot q v).a3 = s.a3 := rfl
@[simp] theorem setSlot_r0 (s : State) (q : Slot) (v : Option PortState) : (s.setSlot q v).r0 = s.r0 := rfl
@[simp] theorem setSlot_lasterr (s : State) (q : Slot) (v : Option PortState) : (s.setSlot q v).lasterr = s.lasterr := rfl
@[simp] theorem setSlot_slots (s : State) (q : Slot) (v : Option PortState) : (s.setSlot q v).slots = s.slots.set q v := rfl
@[simp] theorem setSlot_life (s : State) (q : Slot) (v : Option PortState) : (s.setSlot q v).life = s.life := rfl
@[simp] theorem setSlot_handler (s : State) (q : Slot) (v : Option PortState) : (s.setSlot q v).handler = s.handler := rfl
@[simp] theorem setSlot_savedHandler (s : State) (q : Slot) (v : Option PortState) : (s.setSlot q v).savedHandler = s.savedHandler := rfl
@[simp] theorem setSlot_lineRefs (s : State) (q : Slot) (v : Option PortState) : (s.setSlot q v).lineRefs = s.lineRefs := rfl
@[simp] theorem setSlot_masked (s : State) (q : Slot) (v : Option PortState) : (s.setSlot q v).masked = s.masked := rfl
@[simp] theorem setSlot_inService (s : State) (q : Slot) (v : Option PortState) : (s.setSlot q v).inService = s.inService := rfl
@[simp] theorem setSlot_latched (s : State) (q : Slot) (v : Option PortState) : (s.setSlot q v).latched = s.latched := rfl
@[simp] theorem setSlot_savedInteg (s : State) (q : Slot) (v : Option PortState) : (s.setSlot q v).savedInteg = s.savedInteg := rfl
@[simp] theorem setSlot_mseq (s : State) (q : Slot) (v : Option PortState) : (s.setSlot q v).mseq = s.mseq := rfl
@[simp] theorem setSlot_dseq (s : State) (q : Slot) (v : Option PortState) : (s.setSlot q v).dseq = s.dseq := rfl
@[simp] theorem setSlot_ctx (s : State) (q : Slot) (v : Option PortState) : (s.setSlot q v).ctx = s.ctx := rfl
@[simp] theorem setSlot_dev (s : State) (q : Slot) (v : Option PortState) : (s.setSlot q v).dev = s.dev := rfl
@[simp] theorem setSlot_wireTx (s : State) (q : Slot) (v : Option PortState) : (s.setSlot q v).wireTx = s.wireTx := rfl
@[simp] theorem setSlot_wireRx (s : State) (q : Slot) (v : Option PortState) : (s.setSlot q v).wireRx = s.wireRx := rfl
@[simp] theorem setSlot_hbuf (s : State) (q : Slot) (v : Option PortState) : (s.setSlot q v).hbuf = s.hbuf := rfl
@[simp] theorem setSlot_cfg (s : State) (q : Slot) (v : Option PortState) : (s.setSlot q v).cfg = s.cfg := rfl
@[simp] theorem setSlot_trace (s : State) (q : Slot) (v : Option PortState) : (s.setSlot q v).trace = s.trace := rfl
@[simp] theorem setSlot_side (s : State) (q : Slot) (v : Option PortState) : (s.setSlot q v).side = s.side := rfl
@[simp] theorem setSlot_ret (s : State) (q : Slot) (v : Option PortState) : (s.setSlot q v).ret = s.ret := rfl
@[simp] theorem setSlot_moves (s : State) (q : Slot) (v : Option PortState) : (s.setSlot q v).moves = s.moves := rfl
@[simp] theorem setSlot_draws (s : State) (q : Slot) (v : Option PortState) : (s.setSlot q v).draws = s.draws := rfl
@[simp] theorem setSlot_drawn (s : State) (q : Slot) (v : Option PortState) : (s.setSlot q v).drawn = s.drawn := rfl

@[simp] theorem setLife_a0 (s : State) (q : Slot) (v : Life) : (s.setLife q v).a0 = s.a0 := rfl
@[simp] theorem setLife_a1 (s : State) (q : Slot) (v : Life) : (s.setLife q v).a1 = s.a1 := rfl
@[simp] theorem setLife_a2 (s : State) (q : Slot) (v : Life) : (s.setLife q v).a2 = s.a2 := rfl
@[simp] theorem setLife_a3 (s : State) (q : Slot) (v : Life) : (s.setLife q v).a3 = s.a3 := rfl
@[simp] theorem setLife_r0 (s : State) (q : Slot) (v : Life) : (s.setLife q v).r0 = s.r0 := rfl
@[simp] theorem setLife_lasterr (s : State) (q : Slot) (v : Life) : (s.setLife q v).lasterr = s.lasterr := rfl
@[simp] theorem setLife_slots (s : State) (q : Slot) (v : Life) : (s.setLife q v).slots = s.slots := rfl
@[simp] theorem setLife_life (s : State) (q : Slot) (v : Life) : (s.setLife q v).life = s.life.set q v := rfl
@[simp] theorem setLife_handler (s : State) (q : Slot) (v : Life) : (s.setLife q v).handler = s.handler := rfl
@[simp] theorem setLife_savedHandler (s : State) (q : Slot) (v : Life) : (s.setLife q v).savedHandler = s.savedHandler := rfl
@[simp] theorem setLife_lineRefs (s : State) (q : Slot) (v : Life) : (s.setLife q v).lineRefs = s.lineRefs := rfl
@[simp] theorem setLife_masked (s : State) (q : Slot) (v : Life) : (s.setLife q v).masked = s.masked := rfl
@[simp] theorem setLife_inService (s : State) (q : Slot) (v : Life) : (s.setLife q v).inService = s.inService := rfl
@[simp] theorem setLife_latched (s : State) (q : Slot) (v : Life) : (s.setLife q v).latched = s.latched := rfl
@[simp] theorem setLife_savedInteg (s : State) (q : Slot) (v : Life) : (s.setLife q v).savedInteg = s.savedInteg := rfl
@[simp] theorem setLife_mseq (s : State) (q : Slot) (v : Life) : (s.setLife q v).mseq = s.mseq := rfl
@[simp] theorem setLife_dseq (s : State) (q : Slot) (v : Life) : (s.setLife q v).dseq = s.dseq := rfl
@[simp] theorem setLife_ctx (s : State) (q : Slot) (v : Life) : (s.setLife q v).ctx = s.ctx := rfl
@[simp] theorem setLife_dev (s : State) (q : Slot) (v : Life) : (s.setLife q v).dev = s.dev := rfl
@[simp] theorem setLife_wireTx (s : State) (q : Slot) (v : Life) : (s.setLife q v).wireTx = s.wireTx := rfl
@[simp] theorem setLife_wireRx (s : State) (q : Slot) (v : Life) : (s.setLife q v).wireRx = s.wireRx := rfl
@[simp] theorem setLife_hbuf (s : State) (q : Slot) (v : Life) : (s.setLife q v).hbuf = s.hbuf := rfl
@[simp] theorem setLife_cfg (s : State) (q : Slot) (v : Life) : (s.setLife q v).cfg = s.cfg := rfl
@[simp] theorem setLife_trace (s : State) (q : Slot) (v : Life) : (s.setLife q v).trace = s.trace := rfl
@[simp] theorem setLife_side (s : State) (q : Slot) (v : Life) : (s.setLife q v).side = s.side := rfl
@[simp] theorem setLife_ret (s : State) (q : Slot) (v : Life) : (s.setLife q v).ret = s.ret := rfl
@[simp] theorem setLife_moves (s : State) (q : Slot) (v : Life) : (s.setLife q v).moves = s.moves := rfl
@[simp] theorem setLife_draws (s : State) (q : Slot) (v : Life) : (s.setLife q v).draws = s.draws := rfl
@[simp] theorem setLife_drawn (s : State) (q : Slot) (v : Life) : (s.setLife q v).drawn = s.drawn := rfl

@[simp] theorem setHandler_a0 (s : State) (l : Line) (h : Handler) : (s.setHandler l h).a0 = s.a0 := rfl
@[simp] theorem setHandler_a1 (s : State) (l : Line) (h : Handler) : (s.setHandler l h).a1 = s.a1 := rfl
@[simp] theorem setHandler_a2 (s : State) (l : Line) (h : Handler) : (s.setHandler l h).a2 = s.a2 := rfl
@[simp] theorem setHandler_a3 (s : State) (l : Line) (h : Handler) : (s.setHandler l h).a3 = s.a3 := rfl
@[simp] theorem setHandler_r0 (s : State) (l : Line) (h : Handler) : (s.setHandler l h).r0 = s.r0 := rfl
@[simp] theorem setHandler_lasterr (s : State) (l : Line) (h : Handler) : (s.setHandler l h).lasterr = s.lasterr := rfl
@[simp] theorem setHandler_slots (s : State) (l : Line) (h : Handler) : (s.setHandler l h).slots = s.slots := rfl
@[simp] theorem setHandler_life (s : State) (l : Line) (h : Handler) : (s.setHandler l h).life = s.life := rfl
@[simp] theorem setHandler_handler (s : State) (l : Line) (h : Handler) : (s.setHandler l h).handler = s.handler.set l h := rfl
@[simp] theorem setHandler_savedHandler (s : State) (l : Line) (h : Handler) : (s.setHandler l h).savedHandler = s.savedHandler := rfl
@[simp] theorem setHandler_lineRefs (s : State) (l : Line) (h : Handler) : (s.setHandler l h).lineRefs = s.lineRefs := rfl
@[simp] theorem setHandler_masked (s : State) (l : Line) (h : Handler) : (s.setHandler l h).masked = s.masked := rfl
@[simp] theorem setHandler_inService (s : State) (l : Line) (h : Handler) : (s.setHandler l h).inService = s.inService := rfl
@[simp] theorem setHandler_latched (s : State) (l : Line) (h : Handler) : (s.setHandler l h).latched = s.latched := rfl
@[simp] theorem setHandler_savedInteg (s : State) (l : Line) (h : Handler) : (s.setHandler l h).savedInteg = s.savedInteg := rfl
@[simp] theorem setHandler_mseq (s : State) (l : Line) (h : Handler) : (s.setHandler l h).mseq = s.mseq := rfl
@[simp] theorem setHandler_dseq (s : State) (l : Line) (h : Handler) : (s.setHandler l h).dseq = s.dseq := rfl
@[simp] theorem setHandler_ctx (s : State) (l : Line) (h : Handler) : (s.setHandler l h).ctx = s.ctx := rfl
@[simp] theorem setHandler_dev (s : State) (l : Line) (h : Handler) : (s.setHandler l h).dev = s.dev := rfl
@[simp] theorem setHandler_wireTx (s : State) (l : Line) (h : Handler) : (s.setHandler l h).wireTx = s.wireTx := rfl
@[simp] theorem setHandler_wireRx (s : State) (l : Line) (h : Handler) : (s.setHandler l h).wireRx = s.wireRx := rfl
@[simp] theorem setHandler_hbuf (s : State) (l : Line) (h : Handler) : (s.setHandler l h).hbuf = s.hbuf := rfl
@[simp] theorem setHandler_cfg (s : State) (l : Line) (h : Handler) : (s.setHandler l h).cfg = s.cfg := rfl
@[simp] theorem setHandler_trace (s : State) (l : Line) (h : Handler) : (s.setHandler l h).trace = s.trace := rfl
@[simp] theorem setHandler_side (s : State) (l : Line) (h : Handler) : (s.setHandler l h).side = s.side := rfl
@[simp] theorem setHandler_ret (s : State) (l : Line) (h : Handler) : (s.setHandler l h).ret = s.ret := rfl
@[simp] theorem setHandler_moves (s : State) (l : Line) (h : Handler) : (s.setHandler l h).moves = s.moves := rfl
@[simp] theorem setHandler_draws (s : State) (l : Line) (h : Handler) : (s.setHandler l h).draws = s.draws := rfl
@[simp] theorem setHandler_drawn (s : State) (l : Line) (h : Handler) : (s.setHandler l h).drawn = s.drawn := rfl

@[simp] theorem setSaved_a0 (s : State) (l : Line) (h : Handler) : (s.setSaved l h).a0 = s.a0 := rfl
@[simp] theorem setSaved_a1 (s : State) (l : Line) (h : Handler) : (s.setSaved l h).a1 = s.a1 := rfl
@[simp] theorem setSaved_a2 (s : State) (l : Line) (h : Handler) : (s.setSaved l h).a2 = s.a2 := rfl
@[simp] theorem setSaved_a3 (s : State) (l : Line) (h : Handler) : (s.setSaved l h).a3 = s.a3 := rfl
@[simp] theorem setSaved_r0 (s : State) (l : Line) (h : Handler) : (s.setSaved l h).r0 = s.r0 := rfl
@[simp] theorem setSaved_lasterr (s : State) (l : Line) (h : Handler) : (s.setSaved l h).lasterr = s.lasterr := rfl
@[simp] theorem setSaved_slots (s : State) (l : Line) (h : Handler) : (s.setSaved l h).slots = s.slots := rfl
@[simp] theorem setSaved_life (s : State) (l : Line) (h : Handler) : (s.setSaved l h).life = s.life := rfl
@[simp] theorem setSaved_handler (s : State) (l : Line) (h : Handler) : (s.setSaved l h).handler = s.handler := rfl
@[simp] theorem setSaved_savedHandler (s : State) (l : Line) (h : Handler) : (s.setSaved l h).savedHandler = s.savedHandler.set l h := rfl
@[simp] theorem setSaved_lineRefs (s : State) (l : Line) (h : Handler) : (s.setSaved l h).lineRefs = s.lineRefs := rfl
@[simp] theorem setSaved_masked (s : State) (l : Line) (h : Handler) : (s.setSaved l h).masked = s.masked := rfl
@[simp] theorem setSaved_inService (s : State) (l : Line) (h : Handler) : (s.setSaved l h).inService = s.inService := rfl
@[simp] theorem setSaved_latched (s : State) (l : Line) (h : Handler) : (s.setSaved l h).latched = s.latched := rfl
@[simp] theorem setSaved_savedInteg (s : State) (l : Line) (h : Handler) : (s.setSaved l h).savedInteg = s.savedInteg := rfl
@[simp] theorem setSaved_mseq (s : State) (l : Line) (h : Handler) : (s.setSaved l h).mseq = s.mseq := rfl
@[simp] theorem setSaved_dseq (s : State) (l : Line) (h : Handler) : (s.setSaved l h).dseq = s.dseq := rfl
@[simp] theorem setSaved_ctx (s : State) (l : Line) (h : Handler) : (s.setSaved l h).ctx = s.ctx := rfl
@[simp] theorem setSaved_dev (s : State) (l : Line) (h : Handler) : (s.setSaved l h).dev = s.dev := rfl
@[simp] theorem setSaved_wireTx (s : State) (l : Line) (h : Handler) : (s.setSaved l h).wireTx = s.wireTx := rfl
@[simp] theorem setSaved_wireRx (s : State) (l : Line) (h : Handler) : (s.setSaved l h).wireRx = s.wireRx := rfl
@[simp] theorem setSaved_hbuf (s : State) (l : Line) (h : Handler) : (s.setSaved l h).hbuf = s.hbuf := rfl
@[simp] theorem setSaved_cfg (s : State) (l : Line) (h : Handler) : (s.setSaved l h).cfg = s.cfg := rfl
@[simp] theorem setSaved_trace (s : State) (l : Line) (h : Handler) : (s.setSaved l h).trace = s.trace := rfl
@[simp] theorem setSaved_side (s : State) (l : Line) (h : Handler) : (s.setSaved l h).side = s.side := rfl
@[simp] theorem setSaved_ret (s : State) (l : Line) (h : Handler) : (s.setSaved l h).ret = s.ret := rfl
@[simp] theorem setSaved_moves (s : State) (l : Line) (h : Handler) : (s.setSaved l h).moves = s.moves := rfl
@[simp] theorem setSaved_draws (s : State) (l : Line) (h : Handler) : (s.setSaved l h).draws = s.draws := rfl
@[simp] theorem setSaved_drawn (s : State) (l : Line) (h : Handler) : (s.setSaved l h).drawn = s.drawn := rfl

@[simp] theorem setRefs_a0 (s : State) (l : Line) (n : Nat) : (s.setRefs l n).a0 = s.a0 := rfl
@[simp] theorem setRefs_a1 (s : State) (l : Line) (n : Nat) : (s.setRefs l n).a1 = s.a1 := rfl
@[simp] theorem setRefs_a2 (s : State) (l : Line) (n : Nat) : (s.setRefs l n).a2 = s.a2 := rfl
@[simp] theorem setRefs_a3 (s : State) (l : Line) (n : Nat) : (s.setRefs l n).a3 = s.a3 := rfl
@[simp] theorem setRefs_r0 (s : State) (l : Line) (n : Nat) : (s.setRefs l n).r0 = s.r0 := rfl
@[simp] theorem setRefs_lasterr (s : State) (l : Line) (n : Nat) : (s.setRefs l n).lasterr = s.lasterr := rfl
@[simp] theorem setRefs_slots (s : State) (l : Line) (n : Nat) : (s.setRefs l n).slots = s.slots := rfl
@[simp] theorem setRefs_life (s : State) (l : Line) (n : Nat) : (s.setRefs l n).life = s.life := rfl
@[simp] theorem setRefs_handler (s : State) (l : Line) (n : Nat) : (s.setRefs l n).handler = s.handler := rfl
@[simp] theorem setRefs_savedHandler (s : State) (l : Line) (n : Nat) : (s.setRefs l n).savedHandler = s.savedHandler := rfl
@[simp] theorem setRefs_lineRefs (s : State) (l : Line) (n : Nat) : (s.setRefs l n).lineRefs = s.lineRefs.set l n := rfl
@[simp] theorem setRefs_masked (s : State) (l : Line) (n : Nat) : (s.setRefs l n).masked = s.masked := rfl
@[simp] theorem setRefs_inService (s : State) (l : Line) (n : Nat) : (s.setRefs l n).inService = s.inService := rfl
@[simp] theorem setRefs_latched (s : State) (l : Line) (n : Nat) : (s.setRefs l n).latched = s.latched := rfl
@[simp] theorem setRefs_savedInteg (s : State) (l : Line) (n : Nat) : (s.setRefs l n).savedInteg = s.savedInteg := rfl
@[simp] theorem setRefs_mseq (s : State) (l : Line) (n : Nat) : (s.setRefs l n).mseq = s.mseq := rfl
@[simp] theorem setRefs_dseq (s : State) (l : Line) (n : Nat) : (s.setRefs l n).dseq = s.dseq := rfl
@[simp] theorem setRefs_ctx (s : State) (l : Line) (n : Nat) : (s.setRefs l n).ctx = s.ctx := rfl
@[simp] theorem setRefs_dev (s : State) (l : Line) (n : Nat) : (s.setRefs l n).dev = s.dev := rfl
@[simp] theorem setRefs_wireTx (s : State) (l : Line) (n : Nat) : (s.setRefs l n).wireTx = s.wireTx := rfl
@[simp] theorem setRefs_wireRx (s : State) (l : Line) (n : Nat) : (s.setRefs l n).wireRx = s.wireRx := rfl
@[simp] theorem setRefs_hbuf (s : State) (l : Line) (n : Nat) : (s.setRefs l n).hbuf = s.hbuf := rfl
@[simp] theorem setRefs_cfg (s : State) (l : Line) (n : Nat) : (s.setRefs l n).cfg = s.cfg := rfl
@[simp] theorem setRefs_trace (s : State) (l : Line) (n : Nat) : (s.setRefs l n).trace = s.trace := rfl
@[simp] theorem setRefs_side (s : State) (l : Line) (n : Nat) : (s.setRefs l n).side = s.side := rfl
@[simp] theorem setRefs_ret (s : State) (l : Line) (n : Nat) : (s.setRefs l n).ret = s.ret := rfl
@[simp] theorem setRefs_moves (s : State) (l : Line) (n : Nat) : (s.setRefs l n).moves = s.moves := rfl
@[simp] theorem setRefs_draws (s : State) (l : Line) (n : Nat) : (s.setRefs l n).draws = s.draws := rfl
@[simp] theorem setRefs_drawn (s : State) (l : Line) (n : Nat) : (s.setRefs l n).drawn = s.drawn := rfl

@[simp] theorem setMasked_a0 (s : State) (l : Line) (b : Bool) : (s.setMasked l b).a0 = s.a0 := rfl
@[simp] theorem setMasked_a1 (s : State) (l : Line) (b : Bool) : (s.setMasked l b).a1 = s.a1 := rfl
@[simp] theorem setMasked_a2 (s : State) (l : Line) (b : Bool) : (s.setMasked l b).a2 = s.a2 := rfl
@[simp] theorem setMasked_a3 (s : State) (l : Line) (b : Bool) : (s.setMasked l b).a3 = s.a3 := rfl
@[simp] theorem setMasked_r0 (s : State) (l : Line) (b : Bool) : (s.setMasked l b).r0 = s.r0 := rfl
@[simp] theorem setMasked_lasterr (s : State) (l : Line) (b : Bool) : (s.setMasked l b).lasterr = s.lasterr := rfl
@[simp] theorem setMasked_slots (s : State) (l : Line) (b : Bool) : (s.setMasked l b).slots = s.slots := rfl
@[simp] theorem setMasked_life (s : State) (l : Line) (b : Bool) : (s.setMasked l b).life = s.life := rfl
@[simp] theorem setMasked_handler (s : State) (l : Line) (b : Bool) : (s.setMasked l b).handler = s.handler := rfl
@[simp] theorem setMasked_savedHandler (s : State) (l : Line) (b : Bool) : (s.setMasked l b).savedHandler = s.savedHandler := rfl
@[simp] theorem setMasked_lineRefs (s : State) (l : Line) (b : Bool) : (s.setMasked l b).lineRefs = s.lineRefs := rfl
@[simp] theorem setMasked_masked (s : State) (l : Line) (b : Bool) : (s.setMasked l b).masked = s.masked.set l b := rfl
@[simp] theorem setMasked_inService (s : State) (l : Line) (b : Bool) : (s.setMasked l b).inService = s.inService := rfl
@[simp] theorem setMasked_latched (s : State) (l : Line) (b : Bool) : (s.setMasked l b).latched = s.latched := rfl
@[simp] theorem setMasked_savedInteg (s : State) (l : Line) (b : Bool) : (s.setMasked l b).savedInteg = s.savedInteg := rfl
@[simp] theorem setMasked_mseq (s : State) (l : Line) (b : Bool) : (s.setMasked l b).mseq = s.mseq := rfl
@[simp] theorem setMasked_dseq (s : State) (l : Line) (b : Bool) : (s.setMasked l b).dseq = s.dseq := rfl
@[simp] theorem setMasked_ctx (s : State) (l : Line) (b : Bool) : (s.setMasked l b).ctx = s.ctx := rfl
@[simp] theorem setMasked_dev (s : State) (l : Line) (b : Bool) : (s.setMasked l b).dev = s.dev := rfl
@[simp] theorem setMasked_wireTx (s : State) (l : Line) (b : Bool) : (s.setMasked l b).wireTx = s.wireTx := rfl
@[simp] theorem setMasked_wireRx (s : State) (l : Line) (b : Bool) : (s.setMasked l b).wireRx = s.wireRx := rfl
@[simp] theorem setMasked_hbuf (s : State) (l : Line) (b : Bool) : (s.setMasked l b).hbuf = s.hbuf := rfl
@[simp] theorem setMasked_cfg (s : State) (l : Line) (b : Bool) : (s.setMasked l b).cfg = s.cfg := rfl
@[simp] theorem setMasked_trace (s : State) (l : Line) (b : Bool) : (s.setMasked l b).trace = s.trace := rfl
@[simp] theorem setMasked_side (s : State) (l : Line) (b : Bool) : (s.setMasked l b).side = s.side := rfl
@[simp] theorem setMasked_ret (s : State) (l : Line) (b : Bool) : (s.setMasked l b).ret = s.ret := rfl
@[simp] theorem setMasked_moves (s : State) (l : Line) (b : Bool) : (s.setMasked l b).moves = s.moves := rfl
@[simp] theorem setMasked_draws (s : State) (l : Line) (b : Bool) : (s.setMasked l b).draws = s.draws := rfl
@[simp] theorem setMasked_drawn (s : State) (l : Line) (b : Bool) : (s.setMasked l b).drawn = s.drawn := rfl

@[simp] theorem setInService_a0 (s : State) (l : Line) (b : Bool) : (s.setInService l b).a0 = s.a0 := rfl
@[simp] theorem setInService_a1 (s : State) (l : Line) (b : Bool) : (s.setInService l b).a1 = s.a1 := rfl
@[simp] theorem setInService_a2 (s : State) (l : Line) (b : Bool) : (s.setInService l b).a2 = s.a2 := rfl
@[simp] theorem setInService_a3 (s : State) (l : Line) (b : Bool) : (s.setInService l b).a3 = s.a3 := rfl
@[simp] theorem setInService_r0 (s : State) (l : Line) (b : Bool) : (s.setInService l b).r0 = s.r0 := rfl
@[simp] theorem setInService_lasterr (s : State) (l : Line) (b : Bool) : (s.setInService l b).lasterr = s.lasterr := rfl
@[simp] theorem setInService_slots (s : State) (l : Line) (b : Bool) : (s.setInService l b).slots = s.slots := rfl
@[simp] theorem setInService_life (s : State) (l : Line) (b : Bool) : (s.setInService l b).life = s.life := rfl
@[simp] theorem setInService_handler (s : State) (l : Line) (b : Bool) : (s.setInService l b).handler = s.handler := rfl
@[simp] theorem setInService_savedHandler (s : State) (l : Line) (b : Bool) : (s.setInService l b).savedHandler = s.savedHandler := rfl
@[simp] theorem setInService_lineRefs (s : State) (l : Line) (b : Bool) : (s.setInService l b).lineRefs = s.lineRefs := rfl
@[simp] theorem setInService_masked (s : State) (l : Line) (b : Bool) : (s.setInService l b).masked = s.masked := rfl
@[simp] theorem setInService_inService (s : State) (l : Line) (b : Bool) : (s.setInService l b).inService = s.inService.set l b := rfl
@[simp] theorem setInService_latched (s : State) (l : Line) (b : Bool) : (s.setInService l b).latched = s.latched := rfl
@[simp] theorem setInService_savedInteg (s : State) (l : Line) (b : Bool) : (s.setInService l b).savedInteg = s.savedInteg := rfl
@[simp] theorem setInService_mseq (s : State) (l : Line) (b : Bool) : (s.setInService l b).mseq = s.mseq := rfl
@[simp] theorem setInService_dseq (s : State) (l : Line) (b : Bool) : (s.setInService l b).dseq = s.dseq := rfl
@[simp] theorem setInService_ctx (s : State) (l : Line) (b : Bool) : (s.setInService l b).ctx = s.ctx := rfl
@[simp] theorem setInService_dev (s : State) (l : Line) (b : Bool) : (s.setInService l b).dev = s.dev := rfl
@[simp] theorem setInService_wireTx (s : State) (l : Line) (b : Bool) : (s.setInService l b).wireTx = s.wireTx := rfl
@[simp] theorem setInService_wireRx (s : State) (l : Line) (b : Bool) : (s.setInService l b).wireRx = s.wireRx := rfl
@[simp] theorem setInService_hbuf (s : State) (l : Line) (b : Bool) : (s.setInService l b).hbuf = s.hbuf := rfl
@[simp] theorem setInService_cfg (s : State) (l : Line) (b : Bool) : (s.setInService l b).cfg = s.cfg := rfl
@[simp] theorem setInService_trace (s : State) (l : Line) (b : Bool) : (s.setInService l b).trace = s.trace := rfl
@[simp] theorem setInService_side (s : State) (l : Line) (b : Bool) : (s.setInService l b).side = s.side := rfl
@[simp] theorem setInService_ret (s : State) (l : Line) (b : Bool) : (s.setInService l b).ret = s.ret := rfl
@[simp] theorem setInService_moves (s : State) (l : Line) (b : Bool) : (s.setInService l b).moves = s.moves := rfl
@[simp] theorem setInService_draws (s : State) (l : Line) (b : Bool) : (s.setInService l b).draws = s.draws := rfl
@[simp] theorem setInService_drawn (s : State) (l : Line) (b : Bool) : (s.setInService l b).drawn = s.drawn := rfl

@[simp] theorem setLatched_a0 (s : State) (l : Line) (b : Bool) : (s.setLatched l b).a0 = s.a0 := rfl
@[simp] theorem setLatched_a1 (s : State) (l : Line) (b : Bool) : (s.setLatched l b).a1 = s.a1 := rfl
@[simp] theorem setLatched_a2 (s : State) (l : Line) (b : Bool) : (s.setLatched l b).a2 = s.a2 := rfl
@[simp] theorem setLatched_a3 (s : State) (l : Line) (b : Bool) : (s.setLatched l b).a3 = s.a3 := rfl
@[simp] theorem setLatched_r0 (s : State) (l : Line) (b : Bool) : (s.setLatched l b).r0 = s.r0 := rfl
@[simp] theorem setLatched_lasterr (s : State) (l : Line) (b : Bool) : (s.setLatched l b).lasterr = s.lasterr := rfl
@[simp] theorem setLatched_slots (s : State) (l : Line) (b : Bool) : (s.setLatched l b).slots = s.slots := rfl
@[simp] theorem setLatched_life (s : State) (l : Line) (b : Bool) : (s.setLatched l b).life = s.life := rfl
@[simp] theorem setLatched_handler (s : State) (l : Line) (b : Bool) : (s.setLatched l b).handler = s.handler := rfl
@[simp] theorem setLatched_savedHandler (s : State) (l : Line) (b : Bool) : (s.setLatched l b).savedHandler = s.savedHandler := rfl
@[simp] theorem setLatched_lineRefs (s : State) (l : Line) (b : Bool) : (s.setLatched l b).lineRefs = s.lineRefs := rfl
@[simp] theorem setLatched_masked (s : State) (l : Line) (b : Bool) : (s.setLatched l b).masked = s.masked := rfl
@[simp] theorem setLatched_inService (s : State) (l : Line) (b : Bool) : (s.setLatched l b).inService = s.inService := rfl
@[simp] theorem setLatched_latched (s : State) (l : Line) (b : Bool) : (s.setLatched l b).latched = s.latched.set l b := rfl
@[simp] theorem setLatched_savedInteg (s : State) (l : Line) (b : Bool) : (s.setLatched l b).savedInteg = s.savedInteg := rfl
@[simp] theorem setLatched_mseq (s : State) (l : Line) (b : Bool) : (s.setLatched l b).mseq = s.mseq := rfl
@[simp] theorem setLatched_dseq (s : State) (l : Line) (b : Bool) : (s.setLatched l b).dseq = s.dseq := rfl
@[simp] theorem setLatched_ctx (s : State) (l : Line) (b : Bool) : (s.setLatched l b).ctx = s.ctx := rfl
@[simp] theorem setLatched_dev (s : State) (l : Line) (b : Bool) : (s.setLatched l b).dev = s.dev := rfl
@[simp] theorem setLatched_wireTx (s : State) (l : Line) (b : Bool) : (s.setLatched l b).wireTx = s.wireTx := rfl
@[simp] theorem setLatched_wireRx (s : State) (l : Line) (b : Bool) : (s.setLatched l b).wireRx = s.wireRx := rfl
@[simp] theorem setLatched_hbuf (s : State) (l : Line) (b : Bool) : (s.setLatched l b).hbuf = s.hbuf := rfl
@[simp] theorem setLatched_cfg (s : State) (l : Line) (b : Bool) : (s.setLatched l b).cfg = s.cfg := rfl
@[simp] theorem setLatched_trace (s : State) (l : Line) (b : Bool) : (s.setLatched l b).trace = s.trace := rfl
@[simp] theorem setLatched_side (s : State) (l : Line) (b : Bool) : (s.setLatched l b).side = s.side := rfl
@[simp] theorem setLatched_ret (s : State) (l : Line) (b : Bool) : (s.setLatched l b).ret = s.ret := rfl
@[simp] theorem setLatched_moves (s : State) (l : Line) (b : Bool) : (s.setLatched l b).moves = s.moves := rfl
@[simp] theorem setLatched_draws (s : State) (l : Line) (b : Bool) : (s.setLatched l b).draws = s.draws := rfl
@[simp] theorem setLatched_drawn (s : State) (l : Line) (b : Bool) : (s.setLatched l b).drawn = s.drawn := rfl

@[simp] theorem setMseq_a0 (s : State) (m : MSeq) : (s.setMseq m).a0 = s.a0 := rfl
@[simp] theorem setMseq_a1 (s : State) (m : MSeq) : (s.setMseq m).a1 = s.a1 := rfl
@[simp] theorem setMseq_a2 (s : State) (m : MSeq) : (s.setMseq m).a2 = s.a2 := rfl
@[simp] theorem setMseq_a3 (s : State) (m : MSeq) : (s.setMseq m).a3 = s.a3 := rfl
@[simp] theorem setMseq_r0 (s : State) (m : MSeq) : (s.setMseq m).r0 = s.r0 := rfl
@[simp] theorem setMseq_lasterr (s : State) (m : MSeq) : (s.setMseq m).lasterr = s.lasterr := rfl
@[simp] theorem setMseq_slots (s : State) (m : MSeq) : (s.setMseq m).slots = s.slots := rfl
@[simp] theorem setMseq_life (s : State) (m : MSeq) : (s.setMseq m).life = s.life := rfl
@[simp] theorem setMseq_handler (s : State) (m : MSeq) : (s.setMseq m).handler = s.handler := rfl
@[simp] theorem setMseq_savedHandler (s : State) (m : MSeq) : (s.setMseq m).savedHandler = s.savedHandler := rfl
@[simp] theorem setMseq_lineRefs (s : State) (m : MSeq) : (s.setMseq m).lineRefs = s.lineRefs := rfl
@[simp] theorem setMseq_masked (s : State) (m : MSeq) : (s.setMseq m).masked = s.masked := rfl
@[simp] theorem setMseq_inService (s : State) (m : MSeq) : (s.setMseq m).inService = s.inService := rfl
@[simp] theorem setMseq_latched (s : State) (m : MSeq) : (s.setMseq m).latched = s.latched := rfl
@[simp] theorem setMseq_savedInteg (s : State) (m : MSeq) : (s.setMseq m).savedInteg = s.savedInteg := rfl
@[simp] theorem setMseq_mseq (s : State) (m : MSeq) : (s.setMseq m).mseq = m := rfl
@[simp] theorem setMseq_dseq (s : State) (m : MSeq) : (s.setMseq m).dseq = s.dseq := rfl
@[simp] theorem setMseq_ctx (s : State) (m : MSeq) : (s.setMseq m).ctx = s.ctx := rfl
@[simp] theorem setMseq_dev (s : State) (m : MSeq) : (s.setMseq m).dev = s.dev := rfl
@[simp] theorem setMseq_wireTx (s : State) (m : MSeq) : (s.setMseq m).wireTx = s.wireTx := rfl
@[simp] theorem setMseq_wireRx (s : State) (m : MSeq) : (s.setMseq m).wireRx = s.wireRx := rfl
@[simp] theorem setMseq_hbuf (s : State) (m : MSeq) : (s.setMseq m).hbuf = s.hbuf := rfl
@[simp] theorem setMseq_cfg (s : State) (m : MSeq) : (s.setMseq m).cfg = s.cfg := rfl
@[simp] theorem setMseq_trace (s : State) (m : MSeq) : (s.setMseq m).trace = s.trace := rfl
@[simp] theorem setMseq_side (s : State) (m : MSeq) : (s.setMseq m).side = s.side := rfl
@[simp] theorem setMseq_ret (s : State) (m : MSeq) : (s.setMseq m).ret = s.ret := rfl
@[simp] theorem setMseq_moves (s : State) (m : MSeq) : (s.setMseq m).moves = s.moves := rfl
@[simp] theorem setMseq_draws (s : State) (m : MSeq) : (s.setMseq m).draws = s.draws := rfl
@[simp] theorem setMseq_drawn (s : State) (m : MSeq) : (s.setMseq m).drawn = s.drawn := rfl

@[simp] theorem setDseq_a0 (s : State) (l : Line) (d : DSeq) : (s.setDseq l d).a0 = s.a0 := rfl
@[simp] theorem setDseq_a1 (s : State) (l : Line) (d : DSeq) : (s.setDseq l d).a1 = s.a1 := rfl
@[simp] theorem setDseq_a2 (s : State) (l : Line) (d : DSeq) : (s.setDseq l d).a2 = s.a2 := rfl
@[simp] theorem setDseq_a3 (s : State) (l : Line) (d : DSeq) : (s.setDseq l d).a3 = s.a3 := rfl
@[simp] theorem setDseq_r0 (s : State) (l : Line) (d : DSeq) : (s.setDseq l d).r0 = s.r0 := rfl
@[simp] theorem setDseq_lasterr (s : State) (l : Line) (d : DSeq) : (s.setDseq l d).lasterr = s.lasterr := rfl
@[simp] theorem setDseq_slots (s : State) (l : Line) (d : DSeq) : (s.setDseq l d).slots = s.slots := rfl
@[simp] theorem setDseq_life (s : State) (l : Line) (d : DSeq) : (s.setDseq l d).life = s.life := rfl
@[simp] theorem setDseq_handler (s : State) (l : Line) (d : DSeq) : (s.setDseq l d).handler = s.handler := rfl
@[simp] theorem setDseq_savedHandler (s : State) (l : Line) (d : DSeq) : (s.setDseq l d).savedHandler = s.savedHandler := rfl
@[simp] theorem setDseq_lineRefs (s : State) (l : Line) (d : DSeq) : (s.setDseq l d).lineRefs = s.lineRefs := rfl
@[simp] theorem setDseq_masked (s : State) (l : Line) (d : DSeq) : (s.setDseq l d).masked = s.masked := rfl
@[simp] theorem setDseq_inService (s : State) (l : Line) (d : DSeq) : (s.setDseq l d).inService = s.inService := rfl
@[simp] theorem setDseq_latched (s : State) (l : Line) (d : DSeq) : (s.setDseq l d).latched = s.latched := rfl
@[simp] theorem setDseq_savedInteg (s : State) (l : Line) (d : DSeq) : (s.setDseq l d).savedInteg = s.savedInteg := rfl
@[simp] theorem setDseq_mseq (s : State) (l : Line) (d : DSeq) : (s.setDseq l d).mseq = s.mseq := rfl
@[simp] theorem setDseq_dseq (s : State) (l : Line) (d : DSeq) : (s.setDseq l d).dseq = s.dseq.set l d := rfl
@[simp] theorem setDseq_ctx (s : State) (l : Line) (d : DSeq) : (s.setDseq l d).ctx = s.ctx := rfl
@[simp] theorem setDseq_dev (s : State) (l : Line) (d : DSeq) : (s.setDseq l d).dev = s.dev := rfl
@[simp] theorem setDseq_wireTx (s : State) (l : Line) (d : DSeq) : (s.setDseq l d).wireTx = s.wireTx := rfl
@[simp] theorem setDseq_wireRx (s : State) (l : Line) (d : DSeq) : (s.setDseq l d).wireRx = s.wireRx := rfl
@[simp] theorem setDseq_hbuf (s : State) (l : Line) (d : DSeq) : (s.setDseq l d).hbuf = s.hbuf := rfl
@[simp] theorem setDseq_cfg (s : State) (l : Line) (d : DSeq) : (s.setDseq l d).cfg = s.cfg := rfl
@[simp] theorem setDseq_trace (s : State) (l : Line) (d : DSeq) : (s.setDseq l d).trace = s.trace := rfl
@[simp] theorem setDseq_side (s : State) (l : Line) (d : DSeq) : (s.setDseq l d).side = s.side := rfl
@[simp] theorem setDseq_ret (s : State) (l : Line) (d : DSeq) : (s.setDseq l d).ret = s.ret := rfl
@[simp] theorem setDseq_moves (s : State) (l : Line) (d : DSeq) : (s.setDseq l d).moves = s.moves := rfl
@[simp] theorem setDseq_draws (s : State) (l : Line) (d : DSeq) : (s.setDseq l d).draws = s.draws := rfl
@[simp] theorem setDseq_drawn (s : State) (l : Line) (d : DSeq) : (s.setDseq l d).drawn = s.drawn := rfl

@[simp] theorem setStd_a0 (s : State) (c : StdSlot) (d : StdDev) : (s.setStd c d).a0 = s.a0 := rfl
@[simp] theorem setStd_a1 (s : State) (c : StdSlot) (d : StdDev) : (s.setStd c d).a1 = s.a1 := rfl
@[simp] theorem setStd_a2 (s : State) (c : StdSlot) (d : StdDev) : (s.setStd c d).a2 = s.a2 := rfl
@[simp] theorem setStd_a3 (s : State) (c : StdSlot) (d : StdDev) : (s.setStd c d).a3 = s.a3 := rfl
@[simp] theorem setStd_r0 (s : State) (c : StdSlot) (d : StdDev) : (s.setStd c d).r0 = s.r0 := rfl
@[simp] theorem setStd_lasterr (s : State) (c : StdSlot) (d : StdDev) : (s.setStd c d).lasterr = s.lasterr := rfl
@[simp] theorem setStd_slots (s : State) (c : StdSlot) (d : StdDev) : (s.setStd c d).slots = s.slots := rfl
@[simp] theorem setStd_life (s : State) (c : StdSlot) (d : StdDev) : (s.setStd c d).life = s.life := rfl
@[simp] theorem setStd_handler (s : State) (c : StdSlot) (d : StdDev) : (s.setStd c d).handler = s.handler := rfl
@[simp] theorem setStd_savedHandler (s : State) (c : StdSlot) (d : StdDev) : (s.setStd c d).savedHandler = s.savedHandler := rfl
@[simp] theorem setStd_lineRefs (s : State) (c : StdSlot) (d : StdDev) : (s.setStd c d).lineRefs = s.lineRefs := rfl
@[simp] theorem setStd_masked (s : State) (c : StdSlot) (d : StdDev) : (s.setStd c d).masked = s.masked := rfl
@[simp] theorem setStd_inService (s : State) (c : StdSlot) (d : StdDev) : (s.setStd c d).inService = s.inService := rfl
@[simp] theorem setStd_latched (s : State) (c : StdSlot) (d : StdDev) : (s.setStd c d).latched = s.latched := rfl
@[simp] theorem setStd_savedInteg (s : State) (c : StdSlot) (d : StdDev) : (s.setStd c d).savedInteg = s.savedInteg := rfl
@[simp] theorem setStd_mseq (s : State) (c : StdSlot) (d : StdDev) : (s.setStd c d).mseq = s.mseq := rfl
@[simp] theorem setStd_dseq (s : State) (c : StdSlot) (d : StdDev) : (s.setStd c d).dseq = s.dseq := rfl
@[simp] theorem setStd_ctx (s : State) (c : StdSlot) (d : StdDev) : (s.setStd c d).ctx = s.ctx := rfl
@[simp] theorem setStd_dev (s : State) (c : StdSlot) (d : StdDev) : (s.setStd c d).dev = { s.dev with std := s.dev.std.set c d } := rfl
@[simp] theorem setStd_wireTx (s : State) (c : StdSlot) (d : StdDev) : (s.setStd c d).wireTx = s.wireTx := rfl
@[simp] theorem setStd_wireRx (s : State) (c : StdSlot) (d : StdDev) : (s.setStd c d).wireRx = s.wireRx := rfl
@[simp] theorem setStd_hbuf (s : State) (c : StdSlot) (d : StdDev) : (s.setStd c d).hbuf = s.hbuf := rfl
@[simp] theorem setStd_cfg (s : State) (c : StdSlot) (d : StdDev) : (s.setStd c d).cfg = s.cfg := rfl
@[simp] theorem setStd_trace (s : State) (c : StdSlot) (d : StdDev) : (s.setStd c d).trace = s.trace := rfl
@[simp] theorem setStd_side (s : State) (c : StdSlot) (d : StdDev) : (s.setStd c d).side = s.side := rfl
@[simp] theorem setStd_ret (s : State) (c : StdSlot) (d : StdDev) : (s.setStd c d).ret = s.ret := rfl
@[simp] theorem setStd_moves (s : State) (c : StdSlot) (d : StdDev) : (s.setStd c d).moves = s.moves := rfl
@[simp] theorem setStd_draws (s : State) (c : StdSlot) (d : StdDev) : (s.setStd c d).draws = s.draws := rfl
@[simp] theorem setStd_drawn (s : State) (c : StdSlot) (d : StdDev) : (s.setStd c d).drawn = s.drawn := rfl

@[simp] theorem setInteg_a0 (s : State) (d : IntegDev) : (s.setInteg d).a0 = s.a0 := rfl
@[simp] theorem setInteg_a1 (s : State) (d : IntegDev) : (s.setInteg d).a1 = s.a1 := rfl
@[simp] theorem setInteg_a2 (s : State) (d : IntegDev) : (s.setInteg d).a2 = s.a2 := rfl
@[simp] theorem setInteg_a3 (s : State) (d : IntegDev) : (s.setInteg d).a3 = s.a3 := rfl
@[simp] theorem setInteg_r0 (s : State) (d : IntegDev) : (s.setInteg d).r0 = s.r0 := rfl
@[simp] theorem setInteg_lasterr (s : State) (d : IntegDev) : (s.setInteg d).lasterr = s.lasterr := rfl
@[simp] theorem setInteg_slots (s : State) (d : IntegDev) : (s.setInteg d).slots = s.slots := rfl
@[simp] theorem setInteg_life (s : State) (d : IntegDev) : (s.setInteg d).life = s.life := rfl
@[simp] theorem setInteg_handler (s : State) (d : IntegDev) : (s.setInteg d).handler = s.handler := rfl
@[simp] theorem setInteg_savedHandler (s : State) (d : IntegDev) : (s.setInteg d).savedHandler = s.savedHandler := rfl
@[simp] theorem setInteg_lineRefs (s : State) (d : IntegDev) : (s.setInteg d).lineRefs = s.lineRefs := rfl
@[simp] theorem setInteg_masked (s : State) (d : IntegDev) : (s.setInteg d).masked = s.masked := rfl
@[simp] theorem setInteg_inService (s : State) (d : IntegDev) : (s.setInteg d).inService = s.inService := rfl
@[simp] theorem setInteg_latched (s : State) (d : IntegDev) : (s.setInteg d).latched = s.latched := rfl
@[simp] theorem setInteg_savedInteg (s : State) (d : IntegDev) : (s.setInteg d).savedInteg = s.savedInteg := rfl
@[simp] theorem setInteg_mseq (s : State) (d : IntegDev) : (s.setInteg d).mseq = s.mseq := rfl
@[simp] theorem setInteg_dseq (s : State) (d : IntegDev) : (s.setInteg d).dseq = s.dseq := rfl
@[simp] theorem setInteg_ctx (s : State) (d : IntegDev) : (s.setInteg d).ctx = s.ctx := rfl
@[simp] theorem setInteg_dev (s : State) (d : IntegDev) : (s.setInteg d).dev = { s.dev with integ := d } := rfl
@[simp] theorem setInteg_wireTx (s : State) (d : IntegDev) : (s.setInteg d).wireTx = s.wireTx := rfl
@[simp] theorem setInteg_wireRx (s : State) (d : IntegDev) : (s.setInteg d).wireRx = s.wireRx := rfl
@[simp] theorem setInteg_hbuf (s : State) (d : IntegDev) : (s.setInteg d).hbuf = s.hbuf := rfl
@[simp] theorem setInteg_cfg (s : State) (d : IntegDev) : (s.setInteg d).cfg = s.cfg := rfl
@[simp] theorem setInteg_trace (s : State) (d : IntegDev) : (s.setInteg d).trace = s.trace := rfl
@[simp] theorem setInteg_side (s : State) (d : IntegDev) : (s.setInteg d).side = s.side := rfl
@[simp] theorem setInteg_ret (s : State) (d : IntegDev) : (s.setInteg d).ret = s.ret := rfl
@[simp] theorem setInteg_moves (s : State) (d : IntegDev) : (s.setInteg d).moves = s.moves := rfl
@[simp] theorem setInteg_draws (s : State) (d : IntegDev) : (s.setInteg d).draws = s.draws := rfl
@[simp] theorem setInteg_drawn (s : State) (d : IntegDev) : (s.setInteg d).drawn = s.drawn := rfl

@[simp] theorem onTxWire_a0 (s : State) (q : Slot) (b : Byte) : (s.onTxWire q b).a0 = s.a0 := rfl
@[simp] theorem onTxWire_a1 (s : State) (q : Slot) (b : Byte) : (s.onTxWire q b).a1 = s.a1 := rfl
@[simp] theorem onTxWire_a2 (s : State) (q : Slot) (b : Byte) : (s.onTxWire q b).a2 = s.a2 := rfl
@[simp] theorem onTxWire_a3 (s : State) (q : Slot) (b : Byte) : (s.onTxWire q b).a3 = s.a3 := rfl
@[simp] theorem onTxWire_r0 (s : State) (q : Slot) (b : Byte) : (s.onTxWire q b).r0 = s.r0 := rfl
@[simp] theorem onTxWire_lasterr (s : State) (q : Slot) (b : Byte) : (s.onTxWire q b).lasterr = s.lasterr := rfl
@[simp] theorem onTxWire_slots (s : State) (q : Slot) (b : Byte) : (s.onTxWire q b).slots = s.slots := rfl
@[simp] theorem onTxWire_life (s : State) (q : Slot) (b : Byte) : (s.onTxWire q b).life = s.life := rfl
@[simp] theorem onTxWire_handler (s : State) (q : Slot) (b : Byte) : (s.onTxWire q b).handler = s.handler := rfl
@[simp] theorem onTxWire_savedHandler (s : State) (q : Slot) (b : Byte) : (s.onTxWire q b).savedHandler = s.savedHandler := rfl
@[simp] theorem onTxWire_lineRefs (s : State) (q : Slot) (b : Byte) : (s.onTxWire q b).lineRefs = s.lineRefs := rfl
@[simp] theorem onTxWire_masked (s : State) (q : Slot) (b : Byte) : (s.onTxWire q b).masked = s.masked := rfl
@[simp] theorem onTxWire_inService (s : State) (q : Slot) (b : Byte) : (s.onTxWire q b).inService = s.inService := rfl
@[simp] theorem onTxWire_latched (s : State) (q : Slot) (b : Byte) : (s.onTxWire q b).latched = s.latched := rfl
@[simp] theorem onTxWire_savedInteg (s : State) (q : Slot) (b : Byte) : (s.onTxWire q b).savedInteg = s.savedInteg := rfl
@[simp] theorem onTxWire_mseq (s : State) (q : Slot) (b : Byte) : (s.onTxWire q b).mseq = s.mseq := rfl
@[simp] theorem onTxWire_dseq (s : State) (q : Slot) (b : Byte) : (s.onTxWire q b).dseq = s.dseq := rfl
@[simp] theorem onTxWire_ctx (s : State) (q : Slot) (b : Byte) : (s.onTxWire q b).ctx = s.ctx := rfl
@[simp] theorem onTxWire_dev (s : State) (q : Slot) (b : Byte) : (s.onTxWire q b).dev = s.dev := rfl
@[simp] theorem onTxWire_wireTx (s : State) (q : Slot) (b : Byte) : (s.onTxWire q b).wireTx = s.wireTx.set q (s.wireTx.get q ++ [b]) := rfl
@[simp] theorem onTxWire_wireRx (s : State) (q : Slot) (b : Byte) : (s.onTxWire q b).wireRx = s.wireRx := rfl
@[simp] theorem onTxWire_hbuf (s : State) (q : Slot) (b : Byte) : (s.onTxWire q b).hbuf = s.hbuf := rfl
@[simp] theorem onTxWire_cfg (s : State) (q : Slot) (b : Byte) : (s.onTxWire q b).cfg = s.cfg := rfl
@[simp] theorem onTxWire_trace (s : State) (q : Slot) (b : Byte) : (s.onTxWire q b).trace = s.trace := rfl
@[simp] theorem onTxWire_side (s : State) (q : Slot) (b : Byte) : (s.onTxWire q b).side = s.side := rfl
@[simp] theorem onTxWire_ret (s : State) (q : Slot) (b : Byte) : (s.onTxWire q b).ret = s.ret := rfl
@[simp] theorem onTxWire_moves (s : State) (q : Slot) (b : Byte) : (s.onTxWire q b).moves = s.moves := rfl
@[simp] theorem onTxWire_draws (s : State) (q : Slot) (b : Byte) : (s.onTxWire q b).draws = s.draws := rfl
@[simp] theorem onTxWire_drawn (s : State) (q : Slot) (b : Byte) : (s.onTxWire q b).drawn = s.drawn := rfl

@[simp] theorem onRxWire_a0 (s : State) (q : Slot) (b : Byte) : (s.onRxWire q b).a0 = s.a0 := rfl
@[simp] theorem onRxWire_a1 (s : State) (q : Slot) (b : Byte) : (s.onRxWire q b).a1 = s.a1 := rfl
@[simp] theorem onRxWire_a2 (s : State) (q : Slot) (b : Byte) : (s.onRxWire q b).a2 = s.a2 := rfl
@[simp] theorem onRxWire_a3 (s : State) (q : Slot) (b : Byte) : (s.onRxWire q b).a3 = s.a3 := rfl
@[simp] theorem onRxWire_r0 (s : State) (q : Slot) (b : Byte) : (s.onRxWire q b).r0 = s.r0 := rfl
@[simp] theorem onRxWire_lasterr (s : State) (q : Slot) (b : Byte) : (s.onRxWire q b).lasterr = s.lasterr := rfl
@[simp] theorem onRxWire_slots (s : State) (q : Slot) (b : Byte) : (s.onRxWire q b).slots = s.slots := rfl
@[simp] theorem onRxWire_life (s : State) (q : Slot) (b : Byte) : (s.onRxWire q b).life = s.life := rfl
@[simp] theorem onRxWire_handler (s : State) (q : Slot) (b : Byte) : (s.onRxWire q b).handler = s.handler := rfl
@[simp] theorem onRxWire_savedHandler (s : State) (q : Slot) (b : Byte) : (s.onRxWire q b).savedHandler = s.savedHandler := rfl
@[simp] theorem onRxWire_lineRefs (s : State) (q : Slot) (b : Byte) : (s.onRxWire q b).lineRefs = s.lineRefs := rfl
@[simp] theorem onRxWire_masked (s : State) (q : Slot) (b : Byte) : (s.onRxWire q b).masked = s.masked := rfl
@[simp] theorem onRxWire_inService (s : State) (q : Slot) (b : Byte) : (s.onRxWire q b).inService = s.inService := rfl
@[simp] theorem onRxWire_latched (s : State) (q : Slot) (b : Byte) : (s.onRxWire q b).latched = s.latched := rfl
@[simp] theorem onRxWire_savedInteg (s : State) (q : Slot) (b : Byte) : (s.onRxWire q b).savedInteg = s.savedInteg := rfl
@[simp] theorem onRxWire_mseq (s : State) (q : Slot) (b : Byte) : (s.onRxWire q b).mseq = s.mseq := rfl
@[simp] theorem onRxWire_dseq (s : State) (q : Slot) (b : Byte) : (s.onRxWire q b).dseq = s.dseq := rfl
@[simp] theorem onRxWire_ctx (s : State) (q : Slot) (b : Byte) : (s.onRxWire q b).ctx = s.ctx := rfl
@[simp] theorem onRxWire_dev (s : State) (q : Slot) (b : Byte) : (s.onRxWire q b).dev = s.dev := rfl
@[simp] theorem onRxWire_wireTx (s : State) (q : Slot) (b : Byte) : (s.onRxWire q b).wireTx = s.wireTx := rfl
@[simp] theorem onRxWire_wireRx (s : State) (q : Slot) (b : Byte) : (s.onRxWire q b).wireRx = s.wireRx.set q (s.wireRx.get q ++ [b]) := rfl
@[simp] theorem onRxWire_hbuf (s : State) (q : Slot) (b : Byte) : (s.onRxWire q b).hbuf = s.hbuf := rfl
@[simp] theorem onRxWire_cfg (s : State) (q : Slot) (b : Byte) : (s.onRxWire q b).cfg = s.cfg := rfl
@[simp] theorem onRxWire_trace (s : State) (q : Slot) (b : Byte) : (s.onRxWire q b).trace = s.trace := rfl
@[simp] theorem onRxWire_side (s : State) (q : Slot) (b : Byte) : (s.onRxWire q b).side = s.side := rfl
@[simp] theorem onRxWire_ret (s : State) (q : Slot) (b : Byte) : (s.onRxWire q b).ret = s.ret := rfl
@[simp] theorem onRxWire_moves (s : State) (q : Slot) (b : Byte) : (s.onRxWire q b).moves = s.moves := rfl
@[simp] theorem onRxWire_draws (s : State) (q : Slot) (b : Byte) : (s.onRxWire q b).draws = s.draws := rfl
@[simp] theorem onRxWire_drawn (s : State) (q : Slot) (b : Byte) : (s.onRxWire q b).drawn = s.drawn := rfl

@[simp] theorem observe_a0 (s : State) (e : HostEvent) : (s.observe e).a0 = s.a0 := rfl
@[simp] theorem observe_a1 (s : State) (e : HostEvent) : (s.observe e).a1 = s.a1 := rfl
@[simp] theorem observe_a2 (s : State) (e : HostEvent) : (s.observe e).a2 = s.a2 := rfl
@[simp] theorem observe_a3 (s : State) (e : HostEvent) : (s.observe e).a3 = s.a3 := rfl
@[simp] theorem observe_r0 (s : State) (e : HostEvent) : (s.observe e).r0 = s.r0 := rfl
@[simp] theorem observe_lasterr (s : State) (e : HostEvent) : (s.observe e).lasterr = s.lasterr := rfl
@[simp] theorem observe_slots (s : State) (e : HostEvent) : (s.observe e).slots = s.slots := rfl
@[simp] theorem observe_life (s : State) (e : HostEvent) : (s.observe e).life = s.life := rfl
@[simp] theorem observe_handler (s : State) (e : HostEvent) : (s.observe e).handler = s.handler := rfl
@[simp] theorem observe_savedHandler (s : State) (e : HostEvent) : (s.observe e).savedHandler = s.savedHandler := rfl
@[simp] theorem observe_lineRefs (s : State) (e : HostEvent) : (s.observe e).lineRefs = s.lineRefs := rfl
@[simp] theorem observe_masked (s : State) (e : HostEvent) : (s.observe e).masked = s.masked := rfl
@[simp] theorem observe_inService (s : State) (e : HostEvent) : (s.observe e).inService = s.inService := rfl
@[simp] theorem observe_latched (s : State) (e : HostEvent) : (s.observe e).latched = s.latched := rfl
@[simp] theorem observe_savedInteg (s : State) (e : HostEvent) : (s.observe e).savedInteg = s.savedInteg := rfl
@[simp] theorem observe_mseq (s : State) (e : HostEvent) : (s.observe e).mseq = s.mseq := rfl
@[simp] theorem observe_dseq (s : State) (e : HostEvent) : (s.observe e).dseq = s.dseq := rfl
@[simp] theorem observe_ctx (s : State) (e : HostEvent) : (s.observe e).ctx = s.ctx := rfl
@[simp] theorem observe_dev (s : State) (e : HostEvent) : (s.observe e).dev = s.dev := rfl
@[simp] theorem observe_wireTx (s : State) (e : HostEvent) : (s.observe e).wireTx = s.wireTx := rfl
@[simp] theorem observe_wireRx (s : State) (e : HostEvent) : (s.observe e).wireRx = s.wireRx := rfl
@[simp] theorem observe_hbuf (s : State) (e : HostEvent) : (s.observe e).hbuf = s.hbuf := rfl
@[simp] theorem observe_cfg (s : State) (e : HostEvent) : (s.observe e).cfg = s.cfg := rfl
@[simp] theorem observe_trace (s : State) (e : HostEvent) : (s.observe e).trace = s.trace ++ [e] := rfl
@[simp] theorem observe_side (s : State) (e : HostEvent) : (s.observe e).side = s.side := rfl
@[simp] theorem observe_ret (s : State) (e : HostEvent) : (s.observe e).ret = s.ret := rfl
@[simp] theorem observe_moves (s : State) (e : HostEvent) : (s.observe e).moves = s.moves := rfl
@[simp] theorem observe_draws (s : State) (e : HostEvent) : (s.observe e).draws = s.draws := rfl
@[simp] theorem observe_drawn (s : State) (e : HostEvent) : (s.observe e).drawn = s.drawn := rfl

@[simp] theorem setSavedInteg_a0 (s : State) (r : CfgReg) (v : Half) : (s.setSavedInteg r v).a0 = s.a0 := rfl
@[simp] theorem setSavedInteg_a1 (s : State) (r : CfgReg) (v : Half) : (s.setSavedInteg r v).a1 = s.a1 := rfl
@[simp] theorem setSavedInteg_a2 (s : State) (r : CfgReg) (v : Half) : (s.setSavedInteg r v).a2 = s.a2 := rfl
@[simp] theorem setSavedInteg_a3 (s : State) (r : CfgReg) (v : Half) : (s.setSavedInteg r v).a3 = s.a3 := rfl
@[simp] theorem setSavedInteg_r0 (s : State) (r : CfgReg) (v : Half) : (s.setSavedInteg r v).r0 = s.r0 := rfl
@[simp] theorem setSavedInteg_lasterr (s : State) (r : CfgReg) (v : Half) : (s.setSavedInteg r v).lasterr = s.lasterr := rfl
@[simp] theorem setSavedInteg_slots (s : State) (r : CfgReg) (v : Half) : (s.setSavedInteg r v).slots = s.slots := rfl
@[simp] theorem setSavedInteg_life (s : State) (r : CfgReg) (v : Half) : (s.setSavedInteg r v).life = s.life := rfl
@[simp] theorem setSavedInteg_handler (s : State) (r : CfgReg) (v : Half) : (s.setSavedInteg r v).handler = s.handler := rfl
@[simp] theorem setSavedInteg_savedHandler (s : State) (r : CfgReg) (v : Half) : (s.setSavedInteg r v).savedHandler = s.savedHandler := rfl
@[simp] theorem setSavedInteg_lineRefs (s : State) (r : CfgReg) (v : Half) : (s.setSavedInteg r v).lineRefs = s.lineRefs := rfl
@[simp] theorem setSavedInteg_masked (s : State) (r : CfgReg) (v : Half) : (s.setSavedInteg r v).masked = s.masked := rfl
@[simp] theorem setSavedInteg_inService (s : State) (r : CfgReg) (v : Half) : (s.setSavedInteg r v).inService = s.inService := rfl
@[simp] theorem setSavedInteg_latched (s : State) (r : CfgReg) (v : Half) : (s.setSavedInteg r v).latched = s.latched := rfl
@[simp] theorem setSavedInteg_savedInteg (s : State) (r : CfgReg) (v : Half) : (s.setSavedInteg r v).savedInteg = s.savedInteg.set r v := rfl
@[simp] theorem setSavedInteg_mseq (s : State) (r : CfgReg) (v : Half) : (s.setSavedInteg r v).mseq = s.mseq := rfl
@[simp] theorem setSavedInteg_dseq (s : State) (r : CfgReg) (v : Half) : (s.setSavedInteg r v).dseq = s.dseq := rfl
@[simp] theorem setSavedInteg_ctx (s : State) (r : CfgReg) (v : Half) : (s.setSavedInteg r v).ctx = s.ctx := rfl
@[simp] theorem setSavedInteg_dev (s : State) (r : CfgReg) (v : Half) : (s.setSavedInteg r v).dev = s.dev := rfl
@[simp] theorem setSavedInteg_wireTx (s : State) (r : CfgReg) (v : Half) : (s.setSavedInteg r v).wireTx = s.wireTx := rfl
@[simp] theorem setSavedInteg_wireRx (s : State) (r : CfgReg) (v : Half) : (s.setSavedInteg r v).wireRx = s.wireRx := rfl
@[simp] theorem setSavedInteg_hbuf (s : State) (r : CfgReg) (v : Half) : (s.setSavedInteg r v).hbuf = s.hbuf := rfl
@[simp] theorem setSavedInteg_cfg (s : State) (r : CfgReg) (v : Half) : (s.setSavedInteg r v).cfg = s.cfg := rfl
@[simp] theorem setSavedInteg_trace (s : State) (r : CfgReg) (v : Half) : (s.setSavedInteg r v).trace = s.trace := rfl
@[simp] theorem setSavedInteg_side (s : State) (r : CfgReg) (v : Half) : (s.setSavedInteg r v).side = s.side := rfl
@[simp] theorem setSavedInteg_ret (s : State) (r : CfgReg) (v : Half) : (s.setSavedInteg r v).ret = s.ret := rfl
@[simp] theorem setSavedInteg_moves (s : State) (r : CfgReg) (v : Half) : (s.setSavedInteg r v).moves = s.moves := rfl
@[simp] theorem setSavedInteg_draws (s : State) (r : CfgReg) (v : Half) : (s.setSavedInteg r v).draws = s.draws := rfl
@[simp] theorem setSavedInteg_drawn (s : State) (r : CfgReg) (v : Half) : (s.setSavedInteg r v).drawn = s.drawn := rfl

@[simp] theorem setHbuf_a0 (s : State) (m : List Host.Cell) : (s.setHbuf m).a0 = s.a0 := rfl
@[simp] theorem setHbuf_a1 (s : State) (m : List Host.Cell) : (s.setHbuf m).a1 = s.a1 := rfl
@[simp] theorem setHbuf_a2 (s : State) (m : List Host.Cell) : (s.setHbuf m).a2 = s.a2 := rfl
@[simp] theorem setHbuf_a3 (s : State) (m : List Host.Cell) : (s.setHbuf m).a3 = s.a3 := rfl
@[simp] theorem setHbuf_r0 (s : State) (m : List Host.Cell) : (s.setHbuf m).r0 = s.r0 := rfl
@[simp] theorem setHbuf_lasterr (s : State) (m : List Host.Cell) : (s.setHbuf m).lasterr = s.lasterr := rfl
@[simp] theorem setHbuf_slots (s : State) (m : List Host.Cell) : (s.setHbuf m).slots = s.slots := rfl
@[simp] theorem setHbuf_life (s : State) (m : List Host.Cell) : (s.setHbuf m).life = s.life := rfl
@[simp] theorem setHbuf_handler (s : State) (m : List Host.Cell) : (s.setHbuf m).handler = s.handler := rfl
@[simp] theorem setHbuf_savedHandler (s : State) (m : List Host.Cell) : (s.setHbuf m).savedHandler = s.savedHandler := rfl
@[simp] theorem setHbuf_lineRefs (s : State) (m : List Host.Cell) : (s.setHbuf m).lineRefs = s.lineRefs := rfl
@[simp] theorem setHbuf_masked (s : State) (m : List Host.Cell) : (s.setHbuf m).masked = s.masked := rfl
@[simp] theorem setHbuf_inService (s : State) (m : List Host.Cell) : (s.setHbuf m).inService = s.inService := rfl
@[simp] theorem setHbuf_latched (s : State) (m : List Host.Cell) : (s.setHbuf m).latched = s.latched := rfl
@[simp] theorem setHbuf_savedInteg (s : State) (m : List Host.Cell) : (s.setHbuf m).savedInteg = s.savedInteg := rfl
@[simp] theorem setHbuf_mseq (s : State) (m : List Host.Cell) : (s.setHbuf m).mseq = s.mseq := rfl
@[simp] theorem setHbuf_dseq (s : State) (m : List Host.Cell) : (s.setHbuf m).dseq = s.dseq := rfl
@[simp] theorem setHbuf_ctx (s : State) (m : List Host.Cell) : (s.setHbuf m).ctx = s.ctx := rfl
@[simp] theorem setHbuf_dev (s : State) (m : List Host.Cell) : (s.setHbuf m).dev = s.dev := rfl
@[simp] theorem setHbuf_wireTx (s : State) (m : List Host.Cell) : (s.setHbuf m).wireTx = s.wireTx := rfl
@[simp] theorem setHbuf_wireRx (s : State) (m : List Host.Cell) : (s.setHbuf m).wireRx = s.wireRx := rfl
@[simp] theorem setHbuf_hbuf (s : State) (m : List Host.Cell) : (s.setHbuf m).hbuf = m := rfl
@[simp] theorem setHbuf_cfg (s : State) (m : List Host.Cell) : (s.setHbuf m).cfg = s.cfg := rfl
@[simp] theorem setHbuf_trace (s : State) (m : List Host.Cell) : (s.setHbuf m).trace = s.trace := rfl
@[simp] theorem setHbuf_side (s : State) (m : List Host.Cell) : (s.setHbuf m).side = s.side := rfl
@[simp] theorem setHbuf_ret (s : State) (m : List Host.Cell) : (s.setHbuf m).ret = s.ret := rfl
@[simp] theorem setHbuf_moves (s : State) (m : List Host.Cell) : (s.setHbuf m).moves = s.moves := rfl
@[simp] theorem setHbuf_draws (s : State) (m : List Host.Cell) : (s.setHbuf m).draws = s.draws := rfl
@[simp] theorem setHbuf_drawn (s : State) (m : List Host.Cell) : (s.setHbuf m).drawn = s.drawn := rfl

@[simp] theorem issue_a0 (s : State) (w : Word) : (s.issue w).a0 = s.a0 := rfl
@[simp] theorem issue_a1 (s : State) (w : Word) : (s.issue w).a1 = s.a1 := rfl
@[simp] theorem issue_a2 (s : State) (w : Word) : (s.issue w).a2 = s.a2 := rfl
@[simp] theorem issue_a3 (s : State) (w : Word) : (s.issue w).a3 = s.a3 := rfl
@[simp] theorem issue_r0 (s : State) (w : Word) : (s.issue w).r0 = s.r0 := rfl
@[simp] theorem issue_lasterr (s : State) (w : Word) : (s.issue w).lasterr = s.lasterr := rfl
@[simp] theorem issue_slots (s : State) (w : Word) : (s.issue w).slots = s.slots := rfl
@[simp] theorem issue_life (s : State) (w : Word) : (s.issue w).life = s.life := rfl
@[simp] theorem issue_handler (s : State) (w : Word) : (s.issue w).handler = s.handler := rfl
@[simp] theorem issue_savedHandler (s : State) (w : Word) : (s.issue w).savedHandler = s.savedHandler := rfl
@[simp] theorem issue_lineRefs (s : State) (w : Word) : (s.issue w).lineRefs = s.lineRefs := rfl
@[simp] theorem issue_masked (s : State) (w : Word) : (s.issue w).masked = s.masked := rfl
@[simp] theorem issue_inService (s : State) (w : Word) : (s.issue w).inService = s.inService := rfl
@[simp] theorem issue_latched (s : State) (w : Word) : (s.issue w).latched = s.latched := rfl
@[simp] theorem issue_savedInteg (s : State) (w : Word) : (s.issue w).savedInteg = s.savedInteg := rfl
@[simp] theorem issue_mseq (s : State) (w : Word) : (s.issue w).mseq = s.mseq := rfl
@[simp] theorem issue_dseq (s : State) (w : Word) : (s.issue w).dseq = s.dseq := rfl
@[simp] theorem issue_ctx (s : State) (w : Word) : (s.issue w).ctx = s.ctx := rfl
@[simp] theorem issue_dev (s : State) (w : Word) : (s.issue w).dev = s.dev := rfl
@[simp] theorem issue_wireTx (s : State) (w : Word) : (s.issue w).wireTx = s.wireTx := rfl
@[simp] theorem issue_wireRx (s : State) (w : Word) : (s.issue w).wireRx = s.wireRx := rfl
@[simp] theorem issue_hbuf (s : State) (w : Word) : (s.issue w).hbuf = s.hbuf := rfl
@[simp] theorem issue_cfg (s : State) (w : Word) : (s.issue w).cfg = s.cfg := rfl
@[simp] theorem issue_trace (s : State) (w : Word) : (s.issue w).trace = s.trace := rfl
@[simp] theorem issue_side (s : State) (w : Word) : (s.issue w).side = s.side := rfl
@[simp] theorem issue_ret (s : State) (w : Word) : (s.issue w).ret = s.ret := rfl
@[simp] theorem issue_moves (s : State) (w : Word) : (s.issue w).moves = .word w :: s.moves := rfl
@[simp] theorem issue_draws (s : State) (w : Word) : (s.issue w).draws = s.draws := rfl
@[simp] theorem issue_drawn (s : State) (w : Word) : (s.issue w).drawn = s.drawn := rfl

@[simp] theorem maskLine_a0 (s : State) (l : Line) : (s.maskLine l).a0 = s.a0 := rfl
@[simp] theorem maskLine_a1 (s : State) (l : Line) : (s.maskLine l).a1 = s.a1 := rfl
@[simp] theorem maskLine_a2 (s : State) (l : Line) : (s.maskLine l).a2 = s.a2 := rfl
@[simp] theorem maskLine_a3 (s : State) (l : Line) : (s.maskLine l).a3 = s.a3 := rfl
@[simp] theorem maskLine_r0 (s : State) (l : Line) : (s.maskLine l).r0 = s.r0 := rfl
@[simp] theorem maskLine_lasterr (s : State) (l : Line) : (s.maskLine l).lasterr = s.lasterr := rfl
@[simp] theorem maskLine_slots (s : State) (l : Line) : (s.maskLine l).slots = s.slots := rfl
@[simp] theorem maskLine_life (s : State) (l : Line) : (s.maskLine l).life = s.life := rfl
@[simp] theorem maskLine_handler (s : State) (l : Line) : (s.maskLine l).handler = s.handler := rfl
@[simp] theorem maskLine_savedHandler (s : State) (l : Line) : (s.maskLine l).savedHandler = s.savedHandler := rfl
@[simp] theorem maskLine_lineRefs (s : State) (l : Line) : (s.maskLine l).lineRefs = s.lineRefs := rfl
@[simp] theorem maskLine_masked (s : State) (l : Line) : (s.maskLine l).masked = s.masked.set l true := rfl
@[simp] theorem maskLine_inService (s : State) (l : Line) : (s.maskLine l).inService = s.inService := rfl
@[simp] theorem maskLine_latched (s : State) (l : Line) : (s.maskLine l).latched = s.latched := rfl
@[simp] theorem maskLine_savedInteg (s : State) (l : Line) : (s.maskLine l).savedInteg = s.savedInteg := rfl
@[simp] theorem maskLine_mseq (s : State) (l : Line) : (s.maskLine l).mseq = s.mseq := rfl
@[simp] theorem maskLine_dseq (s : State) (l : Line) : (s.maskLine l).dseq = s.dseq := rfl
@[simp] theorem maskLine_ctx (s : State) (l : Line) : (s.maskLine l).ctx = s.ctx := rfl
@[simp] theorem maskLine_dev (s : State) (l : Line) : (s.maskLine l).dev = s.dev := rfl
@[simp] theorem maskLine_wireTx (s : State) (l : Line) : (s.maskLine l).wireTx = s.wireTx := rfl
@[simp] theorem maskLine_wireRx (s : State) (l : Line) : (s.maskLine l).wireRx = s.wireRx := rfl
@[simp] theorem maskLine_hbuf (s : State) (l : Line) : (s.maskLine l).hbuf = s.hbuf := rfl
@[simp] theorem maskLine_cfg (s : State) (l : Line) : (s.maskLine l).cfg = s.cfg := rfl
@[simp] theorem maskLine_trace (s : State) (l : Line) : (s.maskLine l).trace = s.trace ++ [.mask l] := rfl
@[simp] theorem maskLine_side (s : State) (l : Line) : (s.maskLine l).side = s.side := rfl
@[simp] theorem maskLine_ret (s : State) (l : Line) : (s.maskLine l).ret = s.ret := rfl
@[simp] theorem maskLine_moves (s : State) (l : Line) : (s.maskLine l).moves = s.moves := rfl
@[simp] theorem maskLine_draws (s : State) (l : Line) : (s.maskLine l).draws = s.draws := rfl
@[simp] theorem maskLine_drawn (s : State) (l : Line) : (s.maskLine l).drawn = s.drawn := rfl

@[simp] theorem unmaskLine_a0 (s : State) (l : Line) : (s.unmaskLine l).a0 = s.a0 := rfl
@[simp] theorem unmaskLine_a1 (s : State) (l : Line) : (s.unmaskLine l).a1 = s.a1 := rfl
@[simp] theorem unmaskLine_a2 (s : State) (l : Line) : (s.unmaskLine l).a2 = s.a2 := rfl
@[simp] theorem unmaskLine_a3 (s : State) (l : Line) : (s.unmaskLine l).a3 = s.a3 := rfl
@[simp] theorem unmaskLine_r0 (s : State) (l : Line) : (s.unmaskLine l).r0 = s.r0 := rfl
@[simp] theorem unmaskLine_lasterr (s : State) (l : Line) : (s.unmaskLine l).lasterr = s.lasterr := rfl
@[simp] theorem unmaskLine_slots (s : State) (l : Line) : (s.unmaskLine l).slots = s.slots := rfl
@[simp] theorem unmaskLine_life (s : State) (l : Line) : (s.unmaskLine l).life = s.life := rfl
@[simp] theorem unmaskLine_handler (s : State) (l : Line) : (s.unmaskLine l).handler = s.handler := rfl
@[simp] theorem unmaskLine_savedHandler (s : State) (l : Line) : (s.unmaskLine l).savedHandler = s.savedHandler := rfl
@[simp] theorem unmaskLine_lineRefs (s : State) (l : Line) : (s.unmaskLine l).lineRefs = s.lineRefs := rfl
@[simp] theorem unmaskLine_masked (s : State) (l : Line) : (s.unmaskLine l).masked = s.masked.set l false := rfl
@[simp] theorem unmaskLine_inService (s : State) (l : Line) : (s.unmaskLine l).inService = s.inService := rfl
@[simp] theorem unmaskLine_latched (s : State) (l : Line) : (s.unmaskLine l).latched = s.latched := rfl
@[simp] theorem unmaskLine_savedInteg (s : State) (l : Line) : (s.unmaskLine l).savedInteg = s.savedInteg := rfl
@[simp] theorem unmaskLine_mseq (s : State) (l : Line) : (s.unmaskLine l).mseq = s.mseq := rfl
@[simp] theorem unmaskLine_dseq (s : State) (l : Line) : (s.unmaskLine l).dseq = s.dseq := rfl
@[simp] theorem unmaskLine_ctx (s : State) (l : Line) : (s.unmaskLine l).ctx = s.ctx := rfl
@[simp] theorem unmaskLine_dev (s : State) (l : Line) : (s.unmaskLine l).dev = s.dev := rfl
@[simp] theorem unmaskLine_wireTx (s : State) (l : Line) : (s.unmaskLine l).wireTx = s.wireTx := rfl
@[simp] theorem unmaskLine_wireRx (s : State) (l : Line) : (s.unmaskLine l).wireRx = s.wireRx := rfl
@[simp] theorem unmaskLine_hbuf (s : State) (l : Line) : (s.unmaskLine l).hbuf = s.hbuf := rfl
@[simp] theorem unmaskLine_cfg (s : State) (l : Line) : (s.unmaskLine l).cfg = s.cfg := rfl
@[simp] theorem unmaskLine_trace (s : State) (l : Line) : (s.unmaskLine l).trace = s.trace ++ [.unmask l] := rfl
@[simp] theorem unmaskLine_side (s : State) (l : Line) : (s.unmaskLine l).side = s.side := rfl
@[simp] theorem unmaskLine_ret (s : State) (l : Line) : (s.unmaskLine l).ret = s.ret := rfl
@[simp] theorem unmaskLine_moves (s : State) (l : Line) : (s.unmaskLine l).moves = s.moves := rfl
@[simp] theorem unmaskLine_draws (s : State) (l : Line) : (s.unmaskLine l).draws = s.draws := rfl
@[simp] theorem unmaskLine_drawn (s : State) (l : Line) : (s.unmaskLine l).drawn = s.drawn := rfl

@[simp] theorem installHandler_a0 (s : State) (l : Line) (h : Handler) : (s.installHandler l h).a0 = s.a0 := rfl
@[simp] theorem installHandler_a1 (s : State) (l : Line) (h : Handler) : (s.installHandler l h).a1 = s.a1 := rfl
@[simp] theorem installHandler_a2 (s : State) (l : Line) (h : Handler) : (s.installHandler l h).a2 = s.a2 := rfl
@[simp] theorem installHandler_a3 (s : State) (l : Line) (h : Handler) : (s.installHandler l h).a3 = s.a3 := rfl
@[simp] theorem installHandler_r0 (s : State) (l : Line) (h : Handler) : (s.installHandler l h).r0 = s.r0 := rfl
@[simp] theorem installHandler_lasterr (s : State) (l : Line) (h : Handler) : (s.installHandler l h).lasterr = s.lasterr := rfl
@[simp] theorem installHandler_slots (s : State) (l : Line) (h : Handler) : (s.installHandler l h).slots = s.slots := rfl
@[simp] theorem installHandler_life (s : State) (l : Line) (h : Handler) : (s.installHandler l h).life = s.life := rfl
@[simp] theorem installHandler_handler (s : State) (l : Line) (h : Handler) : (s.installHandler l h).handler = s.handler.set l h := rfl
@[simp] theorem installHandler_savedHandler (s : State) (l : Line) (h : Handler) : (s.installHandler l h).savedHandler = s.savedHandler := rfl
@[simp] theorem installHandler_lineRefs (s : State) (l : Line) (h : Handler) : (s.installHandler l h).lineRefs = s.lineRefs := rfl
@[simp] theorem installHandler_masked (s : State) (l : Line) (h : Handler) : (s.installHandler l h).masked = s.masked := rfl
@[simp] theorem installHandler_inService (s : State) (l : Line) (h : Handler) : (s.installHandler l h).inService = s.inService := rfl
@[simp] theorem installHandler_latched (s : State) (l : Line) (h : Handler) : (s.installHandler l h).latched = s.latched := rfl
@[simp] theorem installHandler_savedInteg (s : State) (l : Line) (h : Handler) : (s.installHandler l h).savedInteg = s.savedInteg := rfl
@[simp] theorem installHandler_mseq (s : State) (l : Line) (h : Handler) : (s.installHandler l h).mseq = s.mseq := rfl
@[simp] theorem installHandler_dseq (s : State) (l : Line) (h : Handler) : (s.installHandler l h).dseq = s.dseq := rfl
@[simp] theorem installHandler_ctx (s : State) (l : Line) (h : Handler) : (s.installHandler l h).ctx = s.ctx := rfl
@[simp] theorem installHandler_dev (s : State) (l : Line) (h : Handler) : (s.installHandler l h).dev = s.dev := rfl
@[simp] theorem installHandler_wireTx (s : State) (l : Line) (h : Handler) : (s.installHandler l h).wireTx = s.wireTx := rfl
@[simp] theorem installHandler_wireRx (s : State) (l : Line) (h : Handler) : (s.installHandler l h).wireRx = s.wireRx := rfl
@[simp] theorem installHandler_hbuf (s : State) (l : Line) (h : Handler) : (s.installHandler l h).hbuf = s.hbuf := rfl
@[simp] theorem installHandler_cfg (s : State) (l : Line) (h : Handler) : (s.installHandler l h).cfg = s.cfg := rfl
@[simp] theorem installHandler_trace (s : State) (l : Line) (h : Handler) : (s.installHandler l h).trace = s.trace ++ [.install l h (s.handler.get l)] := rfl
@[simp] theorem installHandler_side (s : State) (l : Line) (h : Handler) : (s.installHandler l h).side = s.side := rfl
@[simp] theorem installHandler_ret (s : State) (l : Line) (h : Handler) : (s.installHandler l h).ret = s.ret := rfl
@[simp] theorem installHandler_moves (s : State) (l : Line) (h : Handler) : (s.installHandler l h).moves = s.moves := rfl
@[simp] theorem installHandler_draws (s : State) (l : Line) (h : Handler) : (s.installHandler l h).draws = s.draws := rfl
@[simp] theorem installHandler_drawn (s : State) (l : Line) (h : Handler) : (s.installHandler l h).drawn = s.drawn := rfl

@[simp] theorem restoreHandler_a0 (s : State) (l : Line) (h : Handler) : (s.restoreHandler l h).a0 = s.a0 := rfl
@[simp] theorem restoreHandler_a1 (s : State) (l : Line) (h : Handler) : (s.restoreHandler l h).a1 = s.a1 := rfl
@[simp] theorem restoreHandler_a2 (s : State) (l : Line) (h : Handler) : (s.restoreHandler l h).a2 = s.a2 := rfl
@[simp] theorem restoreHandler_a3 (s : State) (l : Line) (h : Handler) : (s.restoreHandler l h).a3 = s.a3 := rfl
@[simp] theorem restoreHandler_r0 (s : State) (l : Line) (h : Handler) : (s.restoreHandler l h).r0 = s.r0 := rfl
@[simp] theorem restoreHandler_lasterr (s : State) (l : Line) (h : Handler) : (s.restoreHandler l h).lasterr = s.lasterr := rfl
@[simp] theorem restoreHandler_slots (s : State) (l : Line) (h : Handler) : (s.restoreHandler l h).slots = s.slots := rfl
@[simp] theorem restoreHandler_life (s : State) (l : Line) (h : Handler) : (s.restoreHandler l h).life = s.life := rfl
@[simp] theorem restoreHandler_handler (s : State) (l : Line) (h : Handler) : (s.restoreHandler l h).handler = s.handler.set l h := rfl
@[simp] theorem restoreHandler_savedHandler (s : State) (l : Line) (h : Handler) : (s.restoreHandler l h).savedHandler = s.savedHandler := rfl
@[simp] theorem restoreHandler_lineRefs (s : State) (l : Line) (h : Handler) : (s.restoreHandler l h).lineRefs = s.lineRefs := rfl
@[simp] theorem restoreHandler_masked (s : State) (l : Line) (h : Handler) : (s.restoreHandler l h).masked = s.masked := rfl
@[simp] theorem restoreHandler_inService (s : State) (l : Line) (h : Handler) : (s.restoreHandler l h).inService = s.inService := rfl
@[simp] theorem restoreHandler_latched (s : State) (l : Line) (h : Handler) : (s.restoreHandler l h).latched = s.latched := rfl
@[simp] theorem restoreHandler_savedInteg (s : State) (l : Line) (h : Handler) : (s.restoreHandler l h).savedInteg = s.savedInteg := rfl
@[simp] theorem restoreHandler_mseq (s : State) (l : Line) (h : Handler) : (s.restoreHandler l h).mseq = s.mseq := rfl
@[simp] theorem restoreHandler_dseq (s : State) (l : Line) (h : Handler) : (s.restoreHandler l h).dseq = s.dseq := rfl
@[simp] theorem restoreHandler_ctx (s : State) (l : Line) (h : Handler) : (s.restoreHandler l h).ctx = s.ctx := rfl
@[simp] theorem restoreHandler_dev (s : State) (l : Line) (h : Handler) : (s.restoreHandler l h).dev = s.dev := rfl
@[simp] theorem restoreHandler_wireTx (s : State) (l : Line) (h : Handler) : (s.restoreHandler l h).wireTx = s.wireTx := rfl
@[simp] theorem restoreHandler_wireRx (s : State) (l : Line) (h : Handler) : (s.restoreHandler l h).wireRx = s.wireRx := rfl
@[simp] theorem restoreHandler_hbuf (s : State) (l : Line) (h : Handler) : (s.restoreHandler l h).hbuf = s.hbuf := rfl
@[simp] theorem restoreHandler_cfg (s : State) (l : Line) (h : Handler) : (s.restoreHandler l h).cfg = s.cfg := rfl
@[simp] theorem restoreHandler_trace (s : State) (l : Line) (h : Handler) : (s.restoreHandler l h).trace = s.trace ++ [.restore l h] := rfl
@[simp] theorem restoreHandler_side (s : State) (l : Line) (h : Handler) : (s.restoreHandler l h).side = s.side := rfl
@[simp] theorem restoreHandler_ret (s : State) (l : Line) (h : Handler) : (s.restoreHandler l h).ret = s.ret := rfl
@[simp] theorem restoreHandler_moves (s : State) (l : Line) (h : Handler) : (s.restoreHandler l h).moves = s.moves := rfl
@[simp] theorem restoreHandler_draws (s : State) (l : Line) (h : Handler) : (s.restoreHandler l h).draws = s.draws := rfl
@[simp] theorem restoreHandler_drawn (s : State) (l : Line) (h : Handler) : (s.restoreHandler l h).drawn = s.drawn := rfl

@[simp] theorem fail_a0 (s : State) (e : ErrKind) : (s.fail e).a0 = s.a0 := rfl
@[simp] theorem fail_a1 (s : State) (e : ErrKind) : (s.fail e).a1 = s.a1 := rfl
@[simp] theorem fail_a2 (s : State) (e : ErrKind) : (s.fail e).a2 = s.a2 := rfl
@[simp] theorem fail_a3 (s : State) (e : ErrKind) : (s.fail e).a3 = s.a3 := rfl
@[simp] theorem fail_r0 (s : State) (e : ErrKind) : (s.fail e).r0 = 0xFFFFFFFF#32 := rfl
@[simp] theorem fail_lasterr (s : State) (e : ErrKind) : (s.fail e).lasterr = s.cfg.errCode.get e := rfl
@[simp] theorem fail_slots (s : State) (e : ErrKind) : (s.fail e).slots = s.slots := rfl
@[simp] theorem fail_life (s : State) (e : ErrKind) : (s.fail e).life = s.life := rfl
@[simp] theorem fail_handler (s : State) (e : ErrKind) : (s.fail e).handler = s.handler := rfl
@[simp] theorem fail_savedHandler (s : State) (e : ErrKind) : (s.fail e).savedHandler = s.savedHandler := rfl
@[simp] theorem fail_lineRefs (s : State) (e : ErrKind) : (s.fail e).lineRefs = s.lineRefs := rfl
@[simp] theorem fail_masked (s : State) (e : ErrKind) : (s.fail e).masked = s.masked := rfl
@[simp] theorem fail_inService (s : State) (e : ErrKind) : (s.fail e).inService = s.inService := rfl
@[simp] theorem fail_latched (s : State) (e : ErrKind) : (s.fail e).latched = s.latched := rfl
@[simp] theorem fail_savedInteg (s : State) (e : ErrKind) : (s.fail e).savedInteg = s.savedInteg := rfl
@[simp] theorem fail_mseq (s : State) (e : ErrKind) : (s.fail e).mseq = .idle := rfl
@[simp] theorem fail_dseq (s : State) (e : ErrKind) : (s.fail e).dseq = s.dseq := rfl
@[simp] theorem fail_ctx (s : State) (e : ErrKind) : (s.fail e).ctx = s.ctx := rfl
@[simp] theorem fail_dev (s : State) (e : ErrKind) : (s.fail e).dev = s.dev := rfl
@[simp] theorem fail_wireTx (s : State) (e : ErrKind) : (s.fail e).wireTx = s.wireTx := rfl
@[simp] theorem fail_wireRx (s : State) (e : ErrKind) : (s.fail e).wireRx = s.wireRx := rfl
@[simp] theorem fail_hbuf (s : State) (e : ErrKind) : (s.fail e).hbuf = s.hbuf := rfl
@[simp] theorem fail_cfg (s : State) (e : ErrKind) : (s.fail e).cfg = s.cfg := rfl
@[simp] theorem fail_trace (s : State) (e : ErrKind) : (s.fail e).trace = s.trace := rfl
@[simp] theorem fail_side (s : State) (e : ErrKind) : (s.fail e).side = s.side := rfl
@[simp] theorem fail_ret (s : State) (e : ErrKind) : (s.fail e).ret = s.ret := rfl
@[simp] theorem fail_moves (s : State) (e : ErrKind) : (s.fail e).moves = s.moves := rfl
@[simp] theorem fail_draws (s : State) (e : ErrKind) : (s.fail e).draws = s.draws := rfl
@[simp] theorem fail_drawn (s : State) (e : ErrKind) : (s.fail e).drawn = s.drawn := rfl

@[simp] theorem leaveInterrupt_a0 (s : State) (l : Line) : (s.leaveInterrupt l).a0 = s.a0 := rfl
@[simp] theorem leaveInterrupt_a1 (s : State) (l : Line) : (s.leaveInterrupt l).a1 = s.a1 := rfl
@[simp] theorem leaveInterrupt_a2 (s : State) (l : Line) : (s.leaveInterrupt l).a2 = s.a2 := rfl
@[simp] theorem leaveInterrupt_a3 (s : State) (l : Line) : (s.leaveInterrupt l).a3 = s.a3 := rfl
@[simp] theorem leaveInterrupt_r0 (s : State) (l : Line) : (s.leaveInterrupt l).r0 = s.r0 := rfl
@[simp] theorem leaveInterrupt_lasterr (s : State) (l : Line) : (s.leaveInterrupt l).lasterr = s.lasterr := rfl
@[simp] theorem leaveInterrupt_slots (s : State) (l : Line) : (s.leaveInterrupt l).slots = s.slots := rfl
@[simp] theorem leaveInterrupt_life (s : State) (l : Line) : (s.leaveInterrupt l).life = s.life := rfl
@[simp] theorem leaveInterrupt_handler (s : State) (l : Line) : (s.leaveInterrupt l).handler = s.handler := rfl
@[simp] theorem leaveInterrupt_savedHandler (s : State) (l : Line) : (s.leaveInterrupt l).savedHandler = s.savedHandler := rfl
@[simp] theorem leaveInterrupt_lineRefs (s : State) (l : Line) : (s.leaveInterrupt l).lineRefs = s.lineRefs := rfl
@[simp] theorem leaveInterrupt_masked (s : State) (l : Line) : (s.leaveInterrupt l).masked = s.masked := rfl
@[simp] theorem leaveInterrupt_inService (s : State) (l : Line) : (s.leaveInterrupt l).inService = s.inService.set l false := rfl
@[simp] theorem leaveInterrupt_latched (s : State) (l : Line) : (s.leaveInterrupt l).latched = s.latched := rfl
@[simp] theorem leaveInterrupt_savedInteg (s : State) (l : Line) : (s.leaveInterrupt l).savedInteg = s.savedInteg := rfl
@[simp] theorem leaveInterrupt_mseq (s : State) (l : Line) : (s.leaveInterrupt l).mseq = s.mseq := rfl
@[simp] theorem leaveInterrupt_dseq (s : State) (l : Line) : (s.leaveInterrupt l).dseq = s.dseq.set l .idle := rfl
@[simp] theorem leaveInterrupt_ctx (s : State) (l : Line) : (s.leaveInterrupt l).ctx = s.ctx.tail := rfl
@[simp] theorem leaveInterrupt_dev (s : State) (l : Line) : (s.leaveInterrupt l).dev = s.dev := rfl
@[simp] theorem leaveInterrupt_wireTx (s : State) (l : Line) : (s.leaveInterrupt l).wireTx = s.wireTx := rfl
@[simp] theorem leaveInterrupt_wireRx (s : State) (l : Line) : (s.leaveInterrupt l).wireRx = s.wireRx := rfl
@[simp] theorem leaveInterrupt_hbuf (s : State) (l : Line) : (s.leaveInterrupt l).hbuf = s.hbuf := rfl
@[simp] theorem leaveInterrupt_cfg (s : State) (l : Line) : (s.leaveInterrupt l).cfg = s.cfg := rfl
@[simp] theorem leaveInterrupt_trace (s : State) (l : Line) : (s.leaveInterrupt l).trace = s.trace := rfl
@[simp] theorem leaveInterrupt_side (s : State) (l : Line) : (s.leaveInterrupt l).side = s.side := rfl
@[simp] theorem leaveInterrupt_ret (s : State) (l : Line) : (s.leaveInterrupt l).ret = s.ret := rfl
@[simp] theorem leaveInterrupt_moves (s : State) (l : Line) : (s.leaveInterrupt l).moves = s.moves := rfl
@[simp] theorem leaveInterrupt_draws (s : State) (l : Line) : (s.leaveInterrupt l).draws = s.draws := rfl
@[simp] theorem leaveInterrupt_drawn (s : State) (l : Line) : (s.leaveInterrupt l).drawn = s.drawn := rfl

@[simp] theorem drawn1_a0 (s : State) : s.drawn1.a0 = s.a0 := by
  unfold State.drawn1; split <;> simp_all
@[simp] theorem drawn1_a1 (s : State) : s.drawn1.a1 = s.a1 := by
  unfold State.drawn1; split <;> simp_all
@[simp] theorem drawn1_a2 (s : State) : s.drawn1.a2 = s.a2 := by
  unfold State.drawn1; split <;> simp_all
@[simp] theorem drawn1_a3 (s : State) : s.drawn1.a3 = s.a3 := by
  unfold State.drawn1; split <;> simp_all
@[simp] theorem drawn1_r0 (s : State) : s.drawn1.r0 = s.r0 := by
  unfold State.drawn1; split <;> simp_all
@[simp] theorem drawn1_lasterr (s : State) : s.drawn1.lasterr = s.lasterr := by
  unfold State.drawn1; split <;> simp_all
@[simp] theorem drawn1_slots (s : State) : s.drawn1.slots = s.slots := by
  unfold State.drawn1; split <;> simp_all
@[simp] theorem drawn1_life (s : State) : s.drawn1.life = s.life := by
  unfold State.drawn1; split <;> simp_all
@[simp] theorem drawn1_handler (s : State) : s.drawn1.handler = s.handler := by
  unfold State.drawn1; split <;> simp_all
@[simp] theorem drawn1_savedHandler (s : State) : s.drawn1.savedHandler = s.savedHandler := by
  unfold State.drawn1; split <;> simp_all
@[simp] theorem drawn1_lineRefs (s : State) : s.drawn1.lineRefs = s.lineRefs := by
  unfold State.drawn1; split <;> simp_all
@[simp] theorem drawn1_masked (s : State) : s.drawn1.masked = s.masked := by
  unfold State.drawn1; split <;> simp_all
@[simp] theorem drawn1_inService (s : State) : s.drawn1.inService = s.inService := by
  unfold State.drawn1; split <;> simp_all
@[simp] theorem drawn1_latched (s : State) : s.drawn1.latched = s.latched := by
  unfold State.drawn1; split <;> simp_all
@[simp] theorem drawn1_savedInteg (s : State) : s.drawn1.savedInteg = s.savedInteg := by
  unfold State.drawn1; split <;> simp_all
@[simp] theorem drawn1_mseq (s : State) : s.drawn1.mseq = s.mseq := by
  unfold State.drawn1; split <;> simp_all
@[simp] theorem drawn1_dseq (s : State) : s.drawn1.dseq = s.dseq := by
  unfold State.drawn1; split <;> simp_all
@[simp] theorem drawn1_ctx (s : State) : s.drawn1.ctx = s.ctx := by
  unfold State.drawn1; split <;> simp_all
@[simp] theorem drawn1_dev (s : State) : s.drawn1.dev = s.dev := by
  unfold State.drawn1; split <;> simp_all
@[simp] theorem drawn1_wireTx (s : State) : s.drawn1.wireTx = s.wireTx := by
  unfold State.drawn1; split <;> simp_all
@[simp] theorem drawn1_wireRx (s : State) : s.drawn1.wireRx = s.wireRx := by
  unfold State.drawn1; split <;> simp_all
@[simp] theorem drawn1_hbuf (s : State) : s.drawn1.hbuf = s.hbuf := by
  unfold State.drawn1; split <;> simp_all
@[simp] theorem drawn1_cfg (s : State) : s.drawn1.cfg = s.cfg := by
  unfold State.drawn1; split <;> simp_all
@[simp] theorem drawn1_trace (s : State) : s.drawn1.trace = s.trace := by
  unfold State.drawn1; split <;> simp_all
@[simp] theorem drawn1_side (s : State) : s.drawn1.side = s.side := by
  unfold State.drawn1; split <;> simp_all
@[simp] theorem drawn1_ret (s : State) : s.drawn1.ret = s.ret := by
  unfold State.drawn1; split <;> simp_all
@[simp] theorem drawn1_moves (s : State) : s.drawn1.moves = s.moves := by
  unfold State.drawn1; split <;> simp_all
@[simp] theorem drawn1_draws (s : State) : s.drawn1.draws = s.draws.tail := by
  unfold State.drawn1; split <;> simp_all
@[simp] theorem drawn1_drawn (s : State) : s.drawn1.drawn = if s.draws = [] then s.drawn + 1 else s.drawn := by
  unfold State.drawn1; split <;> simp_all

@[simp] theorem finish_a0 (s : State) (v : Word) : (s.finish v).a0 = s.a0 := by
  simp [State.finish]
@[simp] theorem finish_a1 (s : State) (v : Word) : (s.finish v).a1 = s.a1 := by
  simp [State.finish]
@[simp] theorem finish_a2 (s : State) (v : Word) : (s.finish v).a2 = s.a2 := by
  simp [State.finish]
@[simp] theorem finish_a3 (s : State) (v : Word) : (s.finish v).a3 = s.a3 := by
  simp [State.finish]
@[simp] theorem finish_r0 (s : State) (v : Word) : (s.finish v).r0 = v := by
  rfl
@[simp] theorem finish_lasterr (s : State) (v : Word) : (s.finish v).lasterr = s.drawValue.setWidth 8 := by
  rfl
@[simp] theorem finish_slots (s : State) (v : Word) : (s.finish v).slots = s.slots := by
  simp [State.finish]
@[simp] theorem finish_life (s : State) (v : Word) : (s.finish v).life = s.life := by
  simp [State.finish]
@[simp] theorem finish_handler (s : State) (v : Word) : (s.finish v).handler = s.handler := by
  simp [State.finish]
@[simp] theorem finish_savedHandler (s : State) (v : Word) : (s.finish v).savedHandler = s.savedHandler := by
  simp [State.finish]
@[simp] theorem finish_lineRefs (s : State) (v : Word) : (s.finish v).lineRefs = s.lineRefs := by
  simp [State.finish]
@[simp] theorem finish_masked (s : State) (v : Word) : (s.finish v).masked = s.masked := by
  simp [State.finish]
@[simp] theorem finish_inService (s : State) (v : Word) : (s.finish v).inService = s.inService := by
  simp [State.finish]
@[simp] theorem finish_latched (s : State) (v : Word) : (s.finish v).latched = s.latched := by
  simp [State.finish]
@[simp] theorem finish_savedInteg (s : State) (v : Word) : (s.finish v).savedInteg = s.savedInteg := by
  simp [State.finish]
@[simp] theorem finish_mseq (s : State) (v : Word) : (s.finish v).mseq = .idle := by
  rfl
@[simp] theorem finish_dseq (s : State) (v : Word) : (s.finish v).dseq = s.dseq := by
  simp [State.finish]
@[simp] theorem finish_ctx (s : State) (v : Word) : (s.finish v).ctx = s.ctx := by
  simp [State.finish]
@[simp] theorem finish_dev (s : State) (v : Word) : (s.finish v).dev = s.dev := by
  simp [State.finish]
@[simp] theorem finish_wireTx (s : State) (v : Word) : (s.finish v).wireTx = s.wireTx := by
  simp [State.finish]
@[simp] theorem finish_wireRx (s : State) (v : Word) : (s.finish v).wireRx = s.wireRx := by
  simp [State.finish]
@[simp] theorem finish_hbuf (s : State) (v : Word) : (s.finish v).hbuf = s.hbuf := by
  simp [State.finish]
@[simp] theorem finish_cfg (s : State) (v : Word) : (s.finish v).cfg = s.cfg := by
  simp [State.finish]
@[simp] theorem finish_trace (s : State) (v : Word) : (s.finish v).trace = s.trace := by
  simp [State.finish]
@[simp] theorem finish_side (s : State) (v : Word) : (s.finish v).side = s.side := by
  simp [State.finish]
@[simp] theorem finish_ret (s : State) (v : Word) : (s.finish v).ret = s.ret := by
  simp [State.finish]
@[simp] theorem finish_moves (s : State) (v : Word) : (s.finish v).moves = s.moves := by
  simp [State.finish]
@[simp] theorem finish_draws (s : State) (v : Word) : (s.finish v).draws = s.drawn1.draws := by
  rfl
@[simp] theorem finish_drawn (s : State) (v : Word) : (s.finish v).drawn = s.drawn1.drawn := by
  rfl

@[simp] theorem drawnIf_a0 (s : State) (b : Bool) : (s.drawnIf b).a0 = s.a0 := by
  unfold State.drawnIf; split <;> simp
@[simp] theorem drawnIf_a1 (s : State) (b : Bool) : (s.drawnIf b).a1 = s.a1 := by
  unfold State.drawnIf; split <;> simp
@[simp] theorem drawnIf_a2 (s : State) (b : Bool) : (s.drawnIf b).a2 = s.a2 := by
  unfold State.drawnIf; split <;> simp
@[simp] theorem drawnIf_a3 (s : State) (b : Bool) : (s.drawnIf b).a3 = s.a3 := by
  unfold State.drawnIf; split <;> simp
@[simp] theorem drawnIf_r0 (s : State) (b : Bool) : (s.drawnIf b).r0 = s.r0 := by
  unfold State.drawnIf; split <;> simp
@[simp] theorem drawnIf_lasterr (s : State) (b : Bool) : (s.drawnIf b).lasterr = s.lasterr := by
  unfold State.drawnIf; split <;> simp
@[simp] theorem drawnIf_slots (s : State) (b : Bool) : (s.drawnIf b).slots = s.slots := by
  unfold State.drawnIf; split <;> simp
@[simp] theorem drawnIf_life (s : State) (b : Bool) : (s.drawnIf b).life = s.life := by
  unfold State.drawnIf; split <;> simp
@[simp] theorem drawnIf_handler (s : State) (b : Bool) : (s.drawnIf b).handler = s.handler := by
  unfold State.drawnIf; split <;> simp
@[simp] theorem drawnIf_savedHandler (s : State) (b : Bool) : (s.drawnIf b).savedHandler = s.savedHandler := by
  unfold State.drawnIf; split <;> simp
@[simp] theorem drawnIf_lineRefs (s : State) (b : Bool) : (s.drawnIf b).lineRefs = s.lineRefs := by
  unfold State.drawnIf; split <;> simp
@[simp] theorem drawnIf_masked (s : State) (b : Bool) : (s.drawnIf b).masked = s.masked := by
  unfold State.drawnIf; split <;> simp
@[simp] theorem drawnIf_inService (s : State) (b : Bool) : (s.drawnIf b).inService = s.inService := by
  unfold State.drawnIf; split <;> simp
@[simp] theorem drawnIf_latched (s : State) (b : Bool) : (s.drawnIf b).latched = s.latched := by
  unfold State.drawnIf; split <;> simp
@[simp] theorem drawnIf_savedInteg (s : State) (b : Bool) : (s.drawnIf b).savedInteg = s.savedInteg := by
  unfold State.drawnIf; split <;> simp
@[simp] theorem drawnIf_mseq (s : State) (b : Bool) : (s.drawnIf b).mseq = s.mseq := by
  unfold State.drawnIf; split <;> simp
@[simp] theorem drawnIf_dseq (s : State) (b : Bool) : (s.drawnIf b).dseq = s.dseq := by
  unfold State.drawnIf; split <;> simp
@[simp] theorem drawnIf_ctx (s : State) (b : Bool) : (s.drawnIf b).ctx = s.ctx := by
  unfold State.drawnIf; split <;> simp
@[simp] theorem drawnIf_dev (s : State) (b : Bool) : (s.drawnIf b).dev = s.dev := by
  unfold State.drawnIf; split <;> simp
@[simp] theorem drawnIf_wireTx (s : State) (b : Bool) : (s.drawnIf b).wireTx = s.wireTx := by
  unfold State.drawnIf; split <;> simp
@[simp] theorem drawnIf_wireRx (s : State) (b : Bool) : (s.drawnIf b).wireRx = s.wireRx := by
  unfold State.drawnIf; split <;> simp
@[simp] theorem drawnIf_hbuf (s : State) (b : Bool) : (s.drawnIf b).hbuf = s.hbuf := by
  unfold State.drawnIf; split <;> simp
@[simp] theorem drawnIf_cfg (s : State) (b : Bool) : (s.drawnIf b).cfg = s.cfg := by
  unfold State.drawnIf; split <;> simp
@[simp] theorem drawnIf_trace (s : State) (b : Bool) : (s.drawnIf b).trace = s.trace := by
  unfold State.drawnIf; split <;> simp
@[simp] theorem drawnIf_side (s : State) (b : Bool) : (s.drawnIf b).side = s.side := by
  unfold State.drawnIf; split <;> simp
@[simp] theorem drawnIf_ret (s : State) (b : Bool) : (s.drawnIf b).ret = s.ret := by
  unfold State.drawnIf; split <;> simp
@[simp] theorem drawnIf_moves (s : State) (b : Bool) : (s.drawnIf b).moves = s.moves := by
  unfold State.drawnIf; split <;> simp

@[simp] theorem takeInterrupt_a0 (s : State) (l : Line) : (s.takeInterrupt l).a0 = s.a0 := by
  cases h : s.cfg.trigger <;> simp [State.takeInterrupt, h]
@[simp] theorem takeInterrupt_a1 (s : State) (l : Line) : (s.takeInterrupt l).a1 = s.a1 := by
  cases h : s.cfg.trigger <;> simp [State.takeInterrupt, h]
@[simp] theorem takeInterrupt_a2 (s : State) (l : Line) : (s.takeInterrupt l).a2 = s.a2 := by
  cases h : s.cfg.trigger <;> simp [State.takeInterrupt, h]
@[simp] theorem takeInterrupt_a3 (s : State) (l : Line) : (s.takeInterrupt l).a3 = s.a3 := by
  cases h : s.cfg.trigger <;> simp [State.takeInterrupt, h]
@[simp] theorem takeInterrupt_r0 (s : State) (l : Line) : (s.takeInterrupt l).r0 = s.r0 := by
  cases h : s.cfg.trigger <;> simp [State.takeInterrupt, h]
@[simp] theorem takeInterrupt_lasterr (s : State) (l : Line) : (s.takeInterrupt l).lasterr = s.lasterr := by
  cases h : s.cfg.trigger <;> simp [State.takeInterrupt, h]
@[simp] theorem takeInterrupt_slots (s : State) (l : Line) : (s.takeInterrupt l).slots = s.slots := by
  cases h : s.cfg.trigger <;> simp [State.takeInterrupt, h]
@[simp] theorem takeInterrupt_life (s : State) (l : Line) : (s.takeInterrupt l).life = s.life := by
  cases h : s.cfg.trigger <;> simp [State.takeInterrupt, h]
@[simp] theorem takeInterrupt_handler (s : State) (l : Line) : (s.takeInterrupt l).handler = s.handler := by
  cases h : s.cfg.trigger <;> simp [State.takeInterrupt, h]
@[simp] theorem takeInterrupt_savedHandler (s : State) (l : Line) : (s.takeInterrupt l).savedHandler = s.savedHandler := by
  cases h : s.cfg.trigger <;> simp [State.takeInterrupt, h]
@[simp] theorem takeInterrupt_lineRefs (s : State) (l : Line) : (s.takeInterrupt l).lineRefs = s.lineRefs := by
  cases h : s.cfg.trigger <;> simp [State.takeInterrupt, h]
@[simp] theorem takeInterrupt_masked (s : State) (l : Line) : (s.takeInterrupt l).masked = s.masked := by
  cases h : s.cfg.trigger <;> simp [State.takeInterrupt, h]
@[simp] theorem takeInterrupt_inService (s : State) (l : Line) : (s.takeInterrupt l).inService = s.inService.set l true := by
  cases h : s.cfg.trigger <;> simp [State.takeInterrupt, h]
@[simp] theorem takeInterrupt_latched (s : State) (l : Line) : (s.takeInterrupt l).latched = (match s.cfg.trigger with | .edge => s.latched.set l false | .level => s.latched) := by
  cases h : s.cfg.trigger <;> simp [State.takeInterrupt, h]
@[simp] theorem takeInterrupt_savedInteg (s : State) (l : Line) : (s.takeInterrupt l).savedInteg = s.savedInteg := by
  cases h : s.cfg.trigger <;> simp [State.takeInterrupt, h]
@[simp] theorem takeInterrupt_mseq (s : State) (l : Line) : (s.takeInterrupt l).mseq = s.mseq := by
  cases h : s.cfg.trigger <;> simp [State.takeInterrupt, h]
@[simp] theorem takeInterrupt_dseq (s : State) (l : Line) : (s.takeInterrupt l).dseq = s.dseq.set l (.run 1 0 .none [] 0#16) := by
  cases h : s.cfg.trigger <;> simp [State.takeInterrupt, h]
@[simp] theorem takeInterrupt_ctx (s : State) (l : Line) : (s.takeInterrupt l).ctx = l :: s.ctx := by
  cases h : s.cfg.trigger <;> simp [State.takeInterrupt, h]
@[simp] theorem takeInterrupt_dev (s : State) (l : Line) : (s.takeInterrupt l).dev = s.dev := by
  cases h : s.cfg.trigger <;> simp [State.takeInterrupt, h]
@[simp] theorem takeInterrupt_wireTx (s : State) (l : Line) : (s.takeInterrupt l).wireTx = s.wireTx := by
  cases h : s.cfg.trigger <;> simp [State.takeInterrupt, h]
@[simp] theorem takeInterrupt_wireRx (s : State) (l : Line) : (s.takeInterrupt l).wireRx = s.wireRx := by
  cases h : s.cfg.trigger <;> simp [State.takeInterrupt, h]
@[simp] theorem takeInterrupt_hbuf (s : State) (l : Line) : (s.takeInterrupt l).hbuf = s.hbuf := by
  cases h : s.cfg.trigger <;> simp [State.takeInterrupt, h]
@[simp] theorem takeInterrupt_cfg (s : State) (l : Line) : (s.takeInterrupt l).cfg = s.cfg := by
  cases h : s.cfg.trigger <;> simp [State.takeInterrupt, h]
@[simp] theorem takeInterrupt_trace (s : State) (l : Line) : (s.takeInterrupt l).trace = s.trace := by
  cases h : s.cfg.trigger <;> simp [State.takeInterrupt, h]
@[simp] theorem takeInterrupt_side (s : State) (l : Line) : (s.takeInterrupt l).side = s.side := by
  cases h : s.cfg.trigger <;> simp [State.takeInterrupt, h]
@[simp] theorem takeInterrupt_ret (s : State) (l : Line) : (s.takeInterrupt l).ret = s.ret := by
  cases h : s.cfg.trigger <;> simp [State.takeInterrupt, h]
@[simp] theorem takeInterrupt_moves (s : State) (l : Line) : (s.takeInterrupt l).moves = s.moves := by
  cases h : s.cfg.trigger <;> simp [State.takeInterrupt, h]
@[simp] theorem takeInterrupt_draws (s : State) (l : Line) : (s.takeInterrupt l).draws = s.draws := by
  cases h : s.cfg.trigger <;> simp [State.takeInterrupt, h]
@[simp] theorem takeInterrupt_drawn (s : State) (l : Line) : (s.takeInterrupt l).drawn = s.drawn := by
  cases h : s.cfg.trigger <;> simp [State.takeInterrupt, h]

@[simp] theorem hookLine_a0 (s : State) (l : Line) : (s.hookLine l).a0 = s.a0 := by
  simp only [State.hookLine]; split <;> rfl
@[simp] theorem hookLine_a1 (s : State) (l : Line) : (s.hookLine l).a1 = s.a1 := by
  simp only [State.hookLine]; split <;> rfl
@[simp] theorem hookLine_a2 (s : State) (l : Line) : (s.hookLine l).a2 = s.a2 := by
  simp only [State.hookLine]; split <;> rfl
@[simp] theorem hookLine_a3 (s : State) (l : Line) : (s.hookLine l).a3 = s.a3 := by
  simp only [State.hookLine]; split <;> rfl
@[simp] theorem hookLine_r0 (s : State) (l : Line) : (s.hookLine l).r0 = s.r0 := by
  simp only [State.hookLine]; split <;> rfl
@[simp] theorem hookLine_lasterr (s : State) (l : Line) : (s.hookLine l).lasterr = s.lasterr := by
  simp only [State.hookLine]; split <;> rfl
@[simp] theorem hookLine_slots (s : State) (l : Line) : (s.hookLine l).slots = s.slots := by
  simp only [State.hookLine]; split <;> rfl
@[simp] theorem hookLine_life (s : State) (l : Line) : (s.hookLine l).life = s.life := by
  simp only [State.hookLine]; split <;> rfl
@[simp] theorem hookLine_lineRefs (s : State) (l : Line) : (s.hookLine l).lineRefs = s.lineRefs.set l (s.lineRefs.get l + 1) := by
  simp only [State.hookLine]; split <;> simp [*]
@[simp] theorem hookLine_masked (s : State) (l : Line) : (s.hookLine l).masked = s.masked := by
  simp only [State.hookLine]; split <;> rfl
@[simp] theorem hookLine_inService (s : State) (l : Line) : (s.hookLine l).inService = s.inService := by
  simp only [State.hookLine]; split <;> rfl
@[simp] theorem hookLine_latched (s : State) (l : Line) : (s.hookLine l).latched = s.latched := by
  simp only [State.hookLine]; split <;> rfl
@[simp] theorem hookLine_savedInteg (s : State) (l : Line) : (s.hookLine l).savedInteg = s.savedInteg := by
  simp only [State.hookLine]; split <;> rfl
@[simp] theorem hookLine_mseq (s : State) (l : Line) : (s.hookLine l).mseq = s.mseq := by
  simp only [State.hookLine]; split <;> rfl
@[simp] theorem hookLine_dseq (s : State) (l : Line) : (s.hookLine l).dseq = s.dseq := by
  simp only [State.hookLine]; split <;> rfl
@[simp] theorem hookLine_ctx (s : State) (l : Line) : (s.hookLine l).ctx = s.ctx := by
  simp only [State.hookLine]; split <;> rfl
@[simp] theorem hookLine_dev (s : State) (l : Line) : (s.hookLine l).dev = s.dev := by
  simp only [State.hookLine]; split <;> rfl
@[simp] theorem hookLine_wireTx (s : State) (l : Line) : (s.hookLine l).wireTx = s.wireTx := by
  simp only [State.hookLine]; split <;> rfl
@[simp] theorem hookLine_wireRx (s : State) (l : Line) : (s.hookLine l).wireRx = s.wireRx := by
  simp only [State.hookLine]; split <;> rfl
@[simp] theorem hookLine_hbuf (s : State) (l : Line) : (s.hookLine l).hbuf = s.hbuf := by
  simp only [State.hookLine]; split <;> rfl
@[simp] theorem hookLine_cfg (s : State) (l : Line) : (s.hookLine l).cfg = s.cfg := by
  simp only [State.hookLine]; split <;> rfl
@[simp] theorem hookLine_side (s : State) (l : Line) : (s.hookLine l).side = s.side := by
  simp only [State.hookLine]; split <;> rfl
@[simp] theorem hookLine_ret (s : State) (l : Line) : (s.hookLine l).ret = s.ret := by
  simp only [State.hookLine]; split <;> rfl
@[simp] theorem hookLine_moves (s : State) (l : Line) : (s.hookLine l).moves = s.moves := by
  simp only [State.hookLine]; split <;> rfl
@[simp] theorem hookLine_draws (s : State) (l : Line) : (s.hookLine l).draws = s.draws := by
  simp only [State.hookLine]; split <;> rfl
@[simp] theorem hookLine_drawn (s : State) (l : Line) : (s.hookLine l).drawn = s.drawn := by
  simp only [State.hookLine]; split <;> rfl

@[simp] theorem unhookLine_a0 (s : State) (l : Line) : (s.unhookLine l).a0 = s.a0 := by
  simp only [State.unhookLine]; split <;> rfl
@[simp] theorem unhookLine_a1 (s : State) (l : Line) : (s.unhookLine l).a1 = s.a1 := by
  simp only [State.unhookLine]; split <;> rfl
@[simp] theorem unhookLine_a2 (s : State) (l : Line) : (s.unhookLine l).a2 = s.a2 := by
  simp only [State.unhookLine]; split <;> rfl
@[simp] theorem unhookLine_a3 (s : State) (l : Line) : (s.unhookLine l).a3 = s.a3 := by
  simp only [State.unhookLine]; split <;> rfl
@[simp] theorem unhookLine_r0 (s : State) (l : Line) : (s.unhookLine l).r0 = s.r0 := by
  simp only [State.unhookLine]; split <;> rfl
@[simp] theorem unhookLine_lasterr (s : State) (l : Line) : (s.unhookLine l).lasterr = s.lasterr := by
  simp only [State.unhookLine]; split <;> rfl
@[simp] theorem unhookLine_slots (s : State) (l : Line) : (s.unhookLine l).slots = s.slots := by
  simp only [State.unhookLine]; split <;> rfl
@[simp] theorem unhookLine_life (s : State) (l : Line) : (s.unhookLine l).life = s.life := by
  simp only [State.unhookLine]; split <;> rfl
@[simp] theorem unhookLine_savedHandler (s : State) (l : Line) : (s.unhookLine l).savedHandler = s.savedHandler := by
  simp only [State.unhookLine]; split <;> rfl
@[simp] theorem unhookLine_lineRefs (s : State) (l : Line) : (s.unhookLine l).lineRefs = s.lineRefs.set l (s.lineRefs.get l - 1) := by
  simp only [State.unhookLine]; split <;> simp
@[simp] theorem unhookLine_masked (s : State) (l : Line) : (s.unhookLine l).masked = s.masked := by
  simp only [State.unhookLine]; split <;> rfl
@[simp] theorem unhookLine_inService (s : State) (l : Line) : (s.unhookLine l).inService = s.inService := by
  simp only [State.unhookLine]; split <;> rfl
@[simp] theorem unhookLine_latched (s : State) (l : Line) : (s.unhookLine l).latched = s.latched := by
  simp only [State.unhookLine]; split <;> rfl
@[simp] theorem unhookLine_savedInteg (s : State) (l : Line) : (s.unhookLine l).savedInteg = s.savedInteg := by
  simp only [State.unhookLine]; split <;> rfl
@[simp] theorem unhookLine_mseq (s : State) (l : Line) : (s.unhookLine l).mseq = s.mseq := by
  simp only [State.unhookLine]; split <;> rfl
@[simp] theorem unhookLine_dseq (s : State) (l : Line) : (s.unhookLine l).dseq = s.dseq := by
  simp only [State.unhookLine]; split <;> rfl
@[simp] theorem unhookLine_ctx (s : State) (l : Line) : (s.unhookLine l).ctx = s.ctx := by
  simp only [State.unhookLine]; split <;> rfl
@[simp] theorem unhookLine_dev (s : State) (l : Line) : (s.unhookLine l).dev = s.dev := by
  simp only [State.unhookLine]; split <;> rfl
@[simp] theorem unhookLine_wireTx (s : State) (l : Line) : (s.unhookLine l).wireTx = s.wireTx := by
  simp only [State.unhookLine]; split <;> rfl
@[simp] theorem unhookLine_wireRx (s : State) (l : Line) : (s.unhookLine l).wireRx = s.wireRx := by
  simp only [State.unhookLine]; split <;> rfl
@[simp] theorem unhookLine_hbuf (s : State) (l : Line) : (s.unhookLine l).hbuf = s.hbuf := by
  simp only [State.unhookLine]; split <;> rfl
@[simp] theorem unhookLine_cfg (s : State) (l : Line) : (s.unhookLine l).cfg = s.cfg := by
  simp only [State.unhookLine]; split <;> rfl
@[simp] theorem unhookLine_side (s : State) (l : Line) : (s.unhookLine l).side = s.side := by
  simp only [State.unhookLine]; split <;> rfl
@[simp] theorem unhookLine_ret (s : State) (l : Line) : (s.unhookLine l).ret = s.ret := by
  simp only [State.unhookLine]; split <;> rfl
@[simp] theorem unhookLine_moves (s : State) (l : Line) : (s.unhookLine l).moves = s.moves := by
  simp only [State.unhookLine]; split <;> rfl
@[simp] theorem unhookLine_draws (s : State) (l : Line) : (s.unhookLine l).draws = s.draws := by
  simp only [State.unhookLine]; split <;> rfl
@[simp] theorem unhookLine_drawn (s : State) (l : Line) : (s.unhookLine l).drawn = s.drawn := by
  simp only [State.unhookLine]; split <;> rfl

end Machine

end Sys2Proof
end

