-- ==== Sys2Proof/Laws/Results.lean ====
section
/-! SUPPORT. What the results of operations can be: one operation after another, an operation as a step, and
the slot or line an identifier names. -/

namespace Sys2Proof.Machine

open Sys2Proof

@[simp] theorem andThen_ok {α β : Type} (a : α) (s : State) (f : α → State → Res β) :
    (Res.ok a s).andThen f = f a s := rfl

@[simp] theorem andThen_fault {α β : Type} (e : Fault) (f : α → State → Res β) :
    (Res.fault e).andThen f = .fault e := rfl

@[simp] theorem andThen_refuse {α β : Type} (e : Refusal) (f : α → State → Res β) :
    (Res.refuse e).andThen f = .refuse e := rfl

theorem ok_eq_ok {α : Type} {a b : α} {s t : State} : (Res.ok a s = .ok b t) ↔ b = a ∧ t = s := by
  rw [Res.ok.injEq]; exact and_congr eq_comm eq_comm

/-- Two operations in a row end well exactly when both do. -/
theorem andThen_eq_ok {α β : Type} {r : Res α} {f : α → State → Res β} {b : β} {u : State} :
    r.andThen f = .ok b u ↔ ∃ a t, r = .ok a t ∧ f a t = .ok b u := by
  cases r <;> simp [Res.andThen]

theorem andThen_assoc {α β γ : Type} (r : Res α) (f : α → State → Res β) (g : β → State → Res γ) :
    (r.andThen f).andThen g = r.andThen fun a s => (f a s).andThen g := by
  cases r <;> rfl

@[simp] theorem outcome_ok (a : Unit) (s : State) : (Res.ok a s).outcome = .next s := rfl
@[simp] theorem outcome_refuse (e : Refusal) : (Res.refuse e).outcome = .refused e := rfl
@[simp] theorem outcome_fault (e : Fault) : (Res.fault e).outcome = .fault e := rfl

@[simp] theorem returning_ok {α : Type} (a : α) (s : State) (f : α → Ret) :
    (Res.ok a s).returning f = .next { s with ret := f a } := rfl
@[simp] theorem returning_refuse {α : Type} (e : Refusal) (f : α → Ret) :
    (Res.refuse e).returning f = .refused e := rfl
@[simp] theorem returning_fault {α : Type} (e : Fault) (f : α → Ret) :
    (Res.fault e).returning f = .fault e := rfl

/-- A step has a next state exactly when its operation ends well. -/
theorem outcome_eq_next {r : Res Unit} {t : State} : r.outcome = .next t ↔ r = .ok () t := by
  cases r <;> simp [Res.outcome]

/-- A micro-operation has a next state exactly when it ends well; `ret` then holds what it answers. -/
theorem returning_eq_next {α : Type} {r : Res α} {f : α → Ret} {t : State} :
    r.returning f = .next t ↔ ∃ a u, r = .ok a u ∧ t = { u with ret := f a } := by
  cases r <;> simp [Res.returning, eq_comm]

@[simp] theorem slotOfSel_sel (q : Slot) : slotOfSel q.sel = some q := by cases q <;> rfl

@[simp] theorem lineOfSel_sel (l : Line) : lineOfSel l.sel = some l := by cases l <;> rfl

/-- A port identifier names a slot exactly when it is below 4. -/
theorem slotOfSel_eq_none {p : BitVec 4} : slotOfSel p = none ↔ 4 ≤ p.toNat := by
  revert p; decide

theorem slotOfSel_eq_some {p : BitVec 4} {q : Slot} : slotOfSel p = some q ↔ p = q.sel := by
  revert p q; intro p q; cases q <;> revert p <;> decide

/-- A line identifier names a line exactly when it is below 3. -/
theorem lineOfSel_eq_none {l : BitVec 4} : lineOfSel l = none ↔ 3 ≤ l.toNat := by
  revert l; decide

@[simp] theorem onSlot_sel {α : Type} (q : Slot) (f : Slot → Res α) : onSlot q.sel f = f q := by
  simp [onSlot]

@[simp] theorem onLine_sel {α : Type} (l : Line) (f : Line → Res α) : onLine l.sel f = f l := by
  simp [onLine]

theorem onSlot_missing {α : Type} {p : BitVec 4} (h : 4 ≤ p.toNat) (f : Slot → Res α) :
    onSlot p f = .refuse .noSuchSlot := by simp [onSlot, slotOfSel_eq_none.2 h]

/-- An operation on a slot ends well only on one of the four slots. -/
theorem onSlot_eq_ok {α : Type} {p : BitVec 4} {f : Slot → Res α} {a : α} {t : State} :
    onSlot p f = .ok a t ↔ ∃ q, slotOfSel p = some q ∧ f q = .ok a t := by
  unfold onSlot; cases slotOfSel p <;> simp

/-- An operation on a line ends well only on one of the three lines. -/
theorem onLine_eq_ok {α : Type} {l : BitVec 4} {f : Line → Res α} {a : α} {t : State} :
    onLine l f = .ok a t ↔ ∃ m, lineOfSel l = some m ∧ f m = .ok a t := by
  unfold onLine; cases lineOfSel l <;> simp

/-- An operation on the port of a slot ends well only on a slot that is present. -/
theorem withPort_eq_ok {α : Type} {q : Slot} {s : State} {f : PortState → Res α} {a : α} {t : State} :
    withPort q s f = .ok a t ↔ ∃ ps, s.slots.get q = some ps ∧ f ps = .ok a t := by
  unfold withPort; cases s.slots.get q <;> simp

/-- A ring mutator ends well only on a slot that is present and under its issuing condition. -/
theorem mutateRing_eq_ok {α : Type} {q : Slot} {s : State} {f : PortState → Res α} {a : α} {t : State} :
    mutateRing q s f = .ok a t ↔
      ∃ ps, s.slots.get q = some ps ∧ s.ringOwned q = true ∧ f ps = .ok a t := by
  unfold mutateRing; rw [withPort_eq_ok]
  refine exists_congr fun ps => and_congr_right fun _ => ?_
  cases s.ringOwned q <;> simp

end Sys2Proof.Machine
end

