-- ==== Sys2Proof/Laws/Memory.lean ====
section
/-! SUPPORT. Byte memories: a read after a write, and the canonical form, which every operation keeps and the
reset memory has. -/

namespace Sys2Proof.Machine

open Sys2Proof

/-- A read after a write gives the byte written there and the old byte elsewhere. -/
theorem cellsRead_write (m : List Host.Cell) (a : Nat) (b : Byte) (i : Nat) :
    cellsRead (cellsWrite m a b) i = if i = a then some b else cellsRead m i := by
  induction m with
  | nil => simp [cellsWrite, cellsRead]
  | cons c m ih =>
    obtain ⟨k, v⟩ := c
    simp only [cellsWrite]
    split
    · simp [cellsRead]
    · split
      · rename_i h; subst h
        by_cases hi : i = a <;> simp [cellsRead, hi]
      · rename_i h1 h2
        by_cases hk : i = k
        · simp [cellsRead, hk]; omega
        · simp [cellsRead, hk, ih]

/-- A read after writing several bytes gives the bytes written and the old bytes elsewhere. -/
theorem cellsRead_writeList (m : List Host.Cell) (a : Nat) (bs : List Byte) (i : Nat) :
    cellsRead (cellsWriteList m a bs) i =
      if a ≤ i ∧ i < a + bs.length then bs[i - a]? else cellsRead m i := by
  induction bs generalizing m a with
  | nil => simp [cellsWriteList]
  | cons b bs ih =>
    rw [cellsWriteList, ih, cellsRead_write]
    by_cases h1 : i = a
    · subst h1; simp
    · by_cases h2 : a + 1 ≤ i ∧ i < a + 1 + bs.length
      · rw [if_pos h2, if_pos (by simp; omega)]
        obtain ⟨d, rfl⟩ : ∃ d, i = a + 1 + d := ⟨i - (a + 1), by omega⟩
        rw [show a + 1 + d - (a + 1) = d by omega, show a + 1 + d - a = d + 1 by omega]
        simp
      · rw [if_neg h2, if_neg h1, if_neg (by simp; omega)]

/-- Reading several bytes answers exactly when each has been written. -/
theorem cellsReadList_eq_some {m : List Host.Cell} {a n : Nat} {bs : List Byte} :
    cellsReadList m a n = some bs ↔ bs.length = n ∧ ∀ j < n, cellsRead m (a + j) = bs[j]? := by
  induction n generalizing a bs with
  | zero =>
    simp only [cellsReadList, Option.some.injEq]
    constructor
    · rintro rfl; simp
    · rintro ⟨h, -⟩; exact (List.length_eq_zero_iff.1 h).symm
  | succ n ih =>
    have key : cellsReadList m a (n + 1) = some bs ↔
        ∃ b cs, cellsRead m a = some b ∧ cellsReadList m (a + 1) n = some cs ∧ bs = b :: cs := by
      simp only [cellsReadList]
      split
      · rename_i b cs h1 h2
        constructor
        · intro h; exact ⟨b, cs, h1, h2, by simpa using h.symm⟩
        · rintro ⟨b', cs', h1', h2', rfl⟩; simp_all
      · rename_i h
        constructor
        · intro h'; cases h'
        · rintro ⟨b', cs', h1', h2', rfl⟩; exact absurd h2' (h _ _ h1')
    rw [key]
    constructor
    · rintro ⟨b, cs, h1, h2, rfl⟩
      obtain ⟨hl, hr⟩ := ih.1 h2
      refine ⟨by simp [hl], fun j hj => ?_⟩
      cases j with
      | zero => simpa using h1
      | succ j => rw [show a + (j + 1) = a + 1 + j by omega, hr j (by omega)]; simp
    · rintro ⟨hl, hr⟩
      cases bs with
      | nil => simp at hl
      | cons b cs =>
        refine ⟨b, cs, by simpa using hr 0 (by omega), ih.2 ⟨by simpa using hl, fun j hj => ?_⟩, rfl⟩
        have := hr (j + 1) (by omega)
        rw [show a + 1 + j = a + (j + 1) by omega, this]; simp

theorem cellsWf_mono {lo lo' hi : Nat} {m : List Host.Cell} (h : lo' ≤ lo) (w : cellsWf lo hi m = true) :
    cellsWf lo' hi m = true := by
  cases m with
  | nil => rfl
  | cons c m =>
    obtain ⟨k, v⟩ := c
    simp only [cellsWf, Bool.and_eq_true, decide_eq_true_eq] at w ⊢
    exact ⟨⟨by omega, w.1.2⟩, w.2⟩

/-- A write keeps the canonical form. -/
theorem cellsWf_write {lo hi : Nat} {m : List Host.Cell} {a : Nat} (b : Byte) (w : cellsWf lo hi m = true)
    (h1 : lo ≤ a) (h2 : a < hi) : cellsWf lo hi (cellsWrite m a b) = true := by
  induction m generalizing lo with
  | nil => simp [cellsWrite, cellsWf, h1, h2]
  | cons c m ih =>
    obtain ⟨k, v⟩ := c
    simp only [cellsWf, Bool.and_eq_true, decide_eq_true_eq] at w
    simp only [cellsWrite]
    split
    · simp only [cellsWf, Bool.and_eq_true, decide_eq_true_eq]
      exact ⟨⟨h1, h2⟩, ⟨by omega, w.1.2⟩, w.2⟩
    · split
      · rename_i h; subst h; simp [cellsWf, h1, h2, w.2]
      · simp only [cellsWf, Bool.and_eq_true, decide_eq_true_eq]
        exact ⟨w.1, ih w.2 (by omega)⟩

/-- Writing several bytes keeps the canonical form. -/
theorem cellsWf_writeList {lo hi : Nat} {m : List Host.Cell} {a : Nat} {bs : List Byte}
    (w : cellsWf lo hi m = true) (h1 : lo ≤ a) (h2 : bs = [] ∨ a + bs.length ≤ hi) :
    cellsWf lo hi (cellsWriteList m a bs) = true := by
  induction bs generalizing m a with
  | nil => exact w
  | cons b bs ih =>
    have h3 : a + (bs.length + 1) ≤ hi := by simpa using h2
    exact ih (cellsWf_write b w h1 (by omega)) (by omega) (by
      rcases bs with _ | ⟨c, cs⟩
      · exact .inl rfl
      · right; simp at h3 ⊢; omega)

theorem cellsRead_below {lo hi : Nat} {m : List Host.Cell} (w : cellsWf lo hi m = true) {i : Nat}
    (h : i < lo) : cellsRead m i = none := by
  induction m generalizing lo with
  | nil => rfl
  | cons c m ih =>
    obtain ⟨k, v⟩ := c
    simp only [cellsWf, Bool.and_eq_true, decide_eq_true_eq] at w
    rw [cellsRead, if_neg (by omega), ih w.2 (by omega)]

/-- In canonical form, memories that read alike are equal data. -/
theorem cells_ext {lo hi : Nat} {m m' : List Host.Cell} (w : cellsWf lo hi m = true)
    (w' : cellsWf lo hi m' = true) (h : ∀ i, cellsRead m i = cellsRead m' i) : m = m' := by
  induction m generalizing lo m' with
  | nil =>
    cases m' with
    | nil => rfl
    | cons c m' => obtain ⟨k, v⟩ := c; have := h k; simp [cellsRead] at this
  | cons c m ih =>
    obtain ⟨k, v⟩ := c
    cases m' with
    | nil => have := h k; simp [cellsRead] at this
    | cons c' m' =>
      obtain ⟨k', v'⟩ := c'
      simp only [cellsWf, Bool.and_eq_true, decide_eq_true_eq] at w w'
      have hk : k = k' := by
        rcases Nat.lt_trichotomy k k' with hlt | heq | hgt
        · have := h k
          simp [cellsRead, Nat.ne_of_lt hlt, cellsRead_below w'.2 (by omega : k < k' + 1)] at this
        · exact heq
        · have := h k'
          simp [cellsRead, Nat.ne_of_lt hgt, cellsRead_below w.2 (by omega : k' < k + 1)] at this
      subst hk
      have hv : v = v' := by have := h k; simpa [cellsRead] using this
      subst hv
      congr 1
      refine ih w.2 w'.2 fun i => ?_
      by_cases hi : i = k
      · subst hi
        rw [cellsRead_below w.2 (by omega), cellsRead_below w'.2 (by omega)]
      · have := h i; simpa [cellsRead, hi] using this

/-- The memory after reset has the canonical form. -/
theorem resetWith_hbuf_wf (cfg : Config) : cellsWf 0 cfg.hbufSize (State.resetWith cfg).hbuf = true := rfl

/-- HOST's write of a byte keeps the canonical form. -/
theorem hostPoke_hbuf_wf {a : Word} {b : Byte} {s t : State} (h : hostPoke a b s = .next t)
    (w : cellsWf 0 s.cfg.hbufSize s.hbuf = true) : cellsWf 0 t.cfg.hbufSize t.hbuf = true := by
  unfold hostPoke at h
  split at h
  · cases h
  · split at h
    · cases h
    · simp only [Host.Outcome.next.injEq] at h; subst h
      exact cellsWf_write b w (Nat.zero_le _) (Nat.lt_of_not_le ‹_›)

end Sys2Proof.Machine
end

