-- ==== Sys2Proof/Laws/Device.lean ====
section
/-! SUPPORT. Routing of `IO` addresses under a configuration that meets its constraints, and what each register
primitive can do. -/

namespace Sys2Proof.Machine

open Sys2Proof

/-- What the constraints on the parameters say, one part each (spec/93_implementation_defined.md 1.5). -/
theorem Config.wf_parts {cfg : Config} (h : cfg.wf = true) :
    cfg.ioDisjoint = true ∧ cfg.masksOk = true ∧ cfg.linesOk = true ∧ cfg.stdMap.wf = true
    ∧ cfg.limitsOk = true ∧ cfg.tablesOk = true ∧ cfg.codesOk = true := by
  simpa only [Config.wf, Bool.and_eq_true, and_assoc] using h

/-- What the constraints on the address map say (spec/20_memory.md R61, R68). -/
theorem Config.wf_io {cfg : Config} (h : cfg.wf = true) :
    cfg.ioPoints.Nodup
    ∧ blocksApart cfg.stdBase.p0 cfg.stdBase.p1 = true
    ∧ blocksApart cfg.stdBase.p0 cfg.stdBase.p3 = true
    ∧ blocksApart cfg.stdBase.p1 cfg.stdBase.p3 = true
    ∧ (∀ c, (cfg.stdBase.get c).toNat + 8 ≤ 65536)
    ∧ ∀ a ∈ cfg.ioPoints, ∀ c, inBlock (cfg.stdBase.get c) a = false := by
  have h := (Config.wf_parts h).1
  simp only [Config.ioDisjoint, Bool.and_eq_true, decide_eq_true_eq, List.all_eq_true,
    Bool.not_eq_true'] at h
  obtain ⟨⟨⟨⟨⟨⟨h1, h2⟩, h3⟩, h4⟩, h5⟩, -⟩, h6⟩ := h
  refine ⟨h1, h2, h3, h4, fun c => ?_, fun a ha c => ?_⟩
  · cases c <;> exact (h5 _ (by simp [PerStd.get])).1
  · cases c <;> exact h6 a ha _ (by simp [PerStd.get])

/-- What the bounds of the numeric parameters say (log entry 35). -/
theorem Config.wf_limits {cfg : Config} (h : cfg.wf = true) :
    1 ≤ cfg.capMin ∧ cfg.capMax ≤ 65535 ∧ cfg.rxdropMax ≤ 4294967295 ∧ 1 ≤ cfg.txBurst.std.toNat
    ∧ 1 ≤ cfg.txBurst.integ.toNat ∧ 1 ≤ cfg.rxDrainCap.std ∧ 1 ≤ cfg.rxDrainCap.integ := by
  simpa only [Config.limitsOk, Bool.and_eq_true, decide_eq_true_eq, and_assoc] using
    (Config.wf_parts h).2.2.2.2.1

/-- What the constraints on the tables over slots and lines say (spec/92_eei_decisions.md D2, D3;
spec/43_hal_variant_mux.md R163). -/
theorem Config.wf_tables {cfg : Config} (h : cfg.wf = true) :
    (∀ q, cfg.variantOf.get q = q.kind.variant) ∧ cfg.nlines = 3 ∧ ∀ l, (cfg.portsOf l).Nodup
      ∧ (∀ q, q ∈ cfg.portsOf l ↔ cfg.lineOf.get q = l)
      ∧ (cfg.ackExplicit l = true ↔ Slot.p2 ∈ cfg.portsOf l) := by
  have h := (Config.wf_parts h).2.2.2.2.2.1
  simp only [Config.tablesOk, Bool.and_eq_true, decide_eq_true_eq, List.all_eq_true] at h
  obtain ⟨⟨hv, hn⟩, hl⟩ := h
  refine ⟨fun q => hv q (by cases q <;> simp [Slot.all]), hn, fun l => ?_⟩
  obtain ⟨⟨h1, h2⟩, h3⟩ := hl l (by cases l <;> simp [Line.all])
  refine ⟨h1, fun q => ?_, ?_⟩
  · have := h2 q (by cases q <;> simp [Slot.all])
    rw [← List.contains_iff_mem, this, decide_eq_true_eq]
  · rw [h3, List.contains_iff_mem]

/-- What the constraint on the error codes says (spec/60_exceptions.md R300). -/
theorem Config.wf_codes {cfg : Config} (h : cfg.wf = true) (e : ErrKind) :
    1 ≤ (cfg.errCode.get e).toNat ∧ (cfg.errCode.get e).toNat ≤ 8 := by
  have h := (Config.wf_parts h).2.2.2.2.2.2
  simp only [Config.codesOk, Bool.and_eq_true, decide_eq_true_eq, List.all_eq_true] at h
  exact h.1.2 _ (by cases e <;> simp [ErrCodes.get])

/-! ### The STD register map -/

/-- The offsets of a map that is one differ (spec/43_hal_variant_mux.md R153). -/
theorem StdMap.regAt_off {m : StdMap} (h : m.wf = true) (r : SReg) : m.regAt (m.off r) = r := by
  simp only [StdMap.wf, Bool.and_eq_true, decide_eq_true_eq] at h
  have hd : [m.offData, m.offIer, m.offIir, m.offLcr, m.offMcr, m.offLsr, m.offMsr, m.offScr].Nodup := by
    tauto
  simp only [List.nodup_cons, List.mem_cons, not_or] at hd
  obtain ⟨⟨a1, a2, a3, a4, a5, a6, a7, -⟩, ⟨b2, b3, b4, b5, b6, b7, -⟩, ⟨c3, c4, c5, c6, c7, -⟩,
    ⟨d4, d5, d6, d7, -⟩, ⟨e5, e6, e7, -⟩, ⟨f6, f7, -⟩, ⟨g7, -⟩, -⟩ := hd
  cases r <;> simp [StdMap.off, StdMap.regAt, Ne.symm a1, Ne.symm a2, Ne.symm a3, Ne.symm a4, Ne.symm a5,
    Ne.symm a6, Ne.symm a7, Ne.symm b2, Ne.symm b3, Ne.symm b4, Ne.symm b5, Ne.symm b6, Ne.symm b7,
    Ne.symm c3, Ne.symm c4, Ne.symm c5, Ne.symm c6, Ne.symm c7, Ne.symm d4, Ne.symm d5, Ne.symm d6,
    Ne.symm d7, Ne.symm e5, Ne.symm e6, Ne.symm e7, Ne.symm f6, Ne.symm f7, Ne.symm g7]

/-- What the constraints on the IIR say (spec/43_hal_variant_mux.md R161): a value that shows a cause names it,
whatever the FIFO bits. -/
theorem StdMap.causeOf_bits {m : StdMap} (h : m.wf = true) (c : Cause) {f : Byte}
    (hf : f = m.iirFifo ∨ f = 0#8) : stdCauseOf m (f ||| m.iirBits c) = some c := by
  simp only [StdMap.wf, Bool.and_eq_true, decide_eq_true_eq] at h
  have hd : m.iirIds.Nodup := by tauto
  have hi : m.iirIds.all (fun c => c &&& ~~~m.iirId = 0#8) = true := by tauto
  have hn : (!hasBit m.iirId m.iirNone) = true := by tauto
  have hx : (!hasBit m.iirFifo (m.iirId ||| m.iirNone)) = true := by tauto
  have hb : oneBit m.iirNone = true := by
    have : [m.ierRx, m.ierTx, m.ierLs, m.ierMs, m.iirNone, m.fcrEn, m.fcrRx, m.fcrTx, m.lcrStop,
      m.lcrParity, m.lcrEven, m.lcrStick, m.lcrBreak, m.lcrDlab, m.lsrDr, m.lsrThre, m.lsrTemt].all oneBit = true := by
      tauto
    exact List.all_eq_true.1 this _ (by simp)
  clear h
  simp only [StdMap.iirIds, List.nodup_cons, List.mem_cons, List.all_cons, List.all_nil, Bool.and_eq_true,
    decide_eq_true_eq, not_or] at hd hi
  simp only [hasBit, Bool.not_eq_true', decide_eq_false_iff_not, not_not, oneBit, Bool.and_eq_true,
    decide_eq_true_eq] at hn hx hb
  obtain ⟨i1, i2, i3, i4, i5, -⟩ := hi
  -- the FIFO bits lie outside both tests
  have hfn : f &&& m.iirNone = 0#8 := by
    rcases hf with rfl | rfl
    · ext i hi
      have := congrArg (fun x => x.getLsbD i) hx
      simp at this ⊢; tauto
    · simp
  have hfi : f &&& m.iirId = 0#8 := by
    rcases hf with rfl | rfl
    · ext i hi
      have := congrArg (fun x => x.getLsbD i) hx
      simp at this ⊢; tauto
    · simp
  have key (x : Byte) (hxi : x &&& ~~~m.iirId = 0#8) :
      (f ||| x) &&& m.iirNone = 0#8 ∧ (f ||| x) &&& m.iirId = x := by
    constructor
    · ext i hi
      have h1 := congrArg (fun x => x.getLsbD i) hxi
      have h2 := congrArg (fun x => x.getLsbD i) hn
      have h3 := congrArg (fun x => x.getLsbD i) hfn
      simp at h1 h2 h3 ⊢; tauto
    · ext i hi
      have h1 := congrArg (fun x => x.getLsbD i) hxi
      have h3 := congrArg (fun x => x.getLsbD i) hfi
      simp at h1 h3 ⊢
      cases h : x[i] <;> cases h' : m.iirId[i] <;> simp_all
  obtain ⟨⟨d1, d2, d3, d4, -⟩, ⟨e2, e3, e4, -⟩, ⟨f3, f4, -⟩, ⟨g4, -⟩, -⟩ := hd
  cases c
  case none =>
    have : (f ||| m.iirNone) &&& m.iirNone ≠ 0#8 := by
      intro h0
      apply hb.1
      ext i hi
      have := congrArg (fun x => x.getLsbD i) h0
      simp only [BitVec.getLsbD_eq_getElem hi, BitVec.getElem_and, BitVec.getElem_or] at this ⊢
      cases hx : m.iirNone[i] <;> simp_all
    simp [stdCauseOf, StdMap.iirBits, hasBit, this]
  case modemStatus =>
    obtain ⟨k1, k2⟩ := key _ i1
    simp [stdCauseOf, StdMap.iirBits, hasBit, k1, k2]
  case lineStatus =>
    obtain ⟨k1, k2⟩ := key _ i4
    simp [stdCauseOf, StdMap.iirBits, hasBit, k1, k2, Ne.symm d3, Ne.symm e3, Ne.symm f3]
  case txEmpty =>
    obtain ⟨k1, k2⟩ := key _ i2
    simp [stdCauseOf, StdMap.iirBits, hasBit, k1, k2, Ne.symm d1]
  case rxReady =>
    obtain ⟨k1, k2⟩ := key _ i3
    simp [stdCauseOf, StdMap.iirBits, hasBit, k1, k2, Ne.symm d2, Ne.symm e2]
  case rxTimeout =>
    obtain ⟨k1, k2⟩ := key _ i5
    simp [stdCauseOf, StdMap.iirBits, hasBit, k1, k2, Ne.symm d4, Ne.symm e4, Ne.symm f4, Ne.symm g4]

/-! ### Routing -/

/-- The address of a location lies in its block. -/
theorem stdReg_inBlock {cfg : Config} (h : cfg.wf = true) (c : StdSlot) (r : SReg) :
    inBlock (cfg.stdBase.get c) (cfg.stdMap.addr (cfg.stdBase.get c) r) = true := by
  have h1 := (Config.wf_io h).2.2.2.2.1 c
  have h2 := (cfg.stdMap.off r).isLt
  simp only [inBlock, StdMap.addr, Bool.and_eq_true, decide_eq_true_eq, BitVec.toNat_add,
    BitVec.toNat_setWidth]
  omega

/-- An address of a STD block is claimed by its slot, if the chip is present
(spec/47_host_primitives.md R254). -/
theorem route_block {cfg : Config} (h : cfg.wf = true) (c : StdSlot) {a : Half}
    (ha : inBlock (cfg.stdBase.get c) a = true) :
    route cfg a = if cfg.stdPresent.get c
      then .std c (cfg.stdMap.regAt ((a - cfg.stdBase.get c).setWidth 3)) else .stdAbsent := by
  obtain ⟨-, h01, h03, h13, -, -⟩ := Config.wf_io h
  simp only [blocksApart, Bool.or_eq_true, decide_eq_true_eq] at h01 h03 h13
  have hf : (StdSlot.all.find? fun c' => inBlock (cfg.stdBase.get c') a) = some c := by
    have hne : ∀ c', c' ≠ c → inBlock (cfg.stdBase.get c') a = false := by
      intro c' hc
      simp only [inBlock, Bool.and_eq_true, decide_eq_true_eq] at ha
      simp only [inBlock, Bool.and_eq_false_iff, decide_eq_false_iff_not]
      cases c <;> cases c' <;> simp only [PerStd.get, ne_eq, not_true_eq_false] at * <;> omega
    cases c <;> simp [StdSlot.all, ha, hne]
  unfold route
  rw [hf]

/-- A register of a STD block is claimed by its slot, if the chip is present
(spec/47_host_primitives.md R254). -/
theorem route_std {cfg : Config} (h : cfg.wf = true) (c : StdSlot) (r : SReg) :
    route cfg (cfg.stdMap.addr (cfg.stdBase.get c) r) =
      if cfg.stdPresent.get c then .std c r else .stdAbsent := by
  rw [route_block h c (stdReg_inBlock h c r)]
  have : (cfg.stdMap.addr (cfg.stdBase.get c) r - cfg.stdBase.get c).setWidth 3 = cfg.stdMap.off r := by
    apply BitVec.eq_of_toNat_eq
    have := (cfg.stdMap.off r).isLt
    simp only [StdMap.addr, BitVec.toNat_setWidth, BitVec.toNat_sub, BitVec.toNat_add]
    omega
  rw [this, StdMap.regAt_off (Config.wf_parts h).2.2.2.1]

theorem route_point {cfg : Config} (h : cfg.wf = true) {a : Half} (ha : a ∈ cfg.ioPoints) :
    (StdSlot.all.find? fun c => inBlock (cfg.stdBase.get c) a) = none := by
  have := (Config.wf_io h).2.2.2.2.2 a ha
  simp [StdSlot.all, this]

/-- The address of an INTEG register in a configuration. -/
def integAddr (cfg : Config) : IReg → Half
  | .ien => cfg.iIen
  | .lctl => cfg.iLctl
  | .baud => cfg.iBaud
  | .stat => cfg.iStat
  | .txd => cfg.iTxd
  | .rxd => cfg.iRxd

/-- The address of an INTEG register is claimed by DEV[2], if it is present
(spec/47_host_primitives.md R254). -/
theorem route_integ {cfg : Config} (h : cfg.wf = true) (r : IReg) :
    route cfg (integAddr cfg r) = if cfg.integPresent then .integ r else .nobody := by
  have hp : integAddr cfg r ∈ cfg.ioPoints := by cases r <;> simp [integAddr, Config.ioPoints]
  have hr : integRegAt cfg (integAddr cfg r) = some r := by
    have hd := (Config.wf_io h).1
    simp only [Config.ioPoints, List.nodup_cons, List.mem_cons, not_or] at hd
    obtain ⟨⟨a1, a2, a3, a4, a5, -⟩, ⟨b2, b3, b4, b5, -⟩, ⟨c3, c4, c5, -⟩, ⟨d4, d5, -⟩, ⟨e5, -⟩, -⟩ := hd
    cases r <;> simp [integAddr, integRegAt, Ne.symm a1, Ne.symm a2, Ne.symm a3, Ne.symm a4, Ne.symm a5,
      Ne.symm b2, Ne.symm b3, Ne.symm b4, Ne.symm b5, Ne.symm c3, Ne.symm c4, Ne.symm c5, Ne.symm d4,
      Ne.symm d5, Ne.symm e5]
  unfold route
  rw [route_point h hp, hr]

/-- `EOI_ADDR` is claimed by the interrupt controller (spec/47_host_primitives.md R254). -/
theorem route_eoi {cfg : Config} (h : cfg.wf = true) : route cfg cfg.eoiAddr = .eoi := by
  have hp : cfg.eoiAddr ∈ cfg.ioPoints := by simp [Config.ioPoints]
  have hr : integRegAt cfg cfg.eoiAddr = none := by
    have hd := (Config.wf_io h).1
    simp only [Config.ioPoints, List.nodup_cons, List.mem_cons, not_or] at hd
    obtain ⟨⟨-, -, -, -, -, a6, -⟩, ⟨-, -, -, -, b6, -⟩, ⟨-, -, -, c6, -⟩, ⟨-, -, d6, -⟩, ⟨-, e6, -⟩,
      ⟨f6, -⟩, -⟩ := hd
    simp [integRegAt, Ne.symm a6, Ne.symm b6, Ne.symm c6, Ne.symm d6, Ne.symm e6, Ne.symm f6]
  unfold route
  rw [route_point h hp, hr]; simp

/-! ### What the primitives can do -/

/-- HOST.RD8 changes the devices, the trace and the draws alone. -/
theorem ioRd8_frame {a : Half} {s t : State} {v : Byte} (h : ioRd8 a s = .ok v t) :
    t = { s with dev := t.dev, trace := t.trace, draws := t.draws, drawn := t.drawn } := by
  unfold ioRd8 at h
  split at h
  · cases h
    unfold State.drawnIf State.drawn1
    split
    · cases hd : s.draws <;> rfl
    · rfl
  · cases h; unfold State.drawn1; cases hd : s.draws <;> rfl
  · cases h
  · cases h
  · cases h; unfold State.drawn1; cases hd : s.draws <;> rfl

/-- HOST.RD16 changes the devices, the trace and the draws alone. -/
theorem ioRd16_frame {a : Half} {s t : State} {v : Half} (h : ioRd16 a s = .ok v t) :
    t = { s with dev := t.dev, trace := t.trace, draws := t.draws, drawn := t.drawn } := by
  unfold ioRd16 at h
  split at h
  · cases h
  · cases h
  · cases h
    unfold State.drawnIf State.drawn1
    split
    · cases hd : s.draws <;> rfl
    · rfl
  · cases h; unfold State.drawn1; cases hd : s.draws <;> rfl
  · cases h; unfold State.drawn1; cases hd : s.draws <;> rfl

/-- HOST.WR8 changes the devices and the trace alone. -/
theorem ioWr8_frame {a : Half} {v : Byte} {s t : State} (h : ioWr8 a v s = .ok () t) :
    t = { s with dev := t.dev, trace := s.trace ++ [.wr8 a v] } := by
  unfold ioWr8 at h
  split at h <;> cases h <;> rfl

/-- HOST.WR16 changes the devices and the trace alone. -/
theorem ioWr16_frame {a : Half} {v : Half} {s t : State} (h : ioWr16 a v s = .ok () t) :
    t = { s with dev := t.dev, trace := s.trace ++ [.wr16 a v] } := by
  unfold ioWr16 at h
  split at h
  · cases h
  · cases h; rfl
  · cases h; rfl
  · split at h <;> cases h; rfl
  · cases h; rfl

/-- HOST.RD8 of a register of a STD chip (spec/48_environment_device.md R273 to R279). -/
theorem ioRd8_present {s : State} (h : s.cfg.wf = true) {c : StdSlot} (hp : s.cfg.stdPresent.get c = true)
    (r : SReg) :
    ioRd8 (s.cfg.stdMap.addr (s.cfg.stdBase.get c) r) s =
      .ok ((s.dev.std.get c).readValue s.cfg.stdMap r s.drawValue)
        (((s.drawnIf ((s.dev.std.get c).readDraws s.cfg.stdMap r)).setStd c
          ((s.dev.std.get c).afterRead s.cfg.stdMap r)).observe
          (.rd8 (s.cfg.stdMap.addr (s.cfg.stdBase.get c) r)
            ((s.dev.std.get c).readValue s.cfg.stdMap r s.drawValue))) := by
  unfold ioRd8; rw [route_std h c r, if_pos hp]

/-- HOST.RD8 in the block of an absent STD chip takes a draw (spec/20_memory.md R69). -/
theorem ioRd8_absent {s : State} (h : s.cfg.wf = true) {c : StdSlot} (hp : s.cfg.stdPresent.get c = false)
    (r : SReg) :
    ioRd8 (s.cfg.stdMap.addr (s.cfg.stdBase.get c) r) s =
      .ok (s.drawValue.setWidth 8)
        (s.drawn1.observe
          (.rd8 (s.cfg.stdMap.addr (s.cfg.stdBase.get c) r) (s.drawValue.setWidth 8))) := by
  unfold ioRd8; rw [route_std h c r, if_neg (by simp [hp])]

/-- HOST.WR8 of a register of a STD chip (spec/48_environment_device.md R274 to R279). -/
theorem ioWr8_present {s : State} (h : s.cfg.wf = true) {c : StdSlot} (hp : s.cfg.stdPresent.get c = true)
    (r : SReg) (v : Byte) :
    ioWr8 (s.cfg.stdMap.addr (s.cfg.stdBase.get c) r) v s =
      .ok () ((s.setStd c ((s.dev.std.get c).write s.cfg.stdMap r v)).observe
        (.wr8 (s.cfg.stdMap.addr (s.cfg.stdBase.get c) r) v)) := by
  unfold ioWr8; rw [route_std h c r, if_pos hp]

/-- HOST.WR8 in the block of an absent STD chip does nothing (spec/20_memory.md R69). -/
theorem ioWr8_absent {s : State} (h : s.cfg.wf = true) {c : StdSlot} (hp : s.cfg.stdPresent.get c = false)
    (r : SReg) (v : Byte) :
    ioWr8 (s.cfg.stdMap.addr (s.cfg.stdBase.get c) r) v s =
      .ok () (s.observe (.wr8 (s.cfg.stdMap.addr (s.cfg.stdBase.get c) r) v)) := by
  unfold ioWr8; rw [route_std h c r, if_neg (by simp [hp])]

/-- HOST.RD16 of an INTEG register (spec/48_environment_device.md R283 to R287). -/
theorem ioRd16_present {s : State} (h : s.cfg.wf = true) (hp : s.cfg.integPresent = true) (r : IReg) :
    ioRd16 (integAddr s.cfg r) s =
      .ok (s.dev.integ.readValue s.cfg r s.drawValue)
        (((s.drawnIf (s.dev.integ.readDraws r)).setInteg (s.dev.integ.afterRead r)).observe
          (.rd16 (integAddr s.cfg r) (s.dev.integ.readValue s.cfg r s.drawValue))) := by
  unfold ioRd16; rw [route_integ h, if_pos hp]

/-- HOST.RD16 of an INTEG register that is absent takes a draw (spec/47_host_primitives.md R254). -/
theorem ioRd16_absent {s : State} (h : s.cfg.wf = true) (hp : s.cfg.integPresent = false) (r : IReg) :
    ioRd16 (integAddr s.cfg r) s =
      .ok s.drawValue (s.drawn1.observe (.rd16 (integAddr s.cfg r) s.drawValue)) := by
  unfold ioRd16; rw [route_integ h, if_neg (by simp [hp])]

/-- HOST.WR16 of an INTEG register (spec/48_environment_device.md R283 to R287). -/
theorem ioWr16_present {s : State} (h : s.cfg.wf = true) (hp : s.cfg.integPresent = true) (r : IReg)
    (v : Half) :
    ioWr16 (integAddr s.cfg r) v s =
      .ok () ((s.setInteg (s.dev.integ.write r v)).observe (.wr16 (integAddr s.cfg r) v)) := by
  unfold ioWr16; rw [route_integ h, if_pos hp]

/-- HOST.WR16 of an INTEG register that is absent does nothing (spec/47_host_primitives.md R254). -/
theorem ioWr16_absent {s : State} (h : s.cfg.wf = true) (hp : s.cfg.integPresent = false) (r : IReg)
    (v : Half) :
    ioWr16 (integAddr s.cfg r) v s = .ok () (s.observe (.wr16 (integAddr s.cfg r) v)) := by
  unfold ioWr16; rw [route_integ h, if_neg (by simp [hp])]

/-- HOST.RD8 always answers in a STD block. -/
theorem ioRd8_std_ok {s : State} (h : s.cfg.wf = true) (c : StdSlot) (r : SReg) :
    ∃ v t, ioRd8 (s.cfg.stdMap.addr (s.cfg.stdBase.get c) r) s = .ok v t := by
  cases hp : s.cfg.stdPresent.get c
  · exact ⟨_, _, ioRd8_absent h hp r⟩
  · exact ⟨_, _, ioRd8_present h hp r⟩

/-- HOST.WR8 always ends well in a STD block. -/
theorem ioWr8_std_ok {s : State} (h : s.cfg.wf = true) (c : StdSlot) (r : SReg) (v : Byte) :
    ∃ t, ioWr8 (s.cfg.stdMap.addr (s.cfg.stdBase.get c) r) v s = .ok () t := by
  cases hp : s.cfg.stdPresent.get c
  · exact ⟨_, ioWr8_absent h hp r v⟩
  · exact ⟨_, ioWr8_present h hp r v⟩

/-- HOST.RD16 always answers at an INTEG register. -/
theorem ioRd16_integ_ok {s : State} (h : s.cfg.wf = true) (r : IReg) :
    ∃ v t, ioRd16 (integAddr s.cfg r) s = .ok v t := by
  cases hp : s.cfg.integPresent
  · exact ⟨_, _, ioRd16_absent h hp r⟩
  · exact ⟨_, _, ioRd16_present h hp r⟩

/-- HOST.WR16 always ends well at an INTEG register. -/
theorem ioWr16_integ_ok {s : State} (h : s.cfg.wf = true) (r : IReg) (v : Half) :
    ∃ t, ioWr16 (integAddr s.cfg r) v s = .ok () t := by
  cases hp : s.cfg.integPresent
  · exact ⟨_, ioWr16_absent h hp r v⟩
  · exact ⟨_, ioWr16_present h hp r v⟩

/-! ### The devices keep their bounds -/

/-- What the bounds of a STD device say (spec/48_environment_device.md R270). -/
theorem StdDev.ok_iff {m : StdMap} {d : StdDev} : d.ok m = true ↔ d.rxf.length ≤ d.depth
    ∧ d.txf.length ≤ d.depth ∧ d.ier &&& ~~~m.ierMask = 0#8 ∧ (d.fifoEn = true ∨ d.trigger = .t1) := by
  simp [StdDev.ok, and_assoc]

/-- A read of a STD register keeps the device's bounds. -/
theorem StdDev.afterRead_ok {m : StdMap} {d : StdDev} (h : d.ok m = true) (r : SReg) :
    (d.afterRead m r).ok m = true := by
  rw [StdDev.ok_iff] at h ⊢
  unfold StdDev.afterRead
  split <;> (try split) <;> first
    | exact h
    | (refine ⟨?_, h.2⟩; have := h.1; simp only [List.length_tail, StdDev.depth] at *; omega)

/-- A write of a STD register keeps the device's bounds. -/
theorem StdDev.write_ok {m : StdMap} {d : StdDev} (h : d.ok m = true) (r : SReg) (v : Byte) :
    (d.write m r v).ok m = true := by
  have hv : v &&& m.ierMask &&& ~~~m.ierMask = 0#8 := by rw [BitVec.and_assoc]; simp
  rw [StdDev.ok_iff] at h ⊢
  obtain ⟨h1, h2, h3, h4⟩ := h
  unfold StdDev.write
  split
  · split
    · exact ⟨h1, h2, h3, h4⟩
    · refine ⟨h1, ?_, h3, h4⟩
      split
      · simpa [StdDev.depth] using ‹_›
      · exact h2
  · split
    · exact ⟨h1, h2, h3, h4⟩
    · exact ⟨h1, h2, hv, h4⟩
  · simp only [StdDev.depth, StdDev.writeFcr, RxTrigger.ofFcr] at *
    by_cases hb : hasBit v m.fcrEn = true <;> by_cases hr : hasBit v m.fcrRx = true <;>
      by_cases ht : hasBit v m.fcrTx = true <;> cases hf : d.fifoEn <;> simp_all
  all_goals exact ⟨h1, h2, h3, h4⟩

/-- An arriving byte keeps the device's bounds. -/
theorem StdDev.arrive_ok {m : StdMap} {d : StdDev} (h : d.ok m = true) (b : Byte) :
    (d.arrive b).ok m = true := by
  rw [StdDev.ok_iff] at h ⊢
  obtain ⟨h1, h2, h3, h4⟩ := h
  unfold StdDev.arrive
  split
  · exact ⟨by simpa [StdDev.depth] using ‹_›, h2, h3, h4⟩
  · exact ⟨h1, h2, h3, h4⟩

end Sys2Proof.Machine
end

