-- ==== Sys2Proof/Laws/Ring.lean ====
section
/-! SUPPORT. The ring buffer: its invariant, its contents as a queue, and what each ring operation can do. -/

namespace Sys2Proof.Machine

open Sys2Proof

/-- What the ring invariant says (spec/10_state.md R24, R25). -/
theorem RingBuffer.ok_iff {rb : RingBuffer} : rb.ok = true ↔
    0 < rb.capacity.toNat ∧ rb.count.toNat ≤ rb.capacity.toNat ∧ rb.head.toNat < rb.capacity.toNat
    ∧ rb.tail.toNat < rb.capacity.toNat
    ∧ (rb.head.toNat + (rb.capacity.toNat - rb.tail.toNat)) % rb.capacity.toNat
      = rb.count.toNat % rb.capacity.toNat
    ∧ cellsWf 0 rb.capacity.toNat rb.storage = true := by
  simp [RingBuffer.ok, and_assoc]

/-- A remainder below twice the modulus. -/
theorem mod_below_twice {a m : Nat} (h : a < 2 * m) : a % m = if a < m then a else a - m := by
  split
  · exact Nat.mod_eq_of_lt ‹_›
  · rw [Nat.mod_eq_sub_mod (by omega), Nat.mod_eq_of_lt (by omega)]

/-- The write index is `count` places after the read index. -/
theorem RingBuffer.head_eq {rb : RingBuffer} (h : rb.ok = true) :
    rb.head.toNat = (rb.tail.toNat + rb.count.toNat) % rb.capacity.toNat := by
  obtain ⟨h0, h1, h2, h3, h4, -⟩ := RingBuffer.ok_iff.1 h
  rw [mod_below_twice (by omega)] at h4 ⊢
  rw [mod_below_twice (a := rb.count.toNat) (by omega)] at h4
  split at h4 <;> split at h4 <;> split <;> omega

theorem half_mod {a : Nat} {c : Half} (h : 0 < c.toNat) : (BitVec.ofNat 16 (a % c.toNat)).toNat = a % c.toNat := by
  have := Nat.mod_lt a h
  have := c.isLt
  rw [BitVec.toNat_ofNat]; omega

/-- Storage after queueing bytes: the byte `j` stands `j` places after `head`, the rest is untouched
(spec/41_ring_buffer.md R127, R128). -/
theorem RingBuffer.putAll_read {rb : RingBuffer} (h : rb.ok = true) {bs : List Byte}
    (hb : bs.length ≤ rb.room) :
    (∀ j < bs.length, cellsRead (rb.putAll bs).storage ((rb.head.toNat + j) % rb.capacity.toNat) = bs[j]?)
    ∧ ∀ i, (∀ j < bs.length, i ≠ (rb.head.toNat + j) % rb.capacity.toNat) →
      cellsRead (rb.putAll bs).storage i = cellsRead rb.storage i := by
  obtain ⟨h0, h1, h2, h3, h4, -⟩ := RingBuffer.ok_iff.1 h
  unfold RingBuffer.room at hb
  set n := bs.length with hn
  set f := min n (rb.capacity.toNat - rb.head.toNat) with hf
  have hl1 : (bs.take f).length = f := by simp; omega
  have hl2 : (bs.drop f).length = n - f := by simp [hn]
  have hst : (rb.putAll bs).storage =
      cellsWriteList (cellsWriteList rb.storage rb.head.toNat (bs.take f)) 0 (bs.drop f) := rfl
  constructor
  · intro j hj
    rw [hst, cellsRead_writeList, cellsRead_writeList, hl1, hl2, mod_below_twice (by omega)]
    by_cases hc : rb.head.toNat + j < rb.capacity.toNat
    · rw [if_pos hc, if_neg (by omega), if_pos (by omega), List.getElem?_take,
        if_pos (by omega), show rb.head.toNat + j - rb.head.toNat = j by omega]
    · rw [if_neg hc, if_pos (by omega), List.getElem?_drop]
      congr 1; omega
  · intro i hi
    rw [hst, cellsRead_writeList, cellsRead_writeList, hl1, hl2]
    have k1 : ¬ (0 ≤ i ∧ i < 0 + (n - f)) := by
      rintro ⟨-, hi2⟩
      refine hi (f + i) (by omega) ?_
      rw [mod_below_twice (by omega), if_neg (by omega)]; omega
    have k2 : ¬ (rb.head.toNat ≤ i ∧ i < rb.head.toNat + f) := by
      rintro ⟨hi1, hi2⟩
      refine hi (i - rb.head.toNat) (by omega) ?_
      rw [mod_below_twice (by omega), if_pos (by omega)]; omega
    rw [if_neg k1, if_neg k2]

/-- Queueing bytes that fit keeps the ring invariant. -/
theorem RingBuffer.putAll_ok {rb : RingBuffer} (h : rb.ok = true) {bs : List Byte}
    (hb : bs.length ≤ rb.room) : (rb.putAll bs).ok = true := by
  have hh := RingBuffer.head_eq h
  obtain ⟨h0, h1, h2, h3, h4, h5⟩ := RingBuffer.ok_iff.1 h
  unfold RingBuffer.room at hb
  have hcap := rb.capacity.isLt
  have hc : (BitVec.ofNat 16 (rb.count.toNat + bs.length)).toNat = rb.count.toNat + bs.length := by
    rw [BitVec.toNat_ofNat]; omega
  rw [RingBuffer.ok_iff]
  simp only [RingBuffer.putAll, RingBuffer.step, hc, half_mod h0]
  refine ⟨h0, by omega, Nat.mod_lt _ h0, h3, ?_, ?_⟩
  · rw [mod_below_twice (a := rb.head.toNat + bs.length) (by omega)]
    rw [mod_below_twice (by omega)] at h4
    rw [mod_below_twice (a := rb.count.toNat) (by omega)] at h4
    rw [mod_below_twice (a := rb.count.toNat + bs.length) (by omega)]
    rw [mod_below_twice (by split <;> omega)]
    split at h4 <;> split at h4 <;> (repeat' split) <;> omega
  · refine cellsWf_writeList (cellsWf_writeList h5 (Nat.zero_le _) (.inr ?_)) (Nat.le_refl _) (.inr ?_)
    · simp; omega
    · simp; omega

/-- Removing bytes that are there keeps the ring invariant. -/
theorem RingBuffer.drop_ok {rb : RingBuffer} (h : rb.ok = true) {n : Nat} (hn : n ≤ rb.count.toNat) :
    (rb.drop n).ok = true := by
  obtain ⟨h0, h1, h2, h3, h4, h5⟩ := RingBuffer.ok_iff.1 h
  have hcap := rb.capacity.isLt
  have hc : (BitVec.ofNat 16 (rb.count.toNat - n)).toNat = rb.count.toNat - n := by
    rw [BitVec.toNat_ofNat]; omega
  rw [RingBuffer.ok_iff]
  simp only [RingBuffer.drop, RingBuffer.step, hc, half_mod h0]
  refine ⟨h0, by omega, h2, Nat.mod_lt _ h0, ?_, h5⟩
  rw [mod_below_twice (a := rb.tail.toNat + n) (by omega)]
  rw [mod_below_twice (by omega)] at h4
  rw [mod_below_twice (a := rb.count.toNat) (by omega)] at h4
  rw [mod_below_twice (a := rb.count.toNat - n) (by omega)]
  rw [mod_below_twice (by split <;> omega)]
  split at h4 <;> split at h4 <;> (repeat' split) <;> omega

/-- Clearing keeps the ring invariant. -/
theorem RingBuffer.cleared_ok {rb : RingBuffer} (h : rb.ok = true) : rb.cleared.ok = true := by
  obtain ⟨h0, h1, h2, h3, h4, h5⟩ := RingBuffer.ok_iff.1 h
  rw [RingBuffer.ok_iff]; simp [RingBuffer.cleared, h0, h5]

/-- A ring at allocation meets the invariant. -/
theorem RingBuffer.new_ok {c : Half} (h : 0 < c.toNat) : (RingBuffer.new c).ok = true := by
  rw [RingBuffer.ok_iff]; simp [RingBuffer.new, h, cellsWf]

/-! ### The ring as a queue -/

theorem RingBuffer.queued_length (rb : RingBuffer) : rb.queued.length = rb.count.toNat := by
  simp [RingBuffer.queued]

theorem RingBuffer.queued_getElem? (rb : RingBuffer) (i : Nat) :
    rb.queued[i]? = if i < rb.count.toNat then some (cellsRead rb.storage (rb.indexOf i)) else none := by
  simp only [RingBuffer.queued, List.getElem?_map]
  split
  · rw [List.getElem?_range ‹_›]; rfl
  · rw [List.getElem?_eq_none (by simp; omega)]; rfl

/-- Queueing bytes appends them (spec/41_ring_buffer.md R120, R123, R127). -/
theorem RingBuffer.queued_putAll {rb : RingBuffer} (h : rb.ok = true) {bs : List Byte}
    (hb : bs.length ≤ rb.room) : (rb.putAll bs).queued = rb.queued ++ bs.map some := by
  have hh := RingBuffer.head_eq h
  obtain ⟨hr1, hr2⟩ := RingBuffer.putAll_read h hb
  obtain ⟨h0, h1, h2, h3, h4, h5⟩ := RingBuffer.ok_iff.1 h
  unfold RingBuffer.room at hb
  have hcap := rb.capacity.isLt
  have hc : (rb.putAll bs).count.toNat = rb.count.toNat + bs.length := by
    simp only [RingBuffer.putAll]; rw [BitVec.toNat_ofNat]; omega
  have hi : ∀ i, (rb.putAll bs).indexOf i = rb.indexOf i := fun _ => rfl
  apply List.ext_getElem?
  intro i
  rw [RingBuffer.queued_getElem?, hc, List.getElem?_append, RingBuffer.queued_length,
    RingBuffer.queued_getElem?, hi]
  by_cases hi1 : i < rb.count.toNat
  · rw [if_pos (by omega), if_pos hi1, if_pos hi1, hr2]
    intro j hj
    rw [hh, Nat.mod_add_mod]
    unfold RingBuffer.indexOf
    rw [mod_below_twice (a := rb.tail.toNat + i) (by omega)]
    have h6 : rb.tail.toNat + rb.count.toNat + j < 2 * rb.capacity.toNat := by omega
    rw [mod_below_twice h6]
    repeat' split
    all_goals omega
  · rw [if_neg hi1]
    by_cases hi2 : i < rb.count.toNat + bs.length
    · have hj := hr1 (i - rb.count.toNat) (by omega)
      rw [hh, Nat.mod_add_mod, show rb.tail.toNat + rb.count.toNat + (i - rb.count.toNat) = rb.tail.toNat + i
        by omega] at hj
      rw [if_pos hi2, List.getElem?_map]
      unfold RingBuffer.indexOf
      rw [hj, List.getElem?_eq_getElem (by omega)]
      rfl
    · rw [if_neg hi2, List.getElem?_map, List.getElem?_eq_none (by omega)]; rfl

/-- Removing bytes takes the oldest away (spec/41_ring_buffer.md R122, R123, R129). -/
theorem RingBuffer.queued_drop {rb : RingBuffer} (h : rb.ok = true) {n : Nat} (hn : n ≤ rb.count.toNat) :
    (rb.drop n).queued = rb.queued.drop n := by
  obtain ⟨h0, h1, h2, h3, h4, h5⟩ := RingBuffer.ok_iff.1 h
  have hcap := rb.capacity.isLt
  have hc : (rb.drop n).count.toNat = rb.count.toNat - n := by
    simp only [RingBuffer.drop]; rw [BitVec.toNat_ofNat]; omega
  apply List.ext_getElem?
  intro i
  rw [RingBuffer.queued_getElem?, hc, List.getElem?_drop, RingBuffer.queued_getElem?]
  have hi : (rb.drop n).indexOf i = rb.indexOf (n + i) := by
    simp only [RingBuffer.indexOf, RingBuffer.drop, RingBuffer.step, half_mod h0, Nat.mod_add_mod]
    congr 1; omega
  rw [hi]
  by_cases hlt : i < rb.count.toNat - n
  · rw [if_pos hlt, if_pos (by omega)]; rfl
  · rw [if_neg hlt, if_neg (by omega)]

/-- A cleared ring holds nothing (spec/41_ring_buffer.md R125). -/
theorem RingBuffer.queued_cleared (rb : RingBuffer) : rb.cleared.queued = [] := by
  simp [RingBuffer.queued, RingBuffer.cleared]

/-- The bulk pop reads the queued bytes in order (spec/41_ring_buffer.md R128, R129). -/
theorem RingBuffer.popIndex_eq {rb : RingBuffer} (h : rb.ok = true) {n j : Nat} (hn : n ≤ rb.count.toNat)
    (hj : j < n) : rb.popIndex n j = rb.indexOf j := by
  obtain ⟨h0, h1, h2, h3, h4, h5⟩ := RingBuffer.ok_iff.1 h
  simp only [RingBuffer.popIndex, RingBuffer.indexOf]
  rw [mod_below_twice (by omega)]
  repeat' split
  all_goals omega

/-! ### Ports -/

@[simp] theorem ring_setRing_same (ps : PortState) (d : Dir) (rb : RingBuffer) : (ps.setRing d rb).ring d = rb := by
  cases d <;> rfl

@[simp] theorem setRing_regs (ps : PortState) (d : Dir) (rb : RingBuffer) : (ps.setRing d rb).regs = ps.regs := by
  cases d <;> rfl

@[simp] theorem setRing_blocking (ps : PortState) (d : Dir) (rb : RingBuffer) :
    (ps.setRing d rb).blocking = ps.blocking := by cases d <;> rfl

@[simp] theorem setRing_rxDropped (ps : PortState) (d : Dir) (rb : RingBuffer) :
    (ps.setRing d rb).rxDropped = ps.rxDropped := by cases d <;> rfl

@[simp] theorem setRing_setRing (ps : PortState) (d : Dir) (a b : RingBuffer) :
    (ps.setRing d a).setRing d b = ps.setRing d b := by cases d <;> rfl

@[simp] theorem setRing_ring (ps : PortState) (d : Dir) : ps.setRing d (ps.ring d) = ps := by
  cases d <;> rfl

theorem ring_setRing_ne (ps : PortState) {d e : Dir} (rb : RingBuffer) (h : e ≠ d) :
    (ps.setRing d rb).ring e = ps.ring e := by cases d <;> cases e <;> first | rfl | exact absurd rfl h

theorem PortState.ok_iff {cfg : Config} {q : Slot} {ps : PortState} : ps.ok cfg q = true ↔
    ps.rx.ok = true ∧ ps.tx.ok = true ∧ ps.regs = regsOf cfg q := by simp [PortState.ok, and_assoc]

theorem PortState.ring_ok {cfg : Config} {q : Slot} {ps : PortState} (h : ps.ok cfg q = true) (d : Dir) :
    (ps.ring d).ok = true := by
  obtain ⟨h1, h2, -⟩ := PortState.ok_iff.1 h
  cases d
  · exact h1
  · exact h2

/-- A port with one ring replaced by a legal one is legal. -/
theorem PortState.setRing_ok {cfg : Config} {q : Slot} {ps : PortState} (h : ps.ok cfg q = true) {d : Dir}
    {rb : RingBuffer} (hr : rb.ok = true) : (ps.setRing d rb).ok cfg q = true := by
  obtain ⟨h1, h2, h3⟩ := PortState.ok_iff.1 h
  rw [PortState.ok_iff]
  cases d
  · exact ⟨hr, h2, h3⟩
  · exact ⟨h1, hr, h3⟩

/-! ### What the ring operations can do -/

/-- Reading storage may take a draw and does nothing else to the state. -/
theorem storageByte_frame (rb : RingBuffer) (i : Nat) (s : State) :
    (storageByte rb i s).2 = { s with draws := (storageByte rb i s).2.draws
                                      drawn := (storageByte rb i s).2.drawn } := by
  unfold storageByte
  split
  · rfl
  · unfold State.drawn1; cases s.draws <;> rfl

theorem storageByte_written {rb : RingBuffer} {i : Nat} {b : Byte} (h : cellsRead rb.storage i = some b)
    (s : State) : storageByte rb i s = (b, s) := by simp [storageByte, h]

theorem storageBytes_frame (rb : RingBuffer) (is : List Nat) (s : State) :
    (storageBytes rb is s).2 = { s with draws := (storageBytes rb is s).2.draws
                                        drawn := (storageBytes rb is s).2.drawn } := by
  induction is generalizing s with
  | nil => rfl
  | cons i is ih =>
    simp only [storageBytes]
    rw [ih, storageByte_frame]

@[simp] theorem storageBytes_length (rb : RingBuffer) (is : List Nat) (s : State) :
    (storageBytes rb is s).1.length = is.length := by
  induction is generalizing s with
  | nil => rfl
  | cons i is ih => simp [storageBytes, ih]

/-- A written byte is read as it stands; an unwritten one is some byte. -/
theorem storageBytes_getElem? (rb : RingBuffer) (is : List Nat) (s : State) {j i : Nat}
    (hj : is[j]? = some i) :
    ∃ b, (storageBytes rb is s).1[j]? = some b ∧ ∀ v, cellsRead rb.storage i = some v → b = v := by
  induction is generalizing s j with
  | nil => simp at hj
  | cons k is ih =>
    cases j with
    | zero =>
      simp only [List.getElem?_cons_zero, Option.some.injEq] at hj
      subst hj
      refine ⟨(storageByte rb k s).1, by simp [storageBytes], fun v hv => ?_⟩
      rw [storageByte_written hv]
    | succ j => simpa [storageBytes] using ih _ (by simpa using hj)

/-- If every byte has been written, no draw is taken. -/
theorem storageBytes_written (rb : RingBuffer) (is : List Nat) (s : State)
    (h : ∀ i ∈ is, cellsRead rb.storage i ≠ none) : (storageBytes rb is s).2 = s := by
  induction is generalizing s with
  | nil => rfl
  | cons i is ih =>
    obtain ⟨b, hb⟩ := Option.ne_none_iff_exists'.1 (h i (by simp))
    simp only [storageBytes]
    rw [storageByte_written hb, ih _ fun k hk => h k (by simp [hk])]

/-- Everything RB.PUSH can do. -/
theorem ringPush_eq_ok {q : Slot} {d : Dir} {b : Byte} {s t : State} {r : Bool} :
    ringPush q d b s = .ok r t ↔ ∃ ps, s.slots.get q = some ps ∧ s.ringOwned q = true ∧
      (((ps.ring d).count = (ps.ring d).capacity ∧ r = false ∧ t = s) ∨
       ((ps.ring d).count ≠ (ps.ring d).capacity ∧ r = true ∧
         t = s.setSlot q (some (ps.setRing d ((ps.ring d).putAll [b]))))) := by
  unfold ringPush; rw [mutateRing_eq_ok]
  refine exists_congr fun ps => and_congr_right fun _ => and_congr_right fun _ => ?_
  simp only
  split <;> rw [ok_eq_ok] <;> simp_all

/-- Everything RB.POP can do. -/
theorem ringPop_eq_ok {q : Slot} {d : Dir} {s t : State} {r : Option Byte} :
    ringPop q d s = .ok r t ↔ ∃ ps, s.slots.get q = some ps ∧ s.ringOwned q = true ∧
      (((ps.ring d).count = 0#16 ∧ r = none ∧ t = s) ∨
       ((ps.ring d).count ≠ 0#16
         ∧ r = some (storageByte (ps.ring d) (ps.ring d).tail.toNat s).1
         ∧ t = (storageByte (ps.ring d) (ps.ring d).tail.toNat s).2.setSlot q
             (some (ps.setRing d ((ps.ring d).drop 1))))) := by
  unfold ringPop; rw [mutateRing_eq_ok]
  refine exists_congr fun ps => and_congr_right fun _ => and_congr_right fun _ => ?_
  simp only
  split <;> rw [ok_eq_ok] <;> simp_all

/-- Everything RB.AVAIL can do. -/
theorem ringAvail_eq_ok {q : Slot} {d : Dir} {s t : State} {n : Half} :
    ringAvail q d s = .ok n t ↔ ∃ ps, s.slots.get q = some ps ∧ n = (ps.ring d).count ∧ t = s := by
  unfold ringAvail; rw [withPort_eq_ok]; simp only [ok_eq_ok]

/-- Everything RB.CLEAR can do. -/
theorem ringClear_eq_ok {q : Slot} {d : Dir} {s t : State} :
    ringClear q d s = .ok () t ↔ ∃ ps, s.slots.get q = some ps ∧ s.ringOwned q = true
      ∧ t = s.setSlot q (some (ps.setRing d (ps.ring d).cleared)) := by
  unfold ringClear; rw [mutateRing_eq_ok]; simp only [ok_eq_ok, true_and]

/-- Everything RB.PUSHN can do. -/
theorem ringPushN_eq_ok {q : Slot} {d : Dir} {n src : Nat} {s t : State} :
    ringPushN q d n src s = .ok () t ↔ ∃ ps bs, s.slots.get q = some ps ∧ s.ringOwned q = true
      ∧ n ≤ (ps.ring d).room ∧ (n = 0 ∨ bufferInside s.cfg src n = true) ∧ cellsReadList s.hbuf src n = some bs
      ∧ t = s.setSlot q (some (ps.setRing d ((ps.ring d).putAll bs))) := by
  unfold ringPushN; rw [mutateRing_eq_ok]
  refine exists_congr fun ps => ?_
  rw [exists_and_left, exists_and_left]
  refine and_congr_right fun _ => and_congr_right fun _ => ?_
  simp only
  split
  · simp only [reduceCtorEq, false_iff, not_exists]; omega
  · split
    · simp only [reduceCtorEq, false_iff, not_exists]
      rename_i _ h; intro bs; simp_all
    · rename_i h1 h2
      have h3 : n = 0 ∨ bufferInside s.cfg src n = true := by
        rcases Nat.eq_zero_or_pos n with h | h
        · exact .inl h
        · right
          by_contra hb
          exact h2 ⟨by omega, by simpa using hb⟩
      cases hr : cellsReadList s.hbuf src n with
      | none => simp
      | some bs => rw [ok_eq_ok]; simp [show n ≤ (ps.ring d).room by omega, h3]

/-- Everything RB.POPN can do. -/
theorem ringPopN_eq_ok {q : Slot} {d : Dir} {n dst : Nat} {s t : State} :
    ringPopN q d n dst s = .ok () t ↔ ∃ ps, s.slots.get q = some ps ∧ s.ringOwned q = true
      ∧ n ≤ (ps.ring d).count.toNat ∧ (n = 0 ∨ bufferInside s.cfg dst n = true)
      ∧ t = ((storageBytes (ps.ring d) ((List.range n).map ((ps.ring d).popIndex n)) s).2.setHbuf
              (cellsWriteList s.hbuf dst
                (storageBytes (ps.ring d) ((List.range n).map ((ps.ring d).popIndex n)) s).1)).setSlot q
            (some (ps.setRing d ((ps.ring d).drop n))) := by
  unfold ringPopN; rw [mutateRing_eq_ok]
  refine exists_congr fun ps => and_congr_right fun _ => and_congr_right fun _ => ?_
  simp only
  split
  · simp only [reduceCtorEq, false_iff]; omega
  · split
    · simp only [reduceCtorEq, false_iff]
      rename_i _ h; simp_all
    · rename_i h1 h2
      have h3 : n = 0 ∨ bufferInside s.cfg dst n = true := by
        rcases Nat.eq_zero_or_pos n with h | h
        · exact .inl h
        · right
          by_contra hb
          exact h2 ⟨by omega, by simpa using hb⟩
      have h4 : (storageBytes (ps.ring d) ((List.range n).map ((ps.ring d).popIndex n)) s).2.hbuf = s.hbuf := by
        rw [storageBytes_frame]
      rw [ok_eq_ok]; simp [show n ≤ (ps.ring d).count.toNat by omega, h3, h4]

end Sys2Proof.Machine
end

