-- ==== Sys2Proof/Laws/Hal.lean ====
section
/-! SUPPORT. The accesses of the mux: what one access and a whole capability can write, and that they keep the
data invariant. -/

namespace Sys2Proof.Machine

open Sys2Proof

/-- What an access of a capability on slot `q` may write: the port's rings and overflow counter, the devices,
the trace, the draws and `saved_integ`. -/
structure AccFrame (q : Slot) (s t : State) : Prop where
  frame : t = { s with
    slots := s.slots.set q (t.slots.get q), dev := t.dev, trace := t.trace, draws := t.draws,
    drawn := t.drawn, savedInteg := t.savedInteg }
  port : ∀ ps, s.slots.get q = some ps → ∃ ps', t.slots.get q = some ps' ∧ ps.sameModes ps'
  absent : s.slots.get q = none → t.slots.get q = none

theorem AccFrame.refl (q : Slot) (s : State) : AccFrame q s s :=
  ⟨by simp, fun ps h => ⟨ps, h, rfl, rfl⟩, id⟩

theorem AccFrame.trans {q : Slot} {s t u : State} (h : AccFrame q s t) (k : AccFrame q t u) :
    AccFrame q s u := by
  refine ⟨?_, fun ps hs => ?_, fun hs => k.absent (h.absent hs)⟩
  · have h1 := h.frame
    have h2 := k.frame
    rw [h2, h1]; simp
  · obtain ⟨pt, ht, a, b⟩ := h.port ps hs
    obtain ⟨pu, hu, c, d⟩ := k.port pt ht
    exact ⟨pu, hu, a.trans c, b.trans d⟩

theorem AccFrame.cfg_eq {q : Slot} {s t : State} (h : AccFrame q s t) : t.cfg = s.cfg := by
  rw [h.frame]

theorem AccFrame.regs_eq {q : Slot} {s t : State} (h : AccFrame q s t) : t.regs q = s.regs q := by
  unfold State.regs
  cases hs : s.slots.get q with
  | none => rw [h.absent hs, h.cfg_eq]
  | some ps => obtain ⟨pt, ht, hr, -⟩ := h.port ps hs; rw [ht]; exact hr.symm

theorem AccFrame.owned_eq {q : Slot} {s t : State} (h : AccFrame q s t) : t.ringOwned q = s.ringOwned q := by
  rw [h.frame]; rfl

theorem AccFrame.of_io {q : Slot} {s t : State}
    (h : t = { s with dev := t.dev, trace := t.trace, draws := t.draws, drawn := t.drawn }) :
    AccFrame q s t := by
  have hs : t.slots = s.slots := by rw [h]
  refine ⟨?_, fun ps h' => ⟨ps, by rw [hs]; exact h', rfl, rfl⟩, fun h' => by rw [hs]; exact h'⟩
  rw [hs, PerSlot.set_get]; rw [h]

theorem AccFrame.of_wr {q : Slot} {s t : State} {e : HostEvent}
    (h : t = { s with dev := t.dev, trace := s.trace ++ [e] }) : AccFrame q s t :=
  .of_io (by rw [h])

theorem AccFrame.of_setSaved (q : Slot) (s : State) (r : CfgReg) (v : Half) :
    AccFrame q s (s.setSavedInteg r v) :=
  ⟨by simp [State.setSavedInteg], fun ps h => ⟨ps, h, rfl, rfl⟩, id⟩

theorem AccFrame.of_setSlot {q : Slot} {s t : State} {ps ps' : PortState} (h : s.slots.get q = some ps)
    (hm : ps.sameModes ps') (ht : t = { s with draws := t.draws, drawn := t.drawn }) :
    AccFrame q s (t.setSlot q (some ps')) := by
  refine ⟨?_, fun p hp => ⟨ps', by simp, ?_⟩, fun hp => by rw [h] at hp; cases hp⟩
  · rw [ht]; simp [State.setSlot]
  · rw [h, Option.some.injEq] at hp; subst hp; exact hm

theorem ringPush_frame {q : Slot} {d : Dir} {b : Byte} {s t : State} {r : Bool}
    (h : ringPush q d b s = .ok r t) : AccFrame q s t := by
  obtain ⟨ps, hp, -, ⟨-, -, rfl⟩ | ⟨-, -, rfl⟩⟩ := ringPush_eq_ok.1 h
  · exact .refl _ _
  · exact .of_setSlot hp ⟨by simp, by simp⟩ rfl

theorem ringPop_frame {q : Slot} {d : Dir} {s t : State} {r : Option Byte}
    (h : ringPop q d s = .ok r t) : AccFrame q s t := by
  obtain ⟨ps, hp, -, ⟨-, -, rfl⟩ | ⟨-, -, rfl⟩⟩ := ringPop_eq_ok.1 h
  · exact .refl _ _
  · exact .of_setSlot hp ⟨by simp, by simp⟩ (storageByte_frame _ _ _)

theorem takeByte_frame {q : Slot} {b : Byte} {s t : State} (h : takeByte q b s = .ok () t) :
    AccFrame q s t := by
  obtain ⟨r, u, h1, h2⟩ := andThen_eq_ok.1 h
  refine (ringPush_frame h1).trans ?_
  cases r with
  | true => simp only [if_true, ok_eq_ok] at h2; rw [h2.2]; exact .refl _ _
  | false =>
    simp only [Bool.false_eq_true, if_false] at h2
    obtain ⟨ps, hp, h3⟩ := withPort_eq_ok.1 h2
    rw [ok_eq_ok] at h3
    rw [h3.2]
    exact .of_setSlot hp ⟨rfl, rfl⟩ rfl

/-- What one access may write. -/
theorem accStep_frame {q : Slot} {a : Acc} {v : Half} {s t : State} {r : Half × Bool}
    (h : accStep q a v s = .ok r t) : AccFrame q s t := by
  cases a <;> simp only [accStep] at h
  case rd8 a => obtain ⟨x, u, h1, h2⟩ := andThen_eq_ok.1 h; cases h2; exact .of_io (ioRd8_frame h1)
  case rd16 a => obtain ⟨x, u, h1, h2⟩ := andThen_eq_ok.1 h; cases h2; exact .of_io (ioRd16_frame h1)
  case wr8 a e => obtain ⟨x, u, h1, h2⟩ := andThen_eq_ok.1 h; cases h2; exact .of_wr (ioWr8_frame h1)
  case wr16 a e => obtain ⟨x, u, h1, h2⟩ := andThen_eq_ok.1 h; cases h2; exact .of_wr (ioWr16_frame h1)
  case snap a r =>
    obtain ⟨x, u, h1, h2⟩ := andThen_eq_ok.1 h; cases h2
    exact (AccFrame.of_io (ioRd16_frame h1)).trans (.of_setSaved _ _ _ _)
  case rest a r => obtain ⟨x, u, h1, h2⟩ := andThen_eq_ok.1 h; cases h2; exact .of_wr (ioWr16_frame h1)
  case test8 a m => obtain ⟨x, u, h1, h2⟩ := andThen_eq_ok.1 h; cases h2; exact .of_io (ioRd8_frame h1)
  case test16 a m => obtain ⟨x, u, h1, h2⟩ := andThen_eq_ok.1 h; cases h2; exact .of_io (ioRd16_frame h1)
  case take8 a =>
    obtain ⟨x, u, h1, h2⟩ := andThen_eq_ok.1 h
    obtain ⟨y, w, h3, h4⟩ := andThen_eq_ok.1 h2; cases h4
    exact (AccFrame.of_io (ioRd8_frame h1)).trans (takeByte_frame h3)
  case take16 a =>
    obtain ⟨x, u, h1, h2⟩ := andThen_eq_ok.1 h
    obtain ⟨y, w, h3, h4⟩ := andThen_eq_ok.1 h2; cases h4
    exact (AccFrame.of_io (ioRd16_frame h1)).trans (takeByte_frame h3)
  case fill8 a =>
    obtain ⟨x, u, h1, h2⟩ := andThen_eq_ok.1 h
    refine (ringPop_frame h1).trans ?_
    cases x with
    | none => cases h2; exact .refl _ _
    | some b =>
      obtain ⟨y, w, h3, h4⟩ := andThen_eq_ok.1 h2; cases h4
      exact .of_wr (ioWr8_frame h3)
  case fill16 a =>
    obtain ⟨x, u, h1, h2⟩ := andThen_eq_ok.1 h
    refine (ringPop_frame h1).trans ?_
    cases x with
    | none => cases h2; exact .refl _ _
    | some b =>
      obtain ⟨y, w, h3, h4⟩ := andThen_eq_ok.1 h2; cases h4
      exact .of_wr (ioWr16_frame h3)

/-- What a capability may write. -/
theorem runAccs_frame {q : Slot} {as : List Acc} {v r : Half} {s t : State}
    (h : runAccs q as v s = .ok r t) : AccFrame q s t := by
  induction as generalizing v s with
  | nil => rw [runAccs, ok_eq_ok] at h; rw [h.2]; exact .refl _ _
  | cons a as ih =>
    obtain ⟨x, u, h1, h2⟩ := andThen_eq_ok.1 h
    refine (accStep_frame h1).trans ?_
    split at h2
    · rw [ok_eq_ok] at h2; rw [h2.2]; exact .refl _ _
    · exact ih h2

/-- One list of accesses after another, where the first never returns early. -/
theorem runAccs_append {q : Slot} {as bs : List Acc} {v : Half} {s : State}
    (h : ∀ a ∈ as, ∀ v s r t, accStep q a v s = .ok r t → r.2 = false) :
    runAccs q (as ++ bs) v s = (runAccs q as v s).andThen fun v s => runAccs q bs v s := by
  induction as generalizing v s with
  | nil => rfl
  | cons a as ih =>
    simp only [List.cons_append, runAccs, andThen_assoc]
    cases hs : accStep q a v s with
    | ok r t =>
      have hr := h a (by simp) _ _ _ _ hs
      simp only [andThen_ok, hr, Bool.false_eq_true, if_false]
      exact ih fun b hb => h b (by simp [hb])
    | fault e => rfl
    | refuse e => rfl

/-! ### The data invariant -/

/-- What the data invariant says. -/
theorem dataOk_iff {s : State} : s.dataOk = true ↔ (∀ q, s.slotOk q = true)
    ∧ (∀ c, (s.dev.std.get c).ok s.cfg.stdMap = true) ∧ cellsWf 0 s.cfg.hbufSize s.hbuf = true := by
  simp only [State.dataOk, Slot.all, StdSlot.all, Bool.and_eq_true, List.all_cons, List.all_nil, and_true,
    and_assoc]
  constructor
  · rintro ⟨a, b, c, d, e, f, g, h⟩
    exact ⟨fun q => by cases q <;> assumption, fun k => by cases k <;> assumption, h⟩
  · rintro ⟨a, b, c⟩
    exact ⟨a _, a _, a _, a _, b _, b _, b _, c⟩

theorem slotOk_iff {s : State} {q : Slot} :
    s.slotOk q = true ↔ ∀ ps, s.slots.get q = some ps → ps.ok s.cfg q = true := by
  unfold State.slotOk; cases s.slots.get q <;> simp

/-- The address record of a legal port is its slot's. -/
theorem regs_of_dataOk {s : State} (h : s.dataOk = true) (q : Slot) : s.regs q = regsOf s.cfg q := by
  have hq := slotOk_iff.1 ((dataOk_iff.1 h).1 q)
  unfold State.regs
  cases hs : s.slots.get q with
  | none => rfl
  | some ps => exact (PortState.ok_iff.1 (hq ps hs)).2.2

/-- A change of fields the data invariant does not read keeps it. -/
theorem dataOk_congr {s t : State} (h : s.dataOk = true) (h1 : t.slots = s.slots) (h2 : t.dev = s.dev)
    (h3 : t.hbuf = s.hbuf) (h4 : t.cfg = s.cfg) : t.dataOk = true := by
  unfold State.dataOk State.slotOk at *
  rw [h1, h2, h3, h4]; exact h

/-- A new PortState that is legal keeps the data invariant. -/
theorem dataOk_setSlot {s : State} (h : s.dataOk = true) {q : Slot} {v : Option PortState}
    (hv : ∀ ps, v = some ps → ps.ok s.cfg q = true) : (s.setSlot q v).dataOk = true := by
  obtain ⟨h1, h2, h3⟩ := dataOk_iff.1 h
  refine dataOk_iff.2 ⟨fun k => slotOk_iff.2 fun ps hp => ?_, h2, h3⟩
  simp only [setSlot_slots, setSlot_cfg, PerSlot.get_set] at hp ⊢
  split at hp
  · subst_vars; exact hv ps rfl
  · exact slotOk_iff.1 (h1 k) ps hp

/-- A new device state that is legal keeps the data invariant. -/
theorem dataOk_setStd {s : State} (h : s.dataOk = true) {c : StdSlot} {d : StdDev} (hd : d.ok s.cfg.stdMap = true) :
    (s.setStd c d).dataOk = true := by
  obtain ⟨h1, h2, h3⟩ := dataOk_iff.1 h
  refine dataOk_iff.2 ⟨h1, fun k => ?_, h3⟩
  simp only [setStd_dev, PerStd.get_set]
  split
  · exact hd
  · exact h2 k

theorem dataOk_setInteg {s : State} (h : s.dataOk = true) (d : IntegDev) : (s.setInteg d).dataOk = true :=
  h

theorem dataOk_drawn1 {s : State} (h : s.dataOk = true) : s.drawn1.dataOk = true :=
  dataOk_congr h (by simp) (by simp) (by simp) (by simp)

theorem ioRd8_dataOk {a : Half} {s t : State} {v : Byte} (h : ioRd8 a s = .ok v t) (w : s.dataOk = true) :
    t.dataOk = true := by
  unfold ioRd8 at h
  split at h
  · rename_i c off _
    rw [ok_eq_ok] at h; rw [h.2]
    have hw := dataOk_setStd (c := c) w (StdDev.afterRead_ok ((dataOk_iff.1 w).2.1 c) off)
    refine dataOk_congr hw ?_ ?_ ?_ ?_ <;> simp [State.setStd]
  · rw [ok_eq_ok] at h; rw [h.2]; exact dataOk_congr w (by simp) (by simp) (by simp) (by simp)
  · cases h
  · cases h
  · rw [ok_eq_ok] at h; rw [h.2]; exact dataOk_congr w (by simp) (by simp) (by simp) (by simp)

theorem ioRd16_dataOk {a : Half} {s t : State} {v : Half} (h : ioRd16 a s = .ok v t) (w : s.dataOk = true) :
    t.dataOk = true := by
  unfold ioRd16 at h
  split at h
  · cases h
  · cases h
  · rename_i r _
    rw [ok_eq_ok] at h; rw [h.2]
    have hw := dataOk_setInteg w (s.dev.integ.afterRead r)
    refine dataOk_congr hw ?_ ?_ ?_ ?_ <;> simp [State.setInteg]
  · rw [ok_eq_ok] at h; rw [h.2]; exact dataOk_congr w (by simp) (by simp) (by simp) (by simp)
  · rw [ok_eq_ok] at h; rw [h.2]; exact dataOk_congr w (by simp) (by simp) (by simp) (by simp)

theorem ioWr8_dataOk {a : Half} {v : Byte} {s t : State} (h : ioWr8 a v s = .ok () t) (w : s.dataOk = true) :
    t.dataOk = true := by
  unfold ioWr8 at h
  split at h
  · rename_i c off _
    rw [ok_eq_ok] at h; rw [h.2]
    exact dataOk_setStd w (StdDev.write_ok ((dataOk_iff.1 w).2.1 c) off v)
  · rw [ok_eq_ok] at h; rw [h.2]; exact w
  · cases h
  · cases h
  · rw [ok_eq_ok] at h; rw [h.2]; exact w

theorem ioWr16_dataOk {a : Half} {v : Half} {s t : State} (h : ioWr16 a v s = .ok () t)
    (w : s.dataOk = true) : t.dataOk = true := by
  unfold ioWr16 at h
  split at h
  · cases h
  · rw [ok_eq_ok] at h; rw [h.2]; exact w
  · rw [ok_eq_ok] at h; rw [h.2]; exact w
  · split at h
    · rw [ok_eq_ok] at h; rw [h.2]; exact w
    · cases h
  · rw [ok_eq_ok] at h; rw [h.2]; exact w

theorem ringPush_dataOk {q : Slot} {d : Dir} {b : Byte} {s t : State} {r : Bool}
    (h : ringPush q d b s = .ok r t) (w : s.dataOk = true) : t.dataOk = true := by
  obtain ⟨ps, hp, -, ⟨-, -, rfl⟩ | ⟨hc, -, rfl⟩⟩ := ringPush_eq_ok.1 h
  · exact w
  · have hps := slotOk_iff.1 ((dataOk_iff.1 w).1 q) ps hp
    have hr := PortState.ring_ok hps d
    refine dataOk_setSlot w fun ps' hps' => ?_
    cases hps'
    refine PortState.setRing_ok hps (RingBuffer.putAll_ok hr ?_)
    have := (RingBuffer.ok_iff.1 hr).2.1
    have hne : (ps.ring d).count.toNat ≠ (ps.ring d).capacity.toNat := fun h => hc (BitVec.eq_of_toNat_eq h)
    simp only [List.length_singleton, RingBuffer.room]; omega

theorem ringPop_dataOk {q : Slot} {d : Dir} {s t : State} {r : Option Byte}
    (h : ringPop q d s = .ok r t) (w : s.dataOk = true) : t.dataOk = true := by
  obtain ⟨ps, hp, -, ⟨-, -, rfl⟩ | ⟨hc, -, rfl⟩⟩ := ringPop_eq_ok.1 h
  · exact w
  · have hps := slotOk_iff.1 ((dataOk_iff.1 w).1 q) ps hp
    have hf := storageByte_frame (ps.ring d) (ps.ring d).tail.toNat s
    have hw : (storageByte (ps.ring d) (ps.ring d).tail.toNat s).2.dataOk = true := by
      refine dataOk_congr w ?_ ?_ ?_ ?_ <;> rw [hf]
    refine dataOk_setSlot hw fun ps' hps' => ?_
    cases hps'
    rw [show (storageByte (ps.ring d) (ps.ring d).tail.toNat s).2.cfg = s.cfg by rw [hf]]
    have hne : (ps.ring d).count.toNat ≠ 0 := fun h => hc (BitVec.eq_of_toNat_eq h)
    exact PortState.setRing_ok hps (RingBuffer.drop_ok (PortState.ring_ok hps d) (by omega))

theorem ringClear_dataOk {q : Slot} {d : Dir} {s t : State} (h : ringClear q d s = .ok () t)
    (w : s.dataOk = true) : t.dataOk = true := by
  obtain ⟨ps, hp, -, rfl⟩ := ringClear_eq_ok.1 h
  have hps := slotOk_iff.1 ((dataOk_iff.1 w).1 q) ps hp
  refine dataOk_setSlot w fun ps' hps' => ?_
  cases hps'
  exact PortState.setRing_ok hps (RingBuffer.cleared_ok (PortState.ring_ok hps d))

theorem ringPushN_dataOk {q : Slot} {d : Dir} {n src : Nat} {s t : State}
    (h : ringPushN q d n src s = .ok () t) (w : s.dataOk = true) : t.dataOk = true := by
  obtain ⟨ps, bs, hp, -, hn, -, hb, rfl⟩ := ringPushN_eq_ok.1 h
  have hps := slotOk_iff.1 ((dataOk_iff.1 w).1 q) ps hp
  refine dataOk_setSlot w fun ps' hps' => ?_
  cases hps'
  exact PortState.setRing_ok hps
    (RingBuffer.putAll_ok (PortState.ring_ok hps d) (by rw [(cellsReadList_eq_some.1 hb).1]; exact hn))

theorem ringPopN_dataOk {q : Slot} {d : Dir} {n dst : Nat} {s t : State}
    (h : ringPopN q d n dst s = .ok () t) (w : s.dataOk = true) : t.dataOk = true := by
  obtain ⟨ps, hp, -, hn, hin, rfl⟩ := ringPopN_eq_ok.1 h
  have hps := slotOk_iff.1 ((dataOk_iff.1 w).1 q) ps hp
  set r := storageBytes (ps.ring d) ((List.range n).map ((ps.ring d).popIndex n)) s with hr
  have hf : r.2 = _ := storageBytes_frame _ _ _
  have hl : r.1.length = n := by simp [hr]
  obtain ⟨w1, w2, w3⟩ := dataOk_iff.1 w
  have hw : (r.2.setHbuf (cellsWriteList s.hbuf dst r.1)).dataOk = true := by
    rw [hf]
    refine dataOk_iff.2 ⟨w1, w2, cellsWf_writeList w3 (Nat.zero_le _) ?_⟩
    rcases hin with rfl | hin
    · left; exact List.length_eq_zero_iff.1 hl
    · right
      simp only [bufferInside, Bool.and_eq_true, decide_eq_true_eq] at hin
      rw [hl]; exact hin.1
  refine dataOk_setSlot hw fun ps' hps' => ?_
  cases hps'
  rw [show (r.2.setHbuf (cellsWriteList s.hbuf dst r.1)).cfg = s.cfg by rw [hf]; rfl]
  exact PortState.setRing_ok hps (RingBuffer.drop_ok (PortState.ring_ok hps d) hn)

theorem takeByte_dataOk {q : Slot} {b : Byte} {s t : State} (h : takeByte q b s = .ok () t)
    (w : s.dataOk = true) : t.dataOk = true := by
  obtain ⟨r, u, h1, h2⟩ := andThen_eq_ok.1 h
  have hu := ringPush_dataOk h1 w
  cases r with
  | true => simp only [if_true, ok_eq_ok] at h2; rw [h2.2]; exact hu
  | false =>
    simp only [Bool.false_eq_true, if_false] at h2
    obtain ⟨ps, hp, h3⟩ := withPort_eq_ok.1 h2
    rw [ok_eq_ok] at h3; rw [h3.2]
    refine dataOk_setSlot hu fun ps' hps' => ?_
    cases hps'
    have := slotOk_iff.1 ((dataOk_iff.1 hu).1 q) ps hp
    exact PortState.ok_iff.2 (PortState.ok_iff.1 this)

/-- One access keeps the data invariant. -/
theorem accStep_dataOk {q : Slot} {a : Acc} {v : Half} {s t : State} {r : Half × Bool}
    (h : accStep q a v s = .ok r t) (w : s.dataOk = true) : t.dataOk = true := by
  cases a <;> simp only [accStep] at h <;> obtain ⟨x, u, h1, h2⟩ := andThen_eq_ok.1 h
  case rd8 a => cases h2; exact ioRd8_dataOk h1 w
  case rd16 a => cases h2; exact ioRd16_dataOk h1 w
  case wr8 a e => cases h2; exact ioWr8_dataOk h1 w
  case wr16 a e => cases h2; exact ioWr16_dataOk h1 w
  case snap a r => cases h2; exact dataOk_congr (ioRd16_dataOk h1 w) rfl rfl rfl rfl
  case rest a r => cases h2; exact ioWr16_dataOk h1 w
  case test8 a m => cases h2; exact ioRd8_dataOk h1 w
  case test16 a m => cases h2; exact ioRd16_dataOk h1 w
  case take8 a =>
    obtain ⟨y, x', h3, h4⟩ := andThen_eq_ok.1 h2; cases h4
    exact takeByte_dataOk h3 (ioRd8_dataOk h1 w)
  case take16 a =>
    obtain ⟨y, x', h3, h4⟩ := andThen_eq_ok.1 h2; cases h4
    exact takeByte_dataOk h3 (ioRd16_dataOk h1 w)
  case fill8 a =>
    have hu := ringPop_dataOk h1 w
    cases x with
    | none => cases h2; exact hu
    | some b => obtain ⟨y, x', h3, h4⟩ := andThen_eq_ok.1 h2; cases h4; exact ioWr8_dataOk h3 hu
  case fill16 a =>
    have hu := ringPop_dataOk h1 w
    cases x with
    | none => cases h2; exact hu
    | some b => obtain ⟨y, x', h3, h4⟩ := andThen_eq_ok.1 h2; cases h4; exact ioWr16_dataOk h3 hu

/-- A capability keeps the data invariant. -/
theorem runAccs_dataOk {q : Slot} {as : List Acc} {v r : Half} {s t : State}
    (h : runAccs q as v s = .ok r t) (w : s.dataOk = true) : t.dataOk = true := by
  induction as generalizing v s with
  | nil => rw [runAccs, ok_eq_ok] at h; rw [h.2]; exact w
  | cons a as ih =>
    obtain ⟨x, u, h1, h2⟩ := andThen_eq_ok.1 h
    have hu := accStep_dataOk h1 w
    split at h2
    · rw [ok_eq_ok] at h2; rw [h2.2]; exact hu
    · exact ih h2 hu

end Sys2Proof.Machine
end

