-- ==== Sys2Proof/Laws/Control.lean ====
section
/-! SUPPORT. What the control operations do: taking an interrupt and the return from it, the hook of a line,
the ends of a command, the registry, the capabilities that answer something, a visit, the kick, and the start
of a command. -/

namespace Sys2Proof.Machine

open Sys2Proof

/-! ### Interrupts -/

/-- When the handler of a line can be entered. -/
theorem canEnter_iff {s : State} {l : Line} : s.canEnter l = true ↔
    s.pending l = true ∧ s.masked.get l = false ∧ s.inService.get l = false
      ∧ s.handler.get l = .dispatcher := by
  simp [State.canEnter, and_assoc]

/-- What taking an interrupt writes. -/
theorem takeInterrupt_eq (s : State) (l : Line) : s.takeInterrupt l = { s with
    inService := s.inService.set l true
    latched := if s.cfg.trigger = .edge then s.latched.set l false else s.latched
    ctx := l :: s.ctx
    dseq := s.dseq.set l (.run 1 0 .none [] 0#16) } := by
  unfold State.takeInterrupt
  cases h : s.cfg.trigger <;> simp [State.setInService, State.setLatched, h]

/-- What the return from a handler writes. -/
theorem leaveInterrupt_eq (s : State) (l : Line) : s.leaveInterrupt l = { s with
    inService := s.inService.set l false, ctx := s.ctx.tail, dseq := s.dseq.set l .idle } := rfl

/-- The completion value of a line is known. -/
theorem eoiKnown_value (cfg : Config) (l : Line) : eoiKnown cfg (cfg.eoiValue.get l) = true := by
  cases l <;> simp [eoiKnown]

/-- The line acknowledge, under a legal configuration. -/
theorem ackLine_eq {s : State} (h : s.cfg.wf = true) (l : Line) : ackLine l s = .ok ()
    (if s.cfg.ackExplicit l then s.observe (.wr16 s.cfg.eoiAddr (s.cfg.eoiValue.get l)) else s) := by
  unfold ackLine
  split
  · rw [ioWr16, route_eoi h]
    simp [eoiKnown_value]
  · rfl

/-- What the line acknowledge may write. -/
theorem ackLine_frame {s t : State} {l : Line} (h : ackLine l s = .ok () t) :
    t = { s with dev := t.dev, trace := t.trace } := by
  unfold ackLine at h
  split at h
  · have hw := ioWr16_frame h
    rw [hw]
  · rw [ok_eq_ok] at h; rw [h.2]

/-- When the handler of a line is left, and what that writes. -/
theorem exitLine_eq_ok {s t : State} {l : Line} : exitLine l s = .ok () t ↔
    s.ctx.head? = some l ∧ ∃ u, ackLine l s = .ok () u ∧ t = u.leaveInterrupt l := by
  unfold exitLine
  split
  · rename_i h
    rw [andThen_eq_ok]
    constructor
    · rintro ⟨x, u, h1, h2⟩; exact ⟨h, u, h1, (ok_eq_ok.1 h2).2⟩
    · rintro ⟨-, u, h1, h2⟩; exact ⟨(), u, h1, by rw [h2]⟩
  · rename_i h; simp [h]

/-- The edge latch after a device step. -/
theorem devStep_eq (s : State) (q : Slot) (s' : State) : devStep s q s' =
    if s.cfg.trigger = .edge ∧ s.irqLevel (s.cfg.lineOf.get q) = false
        ∧ s'.irqLevel (s.cfg.lineOf.get q) = true
      then s'.setLatched (s.cfg.lineOf.get q) true else s' := by
  unfold devStep
  cases h : s.cfg.trigger <;> simp

/-! ### Lines -/

/-- What the hook of a line writes. -/
theorem hookLine_eq (s : State) (l : Line) : s.hookLine l = { s with
    lineRefs := s.lineRefs.set l (s.lineRefs.get l + 1)
    handler := if s.lineRefs.get l = 0 then s.handler.set l .dispatcher else s.handler
    savedHandler := if s.lineRefs.get l = 0 then s.savedHandler.set l (s.handler.get l) else s.savedHandler
    trace := if s.lineRefs.get l = 0 then s.trace ++ [.install l .dispatcher (s.handler.get l)]
      else s.trace } := by
  unfold State.hookLine
  by_cases h : s.lineRefs.get l = 0 <;>
    simp [h, State.installHandler, State.setHandler, State.setSaved, State.setRefs, State.observe]

/-- What the unhook of a line writes. -/
theorem unhookLine_eq (s : State) (l : Line) : s.unhookLine l = { s with
    lineRefs := s.lineRefs.set l (s.lineRefs.get l - 1)
    handler := if s.lineRefs.get l - 1 = 0 then s.handler.set l (s.savedHandler.get l) else s.handler
    trace := if s.lineRefs.get l - 1 = 0 then s.trace ++ [.restore l (s.savedHandler.get l)]
      else s.trace } := by
  unfold State.unhookLine
  by_cases h : s.lineRefs.get l - 1 = 0 <;>
    simp [h, State.restoreHandler, State.setHandler, State.setRefs, State.observe]

/-! ### The ends of a command -/

/-- What a command that fails writes. -/
theorem fail_eq (s : State) (e : ErrKind) : s.fail e = { s with
    r0 := 0xFFFFFFFF#32, lasterr := s.cfg.errCode.get e, mseq := .idle } := rfl

/-- What a command that succeeds writes. -/
theorem finish_eq (s : State) (v : Word) : s.finish v = { s.drawn1 with
    r0 := v, lasterr := s.drawValue.setWidth 8, mseq := .idle } := rfl

/-- What an API command issued as a word does. -/
theorem issueCommand_eq_next {c : Cmd} {whole : State → Res Unit} {s t : State} :
    issueCommand c whole s = .next t ↔ s.mseq = .idle
      ∧ ((s.ctx ≠ [] ∧ t = s.atLine c 1 0#32 0#32) ∨ (s.ctx = [] ∧ whole s = .ok () t)) := by
  unfold issueCommand
  by_cases h1 : s.mseq = .idle <;> by_cases h2 : s.ctx = []
  · simpa [h1, h2] using outcome_eq_next
  all_goals simp [h1, h2, eq_comm]

/-! ### The registry -/

/-- What the allocation does. -/
theorem regAlloc_eq_ok {q : Slot} {mode txCap rxCap : Word} {s t : State} {a : Bool} :
    regAlloc q mode txCap rxCap s = .ok a t ↔ s.slots.get q = none
      ∧ capacityOk s.cfg txCap = true ∧ capacityOk s.cfg rxCap = true ∧ a = s.drawValue.getLsbD 0
      ∧ t = if a then s.drawn1.setSlot q (some (newPort s.cfg q mode txCap rxCap)) else s.drawn1 := by
  unfold regAlloc
  cases hs : s.slots.get q with
  | some ps => simp
  | none =>
    cases h1 : capacityOk s.cfg txCap <;> cases h2 : capacityOk s.cfg rxCap <;> simp
    cases h3 : s.drawValue[0] <;> cases a <;> simp [eq_comm]

/-- What the release does. -/
theorem regFree_eq_ok {q : Slot} {s t : State} :
    regFree q s = .ok () t ↔ (s.slots.get q).isSome = true ∧ t = s.setSlot q none := by
  rw [regFree, withPort_eq_ok]
  constructor
  · rintro ⟨ps, h, h2⟩; exact ⟨by rw [h]; rfl, (ok_eq_ok.1 h2).2⟩
  · rintro ⟨h, h2⟩
    obtain ⟨ps, hp⟩ := Option.isSome_iff_exists.1 h
    exact ⟨ps, hp, by rw [h2]⟩

/-! ### Capabilities, visits and the kick -/

/-- What a capability may write. -/
theorem runHal_frame {q : Slot} {accs : Config → Regs → List Acc} {s t : State} {v : Half}
    (h : runHal q accs s = .ok v t) : AccFrame q s t := runAccs_frame h

/-- HAL.CAUSE answers what the value read stands for. -/
theorem halCause_eq_ok {q : Slot} {s t : State} {c : Cause} : halCause q s = .ok c t ↔
    ∃ v, runHal q accCause s = .ok v t ∧ causeOf s.cfg (s.regs q) v = some c := by
  rw [halCause, andThen_eq_ok]
  constructor
  · rintro ⟨v, u, h1, h2⟩
    cases hc : causeOf s.cfg (s.regs q) v with
    | none => rw [hc] at h2; cases h2
    | some x =>
      rw [hc, ok_eq_ok] at h2
      obtain ⟨rfl, rfl⟩ := h2
      exact ⟨v, h1, hc⟩
  · rintro ⟨v, h1, h2⟩; exact ⟨v, t, h1, by rw [h2]⟩

/-- HAL.TX_EMPTY answers what the value read says. -/
theorem halTxEmpty_eq_ok {q : Slot} {s t : State} {e : Bool} : halTxEmpty q s = .ok e t ↔
    ∃ v, runHal q accTxEmpty s = .ok v t ∧ e = txEmptyOf s.cfg (s.regs q) v := by
  rw [halTxEmpty, andThen_eq_ok]
  constructor
  · rintro ⟨v, u, h1, h2⟩
    obtain ⟨h3, rfl⟩ := ok_eq_ok.1 h2
    exact ⟨v, h1, h3⟩
  · rintro ⟨v, h1, rfl⟩; exact ⟨v, t, h1, rfl⟩

/-- HAL.DETECT answers what the value read says. -/
theorem halDetect_eq_ok {q : Slot} {s t : State} {e : Bool} : halDetect q s = .ok e t ↔
    ∃ v, runHal q accDetect s = .ok v t ∧ e = detectOf (s.regs q) v := by
  rw [halDetect, andThen_eq_ok]
  constructor
  · rintro ⟨v, u, h1, h2⟩
    obtain ⟨h3, rfl⟩ := ok_eq_ok.1 h2
    exact ⟨v, h1, h3⟩
  · rintro ⟨v, h1, rfl⟩; exact ⟨v, t, h1, rfl⟩

/-- What HAL.CONFIG may write. -/
theorem halConfig_frame {q : Slot} {b p d x : Word} {s t : State} {v : Half}
    (h : halConfig q b p d x s = .ok v t) : AccFrame q s t := runHal_frame h

/-- What HAL.DIS_TX may write. -/
theorem halDisTx_frame {q : Slot} {s t : State} {v : Half} (h : halDisTx q s = .ok v t) :
    AccFrame q s t := by
  unfold halDisTx at h
  cases hv : (s.regs q).variant with
  | std => rw [hv] at h; cases h
  | integ => rw [hv] at h; exact runHal_frame h

/-- What the rounds of a visit may write. -/
theorem visitLoop_frame {q : Slot} {n : Nat} {s t : State} {e : Bool} (h : visitLoop q n s = .ok e t) :
    AccFrame q s t := by
  induction n generalizing s with
  | zero => rw [visitLoop, ok_eq_ok] at h; rw [h.2]; exact .refl _ _
  | succ n ih =>
    obtain ⟨ps, hp, h1⟩ := withPort_eq_ok.1 h
    obtain ⟨c, u, h2, h3⟩ := andThen_eq_ok.1 h1
    obtain ⟨v, h4, -⟩ := halCause_eq_ok.1 h2
    refine (runHal_frame h4).trans ?_
    split at h3
    · rw [ok_eq_ok] at h3; rw [h3.2]; exact .refl _ _
    · obtain ⟨y, w, h5, h6⟩ := andThen_eq_ok.1 h3
      exact (runAccs_frame h5).trans (ih h6)

/-- A visited port moves the running handler's sequencer alone. -/
theorem visited_frame (s : State) (q : Slot) : s.visited q = { s with dseq := (s.visited q).dseq } := by
  unfold State.visited
  split
  · rfl
  · split
    · split <;> rfl
    · rfl

/-- What a visit issued as a word does: it passes over a closed port; on an open one it ends, or goes on with the
next step, the word back at the head of the schedule. -/
theorem visitWhole_eq_ok {q : Slot} {s t : State} : visitWhole q s = .ok () t ↔
    (s.slots.get q = none ∧ t = s.visited q)
    ∨ (s.slots.get q ≠ none ∧ ∃ e u, visitLoop q (visitBound q s) s = .ok e u
      ∧ t = if e then u.visited q else u.issue (encode (.dspVisit q.sel))) := by
  unfold visitWhole
  cases hs : s.slots.get q with
  | none => simp [eq_comm]
  | some ps => simp [andThen_eq_ok, eq_comm (a := t)]

/-- What the kick may write. -/
theorem kick_frame {q : Slot} {s t : State} (h : kick q s = .ok () t) : AccFrame q s t := by
  obtain ⟨ps, hp, h1⟩ := withPort_eq_ok.1 h
  split at h1
  · rw [ok_eq_ok] at h1; rw [h1.2]; exact .refl _ _
  · obtain ⟨e, u, h2, h3⟩ := andThen_eq_ok.1 h1
    obtain ⟨v, h4, -⟩ := halTxEmpty_eq_ok.1 h2
    refine (runHal_frame h4).trans ?_
    split at h3
    · obtain ⟨x, w, h5, h6⟩ := andThen_eq_ok.1 h3
      obtain ⟨y, z, h7, h8⟩ := andThen_eq_ok.1 h6
      rw [ok_eq_ok] at h8
      rw [h8.2]
      exact (runHal_frame h5).trans (runHal_frame h7)
    · rw [ok_eq_ok] at h3; rw [h3.2]; exact .refl _ _

/-! ### The step -/

/-- The step under a legal configuration. -/
theorem step_of_wf {s : State} (h : s.cfg.wf = true) :
    step s = match nextTodo s with
      | .perform i u => exec i u
      | .settled o => o := by
  cases hn : nextTodo s <;> simp only [step, hn, h, if_true]

/-- The step under an illegal configuration. -/
theorem step_of_not_wf {s : State} (h : s.cfg.wf = false) : step s = .refused .badConfig := by
  cases hn : nextTodo s <;> simp only [step, hn, h, Bool.false_eq_true, if_false]

/-- The step at a word of the schedule. -/
theorem step_word {s : State} (h : s.cfg.wf = true) {w : Word} {ms : List Move} {i : Instr}
    (hm : s.moves = .word w :: ms) (hd : decode w = some i) : step s = exec i { s with moves := ms } := by
  rw [step_of_wf h]; simp [nextTodo, hm, issueWord, hd]

/-- Everything a step that is taken can be: the operation of a word, a step of the running agent, or a move of
HOST. -/
theorem step_eq_next {s t : State} (h : step s = .next t) : s.cfg.wf = true
    ∧ ((s.moves = [] ∧ coreStep s = .ok () t)
      ∨ ∃ m ms, s.moves = m :: ms ∧ let u := { s with moves := ms }
        (∃ w i, m = .word w ∧ decode w = some i ∧ exec i u = .next t)
        ∨ (∃ w, m = .cmd w ∧ writeCmd w u = .next t)
        ∨ (∃ i v, m = .setX i v ∧ hostSetX i v u = .next t)
        ∨ (∃ a b, m = .poke a b ∧ hostPoke a b u = .next t)
        ∨ (∃ a, m = .peek a ∧ hostPeek a u = .next t)
        ∨ (m = .core ∧ coreStep u = .ok () t)) := by
  cases hw : s.cfg.wf with
  | true =>
    rw [step_of_wf hw] at h
    refine ⟨rfl, ?_⟩
    cases hm : s.moves with
    | nil => rw [nextTodo, hm] at h; exact .inl ⟨rfl, outcome_eq_next.1 h⟩
    | cons m ms =>
      refine .inr ⟨m, ms, rfl, ?_⟩
      rw [nextTodo, hm] at h
      cases m with
      | word w =>
        cases hd : decode w with
        | none => simp [issueWord, hd] at h
        | some i => simp only [issueWord, hd] at h; exact .inl ⟨w, i, rfl, hd, h⟩
      | cmd w => exact .inr (.inl ⟨w, rfl, h⟩)
      | setX i v => exact .inr (.inr (.inl ⟨i, v, rfl, h⟩))
      | poke a b => exact .inr (.inr (.inr (.inl ⟨a, b, rfl, h⟩)))
      | peek a => exact .inr (.inr (.inr (.inr (.inl ⟨a, rfl, h⟩))))
      | core => exact .inr (.inr (.inr (.inr (.inr ⟨rfl, outcome_eq_next.1 h⟩))))
  | false => rw [step_of_not_wf hw] at h; cases h

/-- What a write of `CMD` that is accepted does. -/
theorem writeCmd_eq_next {w : Word} {s t : State} : writeCmd w s = .next t ↔
    ∃ i c, decode w = some i ∧ apiCommand i = some c ∧ s.mseq = .idle ∧ t = s.atLine c 1 0#32 0#32 := by
  unfold writeCmd
  cases hd : decode w with
  | none => simp
  | some i =>
    cases hc : apiCommand i with
    | none => simp [hc]
    | some c => by_cases h : s.mseq = .idle <;> simp [hc, h, eq_comm]

end Sys2Proof.Machine
end

