-- ==== Sys2Proof/Laws/PerInstr.lean ====
section
/-! SUPPORT. One law for every operation: where its word holds its class and that its reserved bits are 0
(spec/30_encoding.md R91, R93). -/

namespace Sys2Proof

/-- The class of an assembled word (spec/30_encoding.md R91). -/
theorem assemble_cls (cls op sel : BitVec 4) (dir : BitVec 1) (imm : Half) :
    (assemble cls op sel dir imm).extractLsb' 28 4 = cls := by
  apply BitVec.eq_of_getLsbD_eq
  intro i hi
  simp only [assemble, BitVec.getLsbD_extractLsb', BitVec.getLsbD_append, hi]
  interval_cases i <;> simp

/-- The reserved bits of an assembled word (spec/30_encoding.md R91). -/
theorem assemble_rsv (cls op sel : BitVec 4) (dir : BitVec 1) (imm : Half) :
    (assemble cls op sel dir imm).extractLsb' 16 3 = 0#3 := by
  apply BitVec.eq_of_getLsbD_eq
  intro i hi
  simp only [assemble, BitVec.getLsbD_extractLsb', BitVec.getLsbD_append, hi]
  interval_cases i <;> simp

namespace Laws.ClassAndReserved

/-- The word of the operation has its class in bits 31 to 28 and 0 in bits 18 to 16. -/
def Statement (i : Instr) : Prop :=
  (encode i).extractLsb' 28 4 = i.cls ∧ (encode i).extractLsb' 16 3 = 0#3

/-- The law of a word put together from its fields. -/
theorem of_assemble {i : Instr} (op sel : BitVec 4) (dir : BitVec 1) (imm : Half)
    (h : encode i = assemble i.cls op sel dir imm) : Statement i := by
  unfold Statement
  rw [h]
  exact ⟨assemble_cls _ _ _ _ _, assemble_rsv _ _ _ _ _⟩

theorem openPort (p : BitVec 4) : Statement (.openPort p) := of_assemble _ _ _ _ rfl
theorem configure (p : BitVec 4) : Statement (.configure p) := of_assemble _ _ _ _ rfl
theorem send (p : BitVec 4) : Statement (.send p) := of_assemble _ _ _ _ rfl
theorem recv (p : BitVec 4) : Statement (.recv p) := of_assemble _ _ _ _ rfl
theorem clear (p : BitVec 4) (d : Dir) : Statement (.clear p d) := of_assemble _ _ _ _ rfl
theorem available (p : BitVec 4) : Statement (.available p) := of_assemble _ _ _ _ rfl
theorem close (p : BitVec 4) : Statement (.close p) := of_assemble _ _ _ _ rfl
theorem rxDropped (p : BitVec 4) : Statement (.rxDropped p) := of_assemble _ _ _ _ rfl
theorem rbPush (p : BitVec 4) (d : Dir) (b : Byte) : Statement (.rbPush p d b) := of_assemble _ _ _ _ rfl
theorem rbPop (p : BitVec 4) (d : Dir) : Statement (.rbPop p d) := of_assemble _ _ _ _ rfl
theorem rbAvail (p : BitVec 4) (d : Dir) : Statement (.rbAvail p d) := of_assemble _ _ _ _ rfl
theorem rbClear (p : BitVec 4) (d : Dir) : Statement (.rbClear p d) := of_assemble _ _ _ _ rfl
theorem rbPushN (p : BitVec 4) (d : Dir) (n : Half) : Statement (.rbPushN p d n) := of_assemble _ _ _ _ rfl
theorem rbPopN (p : BitVec 4) (d : Dir) (n : Half) : Statement (.rbPopN p d n) := of_assemble _ _ _ _ rfl
theorem regLookup (p : BitVec 4) : Statement (.regLookup p) := of_assemble _ _ _ _ rfl
theorem regAlloc (p : BitVec 4) : Statement (.regAlloc p) := of_assemble _ _ _ _ rfl
theorem regFree (p : BitVec 4) : Statement (.regFree p) := of_assemble _ _ _ _ rfl
theorem halEnRx (p : BitVec 4) : Statement (.halEnRx p) := of_assemble _ _ _ _ rfl
theorem halEnTx (p : BitVec 4) : Statement (.halEnTx p) := of_assemble _ _ _ _ rfl
theorem halDisInt (p : BitVec 4) : Statement (.halDisInt p) := of_assemble _ _ _ _ rfl
theorem halCause (p : BitVec 4) : Statement (.halCause p) := of_assemble _ _ _ _ rfl
theorem halDrainRx (p : BitVec 4) : Statement (.halDrainRx p) := of_assemble _ _ _ _ rfl
theorem halFillTx (p : BitVec 4) (m : Byte) : Statement (.halFillTx p m) := of_assemble _ _ _ _ rfl
theorem halConfig (p : BitVec 4) : Statement (.halConfig p) := of_assemble _ _ _ _ rfl
theorem halAckLine (l : BitVec 4) : Statement (.halAckLine l) := of_assemble _ _ _ _ rfl
theorem halTxEmpty (p : BitVec 4) : Statement (.halTxEmpty p) := of_assemble _ _ _ _ rfl
theorem halDetect (p : BitVec 4) : Statement (.halDetect p) := of_assemble _ _ _ _ rfl
theorem halInit (p : BitVec 4) : Statement (.halInit p) := of_assemble _ _ _ _ rfl
theorem halSnapshot (p : BitVec 4) : Statement (.halSnapshot p) := of_assemble _ _ _ _ rfl
theorem halRestore (p : BitVec 4) : Statement (.halRestore p) := of_assemble _ _ _ _ rfl
theorem halClrMs (p : BitVec 4) : Statement (.halClrMs p) := of_assemble _ _ _ _ rfl
theorem halClrLs (p : BitVec 4) : Statement (.halClrLs p) := of_assemble _ _ _ _ rfl
theorem halDisTx (p : BitVec 4) : Statement (.halDisTx p) := of_assemble _ _ _ _ rfl
theorem dspEnter (l : BitVec 4) : Statement (.dspEnter l) := of_assemble _ _ _ _ rfl
theorem dspVisit (p : BitVec 4) : Statement (.dspVisit p) := of_assemble _ _ _ _ rfl
theorem dspExit (l : BitVec 4) : Statement (.dspExit l) := of_assemble _ _ _ _ rfl
theorem dspOnModem (p : BitVec 4) : Statement (.dspOnModem p) := of_assemble _ _ _ _ rfl
theorem dspOnLine (p : BitVec 4) : Statement (.dspOnLine p) := of_assemble _ _ _ _ rfl
theorem dspOnTxEmpty (p : BitVec 4) : Statement (.dspOnTxEmpty p) := of_assemble _ _ _ _ rfl
theorem dspOnRxReady (p : BitVec 4) : Statement (.dspOnRxReady p) := of_assemble _ _ _ _ rfl
theorem dspOnRxTimeout (p : BitVec 4) : Statement (.dspOnRxTimeout p) := of_assemble _ _ _ _ rfl
theorem hostRd8 (a : Half) : Statement (.hostRd8 a) := of_assemble _ _ _ _ rfl
theorem hostRd16 (a : Half) : Statement (.hostRd16 a) := of_assemble _ _ _ _ rfl
theorem hostWr8 (a : Half) : Statement (.hostWr8 a) := of_assemble _ _ _ _ rfl
theorem hostWr16 (a : Half) : Statement (.hostWr16 a) := of_assemble _ _ _ _ rfl
theorem hostInstall (l : BitVec 4) : Statement (.hostInstall l) := of_assemble _ _ _ _ rfl
theorem hostRestore (l : BitVec 4) : Statement (.hostRestore l) := of_assemble _ _ _ _ rfl
theorem hostMask (l : BitVec 4) : Statement (.hostMask l) := of_assemble _ _ _ _ rfl
theorem hostUnmask (l : BitVec 4) : Statement (.hostUnmask l) := of_assemble _ _ _ _ rfl
theorem envRxArrive (p : BitVec 4) (b : Byte) : Statement (.envRxArrive p b) := of_assemble _ _ _ _ rfl
theorem envTxShift (p : BitVec 4) : Statement (.envTxShift p) := of_assemble _ _ _ _ rfl
theorem envLineEvent (p : BitVec 4) : Statement (.envLineEvent p) := of_assemble _ _ _ _ rfl
theorem envModemEvent (p : BitVec 4) : Statement (.envModemEvent p) := of_assemble _ _ _ _ rfl
theorem envRxTimeout (p : BitVec 4) : Statement (.envRxTimeout p) := of_assemble _ _ _ _ rfl

end Laws.ClassAndReserved

end Sys2Proof
end

