-- ==== Sys2Proof/Tests/Slice0.lean ====
section
/-! SUPPORT. Tests and witnesses. The words and the expected results of the tests are those of the vectors of
spec/95_test_vectors.md (named in the docstrings) or written out from spec/30_encoding.md. A witness shows a
concrete state and operands that meet the hypotheses of the statement it is named after. -/

namespace Sys2Proof.Tests

open Sys2Proof Sys2Proof.Machine

-- one theorem after another: many kernel evaluations at once exhaust the threads of a limited process
set_option Elab.async false

/-! ### Helpers -/

/-- The state after a step, if one is reached. -/
def after : Out → Option State
  | .next t => some t
  | _ => none

/-- The state after an operation of the model, if one is reached. -/
def leaves {α : Type} : Res α → Option State
  | .ok _ t => some t
  | _ => none

/-- The state after the word `w` is issued. -/
def run (w : Word) (s : State) : Option State := after (step (s.issue w))

/-- The step of the word `w` is refused with `r`. -/
def refuses (w : Word) (s : State) (r : Refusal) : Bool :=
  match step (s.issue w) with
  | .refused e => e = r
  | _ => false

/-- A ring of capacity `cap` that holds `bs` from index 0. -/
def ring (cap : Half) (bs : List Byte) : RingBuffer where
  capacity := cap
  storage := bs.zipIdx.map fun x => (x.2, x.1)
  head := BitVec.ofNat 16 (bs.length % cap.toNat)
  tail := 0#16
  count := BitVec.ofNat 16 bs.length

/-- A non-blocking port of slot `q` with rings of capacity 4 that hold `rx` and `tx`. -/
def port (q : Slot) (rx tx : List Byte) : PortState where
  regs := regsOf Config.reference q
  rx := ring 4#16 rx
  tx := ring 4#16 tx
  blocking := false
  rxDropped := 0#32

/-- The state after reset, with five draws supplied (the first grants an allocation). -/
def s0 : State := { State.reset with draws := [1#16, 0#16, 0#16, 0#16, 0#16] }

/-- Slot `q` holds the port `ps`, its line is unmasked. -/
def opened (q : Slot) (ps : PortState) : State :=
  let l := Config.reference.lineOf.get q
  { s0 with
    slots := s0.slots.set q (some ps), life := s0.life.set q .opened, lineRefs := s0.lineRefs.set l 1,
    handler := s0.handler.set l .dispatcher }

/-- As `opened`, with the line masked. -/
def owned (q : Slot) (ps : PortState) : State :=
  (opened q ps).setMasked (Config.reference.lineOf.get q) true

/-- A STD device as OPEN leaves it (spec/70_reset_and_hazards.md R345). -/
def ready : StdDev := { StdDev.reset with fifoEn := true, trigger := .t14, ier := 0x01#8 }

/-- The handler of line `l` runs and stands at its first line. -/
def inHandler (s : State) (l : Line) : State :=
  { s with inService := s.inService.set l true, ctx := [l], dseq := s.dseq.set l (.run 1 0 .none [] 0#16) }

/-- A configuration whose devices are all absent. -/
def noDevices : Config := { Config.reference with integPresent := false, stdPresent := ⟨false, false, false⟩ }

/-- `s` under the configuration without devices. -/
def bare (s : State) : State := { s with cfg := noDevices }

/-! ### Well-formedness: the check refuses ill-formed terms -/

theorem test_wf_ackLine : (Instr.halAckLine 3#4).wellFormed = false := by decide
theorem test_wf_enter : (Instr.dspEnter 3#4).wellFormed = false := by decide
theorem test_wf_exit : (Instr.dspExit 15#4).wellFormed = false := by decide
theorem test_wf_install : (Instr.hostInstall 4#4).wellFormed = false := by decide
theorem test_wf_restore : (Instr.hostRestore 8#4).wellFormed = false := by decide
theorem test_wf_mask : (Instr.hostMask 3#4).wellFormed = false := by decide
theorem test_wf_unmask : (Instr.hostUnmask 7#4).wellFormed = false := by decide

/-! ### Decoding: a word of every operation, written out from spec/30_encoding.md R91 and R94 to R103 -/

theorem test_decode_api :
    decode 0x10000000#32 = some (.openPort 0#4) ∧ decode 0x11200000#32 = some (.configure 2#4)
    ∧ decode 0x12700000#32 = some (.send 7#4) ∧ decode 0x13300000#32 = some (.recv 3#4)
    ∧ decode 0x14080000#32 = some (.clear 0#4 .tx) ∧ decode 0x14100000#32 = some (.clear 1#4 .rx)
    ∧ decode 0x15300000#32 = some (.available 3#4) ∧ decode 0x16900000#32 = some (.close 9#4)
    ∧ decode 0x17F00000#32 = some (.rxDropped 15#4) := by decide

theorem test_decode_rb :
    decode 0x2008007F#32 = some (.rbPush 0#4 .tx 0x7F#8) ∧ decode 0x21000000#32 = some (.rbPop 0#4 .rx)
    ∧ decode 0x22080000#32 = some (.rbAvail 0#4 .tx) ∧ decode 0x23300000#32 = some (.rbClear 3#4 .rx)
    ∧ decode 0x24080103#32 = some (.rbPushN 0#4 .tx 0x0103#16)
    ∧ decode 0x2530FFFF#32 = some (.rbPopN 3#4 .rx 0xFFFF#16) := by decide

theorem test_decode_reg :
    decode 0x30F00000#32 = some (.regLookup 15#4) ∧ decode 0x31300000#32 = some (.regAlloc 3#4)
    ∧ decode 0x32100000#32 = some (.regFree 1#4) := by decide

theorem test_decode_hal :
    decode 0x40100000#32 = some (.halEnRx 1#4) ∧ decode 0x41300000#32 = some (.halEnTx 3#4)
    ∧ decode 0x42200000#32 = some (.halDisInt 2#4) ∧ decode 0x43200000#32 = some (.halCause 2#4)
    ∧ decode 0x44300000#32 = some (.halDrainRx 3#4) ∧ decode 0x45200001#32 = some (.halFillTx 2#4 1#8)
    ∧ decode 0x46100000#32 = some (.halConfig 1#4) ∧ decode 0x47200000#32 = some (.halAckLine 2#4)
    ∧ decode 0x48000000#32 = some (.halTxEmpty 0#4) ∧ decode 0x49100000#32 = some (.halDetect 1#4)
    ∧ decode 0x4A300000#32 = some (.halInit 3#4) ∧ decode 0x4B200000#32 = some (.halSnapshot 2#4)
    ∧ decode 0x4C200000#32 = some (.halRestore 2#4) ∧ decode 0x4D100000#32 = some (.halClrMs 1#4)
    ∧ decode 0x4E200000#32 = some (.halClrLs 2#4) ∧ decode 0x4F200000#32 = some (.halDisTx 2#4) := by decide

theorem test_decode_dsp :
    decode 0x50200000#32 = some (.dspEnter 2#4) ∧ decode 0x51100000#32 = some (.dspVisit 1#4)
    ∧ decode 0x52100000#32 = some (.dspExit 1#4) ∧ decode 0x53000000#32 = some (.dspOnModem 0#4)
    ∧ decode 0x54300000#32 = some (.dspOnLine 3#4) ∧ decode 0x55200000#32 = some (.dspOnTxEmpty 2#4)
    ∧ decode 0x56100000#32 = some (.dspOnRxReady 1#4)
    ∧ decode 0x57000000#32 = some (.dspOnRxTimeout 0#4) := by decide

theorem test_decode_host :
    decode 0x600003FD#32 = some (.hostRd8 0x03FD#16) ∧ decode 0x6100FF12#32 = some (.hostRd16 0xFF12#16)
    ∧ decode 0x620003F8#32 = some (.hostWr8 0x03F8#16) ∧ decode 0x6300FF22#32 = some (.hostWr16 0xFF22#16)
    ∧ decode 0x64200000#32 = some (.hostInstall 2#4) ∧ decode 0x65200000#32 = some (.hostRestore 2#4)
    ∧ decode 0x66100000#32 = some (.hostMask 1#4) ∧ decode 0x67000000#32 = some (.hostUnmask 0#4) := by decide

theorem test_decode_env :
    decode 0x70300055#32 = some (.envRxArrive 3#4 0x55#8) ∧ decode 0x71200000#32 = some (.envTxShift 2#4)
    ∧ decode 0x72000000#32 = some (.envLineEvent 0#4) ∧ decode 0x73100000#32 = some (.envModemEvent 1#4)
    ∧ decode 0x74300000#32 = some (.envRxTimeout 3#4) := by decide

/-- The illegal words of spec/95_test_vectors.md 2.5, and H33 and HO15. -/
theorem test_decode_illegal :
    [0x18000000#32, 0x1F000000#32, 0x10010000#32, 0x10080000#32, 0x10000001#32, 0x00000000#32, 0xF0000000#32,
      0x47300000#32, 0x66300000#32].all fun w => decode w = none := by decide

/-! ### Class RB -/

/-- RB1. -/
theorem test_push_full : run 0x2008007F#32 (owned .p0 (port .p0 [] [1#8, 2#8, 3#8, 4#8]))
    = some { owned .p0 (port .p0 [] [1#8, 2#8, 3#8, 4#8]) with ret := .bool false } := by decide +kernel

/-- RB6: the sum is formed before the remainder. -/
theorem test_push_wraps : (run 0x2030007F#32 (owned .p3 { port .p3 [] [] with
      rx := ⟨65535#16, [], 65534#16, 65534#16, 0#16⟩ })).map (fun t => (t.ret, (t.slots.p3.map (·.rx))))
    = some (.bool true, some ⟨65535#16, [(65534, 0x7F#8)], 0#16, 65534#16, 1#16⟩) := by decide +kernel

/-- RB7. -/
theorem test_pop_wraps : (run 0x21000000#32 (owned .p0 { port .p0 [] [] with
      rx := ⟨4#16, [(3, 0xAA#8)], 1#16, 3#16, 2#16⟩ })).map (fun t => (t.ret, (t.slots.p0.map (·.rx))))
    = some (.byte (some 0xAA#8), some ⟨4#16, [(3, 0xAA#8)], 1#16, 0#16, 1#16⟩) := by decide +kernel

/-- RB8. -/
theorem test_avail : (run 0x22080000#32 (opened .p0 (port .p0 [] [1#8, 2#8, 3#8, 4#8]))).map (·.ret)
    = some (.count 4#16) := by decide +kernel

/-- RB9. -/
theorem test_clear_ring : (run 0x23080000#32 (owned .p0 { port .p0 [] [] with
      tx := ⟨4#16, [(2, 9#8)], 1#16, 2#16, 3#16⟩ })).map (fun t => t.slots.p0.map (·.tx))
    = some (some ⟨4#16, [(2, 9#8)], 0#16, 0#16, 0#16⟩) := by decide +kernel

/-- `HBUF` of RB11 and RB14 and the sideband address. -/
def withBuf (s : State) (a : Word) (m : List Host.Cell) : State := { s with hbuf := m, side := ⟨a, 0#16, .dispatcher⟩ }

/-- RB11: two segments. -/
theorem test_pushN_segments : (run 0x24080003#32 (withBuf (owned .p0 { port .p0 [] [] with
      tx := ⟨4#16, [], 3#16, 3#16, 0#16⟩ }) 0x100#32 [(0x100, 0x41#8), (0x101, 0x42#8), (0x102, 0x43#8)])).map
      (fun t => t.slots.p0.map (·.tx))
    = some (some ⟨4#16, [(0, 0x42#8), (1, 0x43#8), (3, 0x41#8)], 2#16, 3#16, 3#16⟩) := by decide +kernel

/-- RB20. -/
theorem test_popN_segments : (run 0x25000003#32 (withBuf (owned .p0 { port .p0 [] [] with
      rx := ⟨4#16, [(0, 0x42#8), (1, 0x43#8), (3, 0x41#8)], 2#16, 3#16, 3#16⟩ }) 0x200#32 [])).map
      (fun t => (t.hbuf, t.slots.p0.map (·.rx.tail), t.slots.p0.map (·.rx.count)))
    = some ([(0x200, 0x41#8), (0x201, 0x42#8), (0x202, 0x43#8)], some 2#16, some 0#16) := by decide +kernel

/-- RB17, RB18, RB21. -/
theorem test_ring_refused :
    refuses 0x24300002#32 (owned .p3 (port .p3 [1#8, 2#8, 3#8] [])) .bulkTooLong
    ∧ refuses 0x25300002#32 (owned .p3 (port .p3 [1#8] [])) .bulkTooLong
    ∧ refuses 0x20080000#32 (opened .p0 (port .p0 [] [])) .ringUnprotected := by decide +kernel

/-! ### Class REG -/

/-- RG1, RG3, RG4. -/
theorem test_lookup : (run 0x30400000#32 s0).map (·.ret) = some (.lookup .invalid)
    ∧ (run 0x30200000#32 s0).map (·.ret) = some (.lookup .absent)
    ∧ (run 0x30200000#32 (opened .p2 (port .p2 [] []))).map (·.ret) = some (.lookup .present) := by decide +kernel

/-- RG6. -/
theorem test_alloc : (run 0x31300000#32 { s0 with a0 := 0#32, a1 := 1#32, a2 := 65535#32 }).map (·.slots.p3)
    = some (some ⟨.std 0x03E8#16, ⟨65535#16, [], 0#16, 0#16, 0#16⟩, ⟨1#16, [], 0#16, 0#16, 0#16⟩, false, 0#32⟩) := by
  decide +kernel

/-- RG5. -/
theorem test_alloc_denied :
    (run 0x31100000#32 { s0 with a1 := 8#32, a2 := 8#32, draws := [0#16] }).map (fun t => (t.ret, t.slots))
    = some (.alloc false, s0.slots) := by decide +kernel

/-- RG8. -/
theorem test_free : (run 0x32300000#32 (opened .p3 (port .p3 [] []))).map (·.slots) = some s0.slots := by
  decide +kernel

/-! ### Class HAL -/

/-- H2. -/
theorem test_enRx : (run 0x40200000#32 (s0.setInteg { IntegDev.reset with ien := 0xA000#16 })).map
      (fun t => (t.dev.integ.ien, t.trace))
    = some (0xA001#16, [.rd16 0xFF10#16 0xA000#16, .wr16 0xFF10#16 0xA001#16]) := by decide +kernel

/-- H3: the device raises the transmit-empty condition. -/
theorem test_enTx : (run 0x41300000#32 (s0.setStd .p3 ready)).map
      (fun t => (t.dev.std.p3.ier, t.dev.std.p3.cause StdMap.reference, t.trace))
    = some (0x03#8, .txEmpty, [.rd8 0x03E9#16 0x01#8, .wr8 0x03E9#16 0x03#8]) := by decide +kernel

/-- H7. -/
theorem test_disInt : (run 0x42200000#32 (s0.setInteg { IntegDev.reset with ien := 0xA003#16 })).map
      (fun t => (t.dev.integ.ien, t.trace))
    = some (0xA000#16, [.rd16 0xFF10#16 0xA003#16, .wr16 0xFF10#16 0xA000#16]) := by decide +kernel

/-- H8. -/
theorem test_disTx : (run 0x4F200000#32 (s0.setInteg { IntegDev.reset with ien := 0x0003#16 })).map
      (·.dev.integ.ien) = some 0x0001#16 := by decide +kernel

/-- H9. -/
theorem test_disTx_std : refuses 0x4F000000#32 s0 .disTxOnStd := by decide +kernel

/-- H10: an absent chip answers the draws; a reserved identity is refused. -/
theorem test_cause_std :
    (run 0x43000000#32 { bare s0 with draws := [0xCC#16] }).map (·.ret) = some (.cause .rxTimeout)
    ∧ (run 0x43000000#32 { bare s0 with draws := [0xCF#16] }).map (·.ret) = some (.cause .none)
    ∧ refuses 0x43000000#32 { bare s0 with draws := [0xCA#16] } .reservedCause := by decide +kernel

/-- H11. -/
theorem test_cause_integ :
    (run 0x43200000#32 { bare s0 with draws := [0x000B#16] }).map (·.ret) = some (.cause .lineStatus)
    ∧ (run 0x43200000#32 { bare s0 with draws := [0x0007#16] }).map (·.ret) = some (.cause .rxReady)
    ∧ (run 0x43200000#32 { bare s0 with draws := [0xFFF0#16] }).map (·.ret) = some (.cause .none) := by
  decide +kernel

/-- H14. -/
theorem test_drain_drops : (run 0x44300000#32 ((owned .p3 { port .p3 [] [] with rx := ring 1#16 [] }).setStd .p3
      { ready with rxf := [0x31#8, 0x32#8] })).map
      (fun t => (t.slots.p3.map (·.rx.storage), t.slots.p3.map (·.rxDropped), t.trace))
    = some (some [(0, 0x31#8)], some 1#32, [.rd8 0x03ED#16 0x61#8, .rd8 0x03E8#16 0x31#8, .rd8 0x03ED#16 0x61#8,
        .rd8 0x03E8#16 0x32#8, .rd8 0x03ED#16 0x60#8]) := by decide +kernel

/-- H16. -/
theorem test_drain_integ : (run 0x44200000#32 ((owned .p2 (port .p2 [] [])).setInteg
      { IntegDev.reset with rxd := some 0x5A#8, ien := 1#16 })).map
      (fun t => (t.slots.p2.map (·.rx.storage), t.dev.integ.rxd, t.trace.getLast?))
    = some (some [(0, 0x5A#8)], none, some (.rd16 0xFF1A#16 0x005A#16)) := by decide +kernel

/-- H19. -/
theorem test_fill : (run 0x45000010#32 ((owned .p0 (port .p0 [] [0x41#8, 0x42#8])).setStd .p0 ready)).map
      (fun t => (t.slots.p0.map (·.tx.count), t.dev.std.p0.txf, t.trace))
    = some (some 0#16, [0x41#8, 0x42#8], [.wr8 0x03F8#16 0x41#8, .wr8 0x03F8#16 0x42#8]) := by decide +kernel

/-- H20. -/
theorem test_fill_integ : (run 0x45200001#32 (owned .p2 (port .p2 [] [0x41#8, 0x42#8]))).map
      (fun t => (t.slots.p2.map (·.tx.count), t.dev.integ.txd)) = some (some 1#16, some 0x41#8) := by
  decide +kernel

/-- H29: 50 baud, space parity, 5 data bits, 2 stop bits. -/
theorem test_config : (run 0x46300000#32 { s0 with a0 := 50#32, a1 := 4#32, a2 := 5#32, a3 := 2#32 }).map (·.trace)
    = some [.wr8 0x03EB#16 0x80#8, .wr8 0x03E8#16 0x00#8, .wr8 0x03E9#16 0x09#8, .wr8 0x03EB#16 0x3C#8] := by
  decide +kernel

/-- H30. -/
theorem test_config_integ : (run 0x46200000#32 { s0 with a0 := 9600#32, a2 := 8#32, a3 := 1#32 }).map
      (fun t => (t.dev.integ.baud, t.dev.integ.lctl)) = some (0x0003#16, 0x0013#16) := by decide +kernel

/-- H31, H32. -/
theorem test_ackLine : (run 0x47100000#32 s0).map (·.trace) = some [.wr16 0xFF22#16 0x000C#16]
    ∧ (run 0x47000000#32 s0).map (·.trace) = some [] := by decide +kernel

/-- H23: bit 5 decides. -/
theorem test_txEmpty : (run 0x48000000#32 { bare s0 with draws := [0x40#16] }).map (·.ret) = some (.bool false)
    ∧ (run 0x48000000#32 { bare s0 with draws := [0x61#16] }).map (·.ret) = some (.bool true) := by decide +kernel

/-- H24. -/
theorem test_txEmpty_integ : (run 0x48200000#32 { bare s0 with draws := [0x0001#16] }).map (·.ret)
    = some (.bool false) := by decide +kernel

/-- H35, H36. -/
theorem test_detect : (run 0x49100000#32 { bare s0 with draws := [0xFF#16] }).map (·.ret) = some (.bool false)
    ∧ (run 0x49100000#32 { bare s0 with draws := [0#16] }).map (·.ret) = some (.bool true) := by decide +kernel

/-- H34. -/
theorem test_detect_present : (run 0x49000000#32 (s0.setStd .p0 { ready with ier := 0x0F#8 })).map
      (fun t => (t.ret, t.dev.std.p0.ier)) = some (.bool true, 0#8) := by decide +kernel

/-- H38. -/
theorem test_init : (run 0x4A300000#32 (s0.setStd .p3 { ready with
      rxf := [1#8, 2#8, 3#8], txf := [4#8, 5#8], trigger := .t4 })).map (·.dev.std.p3)
    = some { ready with threInt := true } := by decide +kernel

/-- H39. -/
theorem test_init_integ : (run 0x4A200000#32 s0).map (·.dev.integ.lctl) = some 0x0003#16 := by decide +kernel

/-- H40. -/
theorem test_snapshot : (run 0x4B200000#32 (s0.setInteg { IntegDev.reset with
      ien := 0xA5A5#16, lctl := 0x1234#16, baud := 0x0007#16 })).map (·.savedInteg)
    = some ⟨0xA5A5#16, 0x1234#16, 0x0007#16⟩ := by decide +kernel

/-- H41. -/
theorem test_restore : (run 0x4C200000#32 { s0 with savedInteg := ⟨0xA5A5#16, 0x1234#16, 0x0007#16⟩ }).map
      (fun t => (t.dev.integ, t.trace))
    = some ({ IntegDev.reset with ien := 0xA5A5#16, lctl := 0x1234#16, baud := 0x0007#16 },
        [.wr16 0xFF10#16 0xA5A5#16, .wr16 0xFF14#16 0x1234#16, .wr16 0xFF16#16 0x0007#16]) := by decide +kernel

/-- H43. -/
theorem test_clrMs : (run 0x4D100000#32 { s0.setStd .p1 { ready with msDelta := 2#4 } with draws := [0#16] }).map
      (fun t => (t.dev.std.p1.msDelta, t.trace)) = some (0#4, [.rd8 0x02FE#16 0x02#8]) := by decide +kernel

/-- H45. -/
theorem test_clrLs : (run 0x4E100000#32 (s0.setStd .p1 { ready with lsErr := 1#4 })).map
      (fun t => (t.dev.std.p1.lsErr, t.trace)) = some (0#4, [.rd8 0x02FD#16 0x62#8]) := by decide +kernel

/-! ### Class DSP -/

/-- Port 0 open, with 14 bytes waiting in its device. -/
def waiting : State :=
  (opened .p0 (port .p0 [] [])).setStd .p0 { ready with rxf := List.replicate 14 0x20#8 }

/-- DS1, the enabled row. -/
theorem test_enter : (run 0x50000000#32 waiting).map (fun t => (t.inService, t.ctx))
    = some (⟨true, false, false⟩, [.l0]) := by decide +kernel

/-- DS1, the other rows. -/
theorem test_enter_not :
    (run 0x50000000#32 (waiting.setMasked .l0 true)).map (·.ctx) = some []
    ∧ (run 0x50000000#32 (waiting.setInService .l0 true)).map (·.ctx) = some []
    ∧ (run 0x50000000#32 (waiting.setHandler .l0 (.external 0#32))).map (·.ctx) = some []
    ∧ (run 0x50000000#32 (opened .p0 (port .p0 [] []))).map (·.ctx) = some [] := by decide +kernel

/-- DS3: the visit of port 1 and of the closed port 0. -/
theorem test_visit : let s := inHandler ((opened .p1 (port .p1 [] [])).setStd .p1
      { ready with rxf := [0xAA#8, 0xBB#8], rxTo := true }) .l0
    (run 0x51000000#32 s).map (·.trace) = some []
    ∧ (run 0x51100000#32 s).map (·.trace) = some [.rd8 0x02FA#16 0xCC#8, .rd8 0x02FD#16 0x61#8,
        .rd8 0x02F8#16 0xAA#8, .rd8 0x02FD#16 0x61#8, .rd8 0x02F8#16 0xBB#8, .rd8 0x02FD#16 0x60#8,
        .rd8 0x02FA#16 0xC1#8] := by decide +kernel

/-- DS6: the latch clear. -/
theorem test_visit_integ : (run 0x51200000#32 (inHandler ((opened .p2 (port .p2 [] [])).setInteg
      { IntegDev.reset with ien := 0xA503#16 }) .l1)).map (·.trace)
    = some [.rd16 0xFF12#16 0x0006#16, .rd16 0xFF10#16 0xA503#16, .wr16 0xFF10#16 0xA501#16,
        .rd16 0xFF12#16 0x0002#16] := by decide +kernel

/-- DS4: the exit of the integrated line. -/
theorem test_exit : (run 0x52100000#32 (inHandler (opened .p2 (port .p2 [] [])) .l1)).map
      (fun t => (t.inService, t.ctx, t.dseq.l1, t.trace))
    = some (⟨false, false, false⟩, [], .idle, [.wr16 0xFF22#16 0x000C#16]) := by decide +kernel

/-- DS8: the action. -/
theorem test_onModem : (run 0x53000000#32 { s0.setStd .p0 { ready with msDelta := 1#4 } with draws := [0#16] }).map
      (fun t => (t.dev.std.p0.msDelta, t.trace)) = some (0#4, [.rd8 0x03FE#16 0x01#8]) := by decide +kernel

/-- DS9: the action. -/
theorem test_onLine : (run 0x54000000#32 (s0.setStd .p0 { ready with lsErr := 4#4 })).map (·.trace)
    = some [.rd8 0x03FD#16 0x68#8] := by decide +kernel

/-- DS2: the action of port 1. -/
theorem test_onTxEmpty : (run 0x55100000#32 (inHandler ((opened .p1 (port .p1 [] [0x71#8, 0x72#8])).setStd .p1
      { ready with ier := 3#8 }) .l0)).map (·.trace)
    = some [.wr8 0x02F8#16 0x71#8, .wr8 0x02F8#16 0x72#8] := by decide +kernel

/-- DS4: the action. -/
theorem test_onRxReady : (run 0x56200000#32 (inHandler ((opened .p2 (port .p2 [] [])).setInteg
      { IntegDev.reset with rxd := some 0x5A#8 }) .l1)).map (fun t => t.slots.p2.map (·.rx.storage))
    = some (some [(0, 0x5A#8)]) := by decide +kernel

/-- DS3: the action. -/
theorem test_onRxTimeout : (run 0x57100000#32 (inHandler ((opened .p1 (port .p1 [] [])).setStd .p1
      { ready with rxf := [0xAA#8, 0xBB#8], rxTo := true }) .l0)).map
      (fun t => (t.slots.p1.map (·.rx.storage), t.dev.std.p1.rxTo))
    = some (some [(0, 0xAA#8), (1, 0xBB#8)], false) := by decide +kernel

/-! ### Class HOST -/

/-- HO1, HO2, HO3. -/
theorem test_rd8 : (run 0x600003FD#32 (s0.setStd .p0 ready)).map (·.ret) = some (.u8 0x60#8)
    ∧ (run 0x600003FA#32 s0).map (·.ret) = some (.u8 0x01#8)
    ∧ (run 0x60001234#32 { s0 with draws := [0xABCD#16] }).map (·.ret) = some (.u8 0xCD#8) := by decide +kernel

/-- HO8, HO16. -/
theorem test_rd16 :
    (run 0x6100FF10#32 (s0.setInteg { IntegDev.reset with ien := 0xA501#16 })).map (·.ret) = some (.u16 0xA501#16)
    ∧ refuses 0x610003F8#32 s0 .wrongWidth := by decide +kernel

/-- The sideband value. -/
def withValue (s : State) (v : Half) : State := { s with side := ⟨0#32, v, .dispatcher⟩ }

/-- HO5, HO6, HO7. -/
theorem test_wr8 :
    (run 0x620003F8#32 (withValue (s0.setStd .p0 { ready with threInt := true }) 0x41#16)).map (·.dev.std.p0)
      = some { ready with txf := [0x41#8] }
    ∧ (run 0x620003F8#32 (withValue (s0.setStd .p0 { ready with lcr := 0x80#8 }) 0x0C#16)).map (·.dev.std.p0)
      = some { ready with lcr := 0x80#8, dll := 0x0C#8 }
    ∧ (run 0x620003F8#32 (withValue (s0.setStd .p0 { ready with txf := List.replicate 16 1#8 }) 0x99#16)).map
      (·.dev.std.p0.txf.length) = some 16 := by decide +kernel

/-- spec/20_memory.md R69: a 16-bit write in the block of an absent chip is ignored; of a present one refused. -/
theorem test_wr16_std : (run 0x630003F8#32 (withValue (bare s0) 0x1234#16)).map (fun t => (t.dev, t.trace))
      = some (s0.dev, [.wr16 0x03F8#16 0x1234#16])
    ∧ refuses 0x630003F8#32 (withValue s0 0x1234#16) .wrongWidth := by decide +kernel

/-- R153: a chip whose trigger codes run the other way takes the one the FCR names. -/
theorem test_trigger_code :
    RxTrigger.ofFcr StdMap.reference 0xC1#8 = .t14
    ∧ RxTrigger.ofFcr { StdMap.reference with fcrT1 := 3#2, fcrT14 := 0#2 } 0xC1#8 = .t1 := by decide

/-- HO9, HO10. -/
theorem test_wr16 :
    (run 0x6300FF18#32 (withValue (s0.setInteg { IntegDev.reset with txd := some 0x58#8 }) 0x59#16)).map
      (·.dev.integ.txd) = some (some 0x58#8)
    ∧ (run 0x6300FF22#32 (withValue s0 0x000C#16)).map (·.dev) = some s0.dev := by decide +kernel

/-- HO13. -/
theorem test_install : (run 0x64200000#32 s0).map (fun t => (t.ret, t.handler.l2))
    = some (.handler (.external 0#32), .dispatcher) := by decide +kernel

/-- HO14. -/
theorem test_restore_vector : (run 0x65200000#32 { s0.setHandler .l2 .dispatcher with
      side := ⟨0#32, 0#16, .external 7#32⟩ }).map (·.handler.l2) = some (.external 7#32) := by decide +kernel

/-- HO11, HO12: masks are not counted. -/
theorem test_mask : (run 0x66000000#32 (s0.setMasked .l0 true)).map (·.masked.l0) = some true
    ∧ (run 0x67000000#32 (s0.setMasked .l0 true)).map (·.masked.l0) = some false := by decide +kernel

/-! ### Class ENV -/

/-- E1, E2. -/
theorem test_arrive :
    (run 0x70300055#32 (s0.setStd .p3 { ready with rxf := List.replicate 13 0#8 })).map (·.dev.std.p3.cause StdMap.reference)
      = some .rxReady
    ∧ (run 0x70300056#32 (s0.setStd .p3 { ready with rxf := List.replicate 16 0#8 })).map
      (fun t => (t.dev.std.p3.lsErr, t.wireRx.p3)) = some (1#4, [0x56#8]) := by decide +kernel

/-- DS5: the overrun of the integrated device. -/
theorem test_arrive_integ : (run 0x7020005B#32 (s0.setInteg { IntegDev.reset with rxd := some 0x5A#8 })).map
      (fun t => (t.dev.integ.rxd, t.dev.integ.lineErr)) = some (some 0x5A#8, true) := by decide +kernel

/-- E4, E5, E6. -/
theorem test_shift :
    (run 0x71000000#32 (s0.setStd .p0 { ready with txf := [0x41#8], ier := 3#8 })).map
      (fun t => (t.dev.std.p0.txf, t.wireTx.p0, t.dev.std.p0.cause StdMap.reference)) = some ([], [0x41#8], .txEmpty)
    ∧ (run 0x71000000#32 (s0.setStd .p0 { ready with txf := [0x41#8, 0x42#8] })).map (·.dev.std.p0.threInt)
      = some false
    ∧ (run 0x71000000#32 s0) = some s0 := by decide +kernel

/-- E7. -/
theorem test_shift_integ : (run 0x71200000#32 (s0.setInteg
      { IntegDev.reset with txd := some 0x58#8, ien := 0xA503#16 })).map
      (fun t => (t.dev.integ.txd, t.wireTx.p2, t.devIrq .p2)) = some (none, [0x58#8], true) := by decide +kernel

/-- E11. -/
theorem test_lineEvent : (run 0x72000000#32 { s0.setStd .p0 ready with draws := [1#16] }).map
      (fun t => (t.dev.std.p0.lsErr, t.dev.std.p0.cause StdMap.reference)) = some (0b0010#4, .none) := by decide +kernel

/-- DS8: the event. -/
theorem test_modemEvent : (run 0x73000000#32 { s0.setStd .p0 { ready with ier := 9#8 } with draws := [0#16] }).map
      (fun t => (t.dev.std.p0.msDelta, t.dev.std.p0.cause StdMap.reference)) = some (1#4, .modemStatus) := by decide +kernel

/-- E8, E9, E10. -/
theorem test_rxTimeout :
    (run 0x74300000#32 (s0.setStd .p3 { ready with rxf := List.replicate 5 0#8 })).map (·.dev.std.p3.cause StdMap.reference)
      = some .rxTimeout
    ∧ run 0x74300000#32 s0 = some s0 ∧ run 0x74200000#32 s0 = some s0 ∧ run 0x73200000#32 s0 = some s0 := by
  decide +kernel

/-! ### Class API -/

/-- The standard open trace of port 0. -/
theorem test_open : (run 0x10000000#32 { s0 with a1 := 8#32, a2 := 8#32 }).map (fun t => (t.r0, t.life.p0, t.trace))
    = some (0#32, .opened, [.wr8 0x03F9#16 0x00#8, .rd8 0x03F9#16 0x00#8, .mask .l0,
        .install .l0 .dispatcher (.external 0#32), .wr8 0x03FA#16 0xC7#8, .rd8 0x03F9#16 0x00#8,
        .wr8 0x03F9#16 0x01#8, .unmask .l0]) := by decide +kernel

/-- What an OPEN with rings of 8 bytes and the mode `m` leaves: `R0`, `LASTERR` and the registry. -/
def openError (w m tx : Word) (s : State) : Option (Word × Byte × Bool) :=
  (run w { s with a0 := m, a1 := tx, a2 := 8#32 }).map fun t => (t.r0, t.lasterr, t.slots = s.slots)

/-- A1, A5, A7, A8, A9, A14. -/
theorem test_open_errors :
    openError 0x10400000#32 0#32 8#32 s0 = some (0xFFFFFFFF#32, 1#8, true)
    ∧ openError 0x10000000#32 2#32 8#32 s0 = some (0xFFFFFFFF#32, 6#8, true)
    ∧ openError 0x10000000#32 0#32 0#32 s0 = some (0xFFFFFFFF#32, 5#8, true)
    ∧ openError 0x10000000#32 0#32 8#32 { s0 with draws := [0#16] } = some (0xFFFFFFFF#32, 8#8, true)
    ∧ openError 0x10100000#32 0#32 8#32 { bare s0 with draws := [1#16, 0xFF#16] }
      = some (0xFFFFFFFF#32, 2#8, true)
    ∧ openError 0x10000000#32 2#32 0#32 s0 = some (0xFFFFFFFF#32, 6#8, true) := by decide +kernel

/-- A34. -/
theorem test_configure : (run 0x11000000#32 { opened .p0 (port .p0 [] []) with
      a0 := 9600#32, a1 := 3#32, a2 := 5#32, a3 := 2#32 }).map (fun t => (t.r0, t.trace))
    = some (0#32, [.mask .l0, .wr8 0x03FB#16 0x80#8, .wr8 0x03F8#16 0x0C#8, .wr8 0x03F9#16 0x00#8,
        .wr8 0x03FB#16 0x2C#8, .unmask .l0]) := by decide +kernel

/-- A35: a full ring and a busy device. -/
theorem test_send_full : (run 0x12000000#32 { (opened .p0 (port .p0 [] [1#8, 2#8, 3#8, 4#8])).setStd .p0
      { ready with txf := [1#8] } with a0 := 0x100#32, a1 := 2#32 }).map (fun t => (t.r0, t.trace))
    = some (0#32, [.mask .l0, .rd8 0x03FD#16 0x00#8, .unmask .l0]) := by decide +kernel

/-- A37. -/
theorem test_send_outside : refuses 0x12000000#32 { opened .p0 (port .p0 [] []) with
    a0 := 0xFFF0#32, a1 := 0x20#32 } .bufferOutside := by decide +kernel

/-- R233: a receive of the two bytes waiting. -/
theorem test_recv : (run 0x13000000#32 { opened .p0 (port .p0 [0x41#8, 0x42#8] []) with
      a0 := 0x200#32, a1 := 4#32 }).map (fun t => (t.r0, t.hbuf, t.trace))
    = some (2#32, [(0x200, 0x41#8), (0x201, 0x42#8)], [.mask .l0, .unmask .l0]) := by decide +kernel

/-- A39. -/
theorem test_clear : (run 0x14000000#32 (opened .p0 { port .p0 [1#8, 2#8, 3#8] [] with rxDropped := 2#32 })).map
      (fun t => (t.r0, t.slots.p0.map (·.rx.count), t.slots.p0.map (·.rxDropped), t.trace))
    = some (0#32, some 0#16, some 2#32, [.mask .l0, .unmask .l0]) := by decide +kernel

/-- spec/20_memory.md R79: a byte that arrives between the read and the return of AVAILABLE is not counted. -/
theorem test_available_stale : let s := { opened .p0 (port .p0 [1#8] []) with moves := [.cmd 0x15000000#32] }
    let read := ((after (step s)).bind fun t => (leaves (coreStep t)).bind fun t => leaves (coreStep t))
    let grown := read.map fun t => t.setSlot .p0 (some (port .p0 [1#8, 2#8] []))
    (grown.bind fun t => leaves (coreStep t)).map (fun t => (t.r0, t.mseq)) = some (1#32, .idle) := by
  decide +kernel

/-- A20, and R234 on an open port. -/
theorem test_available : (run 0x15300000#32 s0).map (fun t => (t.r0, t.lasterr)) = some (0xFFFFFFFF#32, 4#8)
    ∧ (run 0x15000000#32 (opened .p0 (port .p0 [1#8, 2#8] []))).map (·.r0) = some 2#32 := by decide +kernel

/-- A24. -/
theorem test_close_closed : (run 0x16000000#32 s0).map (fun t => (t.r0, t.trace, t.slots))
    = some (0#32, [], s0.slots) := by decide +kernel

/-- R216: the close of the last port of a line gives its vector back. -/
theorem test_close : (run 0x16000000#32 ((opened .p0 (port .p0 [] [])).setSaved .l0 (.external 9#32))).map
      (fun t => (t.handler.l0, t.lineRefs.l0, t.life.p0, t.masked.l0)) = some (.external 9#32, 0, .closed, true) := by
  decide +kernel

/-- A40. -/
theorem test_rxDropped : (run 0x17300000#32 (opened .p3 { port .p3 [] [] with rxDropped := 0xFFFFFFFF#32 })).map
      (·.r0) = some 0x7FFFFFFF#32 := by decide +kernel

/-- The illegal and misplaced words on `CMD` of spec/95_test_vectors.md 2.5. -/
theorem test_cmd_refused : writeCmd 0x18000000#32 s0 = .refused .illegalWord
    ∧ writeCmd 0x20000041#32 s0 = .refused .notOnCmd ∧ writeCmd 0x66000000#32 s0 = .refused .notOnCmd :=
  ⟨rfl, rfl, rfl⟩

/-! ### Witnesses: states and operands that meet the hypotheses of each statement -/

/-- M runs the command `op` on port 0 and stands at its line 2. -/
def running (s : State) (op : ApiOp) : State := s.atLine ⟨op, 0#4⟩ 2 0#32 0#32

/-- Operands of a transfer of `n` bytes at `a`. -/
def transfer (s : State) (a n : Word) : State := { s with a0 := a, a1 := n }

/-- `s` under edge triggering. -/
def edged (s : State) : State := { s with cfg := { s.cfg with trigger := .edge } }

/-- A legal configuration, a closed or open port with the address record of its slot. -/
def plain (s : State) (q : Slot) : Bool := s.cfg.wf && s.regs q = regsOf s.cfg q

/-- A port that ring mutators may change. -/
def ownsPort (s : State) (q : Slot) (ps : PortState) : Bool :=
  s.slots.get q = some ps && s.ringOwned q && ps.rx.ok && ps.tx.ok && ps.regs = regsOf s.cfg q && s.cfg.wf

/-- M idle and no handler running. -/
def quiet (s : State) : Bool := s.mseq = .idle && s.ctx = []

theorem witness_DecodeOfEncode : (Instr.dspExit 2#4).wellFormed = true
    ∧ (Instr.rbPopN 15#4 .tx 0xFFFF#16).wellFormed = true := by decide

theorem witness_EncodeOfDecode : decode 0x52200000#32 = some (.dspExit 2#4)
    ∧ decode 0x25F8FFFF#32 = some (.rbPopN 15#4 .tx 0xFFFF#16) := by decide

theorem witness_IllegalWordsAreTheOthers : decode 0x52300000#32 = none ∧ s0.cfg.wf = true := by decide +kernel

theorem witness_StepRunsTheDecodedInstr : s0.cfg.wf = true ∧ decode 0x12700000#32 = some (.send 7#4)
    ∧ (s0.issue 0x12700000#32).moves = [.word 0x12700000#32]
    ∧ decodeTableWord 32 0x12700000 = some (.send 7#4)
    ∧ { s0 with moves := [.core] }.moves = [.core] ∧ s0.moves = []
    ∧ { s0 with moves := [.cmd 0x10000000#32] }.moves = [.cmd 0x10000000#32]
    ∧ { s0 with moves := [.setX 7#3 1#32] }.moves = [.setX 7#3 1#32]
    ∧ { s0 with moves := [.poke 0xFFFF#32 1#8] }.moves = [.poke 0xFFFF#32 1#8]
    ∧ { s0 with moves := [.peek 0#32] }.moves = [.peek 0#32]
    ∧ { Config.reference with eoiAddr := 0x03F8#16 }.wf = false := by decide +kernel

theorem witness_CommandRegister : decode 0x66200000#32 = some (.hostMask 2#4)
    ∧ apiCommand (.hostMask 2#4) = none ∧ decode 0x14080000#32 = some (.clear 0#4 .tx)
    ∧ apiCommand (.clear 0#4 .tx) = some ⟨.clear .tx, 0#4⟩ ∧ s0.mseq = .idle
    ∧ (running s0 .send).mseq ≠ .idle ∧ (inHandler s0 .l0).mseq = .idle ∧ (inHandler s0 .l0).ctx ≠ [] := by
  decide +kernel

/-- The first and the last byte of a running buffer, the byte after it, the last byte of `HBUF` and the address
after it. -/
theorem witness_HostMailboxAndBuffer : let s := running (transfer s0 0x100#32 2#32) .recv
    s0.mseq = .idle ∧ s.mseq ≠ .idle ∧ (3#3).toNat < 4 ∧ 6 ≤ (6#3).toNat ∧ 6 ≤ (7#3).toNat
    ∧ bufferHeld s 0x100#32 = true ∧ bufferHeld s 0x101#32 = true ∧ bufferHeld s 0x102#32 = false
    ∧ (0xFFFF#32).toNat < 2 ^ s.cfg.haddrBits ∧ ¬(0x10000#32).toNat < 2 ^ s.cfg.haddrBits
    ∧ recvRuns s = true ∧ recvRuns s0 = false := by decide +kernel

theorem witness_StepKeepsTheDataInvariant :
    let s := transfer (owned .p0 (port .p0 [0x41#8] [])) 0x100#32 4#32
    s.dataOk = true ∧ (s.issue 0x13000000#32).dataOk = true ∧ (run 0x13000000#32 s).isSome = true := by
  decide +kernel

theorem witness_StepKeepsThePreemptionStack : (waiting.issue 0x50000000#32).ctxOk = true
    ∧ (run 0x50000000#32 waiting).isSome = true
    ∧ ((inHandler waiting .l0).issue 0x52000000#32).ctxOk = true
    ∧ (run 0x52000000#32 (inHandler waiting .l0)).isSome = true := by decide +kernel

/-- The state with port 0 open is between commands. -/
theorem linesAgree_waiting : waiting.linesAgree := by
  refine ⟨fun q => by cases q <;> rfl, fun l => ?_⟩
  cases l <;> decide +kernel

/-- M between lines 6 and 7 of OPEN of port 1, the line of which port 0 has open: counted, not yet `Opened`. -/
def midOpen : State :=
  { waiting with
    slots := waiting.slots.set .p1 (some (port .p1 [] [])), life := waiting.life.set .p1 .opening,
    lineRefs := waiting.lineRefs.set .l0 2, mseq := .run ⟨.openPort, 1#4⟩ 7 ⟨0#32, 0#32, 0, [], 0#16⟩ }

/-- M at the spin of CLOSE of port 0. -/
def midClose : State :=
  { waiting with life := waiting.life.set .p0 .closing, mseq := .run ⟨.close, 0#4⟩ 2 ⟨0#32, 0#32, 0, [], 0#16⟩ }

/-- The three moments: M idle, in the middle of OPEN and in the middle of CLOSE. -/
theorem linesInv_moments : waiting.linesInv ∧ midOpen.linesInv ∧ midClose.linesInv := by
  refine ⟨⟨fun q => ?_, fun l => ?_⟩, ⟨fun q => ?_, fun l => ?_⟩, ⟨fun q => ?_, fun l => ?_⟩⟩
  · cases q <;> exact rfl
  · cases l <;> decide +kernel
  · cases q <;> first | exact rfl | exact ⟨rfl, rfl⟩
  · cases l <;> decide +kernel
  · cases q <;> first | exact rfl | exact ⟨rfl, rfl⟩
  · cases l <;> decide +kernel

theorem witness_CommandsKeepTheLinesInAgreement :
    waiting.linesInv ∧ midOpen.linesInv ∧ midClose.linesInv ∧ waiting.mseq = .idle
    ∧ rewires (.close 0#4) = false ∧ (after (exec (.close 0#4) waiting)).isSome = true
    ∧ rewires (.dspEnter 0#4) = false ∧ (after (exec (.dspEnter 0#4) midOpen)).isSome = true
    ∧ midOpen.moves = [] ∧ (after (step midOpen)).isSome = true
    ∧ midClose.moves = [] ∧ (after (step midClose)).isSome = true :=
  ⟨linesInv_moments.1, linesInv_moments.2.1, linesInv_moments.2.2, by decide +kernel⟩

theorem witness_StackChangesOnlyByEntryAndReturn :
    waiting.ctx = [] ∧ (after (exec (.dspEnter 0#4) waiting)).map (·.ctx) = some [.l0]
    ∧ (inHandler waiting .l0).ctx = [.l0]
    ∧ (after (exec (.dspExit 0#4) (inHandler waiting .l0))).map (·.ctx) = some []
    ∧ (let s := { inHandler waiting .l0 with dseq := waiting.dseq.set .l0 (.run 1 2 .none [] 0#16) }
      s.ctx = [.l0] ∧ (leaves (coreStep s)).map (·.ctx) = some []) := by decide +kernel

theorem witness_HandlerStepsLeaveTheMainlineAlone : (inHandler waiting .l0).ctx ≠ []
    ∧ (leaves (coreStep (inHandler waiting .l0))).isSome = true := by decide +kernel

/-- An operation of each class, and a step. -/
theorem witness_ClassFrames : let s := owned .p0 (port .p0 [] [1#8])
    (after (exec (.available 0#4) s)).isSome = true ∧ (after (exec (.rbPop 0#4 .tx) s)).isSome = true
    ∧ (after (exec (.regFree 0#4) s)).isSome = true ∧ (after (exec (.halEnTx 0#4) s)).isSome = true
    ∧ (after (exec (.dspVisit 0#4) s)).isSome = true ∧ (after (exec (.hostMask 2#4) s)).isSome = true
    ∧ (after (exec (.envRxArrive 0#4 1#8) s)).isSome = true ∧ (after (step s)).isSome = true := by decide +kernel

theorem witness_FailedCommandsLeaveNoTrace : (Instr.openPort 1#4).cls = 1#4 ∧ waiting.mseq = .idle
    ∧ waiting.ctx = [] ∧ waiting.linesAgree
    ∧ (after (exec (.openPort 1#4) waiting)).map (fun t => (t.mseq, t.r0)) = some (.idle, 0xFFFFFFFF#32) :=
  ⟨rfl, rfl, rfl, linesAgree_waiting, by decide +kernel⟩

theorem witness_MicroOpsNeedASlot : 4 ≤ (4#4).toNat ∧ 4 ≤ (15#4).toNat ∧ 3 ≤ (3#4).toNat := by decide

/-! Rings. -/

/-- An empty ring, a ring with one byte free and a full ring. -/
theorem witness_RbPush : let e := port .p0 [] []
    let n := port .p0 [] [1#8, 2#8, 3#8]
    let f := port .p0 [] [1#8, 2#8, 3#8, 4#8]
    ownsPort (owned .p0 e) .p0 e = true ∧ e.tx.count ≠ e.tx.capacity
    ∧ ownsPort (owned .p0 n) .p0 n = true ∧ n.tx.count ≠ n.tx.capacity
    ∧ ownsPort (owned .p0 f) .p0 f = true ∧ f.tx.count = f.tx.capacity := by decide +kernel

/-- An empty ring, a ring whose oldest byte was written and one whose oldest byte was not. -/
theorem witness_RbPop : let e := port .p0 [] []
    let w := port .p0 [] [1#8]
    let u := { port .p0 [] [] with tx := ⟨4#16, [], 1#16, 0#16, 1#16⟩ }
    ownsPort (owned .p0 e) .p0 e = true ∧ e.tx.count = 0#16
    ∧ ownsPort (owned .p0 w) .p0 w = true ∧ w.tx.count ≠ 0#16 ∧ cellsRead w.tx.storage 0 = some 1#8
    ∧ ownsPort (owned .p0 u) .p0 u = true ∧ u.tx.count ≠ 0#16 ∧ cellsRead u.tx.storage 0 = none := by
  decide +kernel

theorem witness_RbAvailAndClear : ownsPort (owned .p3 (port .p3 [1#8] [])) .p3 (port .p3 [1#8] []) = true := by
  decide +kernel

/-- A run of no bytes, and one that fills the ring across its end from the last bytes of `HBUF`. -/
theorem witness_RbPushN : let ps := { port .p0 [] [] with tx := ⟨4#16, [], 3#16, 3#16, 0#16⟩ }
    let s := withBuf (owned .p0 ps) 65532#32 [(65532, 1#8), (65533, 2#8), (65534, 3#8), (65535, 4#8)]
    ownsPort s .p0 ps = true ∧ (4#16).toNat ≤ ps.tx.capacity.toNat - ps.tx.count.toNat
    ∧ s.side.addr.toNat + (4#16).toNat ≤ 65536
    ∧ (∀ j, j < (4#16).toNat → (cellsRead s.hbuf (s.side.addr.toNat + j)).isSome = true)
    ∧ (0#16).toNat = 0 := by decide +kernel

theorem witness_RbPopN : let ps := { port .p0 [1#8, 2#8, 3#8, 4#8] [] with tx := ring 4#16 [] }
    let s := withBuf (owned .p0 ps) 65532#32 []
    ownsPort s .p0 ps = true ∧ (4#16).toNat ≤ ps.rx.count.toNat ∧ s.side.addr.toNat + (4#16).toNat ≤ 65536
    ∧ (∀ j, j < (4#16).toNat →
        (cellsRead ps.rx.storage ((ps.rx.tail.toNat + j) % ps.rx.capacity.toNat)).isSome = true)
    ∧ (0#16).toNat = 0 := by decide +kernel

theorem witness_RingStops : let ps := port .p0 [1#8] [1#8]
    let s := withBuf (owned .p0 ps) 65535#32 []
    s0.slots.get .p0 = none ∧ ((opened .p0 ps).slots.get .p0).isSome = true ∧ (opened .p0 ps).ctx = []
    ∧ (opened .p0 ps).masked.get ((opened .p0 ps).cfg.lineOf.get .p0) = false
    ∧ (inHandler (opened .p0 ps) .l2).ctx = [.l2] ∧ Line.l2 ≠ Config.reference.lineOf.get .p0
    ∧ ownsPort s .p0 ps = true ∧ ps.tx.capacity.toNat - ps.tx.count.toNat < (4#16).toNat
    ∧ ps.rx.count.toNat < (2#16).toNat ∧ (2#16).toNat ≤ ps.tx.capacity.toNat - ps.tx.count.toNat
    ∧ 65536 < s.side.addr.toNat + (2#16).toNat ∧ s.side.addr.toNat + (1#16).toNat ≤ 65536
    ∧ cellsRead s.hbuf (s.side.addr.toNat + 0) = none := by decide +kernel

/-- A buffer past the end of `HBUF` in a bulk pop. -/
theorem witness_RingStops_pop : let ps := port .p0 [1#8, 2#8] []
    let s := withBuf (owned .p0 ps) 65535#32 []
    ownsPort s .p0 ps = true ∧ (2#16).toNat ≤ ps.rx.count.toNat ∧ 0 < (2#16).toNat
    ∧ 65536 < s.side.addr.toNat + (2#16).toNat := by decide +kernel

theorem witness_BulkAgreesWithSingles : let ps := { port .p0 [1#8, 2#8] [] with tx := ⟨4#16, [], 3#16, 3#16, 0#16⟩ }
    let s := withBuf (owned .p0 ps) 0#32 [(0x100, 1#8), (0x101, 2#8)]
    ownsPort s .p0 ps = true ∧ 0x100 + 2 ≤ 65536 ∧ 2 ≤ ps.tx.room
    ∧ cellsReadList s.hbuf 0x100 2 = some [1#8, 2#8] ∧ 2 ≤ ps.rx.count.toNat := by decide +kernel

theorem witness_RingIsAFifo : let ps := port .p0 [1#8, 2#8] []
    ownsPort (owned .p0 ps) .p0 ps = true ∧ (∀ x ∈ ps.rx.queued, x.isSome = true) ∧ ps.rx.queued.length = 2 := by
  decide +kernel

/-! Registry. -/

/-- The least and the greatest capacity, one too many and none, and both answers of the oracle. -/
theorem witness_RegistryOperations : s0.slots.get .p0 = none ∧ s0.cfg.capMin = 1 ∧ s0.cfg.capMax = 65535
    ∧ ((opened .p0 (port .p0 [] [])).slots.get .p0).isSome = true
    ∧ (1 ≤ (1#32).toNat ∧ (1#32).toNat ≤ 65535) ∧ (1 ≤ (65535#32).toNat ∧ (65535#32).toNat ≤ 65535)
    ∧ ¬(65536#32).toNat ≤ 65535 ∧ ¬1 ≤ (0#32).toNat
    ∧ s0.drawValue.getLsbD 0 = true
    ∧ ({ s0 with draws := [0#16] } : State).drawValue.getLsbD 0 = false := by decide +kernel

/-! The mux. -/

/-- Each variant, with its device present and with no device. -/
theorem witness_HalEnables : plain s0 .p3 = true ∧ plain (bare s0) .p3 = true ∧ plain s0 .p2 = true
    ∧ plain (opened .p2 (port .p2 [] [])) .p2 = true ∧ Slot.kind .p3 = .std .p3 ∧ Slot.kind .p2 = .integ
    ∧ s0.cfg.stdPresent.get .p3 = true ∧ (s0.dev.std.get .p3).lcr &&& StdMap.reference.lcrDlab = 0#8
    ∧ s0.cfg.integPresent = true := by decide +kernel

/-- What the read of the cause register answers. -/
def iirOf (v : Half) : Option (Half × State) :=
  match ioRd8 0x03FA#16 { bare s0 with draws := [v] } with
  | .ok r t => some (r.setWidth 16, t)
  | _ => none

/-- Every value of the cause register, on a chip that is absent. -/
theorem witness_HalCauseDecodes : plain (bare s0) .p0 = true ∧ plain s0 .p2 = true
    ∧ ([0xC1#16, 0xC0#16, 0xC2#16, 0xC4#16, 0xC6#16, 0xCC#16, 0xC8#16, 0xCA#16, 0xCE#16].map fun v =>
        (iirOf v).map fun r => (r.1.getLsbD 0, (r.1.extractLsb' 1 3).toNat))
      = [some (true, 0), some (false, 0), some (false, 1), some (false, 2), some (false, 3), some (false, 6),
        some (false, 4), some (false, 5), some (false, 7)] := by decide +kernel

/-- A device with every condition, and then with the first one, two, three and four gone. -/
theorem witness_CausePriority :
    let most := { ready with ier := 0x0F#8, lsErr := 1#4, rxf := List.replicate 14 0#8, threInt := true }
    let all := { most with msDelta := 8#4 }
    let d2 := { all with lsErr := 0#4 }
    let d3 := { d2 with rxf := List.replicate 13 0#8, rxTo := true }
    let d4 := { d2 with rxf := [] }
    let d5 := { d4 with threInt := false }
    all.lsErr ≠ 0#4 ∧ all.ier.getLsbD 2 = true ∧ d2.trigger.level ≤ d2.rxf.length ∧ d2.ier.getLsbD 0 = true
    ∧ d3.rxTo = true ∧ 0 < d3.rxf.length ∧ d3.rxf.length < d3.trigger.level
    ∧ d4.threInt = true ∧ d4.ier.getLsbD 1 = true ∧ ¬d4.trigger.level ≤ d4.rxf.length
    ∧ d5.threInt = false ∧ d5.msDelta ≠ 0#4 ∧ d5.ier.getLsbD 3 = true
    ∧ plain (s0.setStd .p0 all) .p0 = true ∧ s0.cfg.stdPresent.get .p0 = true := by decide +kernel

/-- The states of the INTEG device that the clauses tell apart. -/
theorem witness_CausePriority_integ : let d := { IntegDev.reset with ien := 0x0003#16 }
    plain s0 .p2 = true ∧ s0.cfg.integPresent = true ∧ { d with lineErr := true }.lineErr = true
    ∧ { d with rxd := some 1#8 }.rxd ≠ none ∧ d.lineErr = false ∧ d.rxd = none ∧ d.txd = none
    ∧ d.ien &&& s0.cfg.imTxie ≠ 0#16 ∧ { d with txd := some 1#8 }.txd ≠ none
    ∧ IntegDev.reset.ien &&& s0.cfg.imTxie = 0#16 := by decide +kernel

theorem witness_DrainTakesTheStdBytes : let ps := port .p3 [1#8, 2#8, 3#8] []
    let s := (owned .p3 ps).setStd .p3 { ready with rxf := List.replicate 16 7#8 }
    ownsPort s .p3 ps = true ∧ Slot.kind .p3 = .std .p3 ∧ s.cfg.stdPresent.get .p3 = true
    ∧ s.cfg.rxDrainCap.std = (s.dev.std.get .p3).rxf.length
    ∧ (s.dev.std.get .p3).lcr &&& StdMap.reference.lcrDlab = 0#8 := by decide +kernel

/-- A byte waiting and room for it, a byte waiting and no room, no byte waiting. -/
theorem witness_DrainTakesTheIntegByte : let ps := port .p2 [1#8, 2#8, 3#8] []
    let f := port .p2 [1#8, 2#8, 3#8, 4#8] []
    let w : IntegDev := { IntegDev.reset with rxd := some 7#8 }
    ownsPort ((owned .p2 ps).setInteg w) .p2 ps = true ∧ ps.rx.count ≠ ps.rx.capacity
    ∧ ownsPort ((owned .p2 f).setInteg w) .p2 f = true ∧ f.rx.count = f.rx.capacity
    ∧ w.rxd = some 7#8 ∧ IntegDev.reset.rxd = none ∧ s0.cfg.integPresent = true := by decide +kernel

/-- A burst longer than what is queued, and one of no bytes. -/
theorem witness_FillMovesTheOldestBytes : let ps := port .p0 [] [1#8, 2#8]
    let pi := port .p2 [] [1#8, 2#8]
    ownsPort (owned .p0 ps) .p0 ps = true ∧ ps.tx.queued.take (16#8).toNat = [1#8, 2#8].map some
    ∧ ps.tx.queued.take (0#8).toNat = ([] : List Byte).map some ∧ s0.cfg.stdPresent.get .p0 = true
    ∧ (s0.dev.std.get .p0).lcr &&& StdMap.reference.lcrDlab = 0#8 ∧ (bare s0).cfg.stdPresent.get .p0 = false
    ∧ ownsPort (owned .p2 pi) .p2 pi = true ∧ pi.tx.queued.take (1#8).toNat = [1#8].map some
    ∧ ownsPort (bare (owned .p2 pi)) .p2 pi = true := by decide +kernel

/-- Accepted settings at the ends of their ranges on each variant, and settings that are not. -/
theorem witness_HalConfig : plain s0 .p0 = true ∧ plain s0 .p2 = true
    ∧ (5 ≤ (5#32).toNat ∧ (8#32).toNat ≤ 8 ∧ (4#32).toNat ≤ 4 ∧ (2#32).toNat = 2)
    ∧ s0.cfg.stdBaud.lookup 50#32 = some 2304#16 ∧ s0.cfg.stdBaud.lookup 115200#32 = some 1#16
    ∧ s0.cfg.stdBaud.lookup 7#32 = none ∧ (after (exec (.halConfig 0#4) { s0 with a0 := 7#32 })).isSome = true
    ∧ (after (exec (.halConfig 2#4) { s0 with a0 := 7#32 })).isSome = true := by decide +kernel

theorem witness_HalTxEmptyAndAckLine : plain s0 .p0 = true ∧ plain s0 .p2 = true ∧ plain (bare s0) .p0 = true
    ∧ plain (bare s0) .p2 = true ∧ s0.cfg.stdPresent.get .p0 = true ∧ (bare s0).cfg.stdPresent.get .p0 = false
    ∧ s0.cfg.integPresent = true ∧ (bare s0).cfg.integPresent = false := by decide +kernel

theorem witness_LifecycleCapabilities : plain s0 .p1 = true ∧ s0.cfg.stdPresent.get .p1 = true
    ∧ (s0.dev.std.get .p1).lcr &&& StdMap.reference.lcrDlab = 0#8 ∧ plain (bare s0) .p1 = true
    ∧ (bare s0).cfg.stdPresent.get .p1 = false ∧ plain s0 .p2 = true ∧ s0.cfg.integPresent = true
    ∧ plain (bare s0) .p2 = true ∧ (bare s0).cfg.integPresent = false := by decide +kernel

theorem witness_ClearingReads : plain s0 .p1 = true ∧ s0.cfg.stdPresent.get .p1 = true
    ∧ plain (bare s0) .p1 = true ∧ (bare s0).cfg.stdPresent.get .p1 = false ∧ plain s0 .p2 = true := by
  decide +kernel

theorem witness_PortOperationsStayOnTheirPort : let ps := port .p0 [] [1#8]
    plain (owned .p0 ps) .p0 = true ∧ ownsPort (bare (owned .p0 ps)) .p0 ps = true
    ∧ (after (exec (.halFillTx 0#4 1#8) (owned .p0 ps))).isSome = true
    ∧ (after (exec (.dspVisit 0#4) (owned .p0 ps))).isSome = true := by decide +kernel

/-! The dispatcher. -/

/-- Level and edge triggering, enabled; masked, not enabled. -/
theorem witness_EnterTakesTheInterrupt : waiting.cfg.trigger = .level ∧ waiting.devIrq .p0 = true
    ∧ Slot.p0 ∈ waiting.cfg.portsOf .l0 ∧ waiting.masked.get .l0 = false ∧ waiting.inService.get .l0 = false
    ∧ waiting.handler.get .l0 = .dispatcher ∧ (edged waiting).cfg.trigger = .edge
    ∧ ((edged waiting).setLatched .l0 true).latched.get .l0 = true
    ∧ (waiting.setMasked .l0 true).masked.get .l0 = true := by decide +kernel

theorem witness_ExitReturnsFromTheHandler : waiting.cfg.wf = true ∧ (inHandler waiting .l0).ctx = [.l0]
    ∧ (inHandler waiting .l0).ctx.head? ≠ some .l1 ∧ waiting.ctx.head? ≠ some .l0 := by decide +kernel

/-- The handler before its first port (open), its second (closed) and past its last. -/
theorem witness_HandlerVisitsItsPortsInOrder : let s := inHandler waiting .l0
    s.ctx = [.l0] ∧ s.dseq.get .l0 = .run 1 0 .none [] 0#16 ∧ (s.cfg.portsOf .l0)[0]? = some .p0
    ∧ (s.slots.get .p0).isSome = true ∧ (s.cfg.portsOf .l0)[1]? = some .p1 ∧ s.slots.get .p1 = none
    ∧ (s.cfg.portsOf .l0)[2]? = none := by decide +kernel

theorem witness_VisitServesTheStdPort : let s := inHandler waiting .l0
    plain s .p0 = true ∧ Slot.kind .p0 = .std .p0 ∧ (s.slots.get .p0).isSome = true ∧ s.ringOwned .p0 = true
    ∧ s.cfg.stdPresent.get .p0 = true ∧ (s.dev.std.get .p0).lcr &&& StdMap.reference.lcrDlab = 0#8
    ∧ (s.dev.std.get .p0).cause StdMap.reference = .rxReady := by decide +kernel

theorem witness_VisitServesTheIntegPort : let s := inHandler ((opened .p2 (port .p2 [] [])).setInteg
      { IntegDev.reset with ien := 3#16, rxd := some 1#8, lineErr := true }) .l1
    plain s .p2 = true ∧ s.cfg.integPresent = true ∧ (s.slots.get .p2).isSome = true
    ∧ s.ringOwned .p2 = true := by decide +kernel

theorem witness_OnTxEmpty : let ps := port .p0 [] [1#8]
    let e := port .p0 [] []
    let i := port .p2 [] []
    ownsPort (owned .p0 ps) .p0 ps = true ∧ ps.tx.count ≠ 0#16
    ∧ ownsPort (owned .p0 e) .p0 e = true ∧ e.tx.count = 0#16
    ∧ ownsPort (owned .p2 i) .p2 i = true ∧ i.tx.count = 0#16 := by decide +kernel

/-! The host primitives. -/

theorem witness_StdRegisters : let l := s0.setStd .p0 { ready with lcr := 0x80#8 }
    let d := s0.setStd .p0 { ready with rxf := [1#8] }
    l.cfg.wf = true ∧ l.cfg.stdPresent.get .p0 = true ∧ (l.dev.std.get .p0).lcr &&& StdMap.reference.lcrDlab ≠ 0#8
    ∧ (d.dev.std.get .p0).lcr &&& StdMap.reference.lcrDlab = 0#8 ∧ (d.dev.std.get .p0).rxf = [1#8]
    ∧ (s0.dev.std.get .p0).rxf = [] := by decide +kernel

theorem witness_IntegRegisters : s0.cfg.wf = true ∧ s0.cfg.integPresent = true ∧ s0.dev.integ.rxd = none
    ∧ (s0.setInteg { IntegDev.reset with rxd := some 1#8 }).dev.integ.rxd = some 1#8 := by decide +kernel

/-- The first and the last location of a block, a register, the completion address, completion
values and none, an address nobody claims. -/
theorem witness_IoRouting : s0.cfg.wf = true ∧ (bare s0).cfg.wf = true
    ∧ (s0.cfg.stdBase.get .p0).toNat ≤ (0x03F8#16).toNat ∧ (0x03FF#16).toNat ≤ (s0.cfg.stdBase.get .p0).toNat + 7
    ∧ (bare s0).cfg.stdPresent.get .p0 = false ∧ s0.cfg.iTxd = 0xFF18#16 ∧ s0.cfg.integPresent = true
    ∧ s0.cfg.eoiAddr = 0xFF22#16 ∧ Slot.p2 ∈ s0.cfg.portsOf .l1
    ∧ (withValue s0 0x000C#16).side.value = s0.cfg.eoiValue.get .l1
    ∧ (withValue s0 0x0000#16).side.value = s0.cfg.eoiValue.get .l0
    ∧ ([Line.l0, .l1, .l2].all fun l => (withValue s0 0x000D#16).side.value ≠ s0.cfg.eoiValue.get l) = true
    ∧ route s0.cfg 0x1234#16 = .nobody ∧ (bare s0).cfg.integPresent = false := by decide +kernel

/-! The environment. -/

theorem witness_WireMoves : (bare s0).cfg.present .p0 = false ∧ s0.cfg.present .p0 = true
    ∧ s0.cfg.present .p2 = true ∧ ((s0.setStd .p0 { ready with txf := [1#8, 2#8] }).dev.std.get .p0).txf = [1#8, 2#8]
    ∧ (s0.setInteg { IntegDev.reset with txd := some 1#8 }).dev.integ.txd = some 1#8
    ∧ s0.cfg.loopback.get .p0 = false ∧ { Config.reference with loopback := ⟨true, true, true, true⟩ }.wf = true
    ∧ (s0.dev.std.get .p0).txf = [] ∧ s0.dev.integ.txd = none := by decide +kernel

theorem witness_EnvironmentEventsAndEdges : (bare s0).cfg.present .p0 = false ∧ s0.cfg.present .p0 = true
    ∧ s0.cfg.present .p2 = true ∧ (waiting.dev.std.get .p0).fifoEn = true ∧ (waiting.dev.std.get .p0).rxf ≠ []
    ∧ (s0.dev.std.get .p0).fifoEn = false ∧ s0.cfg.trigger = .level ∧ (edged s0).cfg.trigger = .edge
    ∧ (after (exec (.envLineEvent 0#4) (edged waiting))).isSome = true := by decide +kernel

/-! The commands. -/

/-- Each error of OPEN, with the errors before it not applying. -/
theorem witness_CommandErrorsInOrder : let m : State := { s0 with a1 := 8#32, a2 := 8#32 }
    quiet m = true ∧ 4 ≤ (4#4).toNat ∧ 4 ≤ (15#4).toNat ∧ m.slots.get .p0 = none
    ∧ (m.cfg.variantOf.get .p2 = .integ ∧ (bare m).cfg.integPresent = false)
    ∧ (m.cfg.integPresent = true ∧ ((opened .p2 (port .p2 [] [])).slots.get .p2).isSome = true)
    ∧ 2 ≤ { m with a0 := 2#32 }.a0.toNat ∧ ¬2 ≤ m.a0.toNat ∧ { m with a1 := 0#32 }.a1.toNat = 0
    ∧ 65535 < { m with a2 := 65536#32 }.a2.toNat ∧ { m with draws := [0#16] }.drawValue.getLsbD 0 = false
    ∧ ¬(m.a1.toNat = 0 ∨ 65535 < m.a1.toNat ∨ m.a2.toNat = 0 ∨ 65535 < m.a2.toNat)
    ∧ (bare m).cfg.wf = true ∧ (bare m).cfg.stdPresent.get .p1 = false ∧ m.life.get .p1 = .closed
    ∧ m.drawValue.getLsbD 0 = true
    ∧ ({ m with draws := [1#16, 0xFF#16] }.drawn1.drawValue.setWidth 8 : Byte) ≠ 0#8 := by decide +kernel

/-- The first port of a line and, the line in use, the second; an absent chip whose read-back draws 0; the INTEG
port. -/
theorem witness_OpenSucceeds : let m : State := { s0 with a0 := 1#32, a1 := 1#32, a2 := 65535#32 }
    let n : State := { opened .p0 (port .p0 [] []) with a1 := 65535#32, a2 := 1#32 }
    let x : State := { bare m with draws := [1#16, 0xFF00#16, 0x55#16] }
    m.cfg.wf = true ∧ quiet m = true ∧ m.slots.get .p0 = none ∧ m.slots.get .p2 = none ∧ m.a0.toNat ≤ 1
    ∧ m.cfg.capMin ≤ m.a1.toNat ∧ m.a1.toNat ≤ m.cfg.capMax ∧ m.cfg.capMin ≤ m.a2.toNat
    ∧ m.a2.toNat ≤ m.cfg.capMax
    ∧ x.cfg.wf = true ∧ x.cfg.stdPresent.get .p0 = false ∧ x.drawValue.getLsbD 0 = true
    ∧ x.drawn1.drawValue.setWidth 8 = 0#8
    ∧ m.drawValue.getLsbD 0 = true ∧ m.cfg.stdPresent.get .p0 = true
    ∧ (m.dev.std.get .p0).lcr &&& StdMap.reference.lcrDlab = 0#8 ∧ m.lineRefs.get .l0 = 0 ∧ m.cfg.integPresent = true
    ∧ quiet n = true ∧ n.slots.get .p1 = none ∧ n.lineRefs.get (n.cfg.lineOf.get .p1) = 1
    ∧ n.drawValue.getLsbD 0 = true := by decide +kernel

/-- Accepted and rejected settings on each variant. -/
theorem witness_Configure : let s : State := { opened .p0 (port .p0 [] []) with
      a0 := 9600#32, a1 := 4#32, a2 := 5#32, a3 := 2#32 }
    let i : State := { opened .p2 (port .p2 [] []) with a0 := 9600#32, a1 := 2#32, a2 := 7#32, a3 := 1#32 }
    s.cfg.wf = true ∧ quiet s = true ∧ quiet i = true ∧ s.slots.get .p0 = some (port .p0 [] [])
    ∧ (port .p0 [] []).regs = regsOf s.cfg .p0 ∧ (s.cfg.stdBaud.lookup s.a0).isSome = true
    ∧ s.a2.toNat = 5 ∧ s.a1.toNat = 4 ∧ s.a3.toNat = 2 ∧ ¬{ s with a2 := 9#32 }.a2.toNat ≤ 8
    ∧ i.slots.get .p2 = some (port .p2 [] []) ∧ (port .p2 [] []).regs = regsOf i.cfg .p2
    ∧ i.a0 ∈ i.cfg.integBaudOk ∧ i.a3 ∈ i.cfg.integStopOk ∧ i.a2.toNat = 7
    ∧ ¬{ i with a1 := 3#32 }.a1.toNat ≤ 2 := by decide +kernel

/-- A closed port; a non-blocking one; a blocking one with bytes queued, with none and a busy device, with none
and an idle one. -/
theorem witness_Close : let ps := port .p0 [] []
    let b := { port .p0 [] [] with blocking := true }
    let f := { port .p0 [] [1#8] with blocking := true }
    let busy := (opened .p0 b).setStd .p0 { ready with txf := [1#8] }
    s0.cfg.wf = true ∧ quiet s0 = true ∧ s0.slots.get .p0 = none
    ∧ quiet (opened .p0 ps) = true ∧ (opened .p0 ps).slots.get .p0 = some ps ∧ ps.regs = regsOf s0.cfg .p0
    ∧ ps.blocking = false ∧ f.blocking = true ∧ f.tx.count ≠ 0#16 ∧ (opened .p0 f).slots.get .p0 = some f
    ∧ b.blocking = true ∧ b.tx.count = 0#16
    ∧ (after (exec (.halTxEmpty 0#4) busy)).map (·.ret) = some (.bool false)
    ∧ (after (exec (.halTxEmpty 0#4) (opened .p0 b))).map (·.ret) = some (.bool true)
    ∧ Slot.kind .p2 = .integ ∧ s0.cfg.integPresent = true := by decide +kernel

/-- CLOSE of an open INTEG port, and of a port of a line that another port still uses. -/
theorem witness_Close_integ_and_shared : let pi := port .p2 [] []
    let i := opened .p2 pi
    let two : State := { waiting with
      slots := waiting.slots.set .p1 (some (port .p1 [] [])), life := waiting.life.set .p1 .opened,
      lineRefs := waiting.lineRefs.set .l0 2 }
    i.cfg.wf = true ∧ quiet i = true ∧ i.slots.get .p2 = some pi ∧ pi.regs = regsOf i.cfg .p2
    ∧ pi.blocking = false ∧ Slot.kind .p2 = .integ ∧ i.cfg.integPresent = true
    ∧ i.lineRefs.get (i.cfg.lineOf.get .p2) - 1 = 0
    ∧ (after (exec (.close 2#4) i)).map (·.masked.l1) = some true
    ∧ quiet two = true ∧ two.slots.get .p1 = some (port .p1 [] []) ∧ (port .p1 [] []).blocking = false
    ∧ two.lineRefs.get (two.cfg.lineOf.get .p1) - 1 ≠ 0
    ∧ (after (exec (.close 1#4) two)).map (fun t => (t.masked.l0, t.handler.l0))
      = some (false, .dispatcher) := by decide +kernel

/-- A CLOSE that waits at its spin: of a port made non-blocking, with bytes queued, with none and a busy device,
with none and an idle one. -/
theorem witness_Close_resumed : let b := { port .p0 [] [] with blocking := true }
    let f := { port .p0 [] [1#8] with blocking := true }
    let spin (ps : PortState) : State :=
      { midClose with slots := midClose.slots.set .p0 (some ps), dev := s0.dev }
    let busy := (spin b).setStd .p0 { ready with txf := [1#8] }
    midClose.ctx = [] ∧ midClose.mseq = .run ⟨.close, Slot.p0.sel⟩ 2 ⟨0#32, 0#32, 0, [], 0#16⟩
    ∧ midClose.slots.get .p0 = some (port .p0 [] []) ∧ (port .p0 [] []).blocking = false
    ∧ (spin f).slots.get .p0 = some f ∧ f.tx.count ≠ 0#16 ∧ b.tx.count = 0#16 ∧ (spin b).slots.get .p0 = some b
    ∧ (after (exec (.halTxEmpty 0#4) busy)).map (·.ret) = some (.bool false)
    ∧ (after (exec (.halTxEmpty 0#4) (spin b))).map (·.ret) = some (.bool true) := by decide +kernel

theorem witness_Kick : let e := port .p0 [] []
    let ps := port .p0 [] [1#8]
    ownsPort (owned .p0 e) .p0 e = true ∧ e.tx.count = 0#16
    ∧ ownsPort (owned .p0 ps) .p0 ps = true ∧ ps.tx.count ≠ 0#16
    ∧ (after (exec (.halTxEmpty 0#4) (owned .p0 ps))).map (·.ret) = some (.bool true)
    ∧ (after (exec (.halTxEmpty 0#4) ((owned .p0 ps).setStd .p0 { ready with txf := [1#8] }))).map (·.ret)
      = some (.bool false) := by decide +kernel

/-- A buffer past the end, one that ends at the end, an empty one, one with a byte never written; room for one
byte of two on a blocking port. -/
theorem witness_Send : let ps := { port .p0 [] [1#8, 2#8, 3#8] with blocking := true }
    let s := transfer { opened .p0 ps with hbuf := [(65534, 1#8), (65535, 2#8)] } 65534#32 2#32
    s.cfg.wf = true ∧ quiet s = true ∧ s.slots.get .p0 = some ps ∧ ps.regs = regsOf s.cfg .p0
    ∧ s.a0.toNat + s.a1.toNat ≤ 2 ^ s.cfg.haddrBits ∧ s.a0.toNat < 2 ^ s.cfg.haddrBits ∧ ps.tx.ok = true
    ∧ min (ps.tx.capacity.toNat - ps.tx.count.toNat) s.a1.toNat = 1
    ∧ (∀ j, j < 1 → (cellsRead s.hbuf (s.a0.toNat + j)).isSome = true)
    ∧ ¬(transfer s 65534#32 3#32).a0.toNat + (transfer s 65534#32 3#32).a1.toNat ≤ 65536
    ∧ (transfer s 0#32 0#32).a1.toNat = 0
    ∧ cellsRead (transfer s 0#32 1#32).hbuf ((transfer s 0#32 1#32).a0.toNat + 0) = none := by decide +kernel

/-- A SEND at its spin boundary with one byte of two moved and room for the other, and with both moved. -/
theorem witness_Send_resumed : let ps := { port .p0 [] [1#8, 2#8, 3#8] with blocking := true }
    let s := transfer { opened .p0 ps with hbuf := [(65534, 1#8), (65535, 2#8)] } 65534#32 2#32
    let at1 : State := { s with mseq := .run ⟨.send, 0#4⟩ 2 ⟨1#32, 0#32, 0, [], 0#16⟩ }
    at1.ctx = [] ∧ at1.mseq = .run ⟨.send, Slot.p0.sel⟩ 2 ⟨1#32, 0#32, 0, [], 0#16⟩
    ∧ at1.slots.get .p0 = some ps ∧ (1#32).toNat < at1.a1.toNat ∧ ps.tx.ok = true
    ∧ at1.a0.toNat + at1.a1.toNat ≤ 2 ^ at1.cfg.haddrBits ∧ at1.a0.toNat < 2 ^ at1.cfg.haddrBits
    ∧ min (ps.tx.capacity.toNat - ps.tx.count.toNat) (at1.a1.toNat - 1) = 1
    ∧ (∀ j, j < 1 → (cellsRead at1.hbuf (at1.a0.toNat + 1 + j)).isSome = true)
    ∧ (2#32 : Word) = at1.a1 := by decide +kernel

theorem witness_SendLoadsAnIdleDevice : let ps := port .p0 [] []
    let s := transfer { (opened .p0 ps).setStd .p0 ready with hbuf := [(65534, 1#8), (65535, 2#8)] } 65534#32 2#32
    s.cfg.wf = true ∧ quiet s = true ∧ Slot.kind .p0 = .std .p0 ∧ s.slots.get .p0 = some ps
    ∧ ps.regs = regsOf s.cfg .p0 ∧ ps.tx.ok = true ∧ ps.tx.count = 0#16 ∧ s.cfg.stdPresent.get .p0 = true
    ∧ (s.dev.std.get .p0).lcr &&& StdMap.reference.lcrDlab = 0#8 ∧ (s.dev.std.get .p0).fifoEn = true
    ∧ (s.dev.std.get .p0).txf = [] ∧ [1#8, 2#8].length ≤ ps.tx.capacity.toNat ∧ s.a1.toNat = 2
    ∧ s.a0.toNat + 2 ≤ 65536 ∧ s.a0.toNat < 65536
    ∧ cellsReadList s.hbuf s.a0.toNat 2 = some [1#8, 2#8] := by decide +kernel

theorem witness_Recv : let ps := { port .p0 [1#8, 2#8] [] with blocking := true }
    let s := transfer (opened .p0 ps) 65532#32 4#32
    quiet s = true ∧ s.slots.get .p0 = some ps ∧ s.a0.toNat + s.a1.toNat ≤ 2 ^ s.cfg.haddrBits ∧ s.a0.toNat < 2 ^ s.cfg.haddrBits
    ∧ ps.rx.ok = true ∧ min ps.rx.count.toNat s.a1.toNat = 2
    ∧ (∀ x ∈ ps.rx.queued.take 2, x.isSome = true)
    ∧ ¬(transfer s 65533#32 4#32).a0.toNat + (transfer s 65533#32 4#32).a1.toNat ≤ 65536
    ∧ (transfer s 0#32 0#32).a1.toNat = 0 := by decide +kernel

/-- A RECV at its spin boundary with one byte of four moved and two waiting, and with all moved. -/
theorem witness_Recv_resumed : let ps := { port .p0 [1#8, 2#8] [] with blocking := true }
    let s := transfer (opened .p0 ps) 65532#32 4#32
    let at1 : State := { s with mseq := .run ⟨.recv, 0#4⟩ 2 ⟨1#32, 0#32, 0, [], 0#16⟩ }
    at1.ctx = [] ∧ at1.mseq = .run ⟨.recv, Slot.p0.sel⟩ 2 ⟨1#32, 0#32, 0, [], 0#16⟩
    ∧ at1.slots.get .p0 = some ps ∧ (1#32).toNat < at1.a1.toNat ∧ ps.rx.ok = true
    ∧ at1.a0.toNat + at1.a1.toNat ≤ 2 ^ at1.cfg.haddrBits ∧ at1.a0.toNat < 2 ^ at1.cfg.haddrBits
    ∧ min ps.rx.count.toNat (at1.a1.toNat - 1) = 2 ∧ (∀ x ∈ ps.rx.queued.take 2, x.isSome = true)
    ∧ (4#32 : Word) = at1.a1 := by decide +kernel

theorem witness_ClearAvailableRxDropped : quiet (opened .p3 (port .p3 [1#8] [2#8])) = true
    ∧ (opened .p3 (port .p3 [1#8] [2#8])).slots.get .p3 = some (port .p3 [1#8] [2#8]) := by decide +kernel

/-- A command that ends and one that waits. -/
theorem witness_CommandIsARunOfTheSequencer :
    let s := transfer (opened .p0 { port .p0 [1#8] [] with blocking := true }) 0#32 2#32
    apiCommand (.recv 0#4) = some ⟨.recv, 0#4⟩ ∧ quiet s = true
    ∧ (after (exec (.recv 0#4) s)).map (fun t => decide (t.mseq = .idle)) = some false
    ∧ (after (exec (.recv 0#4) (transfer s 0#32 1#32))).map (fun t => decide (t.mseq = .idle)) = some true := by
  decide +kernel

/-- A visit that ends, and one that goes on: an absent chip that reports a cause 80 times. -/
theorem witness_VisitIsARunOfTheHandler : let s := inHandler waiting .l0
    let e := { bare s with draws := List.replicate 160 0xC0#16 }
    s.ctx = [.l0] ∧ s.dseq.get .l0 = .run 1 0 .none [] 0#16 ∧ (s.cfg.portsOf .l0)[0]? = some .p0
    ∧ (after (exec (.dspVisit 0#4) s)).map (·.moves) = some []
    ∧ (after (exec (.dspVisit 0#4) e)).map (·.moves) = some [.word 0x51000000#32] := by decide +kernel

end Sys2Proof.Tests
end

/-! ## The step on each move of the schedule

One equation per move under a legal configuration, next to `step_word`, and the statement of the scope's family
that puts them together. -/

namespace Sys2Proof.Machine

open Sys2Proof

section MoveEquations

variable {s : State} (hwf : s.cfg.wf = true)

include hwf

/-- A move that performs no operation answers the outcome it settles on. -/
theorem step_of_settled {o : Out} (hn : nextTodo s = .settled o) : step s = o := by
  rw [step_of_wf hwf, hn]

/-- The step at a write of `CMD` (spec/10_state.md R21). -/
theorem step_cmd {w : Word} {ms : List Move} (hm : s.moves = .cmd w :: ms) :
    step s = writeCmd w { s with moves := ms } :=
  step_of_settled hwf (by rw [nextTodo, hm])

/-- The step at a write of a mailbox register (spec/10_state.md R20). -/
theorem step_setX {x : BitVec 3} {v : Word} {ms : List Move} (hm : s.moves = .setX x v :: ms) :
    step s = hostSetX x v { s with moves := ms } :=
  step_of_settled hwf (by rw [nextTodo, hm])

/-- The step at a write of a byte of `HBUF` (spec/20_memory.md R60). -/
theorem step_poke {a : Word} {b : Byte} {ms : List Move} (hm : s.moves = .poke a b :: ms) :
    step s = hostPoke a b { s with moves := ms } :=
  step_of_settled hwf (by rw [nextTodo, hm])

/-- The step at a read of a byte of `HBUF` (spec/20_memory.md R60). -/
theorem step_peek {a : Word} {ms : List Move} (hm : s.moves = .peek a :: ms) :
    step s = hostPeek a { s with moves := ms } :=
  step_of_settled hwf (by rw [nextTodo, hm])

/-- The step at a `core` move is one of the running agent (spec/10_state.md R41). -/
theorem step_core {ms : List Move} (hm : s.moves = .core :: ms) :
    step s = (coreStep { s with moves := ms }).outcome :=
  step_of_settled hwf (by rw [nextTodo, hm])

/-- The step when the schedule is empty is one of the running agent (log entry 3). -/
theorem step_of_moves_nil (hm : s.moves = []) : step s = (coreStep s).outcome :=
  step_of_settled hwf (by rw [nextTodo, hm])

/-- The step at a word just issued: taking the word off the schedule gives back the state it was put on. -/
theorem step_issue {w : Word} {i : Instr} (hd : decode w = some i) : step (s.issue w) = exec i s :=
  step_word (s := s.issue w) hwf (issue_moves s w) hd

end MoveEquations

/-- A full-width opcode-table word decodes as the word of its low 32 bits. -/
theorem decodeTableWord_32 (w : Nat) : decodeTableWord 32 w = decode (BitVec.ofNat 32 (w % 2 ^ 32)) :=
  if_pos (Nat.le_refl 32)

/-- The step at an opcode-table word placed as the next move. -/
theorem step_withFetchWord {s : State} (hwf : s.cfg.wf = true) {w : Nat} {i : Instr}
    (hd : decodeTableWord 32 w = some i) : step (s.withFetchWord 32 w) = exec i s := by
  rw [decodeTableWord_32] at hd
  exact step_issue hwf hd

/-- Settles O5: the equations of the moves, one per clause. -/
theorem stepRunsTheDecodedInstr : Obligations.StepRunsTheDecodedInstr := by
  intro s
  refine ⟨step_of_not_wf, fun hwf => ⟨?word, ?fetch, ?cmd, ?setX, ?poke, ?peek, ?core, ?empty⟩⟩
  case word => exact fun _ _ _ hm hd => step_word hwf hm hd
  case fetch => exact fun _ _ hd => step_withFetchWord hwf hd
  case cmd => exact fun _ _ hm => step_cmd hwf hm
  case setX => exact fun _ _ _ hm => step_setX hwf hm
  case poke => exact fun _ _ _ hm => step_poke hwf hm
  case peek => exact fun _ _ hm => step_peek hwf hm
  case core => exact fun _ hm => step_core hwf hm
  case empty => exact step_of_moves_nil hwf

end Sys2Proof.Machine

/-! ## Micro-operations do not see the sequencers

A micro-operation neither reads nor writes where the sequencers of M and of the handlers stand. This is what lets a
word, which moves no sequencer, and the sequencers, which move at every access, perform the same operations
(spec/10_state.md R38, R40). -/

namespace Sys2Proof.Machine

open Sys2Proof

/-- `s` with every sequencer somewhere else. -/
def State.reseq (s : State) (m : MSeq) (d : PerLine DSeq) : State := { s with mseq := m, dseq := d }

/-- An answer with every sequencer of its state somewhere else. -/
def Res.reseq {α : Type} (r : Res α) (m : MSeq) (d : PerLine DSeq) : Res α :=
  match r with
  | .ok a s => .ok a (s.reseq m d)
  | .fault e => .fault e
  | .refuse e => .refuse e

section Reseq

variable (s : State) (m : MSeq) (d : PerLine DSeq)

theorem setMseq_eq_reseq : s.setMseq m = s.reseq m s.dseq := rfl

theorem setDseq_eq_reseq (l : Line) (x : DSeq) : s.setDseq l x = s.reseq s.mseq (s.dseq.set l x) := rfl

@[simp] theorem reseq_ok {α : Type} (a : α) : (Res.ok a s).reseq m d = .ok a (s.reseq m d) := rfl

@[simp] theorem drawn1_reseq : (s.reseq m d).drawn1 = s.drawn1.reseq m d := by
  unfold State.drawn1
  cases h : s.draws <;> simp [State.reseq, h]

/-- Two operations in a row do not see the sequencers if neither does. -/
theorem reseq_andThen {α β : Type} {r : Res α} {f : α → State → Res β}
    (hf : ∀ a s, f a (s.reseq m d) = (f a s).reseq m d) :
    (r.reseq m d).andThen f = (r.andThen f).reseq m d := by
  cases r with
  | ok a s => exact hf a s
  | fault e => rfl
  | refuse e => rfl

@[simp] theorem drawnIf_reseq (b : Bool) : (s.reseq m d).drawnIf b = (s.drawnIf b).reseq m d := by
  cases b
  · rfl
  · exact drawn1_reseq s m d

theorem ioRd8_reseq (a : Half) : ioRd8 a (s.reseq m d) = (ioRd8 a s).reseq m d := by
  have hr : route (s.reseq m d).cfg a = route s.cfg a := rfl
  unfold ioRd8
  rw [hr]
  cases route s.cfg a <;> simp only [drawnIf_reseq, drawn1_reseq] <;> rfl

theorem ioRd16_reseq (a : Half) : ioRd16 a (s.reseq m d) = (ioRd16 a s).reseq m d := by
  have hr : route (s.reseq m d).cfg a = route s.cfg a := rfl
  unfold ioRd16
  rw [hr]
  cases route s.cfg a <;> simp only [drawnIf_reseq, drawn1_reseq] <;> rfl

theorem ioWr8_reseq (a : Half) (v : Byte) : ioWr8 a v (s.reseq m d) = (ioWr8 a v s).reseq m d := by
  have hr : route (s.reseq m d).cfg a = route s.cfg a := rfl
  unfold ioWr8
  rw [hr]
  cases route s.cfg a <;> rfl

theorem ioWr16_reseq (a v : Half) : ioWr16 a v (s.reseq m d) = (ioWr16 a v s).reseq m d := by
  have hr : route (s.reseq m d).cfg a = route s.cfg a := rfl
  have hk : eoiKnown (s.reseq m d).cfg v = eoiKnown s.cfg v := rfl
  unfold ioWr16
  rw [hr, hk]
  cases route s.cfg a with
  | eoi => cases eoiKnown s.cfg v <;> rfl
  | std c r => rfl
  | stdAbsent => rfl
  | integ r => rfl
  | nobody => rfl

/-- An operation on the port of a slot does not see the sequencers if what it does with the port does not. -/
theorem withPort_reseq {α : Type} {q : Slot} {f g : PortState → Res α}
    (h : ∀ ps, f ps = (g ps).reseq m d) : withPort q (s.reseq m d) f = (withPort q s g).reseq m d := by
  have hs : (s.reseq m d).slots.get q = s.slots.get q := rfl
  unfold withPort
  rw [hs]
  cases s.slots.get q with
  | none => rfl
  | some ps => exact h ps

/-- The issuing condition of a ring mutator does not depend on the sequencers (spec/41_ring_buffer.md R121). -/
theorem mutateRing_reseq {α : Type} {q : Slot} {f g : PortState → Res α}
    (h : ∀ ps, f ps = (g ps).reseq m d) : mutateRing q (s.reseq m d) f = (mutateRing q s g).reseq m d := by
  refine withPort_reseq s m d fun ps => ?_
  have ho : (s.reseq m d).ringOwned q = s.ringOwned q := rfl
  rw [ho]
  cases s.ringOwned q with
  | false => rfl
  | true => exact h ps

theorem storageByte_reseq (rb : RingBuffer) (i : Nat) :
    storageByte rb i (s.reseq m d) = ((storageByte rb i s).1, (storageByte rb i s).2.reseq m d) := by
  unfold storageByte
  cases cellsRead rb.storage i with
  | some b => rfl
  | none => simp only [drawn1_reseq]; rfl

theorem storageBytes_reseq (rb : RingBuffer) (is : List Nat) :
    storageBytes rb is (s.reseq m d) = ((storageBytes rb is s).1, (storageBytes rb is s).2.reseq m d) := by
  induction is generalizing s with
  | nil => rfl
  | cons i is ih => simp only [storageBytes, storageByte_reseq, ih]

theorem ringPush_reseq (q : Slot) (e : Dir) (b : Byte) :
    ringPush q e b (s.reseq m d) = (ringPush q e b s).reseq m d := by
  refine mutateRing_reseq s m d fun ps => ?_
  by_cases h : (ps.ring e).count = (ps.ring e).capacity
  · simp only [if_pos h]; rfl
  · simp only [if_neg h]; rfl

theorem ringPop_reseq (q : Slot) (e : Dir) :
    ringPop q e (s.reseq m d) = (ringPop q e s).reseq m d := by
  refine mutateRing_reseq s m d fun ps => ?_
  by_cases h : (ps.ring e).count = 0#16
  · simp only [if_pos h]; rfl
  · simp only [if_neg h, storageByte_reseq]; rfl

theorem ringClear_reseq (q : Slot) (e : Dir) :
    ringClear q e (s.reseq m d) = (ringClear q e s).reseq m d :=
  mutateRing_reseq s m d fun _ => rfl

theorem ringPushN_reseq (q : Slot) (e : Dir) (n src : Nat) :
    ringPushN q e n src (s.reseq m d) = (ringPushN q e n src s).reseq m d := by
  refine mutateRing_reseq s m d fun ps => ?_
  have hc : (s.reseq m d).cfg = s.cfg := rfl
  have hb : (s.reseq m d).hbuf = s.hbuf := rfl
  simp only [hc, hb]
  split
  · rfl
  · split
    · rfl
    · cases cellsReadList s.hbuf src n <;> rfl

theorem ringPopN_reseq (q : Slot) (e : Dir) (n dst : Nat) :
    ringPopN q e n dst (s.reseq m d) = (ringPopN q e n dst s).reseq m d := by
  refine mutateRing_reseq s m d fun ps => ?_
  have hc : (s.reseq m d).cfg = s.cfg := rfl
  simp only [hc, storageBytes_reseq]
  split
  · rfl
  · split <;> rfl

theorem takeByte_reseq (q : Slot) (b : Byte) :
    takeByte q b (s.reseq m d) = (takeByte q b s).reseq m d := by
  unfold takeByte
  rw [ringPush_reseq]
  refine reseq_andThen m d fun pushed u => ?_
  cases pushed
  · exact withPort_reseq u m d fun _ => rfl
  · rfl

/-- No access of a capability sees the sequencers. -/
theorem accStep_reseq (q : Slot) (a : Acc) (v : Half) :
    accStep q a v (s.reseq m d) = (accStep q a v s).reseq m d := by
  cases a <;> simp only [accStep, ioRd8_reseq, ioRd16_reseq, ioWr8_reseq, ioWr16_reseq, ringPop_reseq]
  case rd8 => exact reseq_andThen m d fun _ _ => rfl
  case rd16 => exact reseq_andThen m d fun _ _ => rfl
  case wr8 => exact reseq_andThen m d fun _ _ => rfl
  case wr16 => exact reseq_andThen m d fun _ _ => rfl
  case snap => exact reseq_andThen m d fun _ _ => rfl
  case rest a r =>
    rw [show (s.reseq m d).savedInteg = s.savedInteg from rfl]
    exact reseq_andThen m d fun _ _ => rfl
  case test8 => exact reseq_andThen m d fun _ _ => rfl
  case test16 => exact reseq_andThen m d fun _ _ => rfl
  case take8 =>
    refine reseq_andThen m d fun b u => ?_
    rw [takeByte_reseq]; exact reseq_andThen m d fun _ _ => rfl
  case take16 =>
    refine reseq_andThen m d fun b u => ?_
    rw [takeByte_reseq]; exact reseq_andThen m d fun _ _ => rfl
  case fill8 =>
    refine reseq_andThen m d fun b u => ?_
    cases b with
    | none => rfl
    | some b => simp only [ioWr8_reseq]; exact reseq_andThen m d fun _ _ => rfl
  case fill16 =>
    refine reseq_andThen m d fun b u => ?_
    cases b with
    | none => rfl
    | some b => simp only [ioWr16_reseq]; exact reseq_andThen m d fun _ _ => rfl

theorem regAlloc_reseq (q : Slot) (mode txCap rxCap : Word) :
    regAlloc q mode txCap rxCap (s.reseq m d) = (regAlloc q mode txCap rxCap s).reseq m d := by
  have hs : (s.reseq m d).slots.get q = s.slots.get q := rfl
  have hc : (s.reseq m d).cfg = s.cfg := rfl
  have hv : (s.reseq m d).drawValue = s.drawValue := rfl
  unfold regAlloc
  simp only [hs, hc, hv, drawn1_reseq]
  split
  · rfl
  · split
    · rfl
    · split <;> rfl

theorem sendCopy_reseq (q : Slot) (moved : Word) :
    sendCopy q moved (s.reseq m d) = (sendCopy q moved s).reseq m d := by
  refine withPort_reseq s m d fun ps => ?_
  have ha : (s.reseq m d).a0 = s.a0 := rfl
  have hl : (s.reseq m d).a1 = s.a1 := rfl
  simp only [ha, hl, ringPushN_reseq]
  exact reseq_andThen m d fun _ _ => rfl

theorem recvCopy_reseq (q : Slot) (moved : Word) :
    recvCopy q moved (s.reseq m d) = (recvCopy q moved s).reseq m d := by
  refine withPort_reseq s m d fun ps => ?_
  have ha : (s.reseq m d).a0 = s.a0 := rfl
  have hl : (s.reseq m d).a1 = s.a1 := rfl
  simp only [ha, hl, ringPopN_reseq]
  exact reseq_andThen m d fun _ _ => rfl

end Reseq

end Sys2Proof.Machine

/-! ## Runs of M's sequencer

A command performed as a word and the same command performed line by line do the same operations in the same order
(spec/00_scope.md R15, spec/10_state.md R38). One lemma carries the capabilities, which the sequencer performs access
by access; the other lines are one step each. -/

namespace Sys2Proof.Machine

open Sys2Proof

/-- An operation that sees no sequencer and moves no handler's does the same wherever M stands. -/
theorem ok_setMseq {α : Type} {f : State → Res α} {s t : State} {a : α}
    (hf : ∀ m d, f (s.reseq m d) = (f s).reseq m d) (h : f s = .ok a t) (hd : t.dseq = s.dseq) (m : MSeq) :
    f (s.setMseq m) = .ok a (t.setMseq m) := by
  rw [setMseq_eq_reseq, hf, h, setMseq_eq_reseq, hd, reseq_ok]

/-- An access does the same wherever M stands. -/
theorem accStep_setMseq {q : Slot} {a : Acc} {v : Half} {s t : State} {r : Half × Bool}
    (h : accStep q a v s = .ok r t) (m : MSeq) : accStep q a v (s.setMseq m) = .ok r (t.setMseq m) :=
  ok_setMseq (fun m d => accStep_reseq s m d q a v) h (by rw [(accStep_frame h).frame]) m

theorem AccFrame.ctx_eq {q : Slot} {s t : State} (h : AccFrame q s t) : t.ctx = s.ctx := by rw [h.frame]

/-- `t` is reached from `s` by steps of the running agent. -/
def Reaches (s t : State) : Prop := ∃ n, coreSteps n s t

theorem Reaches.refl (s : State) : Reaches s s := ⟨0, rfl⟩

theorem Reaches.step {s t u : State} (h : coreStep s = .ok () u) (k : Reaches u t) : Reaches s t := by
  obtain ⟨n, hn⟩ := k
  exact ⟨n + 1, u, h, hn⟩

section Mainline

variable {c : Cmd} {q : Slot} {w : State}

/-- M's step at line 1 of a command. -/
theorem coreStep_first (hctx : w.ctx = []) (loc : MLocals) :
    coreStep (w.setMseq (.run c 1 loc)) = firstLine c (w.setMseq (.run c 1 loc)) := by
  simp only [coreStep, setMseq_ctx, hctx]; rfl

/-- M's step at a later line of a command. -/
theorem coreStep_later (hctx : w.ctx = []) (hq : slotOfSel c.p = some q) {n : Nat} (hn : n ≠ 1)
    (loc : MLocals) :
    coreStep (w.setMseq (.run c n loc)) = laterLine c n loc q (w.setMseq (.run c n loc)) := by
  simp only [coreStep, setMseq_ctx, hctx, mainStep, setMseq_mseq, hq]

/-- One line of a command that is one step. -/
theorem Reaches.line (hctx : w.ctx = []) (hq : slotOfSel c.p = some q) {n : Nat} (hn : n ≠ 1)
    {loc : MLocals} {u t : State} (h : laterLine c n loc q (w.setMseq (.run c n loc)) = .ok () u)
    (k : Reaches u t) : Reaches (w.setMseq (.run c n loc)) t :=
  .step ((coreStep_later hctx hq hn loc).trans h) k

/-- The last access of a capability ends its line. -/
theorem mainHal_last {line : Nat} {loc : MLocals} {start : List Acc} {fin : Half → State → Res Unit}
    {a : Acc} (h : (if loc.sub = 0 then start else loc.hal) = [a]) :
    mainHal c line loc q start fin w = (accStep q a loc.v w).andThen fun r s => fin r.1 s := by
  simp [mainHal, h]

/-- Locals that a capability begun with `loc₀` can come to: `done` and `k` are kept, and an access that has been
performed stays performed. -/
def MLocals.Within (loc₀ loc : MLocals) : Prop :=
  loc.moved = loc₀.moved ∧ loc.k = loc₀.k ∧ (loc₀.sub ≠ 0 → loc.sub ≠ 0)

/-- A line that is a capability: the sequencer performs the accesses `as` that are left of it one by one and then
the end of the line. `hline` says that the line is that capability, whatever its accesses have done so far. -/
theorem mainHal_reaches {line : Nat} {start : List Acc} {fin : Half → State → Res Unit} {s t x e : State}
    {v : Half} {loc₀ : MLocals}
    (hline : ∀ loc w, AccFrame q s w → loc₀.Within loc →
      coreStep (w.setMseq (.run c line loc)) = mainHal c line loc q start fin (w.setMseq (.run c line loc)))
    (hfin : ∀ m, fin v (t.setMseq m) = .ok () x) (hx : Reaches x e) (as : List Acc) :
    ∀ (loc : MLocals) (w : State), AccFrame q s w → loc₀.Within loc →
      (if loc.sub = 0 then start else loc.hal) = as → runAccs q as loc.v w = .ok v t →
      Reaches (w.setMseq (.run c line loc)) e := by
  induction as with
  | nil =>
    intro loc w hw hl has hrun
    obtain ⟨rfl, rfl⟩ := ok_eq_ok.1 hrun
    refine .step ?_ hx
    rw [hline loc _ hw hl, mainHal, has]
    exact hfin _
  | cons a as ih =>
    intro loc w hw hl has hrun
    obtain ⟨r, u, ha, hrest⟩ := andThen_eq_ok.1 hrun
    have hu := hw.trans (accStep_frame ha)
    by_cases hend : r.2 ∨ as = []
    · have hlast : r.1 = v ∧ u = t := by
        rcases hend with hr | rfl
        · rw [if_pos hr] at hrest
          exact (ok_eq_ok.1 hrest).imp Eq.symm Eq.symm
        · have h' : Res.ok r.1 u = .ok v t := by split at hrest <;> exact hrest
          exact (ok_eq_ok.1 h').imp Eq.symm Eq.symm
      refine .step ?_ hx
      rw [hline loc w hw hl, mainHal, has]
      simp only [accStep_setMseq ha, andThen_ok, if_pos hend, hlast.1, hlast.2]
      exact hfin _
    · rw [not_or] at hend
      rw [if_neg hend.1] at hrest
      have hsub : max loc.sub 1 ≠ 0 := by omega
      refine .step ?_ (ih ⟨loc.moved, loc.k, max loc.sub 1, as, r.1⟩ u hu
        ⟨hl.1, hl.2.1, fun _ => hsub⟩ (if_neg hsub) hrest)
      rw [hline loc w hw hl, mainHal, has]
      simp only [accStep_setMseq ha, andThen_ok, if_neg (not_or.2 hend)]
      rfl

/-- A line that is a capability, from its first access. -/
theorem mainHal_reaches_start {line : Nat} {start : List Acc} {fin : Half → State → Res Unit}
    {s t x e : State} {v : Half} {moved k : Word}
    (hline : ∀ loc w, AccFrame q s w →
      coreStep (w.setMseq (.run c line loc)) = mainHal c line loc q start fin (w.setMseq (.run c line loc)))
    (hrun : runAccs q start 0#16 s = .ok v t) (hfin : ∀ m, fin v (t.setMseq m) = .ok () x)
    (hx : Reaches x e) : Reaches (s.atLine c line moved k) e :=
  mainHal_reaches (fun loc w hw _ => hline loc w hw) hfin hx start (.at_ moved k) s (.refl q s) ⟨rfl, rfl, id⟩
    rfl hrun

/-- A line that is a capability of the mux, as it stands in the rule of the command. -/
theorem Reaches.capability {line : Nat} {accs : Config → Regs → List Acc} {fin : Half → State → Res Unit}
    {s t x e : State} {v : Half} {moved k : Word} (hctx : s.ctx = []) (hq : slotOfSel c.p = some q)
    (hn : line ≠ 1)
    (hlater : ∀ loc w, AccFrame q s w → laterLine c line loc q (w.setMseq (.run c line loc))
      = mainHal c line loc q (accs s.cfg (s.regs q)) fin (w.setMseq (.run c line loc)))
    (hrun : runHal q accs s = .ok v t) (hfin : ∀ m, fin v (t.setMseq m) = .ok () x) (hx : Reaches x e) :
    Reaches (s.atLine c line moved k) e :=
  mainHal_reaches_start
    (fun loc _ hw => (coreStep_later (hw.ctx_eq.trans hctx) hq hn loc).trans
      (hlater loc _ hw)) hrun hfin hx

/-- A line that is a capability and then goes on to the next line. -/
theorem Reaches.capability_then {line : Nat} (next : Nat) (accs : Config → Regs → List Acc)
    {s t e : State} {v : Half} (hctx : s.ctx = []) (hq : slotOfSel c.p = some q)
    (hn : line ≠ 1)
    (hlater : ∀ loc w, AccFrame q s w → laterLine c line loc q (w.setMseq (.run c line loc))
      = mainHal c line loc q (accs s.cfg (s.regs q)) (fun _ x => .ok () (x.atLine c next 0#32 0#32))
        (w.setMseq (.run c line loc)))
    (hrun : runHal q accs s = .ok v t) (hx : Reaches (t.atLine c next 0#32 0#32) e) :
    Reaches (s.atLine c line 0#32 0#32) e :=
  .capability hctx hq hn hlater hrun (fun _ => rfl) hx

end Mainline

/-! ### OPEN, CONFIGURE and CLOSE -/

@[simp] theorem setMseq_setMseq (s : State) (m n : MSeq) : (s.setMseq m).setMseq n = s.setMseq n := rfl

@[simp] theorem setMseq_lineOf (s : State) (m : MSeq) (q : Slot) : (s.setMseq m).lineOf q = s.lineOf q := rfl

@[simp] theorem maskLine_lineOf (s : State) (l : Line) (q : Slot) : (s.maskLine l).lineOf q = s.lineOf q := rfl

theorem setLife_setMseq (s : State) (m : MSeq) (q : Slot) (f : Life) :
    (s.setMseq m).setLife q f = (s.setLife q f).setMseq m := rfl

@[simp] theorem setMseq_regs (s : State) (m : MSeq) (q : Slot) : (s.setMseq m).regs q = s.regs q := rfl

theorem openCheck_setMseq (s : State) (m : MSeq) (p : BitVec 4) : openCheck p (s.setMseq m) = openCheck p s := rfl

theorem configureCheck_setMseq (s : State) (m : MSeq) (p : BitVec 4) :
    configureCheck p (s.setMseq m) = configureCheck p s := rfl

/-- The tests of OPEN accept nothing but the slot its operand names. -/
theorem openCheck_slot {s : State} {p : BitVec 4} {q : Slot} (h : openCheck p s = .ok q) :
    slotOfSel p = some q := by
  unfold openCheck at h
  cases hs : slotOfSel p with
  | none => rw [hs] at h; cases h
  | some k =>
    rw [hs] at h
    simp only at h
    repeat' split at h
    all_goals cases h
    rfl

/-- The tests common to the commands on an open port (spec/60_exceptions.md R312). -/
theorem prologue_eq_ok {s : State} {p : BitVec 4} {q : Slot} {ps : PortState} :
    prologue p s = .ok (q, ps) ↔ slotOfSel p = some q ∧ s.slots.get q = some ps := by
  unfold prologue
  cases hs : slotOfSel p with
  | none => simp
  | some k =>
    simp only [Option.some.injEq]
    cases hp : s.slots.get k with
    | none =>
      refine ⟨nofun, ?_⟩
      rintro ⟨rfl, h⟩
      rw [hp] at h; cases h
    | some ps' =>
      simp only [Except.ok.injEq, Prod.mk.injEq]
      refine and_congr_right ?_
      rintro rfl
      rw [hp, Option.some.injEq]

/-- The tests of CONFIGURE accept nothing but the slot its operand names. -/
theorem configureCheck_slot {s : State} {p : BitVec 4} {q : Slot} (h : configureCheck p s = .ok q) :
    slotOfSel p = some q := by
  unfold configureCheck at h
  cases hp : prologue p s with
  | error e => rw [hp] at h; cases h
  | ok x =>
    obtain ⟨k, ps⟩ := x
    simp only [hp] at h
    split at h
    · cases h; exact (prologue_eq_ok.1 hp).1
    · cases h

theorem withPort_some {α : Type} {q : Slot} {s : State} {ps : PortState} (h : s.slots.get q = some ps)
    (f : PortState → Res α) : withPort q s f = f ps := by simp [withPort, h]

/-- HAL.TX_EMPTY is one access. -/
theorem accTxEmpty_single (cfg : Config) (r : Regs) : ∃ a, accTxEmpty cfg r = [a] := by
  cases r <;> exact ⟨_, rfl⟩

/-- A capability of one access. -/
theorem runAccs_single {q : Slot} {as : List Acc} {a : Acc} {v w : Half} {s t : State} (has : as = [a])
    (h : runAccs q as v s = .ok w t) : ∃ r, accStep q a v s = .ok r t ∧ w = r.1 := by
  subst has
  obtain ⟨r, u, ha, hrest⟩ := andThen_eq_ok.1 h
  have hr : Res.ok r.1 u = .ok w t := by split at hrest <;> exact hrest
  obtain ⟨rfl, rfl⟩ := ok_eq_ok.1 hr
  exact ⟨r, ha, rfl⟩

/-- A capability leaves the operands of the command alone. -/
theorem AccFrame.operands_eq {q : Slot} {s t : State} (h : AccFrame q s t) :
    t.a0 = s.a0 ∧ t.a1 = s.a1 ∧ t.a2 = s.a2 ∧ t.a3 = s.a3 := by
  rw [h.frame]; exact ⟨rfl, rfl, rfl, rfl⟩

theorem fail_setMseq (s : State) (m : MSeq) (e : ErrKind) : (s.setMseq m).fail e = s.fail e := rfl

/-- Where M stood does not matter to the end of a command. -/
@[simp] theorem finish_setMseq (s : State) (m : MSeq) (v : Word) : (s.setMseq m).finish v = s.finish v := by
  unfold State.finish State.drawn1
  cases h : s.draws <;> simp [State.setMseq, State.drawValue, h]

theorem hookLine_setMseq (s : State) (m : MSeq) (l : Line) :
    (s.setMseq m).hookLine l = (s.hookLine l).setMseq m := by
  rw [hookLine_eq, hookLine_eq]; rfl

theorem unhookLine_setMseq (s : State) (m : MSeq) (l : Line) :
    (s.setMseq m).unhookLine l = (s.unhookLine l).setMseq m := by
  rw [unhookLine_eq, unhookLine_eq]; rfl

theorem unmaskIfUsed_setMseq (s : State) (m : MSeq) (l : Line) :
    (s.setMseq m).unmaskIfUsed l = (s.unmaskIfUsed l).setMseq m := by
  unfold State.unmaskIfUsed
  rw [setMseq_lineRefs]
  split <;> rfl

section Lifecycle

variable {p : BitVec 4} {q : Slot} {s t : State}

/-- OPEN from line 4. -/
theorem openHook_reaches (hctx : s.ctx = []) (hq : slotOfSel p = some q) (h : openHook q s = .ok () t) :
    Reaches (s.atLine ⟨.openPort, p⟩ 4 0#32 0#32) t := by
  obtain ⟨v, u, hsnap, h⟩ := andThen_eq_ok.1 h
  obtain ⟨v', u', hinit, h⟩ := andThen_eq_ok.1 h
  obtain ⟨v'', u'', hen, h⟩ := andThen_eq_ok.1 h
  obtain ⟨-, rfl⟩ := ok_eq_ok.1 h
  have hu : u.ctx = [] := (runHal_frame hsnap).ctx_eq.trans hctx
  have hh : ((u.maskLine (u.lineOf q)).hookLine (u.lineOf q)).ctx = [] := by simp [hu]
  have hu' : u'.ctx = [] := (runHal_frame hinit).ctx_eq.trans hh
  have hu'' : u''.ctx = [] := (runHal_frame hen).ctx_eq.trans hu'
  refine .capability_then 5 accSnapshot hctx hq (by decide) (fun loc w hw => ?_) hsnap ?_
  · simp only [laterLine, openStep, setMseq_cfg, setMseq_regs, hw.cfg_eq, hw.regs_eq]
  refine .line hu hq (by decide) (u := (u.maskLine (u.lineOf q)).atLine ⟨.openPort, p⟩ 6 0#32 0#32) rfl ?_
  refine .line (w := u.maskLine (u.lineOf q)) hu hq (by decide)
    (u := ((u.maskLine (u.lineOf q)).hookLine (u.lineOf q)).atLine ⟨.openPort, p⟩ 7 0#32 0#32)
    ?_ ?_
  · simp only [laterLine, openStep, setMseq_lineOf, maskLine_lineOf, hookLine_setMseq, State.atLine,
      setMseq_setMseq]
  refine .capability_then 8 accInit hh hq (by decide) (fun loc w hw => ?_) hinit ?_
  · simp only [laterLine, openStep, setMseq_cfg, setMseq_regs, hw.cfg_eq, hw.regs_eq]
  refine .capability_then 9 accEnRx hu' hq (by decide) (fun loc w hw => ?_) hen ?_
  · simp only [laterLine, openStep, setMseq_cfg, setMseq_regs, hw.cfg_eq, hw.regs_eq]
  refine .line hu'' hq (by decide) (u := (u''.unmaskLine (u''.lineOf q)).atLine ⟨.openPort, p⟩ 10 0#32 0#32) rfl ?_
  refine .line (w := u''.unmaskLine (u''.lineOf q)) hu'' hq (by decide) ?_ (.refl _)
  simp only [laterLine, openStep, openEnd, setLife_setMseq, finish_setMseq]

/-- OPEN from line 3. -/
theorem openTail_reaches (hctx : s.ctx = []) (hq : slotOfSel p = some q) (h : openTail q s = .ok () t) :
    Reaches (s.atLine ⟨.openPort, p⟩ 3 0#32 0#32) t := by
  obtain ⟨d, u, hd, hrest⟩ := andThen_eq_ok.1 h
  unfold openDetect at hd
  cases hv : (s.regs q).variant with
  | std =>
    rw [hv] at hd
    obtain ⟨v, hrun, rfl⟩ := halDetect_eq_ok.1 hd
    refine .capability (x := if detectOf (s.regs q) v then u.atLine ⟨.openPort, p⟩ 4 0#32 0#32 else u.openUndo q)
      (accs := accDetect) (fin := fun v x => if detectOf (s.regs q) v then
        .ok () (x.atLine ⟨.openPort, p⟩ 4 0#32 0#32) else .ok () (x.openUndo q))
      hctx hq (by decide) (fun loc w hw => ?_) hrun (fun m => ?_) ?_
    · simp only [laterLine, openStep, setMseq_cfg, setMseq_regs, hw.cfg_eq, hw.regs_eq, hv]
    · split <;> rfl
    · cases hdet : detectOf (s.regs q) v with
      | true =>
        rw [hdet] at hrest
        exact openHook_reaches ((runHal_frame hrun).ctx_eq.trans hctx) hq hrest
      | false =>
        rw [hdet] at hrest
        obtain ⟨-, rfl⟩ := ok_eq_ok.1 hrest
        exact .refl _
  | integ =>
    rw [hv] at hd
    obtain ⟨rfl, rfl⟩ := ok_eq_ok.1 hd
    refine .line hctx hq (by decide) (u := u.atLine ⟨.openPort, p⟩ 4 0#32 0#32) ?_ (openHook_reaches hctx hq hrest)
    simp only [laterLine, openStep, setMseq_regs, hv, State.atLine, setMseq_setMseq]

/-- OPEN (spec/45_lifecycle.md R210). -/
theorem openWhole_reaches (hctx : s.ctx = []) (h : openWhole p s = .ok () t) :
    Reaches (s.atLine ⟨.openPort, p⟩ 1 0#32 0#32) t := by
  unfold openWhole at h
  cases hc : openCheck p s with
  | error e =>
    rw [hc] at h
    obtain ⟨-, rfl⟩ := ok_eq_ok.1 h
    refine .step ((coreStep_first hctx _).trans ?_) (.refl _)
    simp only [firstLine, openCheck_setMseq, hc, fail_setMseq]
  | ok q =>
    rw [hc] at h
    obtain ⟨a, u, ha, h⟩ := andThen_eq_ok.1 h
    have hq := openCheck_slot hc
    obtain ⟨-, -, -, -, hu⟩ := regAlloc_eq_ok.1 ha
    have hd : u.dseq = s.dseq := by rw [hu]; split <;> simp
    have hcu : u.ctx = [] := by rw [hu]; split <;> simpa using hctx
    have ha' := ok_setMseq (fun m d => regAlloc_reseq s m d q s.a0 s.a1 s.a2) ha hd
    refine .step (u := s.atLine ⟨.openPort, p⟩ 2 0#32 0#32) ((coreStep_first hctx _).trans ?_) ?_
    · simp only [firstLine, openCheck_setMseq, hc, State.atLine, setMseq_setMseq]
    cases a with
    | true =>
      refine .line hctx hq (by decide) (u := (u.setLife q .opening).atLine ⟨.openPort, p⟩ 3 0#32 0#32) ?_
        (openTail_reaches hcu hq h)
      simp only [laterLine, openStep, setMseq_a0, setMseq_a1, setMseq_a2, ha', andThen_ok, if_true,
        setLife_setMseq, State.atLine, setMseq_setMseq]
    | false =>
      obtain ⟨-, rfl⟩ := ok_eq_ok.1 h
      refine .line hctx hq (by decide) ?_ (.refl _)
      simp only [laterLine, openStep, setMseq_a0, setMseq_a1, setMseq_a2, ha', andThen_ok, Bool.false_eq_true,
        if_false, fail_setMseq]

/-- CONFIGURE (spec/45_lifecycle.md R214). -/
theorem configureWhole_reaches (hctx : s.ctx = []) (h : configureWhole p s = .ok () t) :
    Reaches (s.atLine ⟨.configure, p⟩ 1 0#32 0#32) t := by
  unfold configureWhole at h
  cases hc : configureCheck p s with
  | error e =>
    rw [hc] at h
    obtain ⟨-, rfl⟩ := ok_eq_ok.1 h
    refine .step ((coreStep_first hctx _).trans ?_) (.refl _)
    simp only [firstLine, configureCheck_setMseq, hc, fail_setMseq]
  | ok q =>
    rw [hc] at h
    obtain ⟨v, u, hrun, hend⟩ := andThen_eq_ok.1 h
    obtain ⟨-, rfl⟩ := ok_eq_ok.1 hend
    have hq := configureCheck_slot hc
    have hu : u.ctx = [] := (halConfig_frame hrun).ctx_eq.trans hctx
    refine .step (u := s.atLine ⟨.configure, p⟩ 2 0#32 0#32) ((coreStep_first hctx _).trans ?_) ?_
    · simp only [firstLine, configureCheck_setMseq, hc, State.atLine, setMseq_setMseq]
    refine .line hctx hq (by decide)
      (u := (s.maskLine (s.lineOf q)).atLine ⟨.configure, p⟩ 3 0#32 0#32) rfl ?_
    refine .capability_then 4 (accConfig s.a0 s.a1 s.a2 s.a3) hctx hq (by decide) (fun loc w hw => ?_) hrun ?_
    · obtain ⟨h0, h1, h2, h3⟩ := hw.operands_eq
      simp only [laterLine, configureStep, setMseq_cfg, setMseq_regs, hw.cfg_eq, hw.regs_eq, setMseq_a0,
        setMseq_a1, setMseq_a2, setMseq_a3, h0, h1, h2, h3]
      rfl
    refine .line hu hq (by decide)
      (u := (u.unmaskLine (u.lineOf q)).atLine ⟨.configure, p⟩ 5 0#32 0#32) rfl ?_
    refine .line (w := u.unmaskLine (u.lineOf q)) hu hq (by decide) ?_ (.refl _)
    simp only [laterLine, configureStep, finish_setMseq]

/-- CLOSE from line 3. -/
theorem closeTail_reaches (hctx : s.ctx = []) (hq : slotOfSel p = some q) (h : closeTail q s = .ok () t) :
    Reaches (s.atLine ⟨.close, p⟩ 3 0#32 0#32) t := by
  obtain ⟨v, u, hdis, h'⟩ := andThen_eq_ok.1 h
  obtain ⟨v', u', hrest, hend⟩ := andThen_eq_ok.1 h'
  obtain ⟨-, rfl⟩ := ok_eq_ok.1 hend
  have hu : u.ctx = [] := (runHal_frame hdis).ctx_eq.trans hctx
  have hh : (u.unhookLine (u.lineOf q)).ctx = [] := by simp [hu]
  have hu' : u'.ctx = [] := (runHal_frame hrest).ctx_eq.trans hh
  have hx : ((u'.dropPort q).unmaskIfUsed (u'.lineOf q)).ctx = [] := by
    unfold State.unmaskIfUsed; split <;> exact hu'
  refine .line hctx hq (by decide) (u := (s.maskLine (s.lineOf q)).atLine ⟨.close, p⟩ 4 0#32 0#32) rfl ?_
  refine .capability_then 5 accDisInt hctx hq (by decide) (fun loc w hw => ?_) hdis ?_
  · simp only [laterLine, closeStep, setMseq_cfg, setMseq_regs, hw.cfg_eq, hw.regs_eq]
  refine .line hu hq (by decide) (u := (u.unhookLine (u.lineOf q)).atLine ⟨.close, p⟩ 6 0#32 0#32) ?_ ?_
  · simp only [laterLine, closeStep, setMseq_lineOf, unhookLine_setMseq, State.atLine, setMseq_setMseq]
  refine .capability_then 7 accRestore hh hq (by decide) (fun loc w hw => ?_) hrest ?_
  · simp only [laterLine, closeStep, setMseq_cfg, setMseq_regs, hw.cfg_eq, hw.regs_eq]
  refine .line hu' hq (by decide) (u := (u'.dropPort q).atLine ⟨.close, p⟩ 8 0#32 0#32) rfl ?_
  refine .line (w := u'.dropPort q) hu' hq (by decide)
    (u := ((u'.dropPort q).unmaskIfUsed (u'.lineOf q)).atLine ⟨.close, p⟩ 9 0#32 0#32) ?_ ?_
  · simp only [laterLine, closeStep, setMseq_lineOf, unmaskIfUsed_setMseq, State.atLine, setMseq_setMseq]
    rfl
  refine .line hx hq (by decide) ?_ (.refl _)
  simp only [laterLine, closeStep, finish_setMseq]

/-- CLOSE from line 2, one round of its spin (spec/45_lifecycle.md R216). -/
theorem closeSpin_reaches {ps : PortState} (hctx : s.ctx = []) (hq : slotOfSel p = some q)
    (hp : s.slots.get q = some ps) (h : closeSpin p q ps s = .ok () t) :
    Reaches (s.atLine ⟨.close, p⟩ 2 0#32 0#32) t := by
  have hp' (m : MSeq) : (s.setMseq m).slots.get q = some ps := hp
  unfold closeSpin at h
  by_cases hb : (!ps.blocking) = true
  · rw [if_pos hb] at h
    refine .line hctx hq (by decide) (u := s.atLine ⟨.close, p⟩ 3 0#32 0#32) ?_ (closeTail_reaches hctx hq h)
    simp only [laterLine, closeStep, withPort_some (hp' _), if_pos hb]; rfl
  · rw [if_neg hb] at h
    by_cases hc : ps.tx.count ≠ 0#16
    · rw [if_pos hc] at h
      obtain ⟨-, rfl⟩ := ok_eq_ok.1 h
      exact .refl _
    · rw [if_neg hc] at h
      obtain ⟨e, u, he, hrest⟩ := andThen_eq_ok.1 h
      obtain ⟨v, hrun, rfl⟩ := halTxEmpty_eq_ok.1 he
      obtain ⟨a, ha⟩ := accTxEmpty_single s.cfg (s.regs q)
      obtain ⟨r, hstep, rfl⟩ := runAccs_single (as := accTxEmpty s.cfg (s.regs q)) ha hrun
      have hu : u.ctx = [] := (accStep_frame hstep).ctx_eq.trans hctx
      refine .line hctx hq (by decide)
        (u := s.setMseq (.run ⟨.close, p⟩ 2 ⟨0#32, 0#32, 1, accTxEmpty s.cfg (s.regs q), 0#16⟩)) ?_ ?_
      · simp only [laterLine, closeStep, withPort_some (hp' _), if_neg hb, MLocals.at_, if_true, if_neg hc]; rfl
      refine .line hctx hq (by decide)
        (u := if txEmptyOf s.cfg (s.regs q) r.1 then u.atLine ⟨.close, p⟩ 3 0#32 0#32
          else u.atLine ⟨.close, p⟩ 2 0#32 0#32) ?_ ?_
      · simp only [laterLine, closeStep, withPort_some (hp' _), if_neg hb, Nat.one_ne_zero, if_false]
        rw [mainHal_last (a := a) (by simpa using ha)]
        simp only [accStep_setMseq hstep, andThen_ok, setMseq_cfg, setMseq_regs,
          (accStep_frame hstep).cfg_eq]
        split <;> rfl
      · cases hd : txEmptyOf s.cfg (s.regs q) r.1 with
        | true =>
          rw [hd] at hrest
          exact closeTail_reaches hu hq hrest
        | false =>
          rw [hd] at hrest
          obtain ⟨-, rfl⟩ := ok_eq_ok.1 hrest
          exact .refl _

/-- CLOSE (spec/45_lifecycle.md R216, R218). -/
theorem closeWhole_reaches (hctx : s.ctx = []) (h : closeWhole p s = .ok () t) :
    Reaches (s.atLine ⟨.close, p⟩ 1 0#32 0#32) t := by
  unfold closeWhole at h
  cases hq : slotOfSel p with
  | none =>
    rw [hq] at h
    obtain ⟨-, rfl⟩ := ok_eq_ok.1 h
    refine .step ((coreStep_first hctx _).trans ?_) (.refl _)
    simp only [firstLine, hq, fail_setMseq]
  | some q =>
    rw [hq] at h
    cases hp : s.slots.get q with
    | none =>
      simp only [hp] at h
      obtain ⟨-, rfl⟩ := ok_eq_ok.1 h
      refine .step ((coreStep_first hctx _).trans ?_) (.refl _)
      simp only [firstLine, hq, setMseq_slots, hp, Option.isNone_none, if_true, finish_setMseq]
    | some ps =>
      simp only [hp] at h
      refine .step (u := (s.setLife q .closing).atLine ⟨.close, p⟩ 2 0#32 0#32)
        ((coreStep_first hctx _).trans ?_) (closeSpin_reaches (s := s.setLife q .closing) hctx hq hp h)
      simp only [firstLine, hq, setMseq_slots, hp, Option.isNone_some, Bool.false_eq_true, if_false]; rfl

end Lifecycle

end Sys2Proof.Machine

namespace Sys2Proof.Machine

open Sys2Proof

/-! ### SEND, RECV and the short commands -/

theorem ringPushN_frame {q : Slot} {d : Dir} {n src : Nat} {s t : State}
    (h : ringPushN q d n src s = .ok () t) : AccFrame q s t := by
  obtain ⟨ps, bs, hp, -, -, -, -, rfl⟩ := ringPushN_eq_ok.1 h
  exact .of_setSlot hp ⟨by simp, by simp⟩ rfl

theorem ringClear_frame {q : Slot} {d : Dir} {s t : State} (h : ringClear q d s = .ok () t) :
    AccFrame q s t := by
  obtain ⟨ps, hp, -, rfl⟩ := ringClear_eq_ok.1 h
  exact .of_setSlot hp ⟨by simp, by simp⟩ rfl

/-- RB.POPN may write what an access may, and `HBUF`. -/
theorem ringPopN_frame {q : Slot} {d : Dir} {n dst : Nat} {s t : State}
    (h : ringPopN q d n dst s = .ok () t) : AccFrame q (s.setHbuf t.hbuf) t := by
  obtain ⟨ps, hp, -, -, -, rfl⟩ := ringPopN_eq_ok.1 h
  refine .of_setSlot (s := s.setHbuf _) hp ⟨by simp, by simp⟩ ?_
  rw [storageBytes_frame]; rfl

/-- What line 4 of SEND does (spec/46_transfer.md R231). -/
theorem sendCopy_eq_ok {q : Slot} {moved k : Word} {s t : State} : sendCopy q moved s = .ok k t ↔
    ∃ ps, s.slots.get q = some ps ∧ k = BitVec.ofNat 32 (sendCount ps moved s.a1)
      ∧ ringPushN q .tx (sendCount ps moved s.a1) (s.a0.toNat + moved.toNat) s = .ok () t := by
  unfold sendCopy
  rw [withPort_eq_ok]
  refine exists_congr fun ps => and_congr_right fun _ => ?_
  rw [andThen_eq_ok]
  constructor
  · rintro ⟨x, u, h, hk⟩; obtain ⟨rfl, rfl⟩ := ok_eq_ok.1 hk; exact ⟨rfl, h⟩
  · rintro ⟨rfl, h⟩; exact ⟨(), t, h, rfl⟩

/-- What line 4 of RECV does (spec/46_transfer.md R233). -/
theorem recvCopy_eq_ok {q : Slot} {moved k : Word} {s t : State} : recvCopy q moved s = .ok k t ↔
    ∃ ps, s.slots.get q = some ps ∧ k = BitVec.ofNat 32 (recvCount ps moved s.a1)
      ∧ ringPopN q .rx (recvCount ps moved s.a1) (s.a0.toNat + moved.toNat) s = .ok () t := by
  unfold recvCopy
  rw [withPort_eq_ok]
  refine exists_congr fun ps => and_congr_right fun _ => ?_
  rw [andThen_eq_ok]
  constructor
  · rintro ⟨x, u, h, hk⟩; obtain ⟨rfl, rfl⟩ := ok_eq_ok.1 hk; exact ⟨rfl, h⟩
  · rintro ⟨rfl, h⟩; exact ⟨(), t, h, rfl⟩

theorem sendCopy_frame {q : Slot} {moved k : Word} {s t : State} (h : sendCopy q moved s = .ok k t) :
    AccFrame q s t := by
  obtain ⟨ps, -, -, h⟩ := sendCopy_eq_ok.1 h
  exact ringPushN_frame h

theorem recvCopy_frame {q : Slot} {moved k : Word} {s t : State} (h : recvCopy q moved s = .ok k t) :
    AccFrame q (s.setHbuf t.hbuf) t := by
  obtain ⟨ps, -, -, h⟩ := recvCopy_eq_ok.1 h
  exact ringPopN_frame h

/-- The accesses of HAL.FILL_TX do the same whatever the temporary holds (spec/43_hal_variant_mux.md R160). -/
theorem runAccs_fill {q : Slot} {m : Nat} {a : Acc} (ha : (∃ x, a = .fill8 x) ∨ ∃ x, a = .fill16 x)
    {v r : Half} {s t : State} (h : runAccs q (.replicate m a) v s = .ok r t) (w : Half) :
    ∃ r', runAccs q (.replicate m a) w s = .ok r' t := by
  have hstep : ∀ {s u x}, accStep q a v s = .ok x u → x.1 = v ∧ accStep q a w s = .ok (w, x.2) u := by
    intro s u x hx
    obtain ⟨y, rfl⟩ | ⟨y, rfl⟩ := ha <;>
    · obtain ⟨b, z, hb, hrest⟩ := andThen_eq_ok.1 hx
      simp only [accStep, hb, andThen_ok]
      cases b with
      | none => obtain ⟨rfl, rfl⟩ := ok_eq_ok.1 hrest; exact ⟨rfl, rfl⟩
      | some b =>
        obtain ⟨_, z', hwr, hend⟩ := andThen_eq_ok.1 hrest
        obtain ⟨rfl, rfl⟩ := ok_eq_ok.1 hend
        exact ⟨rfl, by simp only [hwr, andThen_ok]⟩
  induction m generalizing s with
  | zero => exact ⟨w, by rw [(ok_eq_ok.1 h).2]; rfl⟩
  | succ m ih =>
    obtain ⟨x, u, hx, hrest⟩ := andThen_eq_ok.1 h
    obtain ⟨hv, hw⟩ := hstep hx
    rw [List.replicate_succ, runAccs]
    simp only [hw, andThen_ok]
    by_cases hend : x.2 = true
    · rw [if_pos hend] at hrest ⊢
      exact ⟨w, by rw [(ok_eq_ok.1 hrest).2]⟩
    · rw [if_neg hend] at hrest ⊢
      rw [hv] at hrest; exact ih hrest

/-- The burst does the same whatever the temporary holds. -/
theorem runAccs_burst {q : Slot} {cfg : Config} {regs : Regs} {v r : Half} {s t : State}
    (h : runAccs q (accBurst cfg regs) v s = .ok r t) (w : Half) :
    ∃ r', runAccs q (accBurst cfg regs) w s = .ok r' t := by
  cases regs with
  | std b => exact runAccs_fill (.inl ⟨_, rfl⟩) h w
  | integ => exact runAccs_fill (.inr ⟨_, rfl⟩) h w

/-- The enable and the burst of the kick are one list of accesses of the sequencer (spec/46_transfer.md R232). -/
theorem enTx_then_burst {q : Slot} {cfg : Config} {regs : Regs} {v r : Half} {s t u : State}
    (h₁ : runAccs q (accEnTx cfg regs) 0#16 s = .ok v t) (h₂ : runAccs q (accBurst cfg regs) 0#16 t = .ok r u) :
    ∃ r', runAccs q (accEnTx cfg regs ++ accBurst cfg regs) 0#16 s = .ok r' u := by
  obtain ⟨r', h⟩ := runAccs_burst h₂ v
  refine ⟨r', ?_⟩
  rw [runAccs_append, h₁, andThen_ok, h]
  intro a ha v s x t hx
  cases regs <;> simp only [accEnTx, List.mem_cons, List.not_mem_nil, or_false] at ha <;>
    obtain rfl | rfl := ha <;>
    · obtain ⟨y, z, -, hend⟩ := andThen_eq_ok.1 hx
      rw [(ok_eq_ok.1 hend).1]

section Transfer

variable {p : BitVec 4} {q : Slot} {s t e : State} {moved k : Word}

/-- What the kick does (spec/46_transfer.md R232). -/
theorem kick_eq_ok : kick q s = .ok () t ↔ ∃ ps, s.slots.get q = some ps
    ∧ ((ps.tx.count = 0#16 ∧ t = s) ∨ (ps.tx.count ≠ 0#16 ∧ ∃ b u, halTxEmpty q s = .ok b u
      ∧ ((b = false ∧ t = u) ∨ (b = true ∧ ∃ v v' w, runHal q accEnTx u = .ok v w
        ∧ runHal q accBurst w = .ok v' t)))) := by
  unfold kick
  rw [withPort_eq_ok]
  refine exists_congr fun ps => and_congr_right fun _ => ?_
  by_cases hc : ps.tx.count = 0#16
  · simp [hc, eq_comm]
  · rw [if_neg hc, andThen_eq_ok]
    simp only [hc, false_and, false_or, ne_eq, not_false_eq_true, true_and]
    refine exists_congr fun b => exists_congr fun u => and_congr_right fun _ => ?_
    cases b with
    | false => simp [eq_comm]
    | true =>
      simp only [if_true, andThen_eq_ok, Bool.true_eq_false, false_and, false_or, true_and]
      constructor
      · rintro ⟨v, w, h₁, v', x, h₂, h₃⟩; rw [(ok_eq_ok.1 h₃).2]; exact ⟨v, v', w, h₁, h₂⟩
      · rintro ⟨v, v', w, h₁, h₂⟩; exact ⟨v, w, h₁, v', t, h₂, rfl⟩

/-- Line 5 of SEND. -/
theorem kick_reaches (hctx : s.ctx = []) (hq : slotOfSel p = some q) (h : kick q s = .ok () t)
    (hx : Reaches (t.atLine ⟨.send, p⟩ 6 moved k) e) : Reaches (s.atLine ⟨.send, p⟩ 5 moved k) e := by
  obtain ⟨ps, hp, h⟩ := kick_eq_ok.1 h
  have hp' (m : MSeq) : (s.setMseq m).slots.get q = some ps := hp
  have hregs : s.regs q = ps.regs := by simp [State.regs, hp]
  rcases h with ⟨hc, rfl⟩ | ⟨hc, b, u, he, h⟩
  · refine .line hctx hq (by decide) ?_ hx
    simp only [laterLine, sendStep, kickStep, withPort_some (hp' _), MLocals.at_, if_true, hc, State.atLine,
      setMseq_setMseq]
  obtain ⟨v, hrun, rfl⟩ := halTxEmpty_eq_ok.1 he
  rw [hregs] at h
  obtain ⟨a, ha⟩ := accTxEmpty_single s.cfg (s.regs q)
  obtain ⟨r, hstep, rfl⟩ := runAccs_single ha hrun
  have hf := accStep_frame hstep
  have hu : u.ctx = [] := hf.ctx_eq.trans hctx
  have hline : laterLine ⟨.send, p⟩ 5 (.at_ moved k) q (s.setMseq (.run ⟨.send, p⟩ 5 (.at_ moved k)))
      = if txEmptyOf s.cfg ps.regs r.1 then
          .ok () (u.setMseq (.run ⟨.send, p⟩ 5 ⟨moved, k, 2, accEnTx s.cfg ps.regs ++ accBurst s.cfg ps.regs, 0#16⟩))
        else .ok () (u.atLine ⟨.send, p⟩ 6 moved k) := by
    simp only [laterLine, sendStep, kickStep, withPort_some (hp' _), MLocals.at_, if_true, if_neg hc]
    rw [mainHal_last (a := a) (by rw [hregs] at ha; simpa using ha)]
    simp only [accStep_setMseq hstep, andThen_ok, setMseq_cfg, hf.cfg_eq, setMseq_setMseq, State.atLine,
      MLocals.at_]
  rcases h with ⟨hb, rfl⟩ | ⟨hb, v, v', w, hen, hburst⟩
  · refine .line hctx hq (by decide) ?_ hx
    rw [hline, hb]; rfl
  · rw [hb, if_pos rfl] at hline
    refine .line hctx hq (by decide) hline ?_
    have hur : u.regs q = ps.regs := by rw [hf.regs_eq, hregs]
    have hwr : w.regs q = ps.regs := by rw [(runHal_frame hen).regs_eq, hur]
    have hwc : w.cfg = s.cfg := (runHal_frame hen).cfg_eq.trans hf.cfg_eq
    simp only [runHal, hur, hf.cfg_eq] at hen
    simp only [runHal, hwr, hwc] at hburst
    obtain ⟨r', hall⟩ := enTx_then_burst hen hburst
    refine mainHal_reaches (loc₀ := ⟨moved, k, 2, accEnTx s.cfg ps.regs ++ accBurst s.cfg ps.regs, 0#16⟩)
      (start := []) (fin := fun _ x => .ok () (x.atLine ⟨.send, p⟩ 6 moved k)) (s := u) (t := t) (v := r')
      (fun loc y hy ⟨hm, hk, hs⟩ => ?_) (fun _ => rfl) hx _ _ u (.refl q u) ⟨rfl, rfl, id⟩ rfl hall
    obtain ⟨py, hpy, -⟩ := (hf.trans hy).port ps hp
    have hpy' (m : MSeq) : (y.setMseq m).slots.get q = some py := hpy
    rw [coreStep_later (hy.ctx_eq.trans hu) hq (by decide)]
    simp only [laterLine, sendStep, kickStep, withPort_some (hpy' _), if_neg (hs (Nat.succ_ne_zero 1)), hm, hk]

/-- What lines 3 to 6 of SEND do (spec/46_transfer.md R231). -/
theorem sendPass_eq_ok : sendPass q moved s = .ok k t ↔ ∃ u w,
    sendCopy q moved (s.maskLine (s.lineOf q)) = .ok k u ∧ kick q u = .ok () w
      ∧ t = w.unmaskLine (w.lineOf q) := by
  unfold sendPass
  rw [andThen_eq_ok]
  constructor
  · rintro ⟨k', u, hcopy, h⟩
    obtain ⟨_, w, hkick, hend⟩ := andThen_eq_ok.1 h
    obtain ⟨rfl, rfl⟩ := ok_eq_ok.1 hend
    exact ⟨u, w, hcopy, hkick, rfl⟩
  · rintro ⟨u, w, hcopy, hkick, rfl⟩
    exact ⟨k, u, hcopy, by simp only [hkick, andThen_ok]⟩

/-- What lines 3 to 5 of RECV do (spec/46_transfer.md R233). -/
theorem recvPass_eq_ok : recvPass q moved s = .ok k t ↔ ∃ u,
    recvCopy q moved (s.maskLine (s.lineOf q)) = .ok k u ∧ t = u.unmaskLine (u.lineOf q) := by
  unfold recvPass
  rw [andThen_eq_ok]
  constructor
  · rintro ⟨k', u, hcopy, hend⟩
    obtain ⟨rfl, rfl⟩ := ok_eq_ok.1 hend
    exact ⟨u, hcopy, rfl⟩
  · rintro ⟨u, hcopy, rfl⟩
    exact ⟨k, u, hcopy, rfl⟩

/-- SEND from line 3 to line 7. -/
theorem sendPass_reaches (hctx : s.ctx = []) (hq : slotOfSel p = some q) (h : sendPass q moved s = .ok k t)
    (hx : Reaches (t.atLine ⟨.send, p⟩ 7 moved k) e) : Reaches (s.atLine ⟨.send, p⟩ 3 moved 0#32) e := by
  obtain ⟨u, w, hcopy, hkick, rfl⟩ := sendPass_eq_ok.1 h
  have hf := sendCopy_frame hcopy
  have hu : u.ctx = [] := hf.ctx_eq.trans hctx
  have hw : w.ctx = [] := (kick_frame hkick).ctx_eq.trans hu
  have hcopy' := ok_setMseq (fun m d => sendCopy_reseq _ m d q moved) hcopy (by rw [hf.frame])
  refine .line hctx hq (by decide)
    (u := (s.maskLine (s.lineOf q)).atLine ⟨.send, p⟩ 4 moved 0#32) rfl ?_
  refine .line (w := s.maskLine (s.lineOf q)) hctx hq (by decide) (u := u.atLine ⟨.send, p⟩ 5 moved k) ?_ ?_
  · simp only [laterLine, sendStep, MLocals.at_, hcopy', andThen_ok]; rfl
  refine kick_reaches hu hq hkick (.line hw hq (by decide) ?_ hx)
  rfl

/-- RECV from line 3 to line 6. -/
theorem recvPass_reaches (hctx : s.ctx = []) (hq : slotOfSel p = some q) (h : recvPass q moved s = .ok k t)
    (hx : Reaches (t.atLine ⟨.recv, p⟩ 6 moved k) e) : Reaches (s.atLine ⟨.recv, p⟩ 3 moved 0#32) e := by
  obtain ⟨u, hcopy, rfl⟩ := recvPass_eq_ok.1 h
  have hf := recvCopy_frame hcopy
  have hu : u.ctx = [] := hf.ctx_eq.trans hctx
  have hcopy' := ok_setMseq (fun m d => recvCopy_reseq _ m d q moved) hcopy (by rw [hf.frame]; rfl)
  refine .line hctx hq (by decide)
    (u := (s.maskLine (s.lineOf q)).atLine ⟨.recv, p⟩ 4 moved 0#32) rfl ?_
  refine .line (w := s.maskLine (s.lineOf q)) hctx hq (by decide) (u := u.atLine ⟨.recv, p⟩ 5 moved k) ?_ ?_
  · simp only [laterLine, recvStep, MLocals.at_, hcopy', andThen_ok]; rfl
  refine .line hu hq (by decide) ?_ hx
  rfl

/-- The errors of the prologue end a command in one step. -/
theorem withOpen_eq_ok {f : Slot → PortState → Res Unit} : withOpen p s f = .ok () t ↔
    (∃ e, prologue p s = .error e ∧ t = s.fail e)
    ∨ ∃ q ps, prologue p s = .ok (q, ps) ∧ f q ps = .ok () t := by
  unfold withOpen
  cases prologue p s with
  | error e => simp [eq_comm]
  | ok x => obtain ⟨q, ps⟩ := x; simp

theorem prologue_setMseq (m : MSeq) : prologue p (s.setMseq m) = prologue p s := rfl

/-- A pass leaves the port present and its mode as it was. -/
theorem sendPass_port (h : sendPass q moved s = .ok k t) {ps : PortState} (hp : s.slots.get q = some ps) :
    t.ctx = s.ctx ∧ ∃ ps', t.slots.get q = some ps' ∧ ps'.blocking = ps.blocking := by
  obtain ⟨u, w, hcopy, hkick, rfl⟩ := sendPass_eq_ok.1 h
  have hf := (sendCopy_frame hcopy).trans (kick_frame hkick)
  obtain ⟨pw, hpw, -, hb⟩ := hf.port ps hp
  exact ⟨hf.ctx_eq, pw, hpw, hb.symm⟩

theorem recvPass_port (h : recvPass q moved s = .ok k t) {ps : PortState} (hp : s.slots.get q = some ps) :
    t.ctx = s.ctx ∧ ∃ ps', t.slots.get q = some ps' ∧ ps'.blocking = ps.blocking := by
  obtain ⟨u, hcopy, rfl⟩ := recvPass_eq_ok.1 h
  have hf := recvCopy_frame hcopy
  obtain ⟨pu, hpu, -, hb⟩ := hf.port ps hp
  exact ⟨hf.ctx_eq, pu, hpu, hb.symm⟩

/-- A command that begins with the prologue: its errors end the command in one step, and an open port is found with
the test of the command's first line. -/
theorem prologue_reaches {c : Cmd} {first : State → Slot → PortState → Res Unit} {f : Slot → PortState → Res Unit}
    (hfirst : ∀ u, firstLine c u = withOpen c.p u (first u)) (hctx : s.ctx = []) (h : withOpen c.p s f = .ok () t)
    (hopen : ∀ q ps, slotOfSel c.p = some q → s.slots.get q = some ps → f q ps = .ok () t →
      coreStep (s.atLine c 1 0#32 0#32) = first (s.atLine c 1 0#32 0#32) q ps →
      Reaches (s.atLine c 1 0#32 0#32) t) : Reaches (s.atLine c 1 0#32 0#32) t := by
  have hline : coreStep (s.atLine c 1 0#32 0#32)
      = withOpen c.p (s.atLine c 1 0#32 0#32) (first (s.atLine c 1 0#32 0#32)) :=
    (coreStep_first hctx _).trans (hfirst _)
  obtain ⟨e, hc, rfl⟩ | ⟨q, ps, hc, h⟩ := withOpen_eq_ok.1 h
  · refine .step (hline.trans ?_) (.refl _)
    simp only [withOpen, State.atLine, prologue_setMseq, hc, fail_setMseq]
  · obtain ⟨hq, hp⟩ := prologue_eq_ok.1 hc
    refine hopen q ps hq hp h (hline.trans ?_)
    simp only [withOpen, State.atLine, prologue_setMseq, hc]

/-- The lines that SEND and RECV have in common, the return at line `n`: the test of line 2, the return or the spin
iteration boundary of a blocking call, and the way back (spec/46_transfer.md R231, R233, R237). -/
structure TransferLines (c : Cmd) (n : Nat) : Prop where
  later : 2 < n
  first (s : State) : firstLine c s = withOpen c.p s fun _ _ =>
    if !bufferInside s.cfg s.a0.toNat s.a1.toNat then .refuse .bufferOutside else .ok () (s.atLine c 2 0#32 0#32)
  test (loc : MLocals) (q : Slot) (s : State) : laterLine c 2 loc q s =
    if loc.moved = s.a1 then .ok () (s.finish loc.moved) else .ok () (s.atLine c 3 loc.moved 0#32)
  done (loc : MLocals) (q : Slot) (s : State) : laterLine c n loc q s = withPort q s fun ps =>
    if !ps.blocking then .ok () (s.finish (loc.moved + loc.k))
    else .ok () (s.atLine c (n + 1) (loc.moved + loc.k) 0#32)
  back (loc : MLocals) (q : Slot) (s : State) : laterLine c (n + 1) loc q s = .ok () (s.atLine c 2 loc.moved 0#32)

/-- The end of the first pass: the return, or one turn of a blocking call. -/
theorem afterPass_reaches {c : Cmd} {n : Nat} {ps : PortState} (hl : TransferLines c n) (hctx : s.ctx = [])
    (hq : slotOfSel c.p = some q) (hp : s.slots.get q = some ps) :
    Reaches (s.atLine c n 0#32 k) (afterPass c ps.blocking k s) := by
  have hp' (m : MSeq) : (s.setMseq m).slots.get q = some ps := hp
  have hlater := hl.later
  unfold afterPass
  cases hb : ps.blocking with
  | false =>
    refine .line hctx hq (by omega) ?_ (.refl _)
    simp only [hl.done, withPort_some (hp' _), hb, MLocals.at_, BitVec.zero_add, Bool.not_false, if_true,
      finish_setMseq]
  | true =>
    refine .line hctx hq (by omega) (u := s.atLine c (n + 1) k 0#32) ?_ ?_
    · simp only [hl.done, withPort_some (hp' _), hb, MLocals.at_, BitVec.zero_add, Bool.not_true,
        Bool.false_eq_true, if_false]; rfl
    refine .line hctx hq (by omega) (u := s.atLine c 2 k 0#32) (hl.back _ _ _) ?_
    by_cases hz : k = s.a1
    · simp only [Bool.not_true, Bool.false_eq_true, if_false, if_pos hz]
      refine .line hctx hq (by decide) ?_ (.refl _)
      simp only [hl.test, MLocals.at_, setMseq_a1, hz, if_true, finish_setMseq]
    · simp only [Bool.not_true, Bool.false_eq_true, if_false, if_neg hz]
      exact .refl _

/-- A transfer: the tests, then a first pass that the sequencer reaches from line 3 to line `n`, then its end. -/
theorem transfer_reaches {c : Cmd} {n : Nat} {pass : Slot → State → Res Word} (hl : TransferLines c n)
    (hpass : ∀ {q k u e}, slotOfSel c.p = some q → pass q s = .ok k u → Reaches (u.atLine c n 0#32 k) e →
      Reaches (s.atLine c 3 0#32 0#32) e)
    (hport : ∀ {q k u ps}, pass q s = .ok k u → s.slots.get q = some ps →
      u.ctx = s.ctx ∧ ∃ ps', u.slots.get q = some ps' ∧ ps'.blocking = ps.blocking)
    (hctx : s.ctx = [])
    (h : (withOpen c.p s fun q ps =>
      if !bufferInside s.cfg s.a0.toNat s.a1.toNat then .refuse .bufferOutside
      else if s.a1 = 0#32 then .ok () (s.finish 0#32)
      else (pass q s).andThen fun k u => .ok () (afterPass c ps.blocking k u)) = .ok () t) :
    Reaches (s.atLine c 1 0#32 0#32) t := by
  refine prologue_reaches hl.first hctx h fun q ps hq hp h hstep => ?_
  cases hin : bufferInside s.cfg s.a0.toNat s.a1.toNat with
  | false => rw [hin] at h; cases h
  | true =>
    simp only [hin, Bool.not_true, Bool.false_eq_true, if_false] at h
    refine .step (u := s.atLine c 2 0#32 0#32) (hstep.trans ?_) ?_
    · simp only [State.atLine, setMseq_cfg, setMseq_a0, setMseq_a1, hin, Bool.not_true, Bool.false_eq_true,
        if_false, setMseq_setMseq]
    by_cases hz : s.a1 = 0#32
    · rw [if_pos hz] at h
      obtain ⟨-, rfl⟩ := ok_eq_ok.1 h
      refine .line hctx hq (by decide) ?_ (.refl _)
      simp only [hl.test, MLocals.at_, setMseq_a1, hz, if_true, finish_setMseq]
    · rw [if_neg hz] at h
      obtain ⟨k, u, hrun, hend⟩ := andThen_eq_ok.1 h
      obtain ⟨-, rfl⟩ := ok_eq_ok.1 hend
      obtain ⟨hcu, pu, hpu, hb⟩ := hport hrun hp
      refine .line hctx hq (by decide) (u := s.atLine c 3 0#32 0#32) ?_ (hpass hq hrun ?_)
      · simp only [hl.test, MLocals.at_, setMseq_a1, eq_comm (a := 0#32), hz, if_false]; rfl
      · rw [← hb]; exact afterPass_reaches hl (hcu.trans hctx) hq hpu

theorem transferLines_send (p : BitVec 4) : TransferLines ⟨.send, p⟩ 7 :=
  ⟨by decide, fun _ => rfl, fun _ _ _ => rfl, fun _ _ _ => rfl, fun _ _ _ => rfl⟩

theorem transferLines_recv (p : BitVec 4) : TransferLines ⟨.recv, p⟩ 6 :=
  ⟨by decide, fun _ => rfl, fun _ _ _ => rfl, fun _ _ _ => rfl, fun _ _ _ => rfl⟩

/-- SEND (spec/46_transfer.md R231). -/
theorem sendWhole_reaches (hctx : s.ctx = []) (h : sendWhole p s = .ok () t) :
    Reaches (s.atLine ⟨.send, p⟩ 1 0#32 0#32) t :=
  transfer_reaches (transferLines_send p) (pass := fun q => sendPass q 0#32)
    (fun hq h hx => sendPass_reaches hctx hq h hx) (fun h hp => sendPass_port h hp) hctx h

/-- RECV (spec/46_transfer.md R233). -/
theorem recvWhole_reaches (hctx : s.ctx = []) (h : recvWhole p s = .ok () t) :
    Reaches (s.atLine ⟨.recv, p⟩ 1 0#32 0#32) t :=
  transfer_reaches (transferLines_recv p) (pass := fun q => recvPass q 0#32)
    (fun hq h hx => recvPass_reaches hctx hq h hx) (fun h hp => recvPass_port h hp) hctx h

/-- CLEAR (spec/46_transfer.md R235). -/
theorem clearWhole_reaches {d : Dir} (hctx : s.ctx = []) (h : clearWhole p d s = .ok () t) :
    Reaches (s.atLine ⟨.clear d, p⟩ 1 0#32 0#32) t := by
  refine prologue_reaches (c := ⟨.clear d, p⟩) (fun _ => rfl) hctx h fun q ps hq hp h hstep => ?_
  obtain ⟨_, u, hclear, hend⟩ := andThen_eq_ok.1 h
  obtain ⟨-, rfl⟩ := ok_eq_ok.1 hend
  have hf := ringClear_frame hclear
  have hu : u.ctx = [] := hf.ctx_eq.trans hctx
  have hclear' := ok_setMseq (fun m x => ringClear_reseq _ m x q d) hclear (by rw [hf.frame])
  refine .step (u := s.atLine ⟨.clear d, p⟩ 2 0#32 0#32) hstep ?_
  refine .line hctx hq (by decide)
    (u := (s.maskLine (s.lineOf q)).atLine ⟨.clear d, p⟩ 3 0#32 0#32) rfl ?_
  refine .line (w := s.maskLine (s.lineOf q)) hctx hq (by decide)
    (u := u.atLine ⟨.clear d, p⟩ 4 0#32 0#32) ?_ ?_
  · simp only [laterLine, clearStep, hclear', andThen_ok]; rfl
  refine .line hu hq (by decide)
    (u := (u.unmaskLine (u.lineOf q)).atLine ⟨.clear d, p⟩ 5 0#32 0#32) rfl ?_
  refine .line (w := u.unmaskLine (u.lineOf q)) hu hq (by decide) ?_ (.refl _)
  simp only [laterLine, clearStep, finish_setMseq]

/-- AVAILABLE (spec/46_transfer.md R234). -/
theorem availableWhole_reaches (hctx : s.ctx = []) (h : availableWhole p s = .ok () t) :
    Reaches (s.atLine ⟨.available, p⟩ 1 0#32 0#32) t := by
  refine prologue_reaches (c := ⟨.available, p⟩) (fun _ => rfl) hctx h fun q ps hq hp h hstep => ?_
  obtain ⟨n, u, havail, hend⟩ := andThen_eq_ok.1 h
  obtain ⟨-, rfl⟩ := ok_eq_ok.1 hend
  obtain ⟨ps', hp', rfl, rfl⟩ := ringAvail_eq_ok.1 havail
  have hpm (m : MSeq) : (u.setMseq m).slots.get q = some ps' := hp'
  refine .step (u := u.atLine ⟨.available, p⟩ 2 0#32 0#32) hstep ?_
  refine .line hctx hq (by decide)
    (u := u.atLine ⟨.available, p⟩ 3 0#32 (ps'.rx.count.setWidth 32)) ?_ ?_
  · simp only [laterLine, readStep, withPort_some (hpm _)]; rfl
  refine .line hctx hq (by decide) ?_ (.refl _)
  simp only [laterLine, readStep, MLocals.at_, id, finish_setMseq]; rfl

/-- RXDROPPED (spec/46_transfer.md R236). -/
theorem rxDroppedWhole_reaches (hctx : s.ctx = []) (h : rxDroppedWhole p s = .ok () t) :
    Reaches (s.atLine ⟨.rxDropped, p⟩ 1 0#32 0#32) t := by
  refine prologue_reaches (c := ⟨.rxDropped, p⟩) (fun _ => rfl) hctx h fun q ps hq hp h hstep => ?_
  obtain ⟨-, rfl⟩ := ok_eq_ok.1 h
  have hpm (m : MSeq) : (s.setMseq m).slots.get q = some ps := hp
  refine .step (u := s.atLine ⟨.rxDropped, p⟩ 2 0#32 0#32) hstep ?_
  refine .line hctx hq (by decide) (u := s.atLine ⟨.rxDropped, p⟩ 3 0#32 ps.rxDropped) ?_ ?_
  · simp only [laterLine, readStep, withPort_some (hpm _)]; rfl
  refine .line hctx hq (by decide) ?_ (.refl _)
  simp only [laterLine, readStep, MLocals.at_, finish_setMseq]

end Transfer

/-- An API command issued as a word is a command issued to the block. -/
theorem exec_api {i : Instr} {c : Cmd} (hc : apiCommand i = some c) :
    ∃ whole, (∀ s, exec i s = issueCommand c whole s)
      ∧ ∀ s t, s.ctx = [] → whole s = .ok () t → Reaches (s.atLine c 1 0#32 0#32) t := by
  cases i <;> cases hc
  case openPort p => exact ⟨openWhole p, fun _ => rfl, fun _ _ => openWhole_reaches⟩
  case configure p => exact ⟨configureWhole p, fun _ => rfl, fun _ _ => configureWhole_reaches⟩
  case send p => exact ⟨sendWhole p, fun _ => rfl, fun _ _ => sendWhole_reaches⟩
  case recv p => exact ⟨recvWhole p, fun _ => rfl, fun _ _ => recvWhole_reaches⟩
  case clear p d => exact ⟨clearWhole p d, fun _ => rfl, fun _ _ => clearWhole_reaches⟩
  case available p => exact ⟨availableWhole p, fun _ => rfl, fun _ _ => availableWhole_reaches⟩
  case close p => exact ⟨closeWhole p, fun _ => rfl, fun _ _ => closeWhole_reaches⟩
  case rxDropped p => exact ⟨rxDroppedWhole p, fun _ => rfl, fun _ _ => rxDroppedWhole_reaches⟩

/-- What an API command issued as a word does: it starts, and, with no handler running, M runs it. -/
theorem exec_api_eq_next {i : Instr} {c : Cmd} {s t : State} (hc : apiCommand i = some c)
    (h : exec i s = .next t) : s.mseq = .idle
      ∧ ((s.ctx ≠ [] ∧ t = s.atLine c 1 0#32 0#32) ∨ (s.ctx = [] ∧ Reaches (s.atLine c 1 0#32 0#32) t)) := by
  obtain ⟨whole, hexec, hreach⟩ := exec_api hc
  rw [hexec, issueCommand_eq_next] at h
  exact ⟨h.1, h.2.imp_right fun ⟨hctx, hw⟩ => ⟨hctx, hreach s t hctx hw⟩⟩

/-- Settles O59: a command that is not started by a running handler is the run of M's sequencer that
`exec_api_eq_next` gives. -/
theorem commandIsARunOfTheSequencer : Obligations.CommandIsARunOfTheSequencer := by
  intro i c s t hc _ hctx h
  obtain ⟨-, ⟨hne, -⟩ | ⟨-, hr⟩⟩ := exec_api_eq_next hc h
  · exact absurd hctx hne
  · exact hr

end Sys2Proof.Machine

/-! ## Runs of a handler's sequencer

A visit performed as a word and the visit of the running handler do the same accesses in the same order
(spec/10_state.md R40, spec/44_dispatcher.md R192). -/

namespace Sys2Proof.Machine

open Sys2Proof

/-- No capability sees the sequencers. -/
theorem runAccs_reseq (q : Slot) (as : List Acc) (v : Half) (s : State) (m : MSeq) (d : PerLine DSeq) :
    runAccs q as v (s.reseq m d) = (runAccs q as v s).reseq m d := by
  induction as generalizing v s with
  | nil => rfl
  | cons a as ih =>
    rw [runAccs, accStep_reseq]
    refine reseq_andThen m d fun r u => ?_
    split
    · rfl
    · exact ih r.1 u

theorem halCause_reseq (q : Slot) (s : State) (m : MSeq) (d : PerLine DSeq) :
    halCause q (s.reseq m d) = (halCause q s).reseq m d := by
  have hr : (s.reseq m d).regs q = s.regs q := rfl
  have hc : (s.reseq m d).cfg = s.cfg := rfl
  unfold halCause runHal
  rw [hr, hc, runAccs_reseq]
  refine reseq_andThen m d fun v u => ?_
  cases causeOf s.cfg (s.regs q) v <;> rfl

theorem halCause_frame {q : Slot} {s t : State} {c : Cause} (h : halCause q s = .ok c t) : AccFrame q s t := by
  obtain ⟨v, h, -⟩ := halCause_eq_ok.1 h
  exact runHal_frame h

/-- An operation that sees no sequencer does the same wherever the handlers stand. -/
theorem ok_setDseq {α : Type} {q : Slot} {f : State → Res α} {s t : State} {a : α}
    (hf : ∀ m d, f (s.reseq m d) = (f s).reseq m d) (h : f s = .ok a t) (ht : AccFrame q s t) (l : Line)
    (x : DSeq) : f (s.setDseq l x) = .ok a (t.setDseq l x) := by
  have hm : t.mseq = s.mseq := by rw [ht.frame]
  have hd : t.dseq = s.dseq := by rw [ht.frame]
  rw [setDseq_eq_reseq, hf, h, setDseq_eq_reseq, hm, hd, reseq_ok]

@[simp] theorem setDseq_setDseq (s : State) (l : Line) (x y : DSeq) :
    (s.setDseq l x).setDseq l y = s.setDseq l y := by
  simp [State.setDseq]

section Handler

variable {l : Line} {rest : List Line} {q : Slot} {i : Nat} {s t e : State}

/-- The step of the running handler. -/
theorem coreStep_handler (hctx : s.ctx = l :: rest) (x : DSeq) :
    coreStep (s.setDseq l x) = isrStep l (s.setDseq l x) := by
  rw [coreStep, setDseq_ctx, hctx]

/-- The accesses of an action, one step each, back to line 2 of the visit. -/
theorem action_reaches {c : Cause} {a : Acc} {as : List Acc} {v r : Half} (hctx : s.ctx = l :: rest)
    (hi : (s.cfg.portsOf l)[i]? = some q) (hrun : runAccs q (a :: as) v s = .ok r t)
    (hx : Reaches (t.setDseq l (.run 2 i .none [] 0#16)) e) :
    Reaches (s.setDseq l (.run 3 i c (a :: as) v)) e := by
  induction as generalizing a v s with
  | nil =>
    obtain ⟨x, hstep, -⟩ := runAccs_single rfl hrun
    have hf := accStep_frame hstep
    refine .step ((coreStep_handler hctx _).trans ?_) hx
    simp only [isrStep, setDseq_dseq, PerLine.get_set_same, setDseq_cfg, hi,
      ok_setDseq (fun m d => accStep_reseq s m d q a v) hstep hf l, andThen_ok, or_true, if_true,
      setDseq_setDseq]
  | cons b as ih =>
    obtain ⟨x, u, hstep, hrest⟩ := andThen_eq_ok.1 hrun
    have hf := accStep_frame hstep
    have hline : coreStep (s.setDseq l (.run 3 i c (a :: b :: as) v)) = if x.2
        then .ok () (u.setDseq l (.run 2 i .none [] 0#16))
        else .ok () (u.setDseq l (.run 3 i c (b :: as) x.1)) := by
      rw [coreStep_handler hctx]
      simp only [isrStep, setDseq_dseq, PerLine.get_set_same, setDseq_cfg, hi,
        ok_setDseq (fun m d => accStep_reseq s m d q a v) hstep hf l, andThen_ok, reduceCtorEq, or_false,
        setDseq_setDseq]
    by_cases hend : x.2 = true
    · rw [if_pos hend] at hrest hline
      rw [(ok_eq_ok.1 hrest).2] at hx
      exact .step hline hx
    · rw [if_neg hend] at hrest hline
      exact .step hline (ih (hf.ctx_eq.trans hctx) (by rw [hf.cfg_eq]; exact hi) hrest)

/-- Where the handler stands after rounds of a visit: past the port if the visit has ended, and else before the
next round. -/
def afterRounds (i : Nat) (ended : Bool) : DSeq :=
  if ended then .run 1 (i + 1) .none [] 0#16 else .run 2 i .none [] 0#16

/-- Where the handler stands after a reading of the cause: past the port if there is none, at the action of the cause
if it has accesses, and else before the next round. -/
def afterCause (i : Nat) (c : Cause) (accs : List Acc) : DSeq :=
  if c = .none then .run 1 (i + 1) .none [] 0#16
  else if accs.isEmpty then .run 2 i .none [] 0#16 else .run 3 i c accs 0#16

/-- The rounds of a visit (spec/44_dispatcher.md R192). -/
theorem visitLoop_reaches {n : Nat} {ended : Bool} (hctx : s.ctx = l :: rest)
    (hi : (s.cfg.portsOf l)[i]? = some q) (h : visitLoop q n s = .ok ended t) :
    Reaches (s.setDseq l (.run 2 i .none [] 0#16)) (t.setDseq l (afterRounds i ended)) := by
  induction n generalizing s with
  | zero =>
    obtain ⟨rfl, rfl⟩ := ok_eq_ok.1 h
    exact .refl _
  | succ n ih =>
    obtain ⟨ps, hp, h⟩ := withPort_eq_ok.1 h
    obtain ⟨c, u, hcause, hround⟩ := andThen_eq_ok.1 h
    have hf := halCause_frame hcause
    have hpx : ∀ x, (s.setDseq l x).slots.get q = some ps := fun _ => hp
    have hline (d : DSeq) (hd : d = afterCause i c (accAction s.cfg ps c)) :
        coreStep (s.setDseq l (.run 2 i .none [] 0#16)) = .ok () (u.setDseq l d) := by
      rw [hd, coreStep_handler hctx]
      simp only [isrStep, setDseq_dseq, PerLine.get_set_same, setDseq_cfg, hi, withPort_some (hpx _),
        ok_setDseq (halCause_reseq q s) hcause hf l, andThen_ok, hf.cfg_eq, setDseq_setDseq, afterCause]
      by_cases hc : c = .none
      · simp only [if_pos hc]
      · simp only [if_neg hc]; cases accAction s.cfg ps c <;> rfl
    by_cases hc : c = .none
    · rw [if_pos hc] at hround
      obtain ⟨rfl, rfl⟩ := ok_eq_ok.1 hround
      exact .step (hline _ (by rw [afterCause, if_pos hc]; rfl)) (.refl _)
    · rw [if_neg hc] at hround
      obtain ⟨v, w, hacts, hmore⟩ := andThen_eq_ok.1 hround
      have hu : u.ctx = l :: rest := hf.ctx_eq.trans hctx
      have hui : (u.cfg.portsOf l)[i]? = some q := by rw [hf.cfg_eq]; exact hi
      have hw := runAccs_frame hacts
      have hgo := ih (hw.ctx_eq.trans hu) (by rw [hw.cfg_eq]; exact hui) hmore
      rw [hf.cfg_eq] at hacts
      cases has : accAction s.cfg ps c with
      | nil =>
        rw [has] at hacts
        rw [(ok_eq_ok.1 hacts).2] at hgo
        exact .step (hline _ (by rw [has, afterCause, if_neg hc]; rfl)) hgo
      | cons a as =>
        rw [has] at hacts
        exact .step (hline _ (by rw [has, afterCause, if_neg hc]; rfl)) (action_reaches hu hui hacts hgo)

/-- A visited port moves the running handler past it. -/
theorem visited_eq (hctx : s.ctx = l :: rest) (hd : s.dseq.get l = .run 1 i .none [] 0#16)
    (hi : (s.cfg.portsOf l)[i]? = some q) : s.visited q = s.setDseq l (.run 1 (i + 1) .none [] 0#16) := by
  simp only [State.visited, hctx, hd, hi, if_true]

/-- The step of the handler before the visit of a port: past an absent one, and into the visit of a present
one. -/
theorem coreStep_port (hctx : s.ctx = l :: rest) (hd : s.dseq.get l = .run 1 i .none [] 0#16)
    (hi : (s.cfg.portsOf l)[i]? = some q) : coreStep s = .ok () (s.setDseq l
      (if (s.slots.get q).isNone then .run 1 (i + 1) .none [] 0#16 else .run 2 i .none [] 0#16)) := by
  simp only [coreStep, hctx, isrStep, hd, hi]
  split <;> rfl

end Handler

/-- Settles O60: the visit of an absent port is one step of the handler; that of a present one is a step to line 2
and then the rounds of `visitLoop_reaches`. -/
theorem visitIsARunOfTheHandler : Obligations.VisitIsARunOfTheHandler := by
  intro s t q l rest i hctx hd hi h
  have hv : visitWhole q s = .ok () t := by
    rw [← outcome_eq_next]; simpa [exec, execDspVisit] using h
  have hfirst := coreStep_port hctx hd hi
  obtain ⟨hp, rfl⟩ | ⟨hp, ended, u, hrounds, rfl⟩ := visitWhole_eq_ok.1 hv
  · rw [visited_eq hctx hd hi]
    rw [hp] at hfirst
    exact .inl ⟨rfl, PerLine.get_set_same _ _ _, Reaches.step hfirst (.refl _)⟩
  · have hf := visitLoop_frame hrounds
    have hm : u.moves = s.moves := by rw [hf.frame]
    have hds : u.dseq = s.dseq := by rw [hf.frame]
    rw [if_neg (by simpa using hp)] at hfirst
    have hrun := Reaches.step hfirst (visitLoop_reaches hctx hi hrounds)
    cases ended with
    | true =>
      rw [if_pos rfl, visited_eq (hf.ctx_eq.trans hctx) (by rw [hds, hd]) (by rw [hf.cfg_eq, hi])]
      exact .inl ⟨hm, PerLine.get_set_same _ _ _, hrun⟩
    | false =>
      refine .inr ⟨congrArg _ hm, hds, ?_⟩
      have hu : ({ u.issue (encode (.dspVisit q.sel)) with
          moves := s.moves, dseq := s.dseq.set l (.run 2 i .none [] 0#16) } : State)
            = u.setDseq l (afterRounds i false) := by
        simp only [State.issue, State.setDseq, afterRounds, hds, ← hm]; rfl
      exact hu ▸ hrun

end Sys2Proof.Machine

/-! ## What the word of an operation does

One inversion for all 54 operations: a word that is performed runs one of the model's shared operations. The
invariants and the frames of the words are read off it. -/

namespace Sys2Proof.Machine

open Sys2Proof

theorem lineOfSel_eq_some {p : BitVec 4} {l : Line} : lineOfSel p = some l ↔ p = l.sel := by
  revert p l; intro p l; cases l <;> revert p <;> decide

section Issued

variable {α : Type} {p : BitVec 4} {t : State}

theorem onSlot_returning_eq_next {f : Slot → Res α} {g : α → Ret} : (onSlot p f).returning g = .next t ↔
    ∃ q a u, p = q.sel ∧ f q = .ok a u ∧ t = { u with ret := g a } := by
  simp only [returning_eq_next, onSlot_eq_ok, slotOfSel_eq_some]
  constructor
  · rintro ⟨a, u, ⟨q, hq, h⟩, ht⟩; exact ⟨q, a, u, hq, h, ht⟩
  · rintro ⟨q, a, u, hq, h, ht⟩; exact ⟨a, u, ⟨q, hq, h⟩, ht⟩

theorem onLine_returning_eq_next {f : Line → Res α} {g : α → Ret} : (onLine p f).returning g = .next t ↔
    ∃ l a u, p = l.sel ∧ f l = .ok a u ∧ t = { u with ret := g a } := by
  simp only [returning_eq_next, onLine_eq_ok, lineOfSel_eq_some]
  constructor
  · rintro ⟨a, u, ⟨q, hq, h⟩, ht⟩; exact ⟨q, a, u, hq, h, ht⟩
  · rintro ⟨q, a, u, hq, h, ht⟩; exact ⟨a, u, ⟨q, hq, h⟩, ht⟩

theorem onSlot_outcome_eq_next {f : Slot → Res Unit} : (onSlot p f).outcome = .next t ↔
    ∃ q, p = q.sel ∧ f q = .ok () t := by
  simp only [outcome_eq_next, onSlot_eq_ok, slotOfSel_eq_some]

theorem onLine_outcome_eq_next {f : Line → Res Unit} : (onLine p f).outcome = .next t ↔
    ∃ l, p = l.sel ∧ f l = .ok () t := by
  simp only [outcome_eq_next, onLine_eq_ok, lineOfSel_eq_some]

end Issued

/-! ### The kinds of operations -/

/-- A ring operation on slot `q` leads from `s` to `t` (spec/41_ring_buffer.md). -/
inductive RingDeed (q : Slot) (s t : State) : Prop
  | push {d : Dir} {b : Byte} {r : Bool} (h : ringPush q d b s = .ok r t)
  | pop {d : Dir} {r : Option Byte} (h : ringPop q d s = .ok r t)
  | avail {d : Dir} {n : Half} (h : ringAvail q d s = .ok n t)
  | clear {d : Dir} (h : ringClear q d s = .ok () t)
  | pushN {d : Dir} {n src : Nat} (h : ringPushN q d n src s = .ok () t)
  | popN {d : Dir} {n dst : Nat} (h : ringPopN q d n dst s = .ok () t)

/-- A register primitive leads from `s` to `t` (spec/47_host_primitives.md R250 to R253). -/
inductive IoDeed (s t : State) : Prop
  | rd8 {a : Half} {v : Byte} (h : ioRd8 a s = .ok v t)
  | rd16 {a : Half} {v : Half} (h : ioRd16 a s = .ok v t)
  | wr8 {a : Half} {v : Byte} (h : ioWr8 a v s = .ok () t)
  | wr16 {a : Half} {v : Half} (h : ioWr16 a v s = .ok () t)

/-- What the environment may change but for the edge latch (spec/48_environment_device.md R291 to R295): the
devices, the wires and the draws, the devices within their bounds. -/
structure EnvChange (s t : State) : Prop where
  frame : t = { s with
    dev := t.dev, wireTx := t.wireTx, wireRx := t.wireRx, draws := t.draws, drawn := t.drawn }
  data : s.dataOk = true → t.dataOk = true

/-- An environment move at slot `q` leads from `s` to `t`; one that is not enabled leaves the state
(log entry 14). -/
def EnvDeed (q : Slot) (s t : State) : Prop := t = s ∨ ∃ u, EnvChange s u ∧ t = devStep s q u

/-- The access writes `saved_integ`. -/
def Acc.saves : Acc → Bool
  | .snap _ _ => true
  | _ => false

/-- The word of operation `i` leads from `s` to `t` by one of the shared operations. -/
inductive WordDeed (i : Instr) (s t : State) : Prop
  | command {c : Cmd} (hi : apiCommand i = some c)
  | ring {q : Slot} {u : State} {r : Ret} (hi : i.cls = 2#4) (h : RingDeed q s u) (ht : t = { u with ret := r })
  | lookup {p : BitVec 4} {r : Ret} (hi : i = .regLookup p) (ht : t = { s with ret := r })
  | alloc {p : BitVec 4} {q : Slot} {a : Bool} {u : State} {r : Ret} (hi : i = .regAlloc p)
      (h : regAlloc q s.a0 s.a1 s.a2 s = .ok a u) (ht : t = { u with ret := r })
  | free {p : BitVec 4} {q : Slot} {u : State} {r : Ret} (hi : i = .regFree p) (h : regFree q s = .ok () u)
      (ht : t = { u with ret := r })
  | hal {q : Slot} {as : List Acc} {v w : Half} {u : State} {r : Ret} (hi : i.cls = 4#4)
      (h : runAccs q as v s = .ok w u) (ht : t = { u with ret := r })
  | ack {l : Line} {u : State} {r : Ret} (hi : i.cls = 4#4) (h : ackLine l s = .ok () u)
      (ht : t = { u with ret := r })
  | enter {l : Line} (hi : i = .dspEnter l.sel) (ht : t = if s.canEnter l then s.takeInterrupt l else s)
  | visit {q : Slot} (hi : i = .dspVisit q.sel) (h : visitWhole q s = .ok () t)
  | leave {l : Line} (hi : i = .dspExit l.sel) (h : exitLine l s = .ok () t)
  | action {q : Slot} {as : List Acc} {v w : Half} (hi : i.cls = 5#4) (has : ∀ a ∈ as, a.saves = false)
      (h : runAccs q as v s = .ok w t)
  | io {u : State} {r : Ret} (hi : i.cls = 6#4) (h : IoDeed s u) (ht : t = { u with ret := r })
  | vector {l : Line} {h : Handler} {u : State} {r : Ret} (hi : i = .hostInstall l.sel ∨ i = .hostRestore l.sel)
      (hu : u = s.installHandler l h ∨ u = s.restoreHandler l h) (ht : t = { u with ret := r })
  | mask {l : Line} {u : State} {r : Ret} (hi : i.cls = 6#4) (hu : u = s.maskLine l ∨ u = s.unmaskLine l)
      (ht : t = { u with ret := r })
  | env {q : Slot} (hi : i.cls = 7#4) (h : EnvDeed q s t)

/-! ### The capabilities that save nothing -/

theorem accClrMs_saves (cfg : Config) (r : Regs) : ∀ a ∈ accClrMs cfg r, a.saves = false := by
  cases r <;> simp [accClrMs, Acc.saves]

theorem accClrLs_saves (cfg : Config) (r : Regs) : ∀ a ∈ accClrLs cfg r, a.saves = false := by
  cases r <;> simp [accClrLs, Acc.saves]

theorem accCause_saves (cfg : Config) (r : Regs) : ∀ a ∈ accCause cfg r, a.saves = false := by
  cases r <;> simp [accCause, Acc.saves]

theorem accDrainRx_saves (cfg : Config) (r : Regs) : ∀ a ∈ accDrainRx cfg r, a.saves = false := by
  cases r <;>
  · simp only [accDrainRx, List.mem_flatten, List.mem_replicate, forall_exists_index, and_imp]
    rintro a _ - rfl ha
    simp only [List.mem_cons, List.not_mem_nil, or_false] at ha
    obtain rfl | rfl := ha <;> rfl

theorem accOnTxEmpty_saves (cfg : Config) (ps : PortState) : ∀ a ∈ accOnTxEmpty cfg ps, a.saves = false := by
  intro a ha
  unfold accOnTxEmpty at ha
  split at ha
  · cases hr : ps.regs <;> rw [hr] at ha <;> rw [(List.mem_replicate.1 ha).2] <;> rfl
  · cases hr : ps.regs <;> rw [hr] at ha <;>
      simp only [accDisTx, List.mem_cons, List.not_mem_nil, or_false] at ha
    obtain rfl | rfl := ha <;> rfl

/-- No action of the dispatcher writes `saved_integ` (spec/44_dispatcher.md R193 to R197). -/
theorem accAction_saves (cfg : Config) (ps : PortState) (c : Cause) :
    ∀ a ∈ accAction cfg ps c, a.saves = false := by
  cases c with
  | none => simp [accAction]
  | modemStatus => exact accClrMs_saves cfg _
  | lineStatus => exact accClrLs_saves cfg _
  | txEmpty => exact accOnTxEmpty_saves cfg ps
  | rxReady => exact accDrainRx_saves cfg _
  | rxTimeout => exact accDrainRx_saves cfg _

/-! ### Environment moves -/

theorem EnvChange.trans {s t u : State} (h : EnvChange s t) (k : EnvChange t u) : EnvChange s u := by
  refine ⟨?_, k.data ∘ h.data⟩
  have h₁ := h.frame
  have h₂ := k.frame
  rw [h₂, h₁]

theorem EnvChange.setStd {s : State} {c : StdSlot} {d : StdDev}
    (hd : (s.dev.std.get c).ok s.cfg.stdMap = true → d.ok s.cfg.stdMap = true) : EnvChange s (s.setStd c d) :=
  ⟨rfl, fun h => dataOk_setStd h (hd ((dataOk_iff.1 h).2.1 c))⟩

theorem EnvChange.setInteg (s : State) (d : IntegDev) : EnvChange s (s.setInteg d) :=
  ⟨rfl, fun h => dataOk_setInteg h d⟩

theorem EnvChange.drawn1 (s : State) : EnvChange s s.drawn1 :=
  ⟨by unfold State.drawn1; cases s.draws <;> rfl, dataOk_drawn1⟩

theorem EnvChange.onTxWire (s : State) (q : Slot) (b : Byte) : EnvChange s (s.onTxWire q b) := ⟨rfl, id⟩

theorem EnvChange.onRxWire (s : State) (q : Slot) (b : Byte) : EnvChange s (s.onRxWire q b) := ⟨rfl, id⟩

theorem arriveAt_change (q : Slot) (b : Byte) (s : State) : EnvChange s (arriveAt q b s) := by
  refine (EnvChange.onRxWire s q b).trans ?_
  unfold arriveAt
  cases q.kind with
  | std c => exact .setStd fun h => StdDev.arrive_ok h b
  | integ => exact .setInteg _ _

theorem shiftDevice_change (q : Slot) (s : State) : EnvChange s (shiftDevice q s) := by
  unfold shiftDevice
  cases q.kind with
  | std c =>
    refine .setStd fun h => ?_
    obtain ⟨hr, ht, hi, hf⟩ := StdDev.ok_iff.1 h
    refine StdDev.ok_iff.2 ⟨hr, ?_, hi, hf⟩
    simp only [List.length_tail, StdDev.depth] at ht ⊢
    omega
  | integ => exact .setInteg _ _

theorem shiftAt_change (q : Slot) (b : Byte) (s : State) : EnvChange s (shiftAt q b s) := by
  have h := (shiftDevice_change q s).trans (.onTxWire _ q b)
  unfold shiftAt
  simp only
  split
  · exact h.trans (arriveAt_change q b _)
  · exact h

/-- A move that is made if it is enabled. -/
theorem envMove_deed {q : Slot} {en : Bool} {s t : State} {f : State → State} (hf : EnvChange s (f s))
    (h : envMove q en s f = .ok () t) : EnvDeed q s t := by
  obtain ⟨-, rfl⟩ := ok_eq_ok.1 h
  cases en with
  | false => exact .inl rfl
  | true => exact .inr ⟨f s, hf, rfl⟩

/-- The environment moves at a slot. -/
def envMoves (q : Slot) (b : Byte) : List Instr :=
  [.envRxArrive q.sel b, .envTxShift q.sel, .envLineEvent q.sel, .envModemEvent q.sel, .envRxTimeout q.sel]

/-- Everything the word of an environment move can do (spec/48_environment_device.md R291 to R295). -/
theorem exec_env {q : Slot} {b : Byte} {i : Instr} {s t : State} (hi : i ∈ envMoves q b)
    (h : exec i s = .next t) : EnvDeed q s t := by
  simp only [envMoves, List.mem_cons, List.not_mem_nil, or_false] at hi
  obtain rfl | rfl | rfl | rfl | rfl := hi
  · simp only [exec, execEnvRxArrive, onSlot_sel, outcome_eq_next] at h
    exact envMove_deed (arriveAt_change q b s) h
  · simp only [exec, execEnvTxShift, onSlot_sel, outcome_eq_next] at h
    split at h
    · exact envMove_deed (shiftAt_change q _ s) h
    · exact .inl (ok_eq_ok.1 h).2
  · simp only [exec, execEnvLineEvent, onSlot_sel, outcome_eq_next] at h
    refine envMove_deed ((EnvChange.drawn1 s).trans ?_) h
    cases q.kind with
    | std c => exact .setStd fun hd => by simp only [drawn1_dev, drawn1_cfg] at hd ⊢; exact hd
    | integ => exact .setInteg _ _
  · simp only [exec, execEnvModemEvent, onSlot_sel, outcome_eq_next] at h
    split at h
    · refine envMove_deed ((EnvChange.drawn1 s).trans ?_) h
      exact .setStd fun hd => by simp only [drawn1_dev, drawn1_cfg] at hd ⊢; exact hd
    · exact .inl (ok_eq_ok.1 h).2
  · simp only [exec, execEnvRxTimeout, onSlot_sel, outcome_eq_next] at h
    split at h
    · refine envMove_deed ?_ h
      exact .setStd fun hd => hd
    · exact .inl (ok_eq_ok.1 h).2

/-! ### The inversion -/

/-- A word of class 2 that is performed (spec/30_encoding.md R95). -/
theorem WordDeed.of_ring {α : Type} {i : Instr} {s t : State} {p : BitVec 4} {f : Slot → Res α} {g : α → Ret}
    (hi : i.cls = 2#4) (hf : ∀ q a u, f q = .ok a u → RingDeed q s u) (h : (onSlot p f).returning g = .next t) :
    WordDeed i s t := by
  obtain ⟨q, a, u, -, hq, ht⟩ := onSlot_returning_eq_next.1 h
  exact .ring hi (hf q a u hq) ht

/-- A word of class 4 on a port that is performed (spec/30_encoding.md R97). -/
theorem WordDeed.of_hal {α : Type} {i : Instr} {s t : State} {p : BitVec 4} {f : Slot → Res α} {g : α → Ret}
    (hi : i.cls = 4#4) (hf : ∀ q a u, f q = .ok a u → ∃ as w, runAccs q as 0#16 s = .ok w u)
    (h : (onSlot p f).returning g = .next t) : WordDeed i s t := by
  obtain ⟨q, a, u, -, hq, ht⟩ := onSlot_returning_eq_next.1 h
  obtain ⟨as, w, hrun⟩ := hf q a u hq
  exact .hal hi hrun ht

/-- A word of class 4 that is a plain capability. -/
theorem WordDeed.of_runHal {i : Instr} {s t : State} {p : BitVec 4} {accs : Config → Regs → List Acc}
    {g : Half → Ret} (hi : i.cls = 4#4) (h : (onSlot p fun q => runHal q accs s).returning g = .next t) :
    WordDeed i s t :=
  .of_hal hi (fun _ _ _ hq => ⟨_, _, hq⟩) h

/-- A word of class 5 that is an action (spec/44_dispatcher.md R193 to R197). -/
theorem WordDeed.of_action {i : Instr} {s t : State} {p : BitVec 4} {accs : Config → Regs → List Acc}
    (hi : i.cls = 5#4) (hs : ∀ cfg r, ∀ a ∈ accs cfg r, a.saves = false)
    (h : (onSlot p fun q => (runHal q accs s).andThen fun _ s => .ok () s).outcome = .next t) :
    WordDeed i s t := by
  obtain ⟨q, -, hq⟩ := onSlot_outcome_eq_next.1 h
  obtain ⟨v, u, hrun, hend⟩ := andThen_eq_ok.1 hq
  obtain ⟨-, rfl⟩ := ok_eq_ok.1 hend
  exact .action hi (hs _ _) hrun

/-- A word of class 6 that is a register primitive (spec/30_encoding.md R99). -/
theorem WordDeed.of_io {α : Type} {i : Instr} {s t : State} {r : Res α} {g : α → Ret} (hi : i.cls = 6#4)
    (hr : ∀ a u, r = .ok a u → IoDeed s u) (h : r.returning g = .next t) : WordDeed i s t := by
  obtain ⟨a, u, hu, ht⟩ := returning_eq_next.1 h
  exact .io hi (hr a u hu) ht

/-- A word of class 7 that is performed is one of a slot (spec/30_encoding.md R100). -/
theorem WordDeed.of_env {i : Instr} {s t : State} {p : BitVec 4} {b : Byte} {f : Slot → Res Unit}
    (hi : i.cls = 7#4) (hm : ∀ q, p = q.sel → i ∈ envMoves q b) (hx : exec i s = (onSlot p f).outcome)
    (h : exec i s = .next t) : WordDeed i s t := by
  obtain ⟨q, hp, -⟩ := onSlot_outcome_eq_next.1 (hx ▸ h)
  exact .env hi (exec_env (hm q hp) h)

/-- Everything the word of an operation can do. -/
theorem exec_deed {i : Instr} {s t : State} (h : exec i s = .next t) : WordDeed i s t := by
  cases i with
  | openPort p => exact .command rfl
  | configure p => exact .command rfl
  | send p => exact .command rfl
  | recv p => exact .command rfl
  | clear p d => exact .command rfl
  | available p => exact .command rfl
  | close p => exact .command rfl
  | rxDropped p => exact .command rfl
  | rbPush p d b => exact .of_ring rfl (fun _ _ _ hq => .push hq) h
  | rbPop p d => exact .of_ring rfl (fun _ _ _ hq => .pop hq) h
  | rbAvail p d => exact .of_ring rfl (fun _ _ _ hq => .avail hq) h
  | rbClear p d => exact .of_ring rfl (fun _ _ _ hq => .clear hq) h
  | rbPushN p d n => exact .of_ring rfl (fun _ _ _ hq => .pushN hq) h
  | rbPopN p d n => exact .of_ring rfl (fun _ _ _ hq => .popN hq) h
  | regLookup p =>
    have h : (Res.ok (regLookup p s) s).returning .lookup = .next t := h
    obtain ⟨a, u, hu, ht⟩ := returning_eq_next.1 h
    obtain ⟨rfl, rfl⟩ := ok_eq_ok.1 hu
    exact .lookup rfl ht
  | regAlloc p =>
    obtain ⟨q, a, u, -, hq, ht⟩ := onSlot_returning_eq_next.1 h
    exact .alloc rfl hq ht
  | regFree p =>
    obtain ⟨q, a, u, -, hq, ht⟩ := onSlot_returning_eq_next.1 h
    exact .free rfl hq ht
  | halEnRx p => exact .of_runHal rfl h
  | halEnTx p => exact .of_runHal rfl h
  | halDisInt p => exact .of_runHal rfl h
  | halCause p =>
    refine .of_hal rfl (fun q a u hq => ?_) h
    obtain ⟨v, hrun, -⟩ := halCause_eq_ok.1 hq
    exact ⟨_, v, hrun⟩
  | halDrainRx p => exact .of_runHal rfl h
  | halFillTx p m => exact .of_runHal rfl h
  | halConfig p => exact .of_runHal rfl h
  | halAckLine l =>
    obtain ⟨m, a, u, -, hm, ht⟩ := onLine_returning_eq_next.1 h
    exact .ack rfl hm ht
  | halTxEmpty p =>
    refine .of_hal rfl (fun q a u hq => ?_) h
    obtain ⟨v, hrun, -⟩ := halTxEmpty_eq_ok.1 hq
    exact ⟨_, v, hrun⟩
  | halDetect p =>
    refine .of_hal rfl (fun q a u hq => ?_) h
    obtain ⟨v, hrun, -⟩ := halDetect_eq_ok.1 hq
    exact ⟨_, v, hrun⟩
  | halInit p => exact .of_runHal rfl h
  | halSnapshot p => exact .of_runHal rfl h
  | halRestore p => exact .of_runHal rfl h
  | halClrMs p => exact .of_runHal rfl h
  | halClrLs p => exact .of_runHal rfl h
  | halDisTx p =>
    refine .of_hal rfl (fun q a u hq => ?_) h
    unfold halDisTx at hq
    split at hq
    · cases hq
    · exact ⟨_, a, hq⟩
  | dspEnter l =>
    obtain ⟨m, rfl, hm⟩ := onLine_outcome_eq_next.1 h
    exact .enter rfl (ok_eq_ok.1 hm).2
  | dspVisit p =>
    obtain ⟨q, rfl, hq⟩ := onSlot_outcome_eq_next.1 h
    exact .visit rfl hq
  | dspExit l =>
    obtain ⟨m, rfl, hm⟩ := onLine_outcome_eq_next.1 h
    exact .leave rfl hm
  | dspOnModem p => exact .of_action rfl accClrMs_saves h
  | dspOnLine p => exact .of_action rfl accClrLs_saves h
  | dspOnTxEmpty p =>
    obtain ⟨q, -, hq⟩ := onSlot_outcome_eq_next.1 h
    obtain ⟨ps, -, hps⟩ := withPort_eq_ok.1 hq
    obtain ⟨v, u, hrun, hend⟩ := andThen_eq_ok.1 hps
    obtain ⟨-, rfl⟩ := ok_eq_ok.1 hend
    exact .action rfl (accOnTxEmpty_saves _ _) hrun
  | dspOnRxReady p => exact .of_action rfl accDrainRx_saves h
  | dspOnRxTimeout p => exact .of_action rfl accDrainRx_saves h
  | hostRd8 a => exact .of_io rfl (fun _ _ hu => .rd8 hu) h
  | hostRd16 a => exact .of_io rfl (fun _ _ hu => .rd16 hu) h
  | hostWr8 a => exact .of_io rfl (fun _ _ hu => .wr8 hu) h
  | hostWr16 a => exact .of_io rfl (fun _ _ hu => .wr16 hu) h
  | hostInstall l =>
    obtain ⟨m, a, u, rfl, hm, ht⟩ := onLine_returning_eq_next.1 h
    exact .vector (.inl rfl) (.inl (ok_eq_ok.1 hm).2) ht
  | hostRestore l =>
    obtain ⟨m, a, u, rfl, hm, ht⟩ := onLine_returning_eq_next.1 h
    exact .vector (.inr rfl) (.inr (ok_eq_ok.1 hm).2) ht
  | hostMask l =>
    obtain ⟨m, a, u, rfl, hm, ht⟩ := onLine_returning_eq_next.1 h
    exact .mask rfl (.inl (ok_eq_ok.1 hm).2) ht
  | hostUnmask l =>
    obtain ⟨m, a, u, rfl, hm, ht⟩ := onLine_returning_eq_next.1 h
    exact .mask rfl (.inr (ok_eq_ok.1 hm).2) ht
  | envRxArrive p b => exact .of_env (b := b) rfl (fun q hp => by simp [envMoves, hp]) rfl h
  | envTxShift p => exact .of_env (b := 0#8) rfl (fun q hp => by simp [envMoves, hp]) rfl h
  | envLineEvent p => exact .of_env (b := 0#8) rfl (fun q hp => by simp [envMoves, hp]) rfl h
  | envModemEvent p => exact .of_env (b := 0#8) rfl (fun q hp => by simp [envMoves, hp]) rfl h
  | envRxTimeout p => exact .of_env (b := 0#8) rfl (fun q hp => by simp [envMoves, hp]) rfl h

end Sys2Proof.Machine

/-! ## What the shared operations leave alone -/

namespace Sys2Proof.Machine

open Sys2Proof

/-- What no operation but those that open and close a port changes: the configuration, the lifecycle states, the
reference counts, the vectors and which slots are present; and the data stays in its legal form. -/
structure Calm (s t : State) : Prop where
  cfg : t.cfg = s.cfg
  life : t.life = s.life
  refs : t.lineRefs = s.lineRefs
  vector : t.handler = s.handler
  saved : t.savedHandler = s.savedHandler
  present : ∀ q, (t.slots.get q).isSome = (s.slots.get q).isSome
  data : s.dataOk = true → t.dataOk = true

/-- The preemption stack, the in-service bits and the handlers' sequencers are the same. -/
structure SameStack (s t : State) : Prop where
  ctx : t.ctx = s.ctx
  inService : t.inService = s.inService
  dseq : t.dseq = s.dseq

theorem Calm.refl (s : State) : Calm s s := ⟨rfl, rfl, rfl, rfl, rfl, fun _ => rfl, id⟩

theorem Calm.trans {s t u : State} (h : Calm s t) (k : Calm t u) : Calm s u :=
  ⟨k.cfg.trans h.cfg, k.life.trans h.life, k.refs.trans h.refs, k.vector.trans h.vector, k.saved.trans h.saved,
    fun q => (k.present q).trans (h.present q), k.data ∘ h.data⟩

/-- A change of other fields alone. -/
theorem Calm.of_fields {s t : State} (cfg : t.cfg = s.cfg) (life : t.life = s.life)
    (refs : t.lineRefs = s.lineRefs) (vector : t.handler = s.handler) (saved : t.savedHandler = s.savedHandler)
    (slots : t.slots = s.slots) (dev : t.dev = s.dev) (hbuf : t.hbuf = s.hbuf) : Calm s t :=
  ⟨cfg, life, refs, vector, saved, fun q => by rw [slots], fun w => dataOk_congr w slots dev hbuf cfg⟩

theorem SameStack.refl (s : State) : SameStack s s := ⟨rfl, rfl, rfl⟩

theorem SameStack.trans {s t u : State} (h : SameStack s t) (k : SameStack t u) : SameStack s u :=
  ⟨k.ctx.trans h.ctx, k.inService.trans h.inService, k.dseq.trans h.dseq⟩

theorem AccFrame.present {q : Slot} {s t : State} (h : AccFrame q s t) (k : Slot) :
    (t.slots.get k).isSome = (s.slots.get k).isSome := by
  by_cases hk : k = q
  · subst hk
    cases hs : s.slots.get k with
    | none => rw [h.absent hs]
    | some ps => obtain ⟨pt, ht, -⟩ := h.port ps hs; rw [ht]; rfl
  · rw [h.frame, PerSlot.get_set_ne _ _ hk]

theorem AccFrame.calm {q : Slot} {s t : State} (h : AccFrame q s t) (w : s.dataOk = true → t.dataOk = true) :
    Calm s t :=
  ⟨h.cfg_eq, by rw [h.frame], by rw [h.frame], by rw [h.frame], by rw [h.frame], h.present, w⟩

theorem AccFrame.sameStack {q : Slot} {s t : State} (h : AccFrame q s t) : SameStack s t :=
  ⟨h.ctx_eq, by rw [h.frame], by rw [h.frame]⟩

/-! ### Ring operations -/

section Ring

variable {q : Slot} {s t : State}

/-- What a ring operation may write. -/
theorem RingDeed.frame (h : RingDeed q s t) : t = { s with
    slots := t.slots, hbuf := t.hbuf, draws := t.draws, drawn := t.drawn } := by
  cases h with
  | push h => obtain ⟨ps, -, -, ⟨-, -, rfl⟩ | ⟨-, -, rfl⟩⟩ := ringPush_eq_ok.1 h <;> rfl
  | pop h =>
    obtain ⟨ps, -, -, ⟨-, -, rfl⟩ | ⟨-, -, rfl⟩⟩ := ringPop_eq_ok.1 h
    · rfl
    · rw [storageByte_frame]; rfl
  | avail h => obtain ⟨ps, -, -, rfl⟩ := ringAvail_eq_ok.1 h; rfl
  | clear h => obtain ⟨ps, -, -, rfl⟩ := ringClear_eq_ok.1 h; rfl
  | pushN h => obtain ⟨ps, bs, -, -, -, -, -, rfl⟩ := ringPushN_eq_ok.1 h; rfl
  | popN h => obtain ⟨ps, -, -, -, -, rfl⟩ := ringPopN_eq_ok.1 h; rw [storageBytes_frame]; rfl

theorem RingDeed.present (h : RingDeed q s t) (k : Slot) :
    (t.slots.get k).isSome = (s.slots.get k).isSome := by
  cases h with
  | push h => exact (ringPush_frame h).present k
  | pop h => exact (ringPop_frame h).present k
  | avail h => obtain ⟨ps, -, -, rfl⟩ := ringAvail_eq_ok.1 h; rfl
  | clear h => exact (ringClear_frame h).present k
  | pushN h => exact (ringPushN_frame h).present k
  | popN h => exact (ringPopN_frame h).present k

theorem RingDeed.data (h : RingDeed q s t) (w : s.dataOk = true) : t.dataOk = true := by
  cases h with
  | push h => exact ringPush_dataOk h w
  | pop h => exact ringPop_dataOk h w
  | avail h => obtain ⟨ps, -, -, rfl⟩ := ringAvail_eq_ok.1 h; exact w
  | clear h => exact ringClear_dataOk h w
  | pushN h => exact ringPushN_dataOk h w
  | popN h => exact ringPopN_dataOk h w

theorem RingDeed.calm (h : RingDeed q s t) : Calm s t :=
  ⟨by rw [h.frame], by rw [h.frame], by rw [h.frame], by rw [h.frame], by rw [h.frame], h.present, h.data⟩

theorem RingDeed.sameStack (h : RingDeed q s t) : SameStack s t :=
  ⟨by rw [h.frame], by rw [h.frame], by rw [h.frame]⟩

end Ring

/-! ### Accesses and capabilities -/

section Access

variable {q : Slot} {s t : State}

/-- An access that does not save leaves `saved_integ` alone. -/
theorem accStep_savedInteg {a : Acc} {v : Half} {r : Half × Bool} (ha : a.saves = false)
    (h : accStep q a v s = .ok r t) : t.savedInteg = s.savedInteg := by
  have hpush {d b u w x} (h : ringPush q d b u = .ok x w) : w.savedInteg = u.savedInteg := by
    rw [(RingDeed.push h).frame]
  have hpop {d u w x} (h : ringPop q d u = .ok x w) : w.savedInteg = u.savedInteg := by
    rw [(RingDeed.pop h).frame]
  have htake {b u w} (h : takeByte q b u = .ok () w) : w.savedInteg = u.savedInteg := by
    obtain ⟨r, x, h₁, h₂⟩ := andThen_eq_ok.1 h
    split at h₂
    · rw [(ok_eq_ok.1 h₂).2, hpush h₁]
    · obtain ⟨ps, -, h₃⟩ := withPort_eq_ok.1 h₂
      have hx := hpush h₁
      rw [(ok_eq_ok.1 h₃).2]; exact hx
  cases a <;> simp only [accStep] at h <;> obtain ⟨x, u, h₁, h₂⟩ := andThen_eq_ok.1 h
  case rd8 => rw [(ok_eq_ok.1 h₂).2, ioRd8_frame h₁]
  case rd16 => rw [(ok_eq_ok.1 h₂).2, ioRd16_frame h₁]
  case wr8 => rw [(ok_eq_ok.1 h₂).2, ioWr8_frame h₁]
  case wr16 => rw [(ok_eq_ok.1 h₂).2, ioWr16_frame h₁]
  case snap => cases ha
  case rest => rw [(ok_eq_ok.1 h₂).2, ioWr16_frame h₁]
  case test8 => rw [(ok_eq_ok.1 h₂).2, ioRd8_frame h₁]
  case test16 => rw [(ok_eq_ok.1 h₂).2, ioRd16_frame h₁]
  case take8 =>
    obtain ⟨y, w, h₃, h₄⟩ := andThen_eq_ok.1 h₂
    rw [(ok_eq_ok.1 h₄).2, htake h₃, ioRd8_frame h₁]
  case take16 =>
    obtain ⟨y, w, h₃, h₄⟩ := andThen_eq_ok.1 h₂
    rw [(ok_eq_ok.1 h₄).2, htake h₃, ioRd16_frame h₁]
  case fill8 =>
    cases x with
    | none => rw [(ok_eq_ok.1 h₂).2, hpop h₁]
    | some b =>
      obtain ⟨y, w, h₃, h₄⟩ := andThen_eq_ok.1 h₂
      have hu := hpop h₁
      rw [(ok_eq_ok.1 h₄).2, ioWr8_frame h₃]; exact hu
  case fill16 =>
    cases x with
    | none => rw [(ok_eq_ok.1 h₂).2, hpop h₁]
    | some b =>
      obtain ⟨y, w, h₃, h₄⟩ := andThen_eq_ok.1 h₂
      have hu := hpop h₁
      rw [(ok_eq_ok.1 h₄).2, ioWr16_frame h₃]; exact hu

/-- A capability that does not save leaves `saved_integ` alone. -/
theorem runAccs_savedInteg {as : List Acc} {v w : Half} (has : ∀ a ∈ as, a.saves = false)
    (h : runAccs q as v s = .ok w t) : t.savedInteg = s.savedInteg := by
  induction as generalizing v s with
  | nil => rw [(ok_eq_ok.1 h).2]
  | cons a as ih =>
    obtain ⟨x, u, h₁, h₂⟩ := andThen_eq_ok.1 h
    rw [← accStep_savedInteg (has a (List.mem_cons_self ..)) h₁]
    split at h₂
    · rw [(ok_eq_ok.1 h₂).2]
    · exact ih (fun b hb => has b (List.mem_cons_of_mem _ hb)) h₂

theorem accStep_calm {a : Acc} {v : Half} {r : Half × Bool} (h : accStep q a v s = .ok r t) : Calm s t :=
  (accStep_frame h).calm (accStep_dataOk h)

theorem runAccs_calm {as : List Acc} {v w : Half} (h : runAccs q as v s = .ok w t) : Calm s t :=
  (runAccs_frame h).calm (runAccs_dataOk h)

theorem halCause_calm {c : Cause} (h : halCause q s = .ok c t) : Calm s t := by
  obtain ⟨v, h, -⟩ := halCause_eq_ok.1 h
  exact runAccs_calm h

/-- The rounds of a visit. -/
theorem visitLoop_calm {n : Nat} {e : Bool} (h : visitLoop q n s = .ok e t) :
    Calm s t ∧ t.savedInteg = s.savedInteg := by
  induction n generalizing s with
  | zero => rw [(ok_eq_ok.1 h).2]; exact ⟨.refl s, rfl⟩
  | succ n ih =>
    obtain ⟨ps, -, h⟩ := withPort_eq_ok.1 h
    obtain ⟨c, u, hc, h⟩ := andThen_eq_ok.1 h
    obtain ⟨v, hrun, -⟩ := halCause_eq_ok.1 hc
    have hu := runAccs_savedInteg (accCause_saves _ _) hrun
    split at h
    · rw [(ok_eq_ok.1 h).2]; exact ⟨halCause_calm hc, hu⟩
    · obtain ⟨x, w, hacts, h⟩ := andThen_eq_ok.1 h
      obtain ⟨hcalm, hsaved⟩ := ih h
      have hw := runAccs_savedInteg (accAction_saves _ _ _) hacts
      exact ⟨((halCause_calm hc).trans (runAccs_calm hacts)).trans hcalm, hsaved.trans (hw.trans hu)⟩

end Access

/-! ### Visits, entry and return -/

section Handlers

variable {q : Slot} {l : Line} {s t : State}

theorem takeInterrupt_calm (s : State) (l : Line) : Calm s (s.takeInterrupt l) := by
  refine .of_fields ?_ ?_ ?_ ?_ ?_ ?_ ?_ ?_ <;> simp

theorem leaveInterrupt_calm (s : State) (l : Line) : Calm s (s.leaveInterrupt l) :=
  .of_fields rfl rfl rfl rfl rfl rfl rfl rfl

theorem visited_calm (s : State) (q : Slot) : Calm s (s.visited q) := by
  refine .of_fields ?_ ?_ ?_ ?_ ?_ ?_ ?_ ?_ <;> rw [visited_frame]

theorem ackLine_calm (h : ackLine l s = .ok () t) : Calm s t := by
  refine AccFrame.calm (q := .p0) (.of_io ?_) fun w => ?_
  · rw [ackLine_frame h]
  · unfold ackLine at h
    split at h
    · exact ioWr16_dataOk h w
    · rw [(ok_eq_ok.1 h).2]; exact w

theorem exitLine_calm (h : exitLine l s = .ok () t) : Calm s t := by
  obtain ⟨-, u, hu, rfl⟩ := exitLine_eq_ok.1 h
  exact (ackLine_calm hu).trans (leaveInterrupt_calm u l)

theorem visitWhole_calm (h : visitWhole q s = .ok () t) : Calm s t := by
  obtain ⟨-, rfl⟩ | ⟨-, e, u, hu, rfl⟩ := visitWhole_eq_ok.1 h
  · exact visited_calm s q
  · refine (visitLoop_calm hu).1.trans ?_
    cases e
    · exact .of_fields rfl rfl rfl rfl rfl rfl rfl rfl
    · exact visited_calm u q

/-- What the visit of a word may write. -/
theorem visitWhole_frame (h : visitWhole q s = .ok () t) : t = { s with
    slots := t.slots, dev := t.dev, trace := t.trace, draws := t.draws, drawn := t.drawn, dseq := t.dseq,
    moves := t.moves } := by
  obtain ⟨-, rfl⟩ | ⟨-, e, u, hu, rfl⟩ := visitWhole_eq_ok.1 h
  · rw [visited_frame]
  · have hf := (visitLoop_frame hu).frame
    rw [(visitLoop_calm hu).2] at hf
    cases e
    · rw [hf]; rfl
    · simp only [if_true]; rw [visited_frame, hf]

end Handlers

/-! ### Register primitives and the environment -/

section Outside

variable {q : Slot} {s t : State}

theorem IoDeed.frame (h : IoDeed s t) : t = { s with
    dev := t.dev, trace := t.trace, draws := t.draws, drawn := t.drawn } := by
  cases h with
  | rd8 h => exact ioRd8_frame h
  | rd16 h => exact ioRd16_frame h
  | wr8 h => rw [ioWr8_frame h]
  | wr16 h => rw [ioWr16_frame h]

theorem IoDeed.calm (h : IoDeed s t) : Calm s t := by
  refine AccFrame.calm (q := .p0) (.of_io h.frame) fun w => ?_
  cases h with
  | rd8 h => exact ioRd8_dataOk h w
  | rd16 h => exact ioRd16_dataOk h w
  | wr8 h => exact ioWr8_dataOk h w
  | wr16 h => exact ioWr16_dataOk h w

/-- What a device step adds to the move is the edge latch. -/
theorem devStep_frame (s : State) (q : Slot) (u : State) :
    devStep s q u = { u with latched := (devStep s q u).latched } := by
  rw [devStep_eq]; split <;> rfl

theorem EnvDeed.frame (h : EnvDeed q s t) : t = { s with
    dev := t.dev, wireTx := t.wireTx, wireRx := t.wireRx, latched := t.latched, draws := t.draws,
    drawn := t.drawn } := by
  obtain rfl | ⟨u, hu, rfl⟩ := h
  · rfl
  · rw [devStep_frame, hu.frame]

theorem EnvDeed.calm (h : EnvDeed q s t) : Calm s t := by
  have hf := h.frame
  refine ⟨by rw [hf], by rw [hf], by rw [hf], by rw [hf], by rw [hf], fun k => by rw [hf], fun w => ?_⟩
  obtain rfl | ⟨u, hu, rfl⟩ := h
  · exact w
  · refine dataOk_congr (hu.data w) ?_ ?_ ?_ ?_ <;> rw [devStep_frame]

end Outside

/-! ### The words -/

/-- The words that neither start a command nor rewrite the registry or a vector are calm. -/
theorem exec_calm {i : Instr} {s t : State} (hc : apiCommand i = none) (hr : rewires i = false)
    (h : exec i s = .next t) : Calm s t := by
  have hret (u : State) (r : Ret) : Calm u { u with ret := r } := .of_fields rfl rfl rfl rfl rfl rfl rfl rfl
  cases exec_deed h with
  | command hi => rw [hc] at hi; cases hi
  | ring _ h ht => rw [ht]; exact h.calm.trans (hret _ _)
  | lookup _ ht => rw [ht]; exact hret _ _
  | alloc hi => rw [hi] at hr; cases hr
  | free hi => rw [hi] at hr; cases hr
  | hal _ h ht => rw [ht]; exact (runAccs_calm h).trans (hret _ _)
  | ack _ h ht => rw [ht]; exact (ackLine_calm h).trans (hret _ _)
  | enter _ ht =>
    rw [ht]
    split
    · exact takeInterrupt_calm _ _
    · exact .refl s
  | visit _ h => exact visitWhole_calm h
  | leave _ h => exact exitLine_calm h
  | action _ _ h => exact runAccs_calm h
  | io _ h ht => rw [ht]; exact h.calm.trans (hret _ _)
  | vector hi => obtain rfl | rfl := hi <;> cases hr
  | mask _ hu ht =>
    rw [ht]
    obtain rfl | rfl := hu <;> exact .of_fields rfl rfl rfl rfl rfl rfl rfl rfl
  | env _ h => exact h.calm

/-- What the word of an operation of classes 2 to 7 may write (spec/30_encoding.md R93). -/
theorem exec_classFrame {i : Instr} {s t : State} (h : exec i s = .next t) : ClassFrame i.cls.toNat s t := by
  cases exec_deed h with
  | command hi => cases i <;> cases hi <;> exact trivial
  | ring hi h ht => rw [hi, ht]; show _ = _; rw [h.frame]
  | lookup hi ht => rw [hi, ht]; show _ = _; rfl
  | alloc hi h ht =>
    obtain ⟨-, -, -, -, hu⟩ := regAlloc_eq_ok.1 h
    rw [hi, ht, hu]; show _ = _
    unfold State.drawn1
    split <;> cases s.draws <;> rfl
  | free hi h ht => obtain ⟨-, rfl⟩ := regFree_eq_ok.1 h; rw [hi, ht]; show _ = _; rfl
  | hal hi h ht => rw [hi, ht]; show _ = _; rw [(runAccs_frame h).frame]
  | ack hi h ht => rw [hi, ht]; show _ = _; rw [ackLine_frame h]
  | enter hi ht =>
    rw [hi, ht]; show _ = _
    split
    · rw [takeInterrupt_eq]
    · rfl
  | visit hi h => rw [hi]; show _ = _; rw [visitWhole_frame h]
  | leave hi h =>
    obtain ⟨-, u, hu, rfl⟩ := exitLine_eq_ok.1 h
    rw [hi]; show _ = _
    rw [leaveInterrupt_eq, ackLine_frame hu]
  | action hi has h =>
    have hf := (runAccs_frame h).frame
    rw [runAccs_savedInteg has h] at hf
    rw [hi]; show _ = _; rw [hf]
  | io hi h ht => rw [hi, ht]; show _ = _; rw [h.frame]
  | vector hi hu ht =>
    obtain rfl | rfl := hi <;> obtain rfl | rfl := hu <;> rw [ht] <;> rfl
  | mask hi hu ht => rw [hi, ht]; show _ = _; obtain rfl | rfl := hu <;> rfl
  | env hi h => rw [hi]; show _ = _; rw [h.frame]

end Sys2Proof.Machine

/-! ## What a step of the core does

The step of the running handler and the step of M, each said once: the handler's step is an access, a move of its own
sequencer or the return; M's step is quiet, or is one of the seven steps by which OPEN and CLOSE take a port from
closed to open and back (spec/45_lifecycle.md R210, R216). -/

namespace Sys2Proof.Machine

open Sys2Proof

/-! ### The step of a handler -/

/-- What the step of the handler of line `l` can be. -/
inductive IsrDeed (l : Line) (s t : State) : Prop
  | stay (ht : t = s)
  | moved {q : Slot} {u : State} {n i : Nat} {c : Cause} {as : List Acc} {v : Half} (hf : AccFrame q s u)
      (hc : Calm s u) (hs : s.dseq.get l ≠ .idle) (ht : t = u.setDseq l (.run n i c as v))
  | left {i : Nat} {c : Cause} {as : List Acc} {v : Half} (hs : s.dseq.get l = .run 1 i c as v)
      (hi : (s.cfg.portsOf l)[i]? = none) (h : exitLine l s = .ok () t)

theorem isrStep_deed {l : Line} {s t : State} (h : isrStep l s = .ok () t) : IsrDeed l s t := by
  unfold isrStep at h
  split at h
  next hd => exact .stay (ok_eq_ok.1 h).2
  next i c as v hd =>
    have hne : s.dseq.get l ≠ .idle := by rw [hd]; exact nofun
    split at h
    next hi => exact .left hd hi h
    next q hi =>
      split at h
      · exact .moved (.refl q s) (.refl s) hne (ok_eq_ok.1 h).2
      · exact .moved (.refl q s) (.refl s) hne (ok_eq_ok.1 h).2
  next i c as v hd =>
    have hne : s.dseq.get l ≠ .idle := by rw [hd]; exact nofun
    split at h
    next hi => exact .stay (ok_eq_ok.1 h).2
    next q hi =>
      obtain ⟨ps, -, h⟩ := withPort_eq_ok.1 h
      obtain ⟨c, u, hc, h⟩ := andThen_eq_ok.1 h
      have hf := halCause_frame hc
      split at h
      · exact .moved hf (halCause_calm hc) hne (ok_eq_ok.1 h).2
      · split at h
        · exact .moved hf (halCause_calm hc) hne (ok_eq_ok.1 h).2
        · exact .moved hf (halCause_calm hc) hne (ok_eq_ok.1 h).2
  next i c a as v hd =>
    have hne : s.dseq.get l ≠ .idle := by rw [hd]; exact nofun
    split at h
    next hi => exact .stay (ok_eq_ok.1 h).2
    next q hi =>
      obtain ⟨r, u, ha, h⟩ := andThen_eq_ok.1 h
      split at h
      · exact .moved (accStep_frame ha) (accStep_calm ha) hne (ok_eq_ok.1 h).2
      · exact .moved (accStep_frame ha) (accStep_calm ha) hne (ok_eq_ok.1 h).2
  next => exact .stay (ok_eq_ok.1 h).2

section IsrDeed

variable {l : Line} {s t : State}

theorem IsrDeed.calm (h : IsrDeed l s t) : Calm s t := by
  cases h with
  | stay ht => rw [ht]; exact .refl s
  | moved _ hc _ ht => rw [ht]; exact hc.trans (.of_fields rfl rfl rfl rfl rfl rfl rfl rfl)
  | left _ _ h => exact exitLine_calm h

/-- What the step of a handler may write (spec/10_state.md R41, R204). -/
theorem IsrDeed.frame (h : IsrDeed l s t) : t = { s with
    slots := t.slots, dev := t.dev, trace := t.trace, draws := t.draws, drawn := t.drawn,
    savedInteg := t.savedInteg, inService := t.inService, ctx := t.ctx, dseq := t.dseq } := by
  cases h with
  | stay ht => rw [ht]
  | moved hf _ _ ht => rw [ht, hf.frame]; rfl
  | left _ _ h =>
    obtain ⟨-, u, hu, rfl⟩ := exitLine_eq_ok.1 h
    rw [leaveInterrupt_eq, ackLine_frame hu]

end IsrDeed

/-- With a handler running, the step of the core is its step. -/
theorem coreStep_isr {s t : State} (hctx : s.ctx ≠ []) (h : coreStep s = .ok () t) :
    ∃ l rest, s.ctx = l :: rest ∧ IsrDeed l s t := by
  unfold coreStep at h
  split at h
  next hnil => exact absurd hnil hctx
  next l rest hcons => exact ⟨l, rest, hcons, isrStep_deed h⟩

/-- Settles O14: the step is the running handler's, by `coreStep_isr`. -/
theorem handlerStepsLeaveTheMainlineAlone : Obligations.HandlerStepsLeaveTheMainlineAlone := by
  intro s t hctx h
  obtain ⟨l, rest, -, hd⟩ := coreStep_isr hctx h
  exact ⟨hd.frame, hd.calm.present⟩

/-! ### The stages of OPEN and CLOSE -/

/-- Where a command that opens or closes a port has brought it: the slot, its lifecycle state, and whether
`line_refs` counts it (spec/10_state.md R29, R32). -/
structure Stage where
  slot : Slot
  life : Life
  counted : Bool

/-- The stage of the port at a line of M's command: that of OPEN from line 3 on and of CLOSE at lines 2 to 7. -/
def MSeq.stage : MSeq → Option Stage
  | .idle => none
  | .run c n _ =>
    match slotOfSel c.p, c.op with
    | some q, .openPort => if 3 ≤ n then some ⟨q, .opening, 7 ≤ n⟩ else none
    | some q, .close => if 2 ≤ n ∧ n ≤ 7 then some ⟨q, .closing, n ≤ 5⟩ else none
    | _, _ => none

theorem stage_open {p : BitVec 4} {q : Slot} (hq : slotOfSel p = some q) (n : Nat) (loc : MLocals) :
    (MSeq.run ⟨.openPort, p⟩ n loc).stage = if 3 ≤ n then some ⟨q, .opening, 7 ≤ n⟩ else none := by
  simp only [MSeq.stage, hq]

theorem stage_close {p : BitVec 4} {q : Slot} (hq : slotOfSel p = some q) (n : Nat) (loc : MLocals) :
    (MSeq.run ⟨.close, p⟩ n loc).stage = if 2 ≤ n ∧ n ≤ 7 then some ⟨q, .closing, n ≤ 5⟩ else none := by
  simp only [MSeq.stage, hq]

/-- No other command has stages. -/
theorem stage_other {c : Cmd} (ho : c.op ≠ .openPort) (hc : c.op ≠ .close) (n : Nat) (loc : MLocals) :
    (MSeq.run c n loc).stage = none := by
  obtain ⟨op, p⟩ := c
  cases hp : slotOfSel p <;> cases op <;> simp_all [MSeq.stage]

/-- At its first line no command has a stage yet. -/
theorem stage_first (c : Cmd) (loc : MLocals) : (MSeq.run c 1 loc).stage = none := by
  obtain ⟨op, p⟩ := c
  cases hp : slotOfSel p <;> cases op <;> simp [MSeq.stage, hp]

/-! ### The step of M -/

/-- Calm, and no handler's business. -/
structure Quiet (s t : State) : Prop extends Calm s t, SameStack s t

theorem Quiet.refl (s : State) : Quiet s s := ⟨.refl s, .refl s⟩

theorem Quiet.trans {s t u : State} (h : Quiet s t) (k : Quiet t u) : Quiet s u :=
  ⟨h.toCalm.trans k.toCalm, h.toSameStack.trans k.toSameStack⟩

theorem Quiet.setMseq (s : State) (m : MSeq) : Quiet s (s.setMseq m) :=
  ⟨.of_fields rfl rfl rfl rfl rfl rfl rfl rfl, ⟨rfl, rfl, rfl⟩⟩

theorem Quiet.maskLine (s : State) (l : Line) : Quiet s (s.maskLine l) :=
  ⟨.of_fields rfl rfl rfl rfl rfl rfl rfl rfl, ⟨rfl, rfl, rfl⟩⟩

theorem Quiet.unmaskLine (s : State) (l : Line) : Quiet s (s.unmaskLine l) :=
  ⟨.of_fields rfl rfl rfl rfl rfl rfl rfl rfl, ⟨rfl, rfl, rfl⟩⟩

theorem Quiet.fail (s : State) (e : ErrKind) : Quiet s (s.fail e) :=
  ⟨.of_fields rfl rfl rfl rfl rfl rfl rfl rfl, ⟨rfl, rfl, rfl⟩⟩

theorem Quiet.drawn1 (s : State) : Quiet s s.drawn1 :=
  ⟨by refine .of_fields ?_ ?_ ?_ ?_ ?_ ?_ ?_ ?_ <;> simp, by constructor <;> simp⟩

theorem Quiet.finish (s : State) (v : Word) : Quiet s (s.finish v) :=
  ⟨by refine .of_fields ?_ ?_ ?_ ?_ ?_ ?_ ?_ ?_ <;> simp, by constructor <;> simp⟩

theorem RingDeed.quiet {q : Slot} {s t : State} (h : RingDeed q s t) : Quiet s t := ⟨h.calm, h.sameStack⟩

theorem accStep_quiet {q : Slot} {a : Acc} {v : Half} {s t : State} {r : Half × Bool}
    (h : accStep q a v s = .ok r t) : Quiet s t := ⟨accStep_calm h, (accStep_frame h).sameStack⟩

theorem sendCopy_quiet {q : Slot} {moved k : Word} {s t : State} (h : sendCopy q moved s = .ok k t) :
    Quiet s t := by
  obtain ⟨ps, -, -, h⟩ := sendCopy_eq_ok.1 h
  exact (RingDeed.pushN h).quiet

theorem recvCopy_quiet {q : Slot} {moved k : Word} {s t : State} (h : recvCopy q moved s = .ok k t) :
    Quiet s t := by
  obtain ⟨ps, -, -, h⟩ := recvCopy_eq_ok.1 h
  exact (RingDeed.popN h).quiet

theorem Quiet.unmaskIfUsed (s : State) (l : Line) : Quiet s (s.unmaskIfUsed l) := by
  unfold State.unmaskIfUsed
  split
  · exact .unmaskLine s l
  · exact .refl s

/-- What a step of M can be. All but the quiet ones move the stage of the port of its command. -/
inductive MainDeed (s t : State) : Prop
  | quiet (h : Quiet s t) (hm : t.mseq.stage = s.mseq.stage)
  | allocated {q : Slot} {mode txCap rxCap : Word} {u : State} {m : MSeq} (hs : s.mseq.stage = none)
      (h : regAlloc q mode txCap rxCap s = .ok true u) (hm : m.stage = some ⟨q, .opening, false⟩)
      (ht : t = (u.setLife q .opening).setMseq m)
  | undone {q : Slot} {u : State} (hs : s.mseq.stage = some ⟨q, .opening, false⟩) (h : Quiet s u)
      (ht : t = u.openUndo q)
  | hooked {q : Slot} {m : MSeq} (hs : s.mseq.stage = some ⟨q, .opening, false⟩)
      (hm : m.stage = some ⟨q, .opening, true⟩) (ht : t = (s.hookLine (s.lineOf q)).setMseq m)
  | opened {q : Slot} (hs : s.mseq.stage = some ⟨q, .opening, true⟩) (ht : t = openEnd q s)
  | closing {q : Slot} {m : MSeq} (hs : s.mseq.stage = none) (hp : (s.slots.get q).isSome = true)
      (hm : m.stage = some ⟨q, .closing, true⟩) (ht : t = (s.setLife q .closing).setMseq m)
  | unhooked {q : Slot} {m : MSeq} (hs : s.mseq.stage = some ⟨q, .closing, true⟩)
      (hm : m.stage = some ⟨q, .closing, false⟩) (ht : t = (s.unhookLine (s.lineOf q)).setMseq m)
  | dropped {q : Slot} {m : MSeq} (hs : s.mseq.stage = some ⟨q, .closing, false⟩) (hm : m.stage = none)
      (ht : t = (s.dropPort q).setMseq m)

section MainDeed

variable {s t u : State}

theorem MainDeed.stay (ht : t = s) : MainDeed s t := by rw [ht]; exact .quiet (.refl s) rfl

/-- A step that does something quiet and goes to another line of the same stage. -/
theorem MainDeed.goto {m : MSeq} (h : Quiet s u) (hm : m.stage = s.mseq.stage) (ht : t = u.setMseq m) :
    MainDeed s t := by
  rw [ht]; exact .quiet (h.trans (.setMseq u m)) hm

/-- A step that ends a command outside its stages. -/
theorem MainDeed.finish {v : Word} (h : Quiet s u) (hs : s.mseq.stage = none) (ht : t = u.finish v) :
    MainDeed s t := by
  rw [ht]; exact .quiet (h.trans (.finish u v)) (by rw [hs, finish_mseq]; rfl)

theorem MainDeed.fail {e : ErrKind} (h : Quiet s u) (hs : s.mseq.stage = none) (ht : t = u.fail e) :
    MainDeed s t := by
  rw [ht]; exact .quiet (h.trans (.fail u e)) (by rw [hs]; rfl)

/-- A step of a line that is a capability: an access, and where it is the last the end of the line. -/
theorem MainDeed.access {c : Cmd} {line : Nat} {loc : MLocals} {q : Slot} {start : List Acc}
    {fin : Half → State → Res Unit} (hs : s.mseq.stage = (MSeq.run c line loc).stage)
    (h : mainHal c line loc q start fin s = .ok () t)
    (hfin : ∀ v u, Quiet s u → fin v u = .ok () t → MainDeed s t) : MainDeed s t := by
  unfold mainHal at h
  split at h
  · exact hfin _ _ (.refl s) h
  · obtain ⟨r, u, ha, h⟩ := andThen_eq_ok.1 h
    split at h
    · exact hfin _ _ (accStep_quiet ha) h
    · exact .goto (accStep_quiet ha) (by rw [hs]; rfl) (ok_eq_ok.1 h).2

/-- The first line of a command. -/
theorem firstLine_deed {c : Cmd} (hs : s.mseq.stage = none) (h : firstLine c s = .ok () t) : MainDeed s t := by
  have hopen {r : Res Unit} (h : withOpen c.p s (fun _ _ => r) = .ok () t)
      (hf : r = .ok () t → MainDeed s t) : MainDeed s t := by
    obtain ⟨e, -, ht⟩ | ⟨q, ps, -, h⟩ := withOpen_eq_ok.1 h
    · exact .fail (.refl s) hs ht
    · exact hf h
  have hgoto {u : State} (hc : c.op ≠ .close) (ho : Quiet s u) (h : Res.ok () (u.atLine c 2 0#32 0#32) = .ok () t) :
      MainDeed s t := by
    refine .goto ho ?_ (ok_eq_ok.1 h).2
    rw [hs]
    obtain ⟨op, p⟩ := c
    cases hp : slotOfSel p <;> cases op <;> simp_all [MSeq.stage]
  obtain ⟨op, p⟩ := c
  cases op <;> simp only [firstLine] at h
  case openPort =>
    split at h
    · exact .fail (.refl s) hs (ok_eq_ok.1 h).2
    · exact hgoto nofun (.refl s) h
  case configure =>
    split at h
    · exact .fail (.refl s) hs (ok_eq_ok.1 h).2
    · exact hgoto nofun (.refl s) h
  case send =>
    refine hopen h fun h => ?_
    split at h
    · cases h
    · exact hgoto nofun (.refl s) h
  case recv =>
    refine hopen h fun h => ?_
    split at h
    · cases h
    · exact hgoto nofun (.refl s) h
  case clear => exact hopen h fun h => hgoto nofun (.refl s) h
  case available => exact hopen h fun h => hgoto nofun (.refl s) h
  case rxDropped => exact hopen h fun h => hgoto nofun (.refl s) h
  case close =>
    split at h
    · exact .fail (.refl s) hs (ok_eq_ok.1 h).2
    · rename_i q hq
      split at h
      · exact .finish (.refl s) hs (ok_eq_ok.1 h).2
      · rename_i hp
        refine .closing hs (by simpa [Option.isSome_iff_ne_none] using hp) ?_ (ok_eq_ok.1 h).2
        rw [stage_close hq]; rfl

/-- The lines of OPEN (spec/45_lifecycle.md R210). -/
theorem openStep_deed {p : BitVec 4} {line : Nat} {loc : MLocals} {q : Slot} (hq : slotOfSel p = some q)
    (hs : s.mseq = .run ⟨.openPort, p⟩ line loc) (h : openStep ⟨.openPort, p⟩ line loc q s = .ok () t) :
    MainDeed s t := by
  have hst : s.mseq.stage = _ := (congrArg MSeq.stage hs).trans (stage_open hq line loc)
  have hgo (n : Nat) := stage_open hq n (.at_ 0#32 0#32)
  unfold openStep at h
  simp only at h
  split at h
  · obtain ⟨a, u, ha, h⟩ := andThen_eq_ok.1 h
    split at h
    · rename_i hat
      rw [hat] at ha
      exact .allocated (by rw [hst]; rfl) ha (hgo 3) (ok_eq_ok.1 h).2
    · rename_i hat
      obtain ⟨-, -, -, -, hu⟩ := regAlloc_eq_ok.1 ha
      rw [if_neg hat] at hu
      rw [hu] at h
      exact .fail (.drawn1 s) (by rw [hst]; rfl) (ok_eq_ok.1 h).2
  · split at h
    · refine .access (by rw [hs]) h fun v u hu h => ?_
      split at h
      · exact .goto hu (by rw [hst]; exact hgo 4) (ok_eq_ok.1 h).2
      · exact .undone (by rw [hst]; rfl) hu (ok_eq_ok.1 h).2
    · exact .goto (.refl s) (by rw [hst]; exact hgo 4) (ok_eq_ok.1 h).2
  · exact .access (by rw [hs]) h fun v u hu h => .goto hu (by rw [hst]; exact hgo 5) (ok_eq_ok.1 h).2
  · exact .goto (.maskLine s _) (by rw [hst]; exact hgo 6) (ok_eq_ok.1 h).2
  · exact .hooked (by rw [hst]; rfl) (hgo 7) (ok_eq_ok.1 h).2
  · exact .access (by rw [hs]) h fun v u hu h => .goto hu (by rw [hst]; exact hgo 8) (ok_eq_ok.1 h).2
  · exact .access (by rw [hs]) h fun v u hu h => .goto hu (by rw [hst]; exact hgo 9) (ok_eq_ok.1 h).2
  · exact .goto (.unmaskLine s _) (by rw [hst]; exact hgo 10) (ok_eq_ok.1 h).2
  · exact .opened (by rw [hst]; rfl) (ok_eq_ok.1 h).2
  · exact .stay (ok_eq_ok.1 h).2

/-- The lines of CLOSE (spec/45_lifecycle.md R216). -/
theorem closeStep_deed {p : BitVec 4} {line : Nat} {loc : MLocals} {q : Slot} (hq : slotOfSel p = some q)
    (hs : s.mseq = .run ⟨.close, p⟩ line loc) (h : closeStep ⟨.close, p⟩ line loc q s = .ok () t) :
    MainDeed s t := by
  have hst : s.mseq.stage = _ := (congrArg MSeq.stage hs).trans (stage_close hq line loc)
  have hgo (n : Nat) := stage_close hq n (.at_ 0#32 0#32)
  unfold closeStep at h
  simp only at h
  split at h
  · obtain ⟨ps, -, h⟩ := withPort_eq_ok.1 h
    split at h
    · exact .goto (.refl s) (by rw [hst]; exact hgo 3) (ok_eq_ok.1 h).2
    · split at h
      · split at h
        · exact .goto (.refl s) (by rw [hst]; exact hgo 2) (ok_eq_ok.1 h).2
        · exact .goto (.refl s) (by rw [hst]; exact stage_close hq 2 _) (ok_eq_ok.1 h).2
      · refine .access (by rw [hs]) h fun v u hu h => ?_
        split at h
        · exact .goto hu (by rw [hst]; exact hgo 3) (ok_eq_ok.1 h).2
        · exact .goto hu (by rw [hst]; exact hgo 2) (ok_eq_ok.1 h).2
  · exact .goto (.maskLine s _) (by rw [hst]; exact hgo 4) (ok_eq_ok.1 h).2
  · exact .access (by rw [hs]) h fun v u hu h => .goto hu (by rw [hst]; exact hgo 5) (ok_eq_ok.1 h).2
  · exact .unhooked (by rw [hst]; rfl) (hgo 6) (ok_eq_ok.1 h).2
  · exact .access (by rw [hs]) h fun v u hu h => .goto hu (by rw [hst]; exact hgo 7) (ok_eq_ok.1 h).2
  · exact .dropped (by rw [hst]; rfl) (hgo 8) (ok_eq_ok.1 h).2
  · exact .goto (.unmaskIfUsed s _) (by rw [hst]; exact hgo 9) (ok_eq_ok.1 h).2
  · exact .finish (.refl s) (by rw [hst]; rfl) (ok_eq_ok.1 h).2
  · exact .stay (ok_eq_ok.1 h).2

/-- A later line of a command that neither opens nor closes a port: no stage to keep. -/
theorem MainDeed.other {c : Cmd} {line n : Nat} {loc : MLocals} {moved k : Word} (ho : c.op ≠ .openPort)
    (hc : c.op ≠ .close) (hs : s.mseq = .run c line loc) (h : Quiet s u) (ht : t = u.atLine c n moved k) :
    MainDeed s t :=
  .goto h (by rw [hs, stage_other ho hc, stage_other ho hc]) ht

theorem configureStep_deed {c : Cmd} {line : Nat} {loc : MLocals} {q : Slot} (hc : c.op = .configure)
    (hs : s.mseq = .run c line loc) (h : configureStep c line loc q s = .ok () t) : MainDeed s t := by
  have h₁ : c.op ≠ .openPort := by rw [hc]; exact nofun
  have h₂ : c.op ≠ .close := by rw [hc]; exact nofun
  have hst : s.mseq.stage = none := by rw [hs, stage_other h₁ h₂]
  unfold configureStep at h
  simp only at h
  split at h
  · exact .other h₁ h₂ hs (.maskLine s _) (ok_eq_ok.1 h).2
  · exact .access (by rw [hs]) h fun v u hu h => .other h₁ h₂ hs hu (ok_eq_ok.1 h).2
  · exact .other h₁ h₂ hs (.unmaskLine s _) (ok_eq_ok.1 h).2
  · exact .finish (.refl s) hst (ok_eq_ok.1 h).2
  · exact .stay (ok_eq_ok.1 h).2

theorem kickStep_deed {c : Cmd} {loc : MLocals} {q : Slot} (hc : c.op = .send) (hs : s.mseq = .run c 5 loc)
    (h : kickStep c loc q s = .ok () t) : MainDeed s t := by
  have h₁ : c.op ≠ .openPort := by rw [hc]; exact nofun
  have h₂ : c.op ≠ .close := by rw [hc]; exact nofun
  obtain ⟨ps, -, h⟩ := withPort_eq_ok.1 h
  split at h
  · split at h
    · exact .other h₁ h₂ hs (.refl s) (ok_eq_ok.1 h).2
    · refine .access (by rw [hs]) h fun v u hu h => ?_
      split at h
      · exact .goto hu (by rw [hs]; rfl) (ok_eq_ok.1 h).2
      · exact .other h₁ h₂ hs hu (ok_eq_ok.1 h).2
  · exact .access (by rw [hs]) h fun v u hu h => .other h₁ h₂ hs hu (ok_eq_ok.1 h).2

theorem sendStep_deed {c : Cmd} {line : Nat} {loc : MLocals} {q : Slot} (hc : c.op = .send)
    (hs : s.mseq = .run c line loc) (h : sendStep c line loc q s = .ok () t) : MainDeed s t := by
  have h₁ : c.op ≠ .openPort := by rw [hc]; exact nofun
  have h₂ : c.op ≠ .close := by rw [hc]; exact nofun
  have hst : s.mseq.stage = none := by rw [hs, stage_other h₁ h₂]
  unfold sendStep at h
  simp only at h
  split at h
  · split at h
    · exact .finish (.refl s) hst (ok_eq_ok.1 h).2
    · exact .other h₁ h₂ hs (.refl s) (ok_eq_ok.1 h).2
  · exact .other h₁ h₂ hs (.maskLine s _) (ok_eq_ok.1 h).2
  · obtain ⟨k, u, hu, h⟩ := andThen_eq_ok.1 h
    exact .other h₁ h₂ hs (sendCopy_quiet hu) (ok_eq_ok.1 h).2
  · exact kickStep_deed hc hs h
  · exact .other h₁ h₂ hs (.unmaskLine s _) (ok_eq_ok.1 h).2
  · obtain ⟨ps, -, h⟩ := withPort_eq_ok.1 h
    split at h
    · exact .finish (.refl s) hst (ok_eq_ok.1 h).2
    · exact .other h₁ h₂ hs (.refl s) (ok_eq_ok.1 h).2
  · exact .other h₁ h₂ hs (.refl s) (ok_eq_ok.1 h).2
  · exact .stay (ok_eq_ok.1 h).2

theorem recvStep_deed {c : Cmd} {line : Nat} {loc : MLocals} {q : Slot} (hc : c.op = .recv)
    (hs : s.mseq = .run c line loc) (h : recvStep c line loc q s = .ok () t) : MainDeed s t := by
  have h₁ : c.op ≠ .openPort := by rw [hc]; exact nofun
  have h₂ : c.op ≠ .close := by rw [hc]; exact nofun
  have hst : s.mseq.stage = none := by rw [hs, stage_other h₁ h₂]
  unfold recvStep at h
  simp only at h
  split at h
  · split at h
    · exact .finish (.refl s) hst (ok_eq_ok.1 h).2
    · exact .other h₁ h₂ hs (.refl s) (ok_eq_ok.1 h).2
  · exact .other h₁ h₂ hs (.maskLine s _) (ok_eq_ok.1 h).2
  · obtain ⟨k, u, hu, h⟩ := andThen_eq_ok.1 h
    exact .other h₁ h₂ hs (recvCopy_quiet hu) (ok_eq_ok.1 h).2
  · exact .other h₁ h₂ hs (.unmaskLine s _) (ok_eq_ok.1 h).2
  · obtain ⟨ps, -, h⟩ := withPort_eq_ok.1 h
    split at h
    · exact .finish (.refl s) hst (ok_eq_ok.1 h).2
    · exact .other h₁ h₂ hs (.refl s) (ok_eq_ok.1 h).2
  · exact .other h₁ h₂ hs (.refl s) (ok_eq_ok.1 h).2
  · exact .stay (ok_eq_ok.1 h).2

theorem clearStep_deed {c : Cmd} {d : Dir} {line : Nat} {loc : MLocals} {q : Slot} (hc : c.op = .clear d)
    (hs : s.mseq = .run c line loc) (h : clearStep c d line q s = .ok () t) : MainDeed s t := by
  have h₁ : c.op ≠ .openPort := by rw [hc]; exact nofun
  have h₂ : c.op ≠ .close := by rw [hc]; exact nofun
  have hst : s.mseq.stage = none := by rw [hs, stage_other h₁ h₂]
  unfold clearStep at h
  simp only at h
  split at h
  · exact .other h₁ h₂ hs (.maskLine s _) (ok_eq_ok.1 h).2
  · obtain ⟨_, u, hu, h⟩ := andThen_eq_ok.1 h
    exact .other h₁ h₂ hs (RingDeed.clear hu).quiet (ok_eq_ok.1 h).2
  · exact .other h₁ h₂ hs (.unmaskLine s _) (ok_eq_ok.1 h).2
  · exact .finish (.refl s) hst (ok_eq_ok.1 h).2
  · exact .stay (ok_eq_ok.1 h).2

/-- The lines of AVAILABLE and RXDROPPED. -/
theorem readStep_deed {c : Cmd} {line : Nat} {loc : MLocals} {read : PortState → Word} {result : Word → Word}
    {q : Slot} (h₁ : c.op ≠ .openPort) (h₂ : c.op ≠ .close) (hs : s.mseq = .run c line loc)
    (h : readStep c line loc read result q s = .ok () t) : MainDeed s t := by
  have hst : s.mseq.stage = none := by rw [hs, stage_other h₁ h₂]
  unfold readStep at h
  split at h
  · obtain ⟨ps, -, h⟩ := withPort_eq_ok.1 h
    exact .other h₁ h₂ hs (.refl s) (ok_eq_ok.1 h).2
  · exact .finish (.refl s) hst (ok_eq_ok.1 h).2
  · exact .stay (ok_eq_ok.1 h).2

/-- Everything a step of M can do. -/
theorem mainStep_deed (h : mainStep s = .ok () t) : MainDeed s t := by
  unfold mainStep at h
  split at h
  next => exact .stay (ok_eq_ok.1 h).2
  next c loc hs => exact firstLine_deed (by rw [hs, stage_first]) h
  next c line loc _ hs =>
    split at h
    next => exact .stay (ok_eq_ok.1 h).2
    next q hq =>
      obtain ⟨op, p⟩ := c
      cases op with
      | openPort => exact openStep_deed hq hs h
      | configure => exact configureStep_deed rfl hs h
      | send => exact sendStep_deed rfl hs h
      | recv => exact recvStep_deed rfl hs h
      | clear d => exact clearStep_deed rfl hs h
      | available => exact readStep_deed (by simp) (by simp) hs h
      | close => exact closeStep_deed hq hs h
      | rxDropped => exact readStep_deed (by simp) (by simp) hs h

end MainDeed

end Sys2Proof.Machine

/-! ## What every step keeps

An invariant of the machine is shown step by step: `Machine.Stable` lists what a property has to survive, and
`Stable.step` and `Stable.command` conclude that every step keeps it. The configuration, the preemption stack and the
data invariant follow. -/

namespace Sys2Proof.Machine

open Sys2Proof

/-! ### The principle -/

/-- M keeps `P`: at the start of a command and at each of its steps. -/
structure MainStable (P : State → Prop) : Prop where
  start {s : State} {c : Cmd} (hidle : s.mseq = .idle) (hp : P s) : P (s.atLine c 1 0#32 0#32)
  main {s t : State} (h : MainDeed s t) (hp : P s) : P t

/-- M, the handlers and HOST keep `P`. -/
structure Stable (P : State → Prop) : Prop extends MainStable P where
  isr {s t : State} {l : Line} {rest : List Line} (hctx : s.ctx = l :: rest) (h : IsrDeed l s t) (hp : P s) : P t
  host {s t : State} (h : t = { s with a0 := t.a0, a1 := t.a1, a2 := t.a2, a3 := t.a3, moves := t.moves })
    (hp : P s) : P t
  poke {s t : State} {a : Word} {b : Byte} (h : hostPoke a b s = .next t) (hp : P s) : P t

section MainDeed

variable {s t : State}

/-- No step of M writes the configuration. -/
theorem MainDeed.cfg (h : MainDeed s t) : t.cfg = s.cfg := by
  cases h with
  | quiet h => exact h.cfg
  | allocated _ h _ ht => obtain ⟨-, -, -, -, hu⟩ := regAlloc_eq_ok.1 h; rw [ht, hu]; simp
  | undone _ h ht => rw [ht]; exact h.cfg
  | hooked _ _ ht => rw [ht, hookLine_eq]; rfl
  | opened _ ht => rw [ht]; exact finish_cfg _ _
  | closing _ _ _ ht => rw [ht]; rfl
  | unhooked _ _ ht => rw [ht, unhookLine_eq]; rfl
  | dropped _ _ ht => rw [ht]; rfl

/-- No step of M is a handler's business. -/
theorem MainDeed.sameStack (h : MainDeed s t) : SameStack s t := by
  cases h with
  | quiet h => exact h.toSameStack
  | allocated _ h _ ht =>
    obtain ⟨-, -, -, -, hu⟩ := regAlloc_eq_ok.1 h
    rw [ht, hu]; constructor <;> simp
  | undone _ h ht => rw [ht]; exact h.toSameStack.trans ⟨rfl, rfl, rfl⟩
  | hooked _ _ ht => rw [ht, hookLine_eq]; exact ⟨rfl, rfl, rfl⟩
  | opened _ ht => rw [ht]; constructor <;> simp [openEnd]
  | closing _ _ _ ht => rw [ht]; exact ⟨rfl, rfl, rfl⟩
  | unhooked _ _ ht => rw [ht, unhookLine_eq]; exact ⟨rfl, rfl, rfl⟩
  | dropped _ _ ht => rw [ht]; exact ⟨rfl, rfl, rfl⟩

end MainDeed

/-- With no handler running, the step of the core is M's. -/
theorem coreStep_main {s t : State} (hctx : s.ctx = []) (h : coreStep s = .ok () t) : MainDeed s t := by
  unfold coreStep at h
  rw [hctx] at h
  exact mainStep_deed h

section Stable

variable {P : State → Prop} {s t : State}

theorem MainStable.reaches (hP : MainStable P) (hctx : s.ctx = []) (h : Reaches s t) (hp : P s) : P t := by
  obtain ⟨n, hn⟩ := h
  induction n generalizing s with
  | zero => rw [show t = s from hn]; exact hp
  | succ n ih =>
    obtain ⟨u, hu, hn⟩ := hn
    have hd := coreStep_main hctx hu
    exact ih (hd.sameStack.ctx.trans hctx) (hP.main hd hp) hn

/-- An API command issued as a word keeps what M keeps. -/
theorem MainStable.command (hP : MainStable P) {i : Instr} {c : Cmd} (hc : apiCommand i = some c)
    (h : exec i s = .next t) (hp : P s) : P t := by
  obtain ⟨hidle, ⟨-, ht⟩ | ⟨hctx, hr⟩⟩ := exec_api_eq_next hc h
  · rw [ht]; exact hP.start hidle hp
  · exact MainStable.reaches hP (s := s.atLine c 1 0#32 0#32) hctx hr (hP.start hidle hp)

theorem Stable.core (hP : Stable P) (h : coreStep s = .ok () t) (hp : P s) : P t := by
  cases hctx : s.ctx with
  | nil => exact hP.main (coreStep_main hctx h) hp
  | cons l rest =>
    obtain ⟨l, rest, hctx, hd⟩ := coreStep_isr (by rw [hctx]; exact nofun) h
    exact hP.isr hctx hd hp

/-- What HOST writes of the mailbox. -/
theorem hostSetX_frame {i : BitVec 3} {v : Word} (h : hostSetX i v s = .next t) :
    t = { s with a0 := t.a0, a1 := t.a1, a2 := t.a2, a3 := t.a3, moves := t.moves } := by
  unfold hostSetX at h
  repeat' split at h
  all_goals cases h
  all_goals rfl

/-- HOST's read of a byte writes nothing. -/
theorem hostPeek_eq_next {a : Word} (h : hostPeek a s = .next t) : t = s := by
  unfold hostPeek at h
  repeat' split at h
  all_goals cases h
  rfl

/-- Every step keeps what the words that are no commands keep, if M, the handlers and HOST keep it. -/
theorem Stable.step (hP : Stable P)
    (hword : ∀ w ms i u, s.moves = .word w :: ms → decode w = some i → apiCommand i = none → P u →
      exec i u = .next t → P t)
    (h : step s = .next t) (hp : P s) : P t := by
  obtain ⟨-, ⟨-, h⟩ | ⟨m, ms, hm, h⟩⟩ := step_eq_next h
  · exact hP.core h hp
  · have hu : P { s with moves := ms } := hP.host rfl hp
    obtain ⟨w, i, rfl, hd, h⟩ | ⟨w, rfl, h⟩ | ⟨i, v, rfl, h⟩ | ⟨a, b, rfl, h⟩ | ⟨a, rfl, h⟩ | ⟨rfl, h⟩ := h
    · cases hc : apiCommand i with
      | none => exact hword w ms i _ hm hd hc hu h
      | some c => exact hP.command hc h hu
    · obtain ⟨i, c, -, -, hidle, ht⟩ := writeCmd_eq_next.1 h
      rw [ht]; exact hP.start hidle hu
    · exact hP.host (hostSetX_frame h) hu
    · exact hP.poke h hu
    · rw [hostPeek_eq_next h]; exact hu
    · exact hP.core h hu

/-- What HOST's write of a byte does. -/
theorem hostPoke_eq_next {a : Word} {b : Byte} (h : hostPoke a b s = .next t) :
    t = s.setHbuf (cellsWrite s.hbuf a.toNat b) := by
  unfold hostPoke at h
  repeat' split at h
  all_goals cases h
  rfl

end Stable

/-! ### The configuration -/

/-- The words that are no API commands are those of classes 2 to 7. -/
theorem cls_of_not_command {i : Instr} (hc : apiCommand i = none) : 2 ≤ i.cls.toNat ∧ i.cls.toNat ≤ 7 := by
  cases i <;> simp_all [apiCommand, Instr.cls]

/-- No class but the first writes the configuration or moves M. -/
theorem ClassFrame.cfg_mseq {n : Nat} {s t : State} (hn : 2 ≤ n ∧ n ≤ 7) (h : ClassFrame n s t) :
    t.cfg = s.cfg ∧ t.mseq = s.mseq := by
  obtain ⟨h2, h7⟩ := hn
  interval_cases n <;> (have h : t = _ := h; rw [h]; exact ⟨rfl, rfl⟩)

theorem exec_cfg_mseq {i : Instr} {s t : State} (hc : apiCommand i = none) (h : exec i s = .next t) :
    t.cfg = s.cfg ∧ t.mseq = s.mseq := (exec_classFrame h).cfg_mseq (cls_of_not_command hc)

theorem stable_cfg (cfg : Config) : Stable (·.cfg = cfg) where
  start _ hp := hp
  main h hp := h.cfg.trans hp
  isr _ h hp := h.calm.cfg.trans hp
  host h hp := by rw [h]; exact hp
  poke h hp := by rw [hostPoke_eq_next h]; exact hp

/-- Settles O15: the words by `exec_classFrame`, the steps by `stable_cfg`. -/
theorem classFrames : Obligations.ClassFrames :=
  ⟨fun _ _ _ => exec_classFrame, fun s _ h => (stable_cfg s.cfg).step
    (fun _ _ _ _ _ _ hc hu h => (exec_cfg_mseq hc h).1.trans hu) h rfl⟩

/-! ### The preemption stack -/

/-- The preemption stack, the in-service bits and which handlers have a sequencer are the same. -/
structure KeepsStack (s t : State) : Prop where
  ctx : t.ctx = s.ctx
  inService : t.inService = s.inService
  idle : ∀ l, t.dseq.get l = .idle ↔ s.dseq.get l = .idle

theorem SameStack.keeps {s t : State} (h : SameStack s t) : KeepsStack s t :=
  ⟨h.ctx, h.inService, fun l => by rw [h.dseq]⟩

theorem KeepsStack.trans {s t u : State} (h : KeepsStack s t) (k : KeepsStack t u) : KeepsStack s u :=
  ⟨k.ctx.trans h.ctx, k.inService.trans h.inService, fun l => (k.idle l).trans (h.idle l)⟩

/-- A handler that runs goes on elsewhere. -/
theorem KeepsStack.setDseq {s : State} {l : Line} {n i : Nat} {c : Cause} {as : List Acc} {v : Half}
    (hs : s.dseq.get l ≠ .idle) : KeepsStack s (s.setDseq l (.run n i c as v)) := by
  refine ⟨rfl, rfl, fun m => ?_⟩
  rw [setDseq_dseq, PerLine.get_set]
  split
  · next h => subst h; simp [hs]
  · rfl

section Stack

variable {q : Slot} {l : Line} {s t : State}

theorem visited_keepsStack (s : State) (q : Slot) : KeepsStack s (s.visited q) := by
  unfold State.visited
  split
  · exact (SameStack.refl s).keeps
  · split
    · next hd =>
      split
      · exact .setDseq (by rw [hd]; exact nofun)
      · exact (SameStack.refl s).keeps
    · exact (SameStack.refl s).keeps

theorem visitWhole_keepsStack (h : visitWhole q s = .ok () t) : KeepsStack s t := by
  obtain ⟨-, rfl⟩ | ⟨-, e, u, hu, rfl⟩ := visitWhole_eq_ok.1 h
  · exact visited_keepsStack s q
  · refine (visitLoop_frame hu).sameStack.keeps.trans ?_
    split
    · exact visited_keepsStack u q
    · exact ⟨rfl, rfl, fun _ => .rfl⟩

theorem ackLine_sameStack (h : ackLine l s = .ok () t) : SameStack s t := by
  rw [ackLine_frame h]; exact ⟨rfl, rfl, rfl⟩

/-- The running handler's return takes its line off the stack. -/
theorem exitLine_ctx (h : exitLine l s = .ok () t) : s.ctx = l :: t.ctx := by
  obtain ⟨hhead, u, hu, rfl⟩ := exitLine_eq_ok.1 h
  rw [leaveInterrupt_ctx, (ackLine_sameStack hu).ctx]
  obtain ⟨rest, hrest⟩ := List.head?_eq_some_iff.1 hhead
  rw [hrest]; rfl

/-- What a word does to the stack: nothing, an entry, or the return from the handler on top. -/
theorem exec_stack {i : Instr} (hc : apiCommand i = none) (h : exec i s = .next t) :
    KeepsStack s t ∨ (∃ l, i = .dspEnter l.sel ∧ s.canEnter l = true ∧ t = s.takeInterrupt l)
      ∨ ∃ l, i = .dspExit l.sel ∧ exitLine l s = .ok () t := by
  have hret {u : State} {r : Ret} (h : SameStack s u) : KeepsStack s { u with ret := r } :=
    SameStack.keeps ⟨h.ctx, h.inService, h.dseq⟩
  cases exec_deed h with
  | command hi => rw [hc] at hi; cases hi
  | ring _ h ht => rw [ht]; exact .inl (hret h.sameStack)
  | lookup _ ht => rw [ht]; exact .inl (hret (.refl s))
  | alloc _ h ht =>
    obtain ⟨-, -, -, -, hu⟩ := regAlloc_eq_ok.1 h
    rw [ht]
    refine .inl (hret ?_)
    rw [hu]
    split <;> constructor <;> simp
  | free _ h ht =>
    obtain ⟨-, hu⟩ := regFree_eq_ok.1 h
    rw [ht, hu]; exact .inl (hret ⟨rfl, rfl, rfl⟩)
  | hal _ h ht => rw [ht]; exact .inl (hret (runAccs_frame h).sameStack)
  | ack _ h ht => rw [ht]; exact .inl (hret (ackLine_sameStack h))
  | @enter l hi ht =>
    cases hen : s.canEnter l with
    | true => exact .inr (.inl ⟨l, hi, hen, by rw [ht, hen]; rfl⟩)
    | false => rw [hen] at ht; rw [ht]; exact .inl (SameStack.refl s).keeps
  | visit _ h => exact .inl (visitWhole_keepsStack h)
  | leave hi h => exact .inr (.inr ⟨_, hi, h⟩)
  | action _ _ h => exact .inl (runAccs_frame h).sameStack.keeps
  | io _ h ht => rw [ht, h.frame]; exact .inl (hret ⟨rfl, rfl, rfl⟩)
  | vector _ hu ht => rw [ht]; obtain rfl | rfl := hu <;> exact .inl (hret ⟨rfl, rfl, rfl⟩)
  | mask _ hu ht => rw [ht]; obtain rfl | rfl := hu <;> exact .inl (hret ⟨rfl, rfl, rfl⟩)
  | env _ h => rw [h.frame]; exact .inl (SameStack.keeps ⟨rfl, rfl, rfl⟩)

/-- What the step of a handler does to the stack: nothing, or the return past the last port. -/
theorem IsrDeed.stack (h : IsrDeed l s t) : KeepsStack s t ∨ exitLine l s = .ok () t := by
  cases h with
  | stay ht => rw [ht]; exact .inl (SameStack.refl s).keeps
  | moved hf _ hs ht =>
    rw [ht]
    refine .inl (hf.sameStack.keeps.trans (.setDseq ?_))
    rwa [hf.sameStack.dseq]
  | left _ _ h => exact .inr h

end Stack

theorem mainStable_ctx (ctx : List Line) : MainStable (·.ctx = ctx) where
  start _ hp := hp
  main h hp := h.sameStack.ctx.trans hp

/-- Settles O13: the words by `exec_stack`, the steps of the core by `MainDeed.sameStack` and the cases of
`IsrDeed`. -/
theorem stackChangesOnlyByEntryAndReturn : Obligations.StackChangesOnlyByEntryAndReturn := by
  refine ⟨fun i s t h hne => ?_, fun s t h hne => ?_⟩
  · cases hc : apiCommand i with
    | some c => exact absurd ((mainStable_ctx s.ctx).command hc h rfl) hne
    | none =>
      obtain hk | ⟨l, hi, -, rfl⟩ | ⟨l, hi, hx⟩ := exec_stack hc h
      · exact absurd hk.ctx hne
      · refine .inl ⟨l, hi, takeInterrupt_ctx s l, takeInterrupt_mseq s l, fun m hm => ?_⟩
        rw [takeInterrupt_dseq, PerLine.get_set_ne _ _ hm]
      · exact .inr ⟨l, hi, exitLine_ctx hx⟩
  · cases hctx : s.ctx with
    | nil => exact absurd (coreStep_main hctx h).sameStack.ctx hne
    | cons _ _ =>
      obtain ⟨l, rest, -, hd⟩ := coreStep_isr (by rw [hctx]; exact nofun) h
      cases hd with
      | stay ht => exact absurd (congrArg State.ctx ht) hne
      | moved hf _ _ ht => rw [ht] at hne; exact absurd hf.ctx_eq hne
      | left hs hi hx => exact ⟨l, _, _, _, _, hctx ▸ exitLine_ctx hx, hs, hi⟩

/-! ### The stack agrees with the in-service bits and the sequencers -/

/-- What the agreement of the stack says. -/
theorem ctxOk_iff {s : State} : s.ctxOk = true ↔ s.ctx.Nodup
    ∧ ∀ l, (s.inService.get l = true ↔ l ∈ s.ctx) ∧ (s.dseq.get l = .idle ↔ l ∉ s.ctx) := by
  have hall (p : Line → Bool) : Line.all.all p = true ↔ ∀ l, p l = true :=
    ⟨fun h l => List.all_eq_true.1 h l (by cases l <;> decide), fun h => List.all_eq_true.2 fun l _ => h l⟩
  simp only [State.ctxOk, Bool.and_eq_true, decide_eq_true_eq, hall]
  refine and_congr_right' (forall_congr' fun l => and_congr ?_ ?_)
  · rw [← List.contains_iff_mem, Bool.eq_iff_iff]
  · rw [← List.contains_iff_mem, ne_eq, eq_iff_iff, not_iff_comm]
    exact iff_comm

section CtxOk

variable {l : Line} {s t : State}

theorem ctxOk_keeps (h : KeepsStack s t) (hs : s.ctxOk = true) : t.ctxOk = true := by
  obtain ⟨hnd, hl⟩ := ctxOk_iff.1 hs
  refine ctxOk_iff.2 ⟨by rw [h.ctx]; exact hnd, fun l => ?_⟩
  rw [h.ctx, h.inService, h.idle l]; exact hl l

/-- An entry pushes a line that no handler serves. -/
theorem ctxOk_takeInterrupt (hen : s.canEnter l = true) (hs : s.ctxOk = true) :
    (s.takeInterrupt l).ctxOk = true := by
  obtain ⟨hnd, hl⟩ := ctxOk_iff.1 hs
  obtain ⟨-, -, hfree, -⟩ := canEnter_iff.1 hen
  have hmem : l ∉ s.ctx := fun h => by rw [(hl l).1.2 h] at hfree; cases hfree
  refine ctxOk_iff.2 ⟨by rw [takeInterrupt_ctx]; exact List.nodup_cons.2 ⟨hmem, hnd⟩, fun m => ?_⟩
  rw [takeInterrupt_ctx, takeInterrupt_inService, takeInterrupt_dseq, PerLine.get_set, PerLine.get_set]
  by_cases hm : m = l
  · simp [hm]
  · simpa [hm] using hl m

/-- A return pops the line on top and ends its handler. -/
theorem ctxOk_exitLine (h : exitLine l s = .ok () t) (hs : s.ctxOk = true) : t.ctxOk = true := by
  obtain ⟨hnd, hl⟩ := ctxOk_iff.1 hs
  have hctx := exitLine_ctx h
  obtain ⟨-, u, hu, rfl⟩ := exitLine_eq_ok.1 h
  obtain ⟨-, hin, hds⟩ := ackLine_sameStack hu
  rw [hctx] at hnd hl
  obtain ⟨hmem, hnd⟩ := List.nodup_cons.1 hnd
  refine ctxOk_iff.2 ⟨hnd, fun m => ?_⟩
  rw [leaveInterrupt_inService, leaveInterrupt_dseq, hin, hds, PerLine.get_set, PerLine.get_set]
  by_cases hm : m = l
  · simpa [hm] using hmem
  · simpa [hm] using hl m

end CtxOk

theorem stable_ctxOk : Stable (·.ctxOk = true) where
  start _ hp := ctxOk_keeps (SameStack.keeps ⟨rfl, rfl, rfl⟩) hp
  main h hp := ctxOk_keeps h.sameStack.keeps hp
  isr _ h hp := h.stack.elim (ctxOk_keeps · hp) (ctxOk_exitLine · hp)
  host h hp := by rw [h]; exact ctxOk_keeps (SameStack.keeps ⟨rfl, rfl, rfl⟩) hp
  poke h hp := by rw [hostPoke_eq_next h]; exact ctxOk_keeps (SameStack.keeps ⟨rfl, rfl, rfl⟩) hp

/-- Settles O11: `stable_ctxOk`, with the words by `exec_stack`. -/
theorem stepKeepsThePreemptionStack : Obligations.StepKeepsThePreemptionStack := by
  refine fun s t hs h => stable_ctxOk.step (fun w ms i u _ _ hc hu h => ?_) h hs
  obtain hk | ⟨l, -, hen, rfl⟩ | ⟨l, -, hx⟩ := exec_stack hc h
  · exact ctxOk_keeps hk hu
  · exact ctxOk_takeInterrupt hen hu
  · exact ctxOk_exitLine hx hu

/-! ### The data invariant -/

section Data

variable {q : Slot} {s t : State}

/-- A capacity that is accepted is a ring's: not 0, and held by 16 bits. -/
theorem capacity_pos {cfg : Config} {c : Word} (hwf : cfg.wf = true) (h : capacityOk cfg c = true) :
    0 < (c.setWidth 16).toNat := by
  obtain ⟨hmin, hmax, -⟩ := Config.wf_limits hwf
  simp only [capacityOk, Bool.and_eq_true, decide_eq_true_eq] at h
  rw [BitVec.toNat_setWidth, Nat.mod_eq_of_lt] <;> omega

/-- The port that REG.ALLOC publishes is legal (spec/42_registry.md R141). -/
theorem newPort_ok {cfg : Config} {mode txCap rxCap : Word} (hwf : cfg.wf = true)
    (ht : capacityOk cfg txCap = true) (hr : capacityOk cfg rxCap = true) :
    (newPort cfg q mode txCap rxCap).ok cfg q = true :=
  PortState.ok_iff.2 ⟨RingBuffer.new_ok (capacity_pos hwf hr), RingBuffer.new_ok (capacity_pos hwf ht), rfl⟩

theorem regAlloc_dataOk {mode txCap rxCap : Word} {a : Bool} (hwf : s.cfg.wf = true)
    (h : regAlloc q mode txCap rxCap s = .ok a t) (hs : s.dataOk = true) : t.dataOk = true := by
  obtain ⟨-, htx, hrx, -, rfl⟩ := regAlloc_eq_ok.1 h
  split
  · refine dataOk_setSlot (dataOk_drawn1 hs) fun ps hps => ?_
    cases hps
    rw [drawn1_cfg]
    exact newPort_ok hwf htx hrx
  · exact dataOk_drawn1 hs

theorem dataOk_freeSlot (hs : s.dataOk = true) : (s.setSlot q none).dataOk = true :=
  dataOk_setSlot hs nofun

theorem MainDeed.data (h : MainDeed s t) (hwf : s.cfg.wf = true) (hs : s.dataOk = true) : t.dataOk = true := by
  cases h with
  | quiet h => exact h.data hs
  | allocated _ h _ ht => rw [ht]; exact dataOk_congr (regAlloc_dataOk hwf h hs) rfl rfl rfl rfl
  | undone _ h ht => rw [ht]; exact dataOk_congr (dataOk_freeSlot (h.data hs)) rfl rfl rfl rfl
  | hooked _ _ ht => rw [ht, hookLine_eq]; exact dataOk_congr hs rfl rfl rfl rfl
  | opened _ ht => rw [ht]; refine dataOk_congr hs ?_ ?_ ?_ ?_ <;> simp [openEnd]
  | closing _ _ _ ht => rw [ht]; exact dataOk_congr hs rfl rfl rfl rfl
  | unhooked _ _ ht => rw [ht, unhookLine_eq]; exact dataOk_congr hs rfl rfl rfl rfl
  | dropped _ _ ht => rw [ht]; exact dataOk_congr (dataOk_freeSlot hs) rfl rfl rfl rfl

/-- The words that rewrite the registry or a vector by themselves keep the data invariant. -/
theorem rewires_dataOk {i : Instr} (hr : rewires i = true) (hwf : s.cfg.wf = true) (h : exec i s = .next t)
    (hs : s.dataOk = true) : t.dataOk = true := by
  cases i <;> cases hr
  case regAlloc p =>
    obtain ⟨q, a, u, -, hq, rfl⟩ := onSlot_returning_eq_next.1 h
    exact dataOk_congr (regAlloc_dataOk hwf hq hs) rfl rfl rfl rfl
  case regFree p =>
    obtain ⟨q, a, u, -, hq, rfl⟩ := onSlot_returning_eq_next.1 h
    obtain ⟨-, rfl⟩ := regFree_eq_ok.1 hq
    exact dataOk_congr (dataOk_freeSlot hs) rfl rfl rfl rfl
  case hostInstall p =>
    obtain ⟨l, a, u, -, hl, rfl⟩ := onLine_returning_eq_next.1 h
    rw [(ok_eq_ok.1 hl).2]; exact dataOk_congr hs rfl rfl rfl rfl
  case hostRestore p =>
    obtain ⟨l, a, u, -, hl, rfl⟩ := onLine_returning_eq_next.1 h
    rw [(ok_eq_ok.1 hl).2]; exact dataOk_congr hs rfl rfl rfl rfl

/-- The words that are no commands keep the data invariant. -/
theorem exec_dataOk {i : Instr} (hc : apiCommand i = none) (hwf : s.cfg.wf = true) (h : exec i s = .next t)
    (hs : s.dataOk = true) : t.dataOk = true := by
  cases hr : rewires i with
  | false => exact (exec_calm hc hr h).data hs
  | true => exact rewires_dataOk hr hwf h hs

end Data

theorem stable_dataOk : Stable fun s => s.cfg.wf = true ∧ s.dataOk = true where
  start _ hp := ⟨hp.1, dataOk_congr hp.2 rfl rfl rfl rfl⟩
  main h hp := ⟨by rw [h.cfg]; exact hp.1, h.data hp.1 hp.2⟩
  isr _ h hp := ⟨by rw [h.calm.cfg]; exact hp.1, h.calm.data hp.2⟩
  host h hp := by rw [h]; exact ⟨hp.1, dataOk_congr hp.2 rfl rfl rfl rfl⟩
  poke h hp := by
    obtain ⟨hslots, hstd, hbuf⟩ := dataOk_iff.1 hp.2
    have hbuf' := hostPoke_hbuf_wf h hbuf
    rw [hostPoke_eq_next h] at hbuf' ⊢
    exact ⟨hp.1, dataOk_iff.2 ⟨hslots, hstd, hbuf'⟩⟩

/-- Settles O10: `stable_dataOk`, with the words by `exec_dataOk`; a step is taken under a legal configuration
alone. -/
theorem stepKeepsTheDataInvariant : Obligations.StepKeepsTheDataInvariant := by
  refine fun s t hs h => (stable_dataOk.step (fun w ms i u _ _ hc hu h => ?_) h ⟨(step_eq_next h).1, hs⟩).2
  exact ⟨by rw [(exec_cfg_mseq hc h).1]; exact hu.1, exec_dataOk hc hu.1 h hu.2⟩

end Sys2Proof.Machine

/-! ## The agreement of the lines

`State.linesInv` reads the sequencer of M in full; all it depends on is the stage of M's command. Said by stages, each
of the seven steps that move one is a change at one slot, with or without a hook of its line. -/

namespace Sys2Proof.Machine

open Sys2Proof

/-- The lifecycle state that slot `q` has at stage `st` (spec/10_state.md R29). -/
def stageLife (st : Option Stage) (s : State) (q : Slot) : Life :=
  match st with
  | none => if (s.slots.get q).isSome then .opened else .closed
  | some g => if q = g.slot then g.life else if (s.slots.get q).isSome then .opened else .closed

/-- Whether `line_refs` counts slot `q` at stage `st` (spec/10_state.md R32). -/
def stageCounts (st : Option Stage) (s : State) (q : Slot) : Bool :=
  match st with
  | none => (s.slots.get q).isSome
  | some g => if q = g.slot then g.counted else (s.slots.get q).isSome

/-- How many of the slots that `n` counts are on line `l`. -/
def lineCount (cfg : Config) (n : Slot → Bool) (l : Line) : Nat :=
  (Slot.all.filter fun q => cfg.lineOf.get q = l ∧ n q).length

/-- The reference counts and the vectors agree, the slots that `n` tells being counted (spec/10_state.md R32). -/
def RefsAgree (n : Slot → Bool) (s : State) : Prop :=
  ∀ l, s.lineRefs.get l = lineCount s.cfg n l
    ∧ (s.handler.get l = .dispatcher ↔ 0 < s.lineRefs.get l)
    ∧ (0 < s.lineRefs.get l → s.savedHandler.get l ≠ .dispatcher)

/-- The agreement at stage `st`. -/
structure LinesAt (st : Option Stage) (s : State) : Prop where
  life : ∀ q, s.life.get q = stageLife st s q
  present : ∀ g, st = some g → (s.slots.get g.slot).isSome = true
  refs : RefsAgree (stageCounts st s) s

/-! ### The model's invariant by stages -/

theorem midway_eq (s : State) (q : Slot) :
    s.midway q = s.mseq.stage.bind fun g => if q = g.slot then some g.life else none := by
  unfold State.midway MSeq.stage
  cases s.mseq with
  | idle => rfl
  | run c n loc =>
    cases hp : slotOfSel c.p with
    | none => simp [hp]
    | some k =>
      cases hop : c.op <;> by_cases hq : q = k <;> simp [hp, hop, hq, eq_comm (a := k)] <;> split <;> simp [hq]

/-- The command and the line of a stage. -/
theorem stage_eq_some {m : MSeq} {g : Stage} (h : m.stage = some g) : ∃ c n loc, m = .run c n loc
    ∧ ((g.life = .opening ∧ g.counted = decide (7 ≤ n)) ∨ (g.life = .closing ∧ g.counted = decide (n ≤ 5))) := by
  unfold MSeq.stage at h
  split at h
  · cases h
  · next c n loc =>
    refine ⟨c, n, loc, rfl, ?_⟩
    split at h
    · split at h
      · cases h; exact .inl ⟨rfl, rfl⟩
      · cases h
    · split at h
      · cases h; exact .inr ⟨rfl, rfl⟩
      · cases h
    · cases h

theorem counted_eq {s : State} {q : Slot} (h : s.life.get q = stageLife s.mseq.stage s q) :
    s.counted q = stageCounts s.mseq.stage s q := by
  have hbase (hl : s.life.get q = if (s.slots.get q).isSome then .opened else .closed) :
      s.counted q = (s.slots.get q).isSome := by
    unfold State.counted
    rw [hl]
    cases (s.slots.get q).isSome <;> rfl
  cases hst : s.mseq.stage with
  | none => rw [hst] at h; exact hbase h
  | some g =>
    rw [hst] at h
    by_cases hq : q = g.slot
    · obtain ⟨c, n, loc, hm, hg⟩ := stage_eq_some hst
      simp only [stageLife, hq, if_true] at h
      simp only [State.counted, stageCounts, hq, if_true, h, hm]
      obtain ⟨hl, hc⟩ | ⟨hl, hc⟩ := hg <;> rw [hl, hc]
    · simp only [stageLife, hq, if_false] at h
      simp only [stageCounts, hq, if_false]
      exact hbase h

/-- The lifecycle clause of the invariant. -/
theorem midway_life_iff {s : State} {q : Slot} : (match s.midway q with
      | some f => s.life.get q = f ∧ (s.slots.get q).isSome = true
      | none => s.life.get q = if (s.slots.get q).isSome then .opened else .closed)
    ↔ s.life.get q = stageLife s.mseq.stage s q
      ∧ ∀ g, s.mseq.stage = some g → q = g.slot → (s.slots.get g.slot).isSome = true := by
  rw [midway_eq]
  cases s.mseq.stage with
  | none => simp [stageLife]
  | some g => by_cases hq : q = g.slot <;> simp [stageLife, hq]

/-- The model's invariant is the agreement at the stage of M's command. -/
theorem linesInv_iff {s : State} : s.linesInv ↔ LinesAt s.mseq.stage s := by
  constructor
  · rintro ⟨hmid, hrefs⟩
    have hlife q := midway_life_iff.1 (hmid q)
    refine ⟨fun q => (hlife q).1, fun g hg => (hlife g.slot).2 g hg rfl, ?_⟩
    rw [show stageCounts _ s = s.counted from funext fun q => (counted_eq (hlife q).1).symm]
    exact hrefs
  · rintro ⟨hlife, hpres, hrefs⟩
    rw [show stageCounts _ s = s.counted from funext fun q => (counted_eq (hlife q)).symm] at hrefs
    exact ⟨fun q => midway_life_iff.2 ⟨hlife q, fun g hg _ => hpres g hg⟩, hrefs⟩

/-! ### Changes at one slot -/

/-- Counting a slot that was not counted. -/
theorem lineCount_update (cfg : Config) {n : Slot → Bool} {q : Slot} (hn : n q = false) (l : Line) :
    lineCount cfg (Function.update n q true) l = lineCount cfg n l + if cfg.lineOf.get q = l then 1 else 0 := by
  unfold lineCount
  cases q <;> simp [Slot.all, List.filter_cons, Function.update, hn] <;> split_ifs <;> simp

section Moves

variable {st st' : Option Stage} {n : Slot → Bool} {q : Slot} {s t : State}

theorem RefsAgree.same (h : RefsAgree n s) {b : Bool} (hn : n q = b) (cfg : t.cfg = s.cfg)
    (refs : t.lineRefs = s.lineRefs) (vector : t.handler = s.handler) (saved : t.savedHandler = s.savedHandler) :
    RefsAgree (Function.update n q b) t := by
  rw [← hn, Function.update_eq_self]
  unfold RefsAgree
  rw [cfg, refs, vector, saved]
  exact h

/-- The hook counts the slot on its line (spec/45_lifecycle.md R219). -/
theorem RefsAgree.hook {k : Line} (hk : s.cfg.lineOf.get q = k) (h : RefsAgree n s) (hn : n q = false) :
    RefsAgree (Function.update n q true) (s.hookLine k) := by
  intro l
  obtain ⟨hrefs, hvec, hsaved⟩ := h l
  rw [hookLine_eq]
  show PerLine.get _ l = lineCount s.cfg _ l ∧ _
  rw [lineCount_update s.cfg hn, hk, ← hrefs]
  by_cases hl : k = l
  · subst hl
    by_cases h0 : s.lineRefs.get k = 0
    · have hne : s.handler.get k ≠ .dispatcher := fun he => by rw [hvec] at he; omega
      simp only [PerLine.get_set_same, if_pos h0]
      exact ⟨rfl, iff_of_true trivial (by omega), fun _ => hne⟩
    · have hpos := Nat.pos_of_ne_zero h0
      simp only [PerLine.get_set_same, if_neg h0]
      exact ⟨rfl, iff_of_true (hvec.2 hpos) (by omega), fun _ => hsaved hpos⟩
  · simp only [PerLine.get_set_ne _ _ (Ne.symm hl), hl, if_false, Nat.add_zero, true_and]
    split <;> simpa only [PerLine.get_set_ne _ _ (Ne.symm hl)] using ⟨hvec, hsaved⟩

/-- The unhook counts the slot no more. -/
theorem RefsAgree.unhook {k : Line} (hk : s.cfg.lineOf.get q = k) (h : RefsAgree n s) (hn : n q = true) :
    RefsAgree (Function.update n q false) (s.unhookLine k) := by
  intro l
  obtain ⟨hrefs, hvec, hsaved⟩ := h l
  have hcount := lineCount_update s.cfg (n := Function.update n q false) (Function.update_self ..) l
  rw [Function.update_idem, ← hn, Function.update_eq_self, ← hrefs, hk] at hcount
  rw [unhookLine_eq, hn] at *
  show PerLine.get _ l = lineCount s.cfg _ l ∧ _
  by_cases hl : k = l
  · subst hl
    rw [if_pos rfl] at hcount
    have hpos : 0 < s.lineRefs.get k := by omega
    by_cases h0 : s.lineRefs.get k - 1 = 0
    · simp only [PerLine.get_set_same, if_pos h0]
      exact ⟨by omega, iff_of_false (hsaved hpos) (by omega), fun _ => hsaved hpos⟩
    · simp only [PerLine.get_set_same, if_neg h0]
      exact ⟨by omega, iff_of_true (hvec.2 hpos) (by omega), fun _ => hsaved hpos⟩
  · rw [if_neg hl, Nat.add_zero] at hcount
    simp only [PerLine.get_set_ne _ _ (Ne.symm hl), hcount, true_and]
    rw [← hcount]
    split <;> simpa only [PerLine.get_set_ne _ _ (Ne.symm hl)] using ⟨hvec, hsaved⟩

/-- A change at one slot, with the stages of that slot. -/
theorem LinesAt.move (h : LinesAt st s) (hst : ∀ g, st = some g → g.slot = q)
    (hst' : ∀ g, st' = some g → g.slot = q) (hother : ∀ k, k ≠ q → t.life.get k = s.life.get k
      ∧ (t.slots.get k).isSome = (s.slots.get k).isSome)
    (hlife : t.life.get q = stageLife st' t q) (hpres : st' ≠ none → (t.slots.get q).isSome = true)
    (hrefs : RefsAgree (Function.update (stageCounts st s) q (stageCounts st' t q)) t) : LinesAt st' t := by
  have hbase {x : Option Stage} {u : State} (hx : ∀ g, x = some g → g.slot = q) {k : Slot} (hk : k ≠ q) :
      stageLife x u k = stageLife none u k ∧ stageCounts x u k = stageCounts none u k := by
    cases x with
    | none => exact ⟨rfl, rfl⟩
    | some g => simp [stageLife, stageCounts, hx g rfl, hk]
  refine ⟨fun k => ?_, fun g hg => ?_, ?_⟩
  · by_cases hk : k = q
    · rw [hk]; exact hlife
    · rw [(hother k hk).1, h.life k, (hbase hst hk).1, (hbase hst' hk).1]
      simp only [stageLife, (hother k hk).2]
  · rw [hst' g hg]; exact hpres (by rw [hg]; exact nofun)
  · convert hrefs using 1
    funext k
    by_cases hk : k = q
    · rw [hk, Function.update_self]
    · rw [Function.update_of_ne hk, (hbase hst hk).2, (hbase hst' hk).2]
      exact (hother k hk).2

/-- What is calm keeps the agreement. -/
theorem LinesAt.calm (h : LinesAt st s) (hc : Calm s t) : LinesAt st t := by
  have hlife (q : Slot) : stageLife st t q = stageLife st s q := by
    cases st <;> simp only [stageLife, hc.present]
  have hcounts : stageCounts st t = stageCounts st s := by
    funext q; cases st <;> simp only [stageCounts, hc.present]
  refine ⟨fun q => by rw [hc.life, hlife]; exact h.life q, fun g hg => by rw [hc.present]; exact h.present g hg, ?_⟩
  rw [hcounts]
  unfold RefsAgree
  rw [hc.cfg, hc.refs, hc.vector, hc.saved]
  exact h.refs

/-! ### The moves of OPEN and CLOSE -/

/-- OPEN line 2: the slot is occupied, and not counted yet. -/
theorem LinesAt.allocate (h : LinesAt none s) (hnone : s.slots.get q = none) (ps : PortState) :
    LinesAt (some ⟨q, .opening, false⟩) ((s.setSlot q (some ps)).setLife q .opening) := by
  refine h.move (q := q) nofun (by simp) (fun k hk => ?_) ?_ (fun _ => ?_) ?_
  · simp [PerSlot.get_set_ne _ _ hk]
  · simp [stageLife]
  · simp
  · refine h.refs.same ?_ rfl rfl rfl rfl
    simp [stageCounts, hnone]

/-- OPEN line 6. -/
theorem LinesAt.hook (h : LinesAt (some ⟨q, .opening, false⟩) s) :
    LinesAt (some ⟨q, .opening, true⟩) (s.hookLine (s.lineOf q)) := by
  have hrefs := RefsAgree.hook (k := s.lineOf q) rfl h.refs (by simp [stageCounts])
  rw [hookLine_eq] at hrefs ⊢
  refine h.move (q := q) (by simp) (by simp) (fun k hk => ⟨rfl, rfl⟩) ?_ (fun _ => h.present _ rfl) ?_
  · simpa [stageLife] using h.life q
  · simpa only [stageCounts, if_true] using hrefs

/-- OPEN line 10. -/
theorem LinesAt.opened (h : LinesAt (some ⟨q, .opening, true⟩) s) : LinesAt none (s.setLife q .opened) := by
  have hpres : (s.slots.get q).isSome = true := h.present _ rfl
  refine h.move (q := q) (by simp) nofun (fun k hk => ?_) ?_ (absurd rfl) ?_
  · simp [PerSlot.get_set_ne _ _ hk]
  · simp [stageLife, hpres]
  · refine h.refs.same ?_ rfl rfl rfl rfl
    simp [stageCounts, hpres]

/-- CLOSE line 1. -/
theorem LinesAt.closing (h : LinesAt none s) (hpres : (s.slots.get q).isSome = true) :
    LinesAt (some ⟨q, .closing, true⟩) (s.setLife q .closing) := by
  refine h.move (q := q) nofun (by simp) (fun k hk => ?_) ?_ (fun _ => hpres) ?_
  · simp [PerSlot.get_set_ne _ _ hk]
  · simp [stageLife]
  · refine h.refs.same ?_ rfl rfl rfl rfl
    simp [stageCounts, hpres]

/-- CLOSE line 5. -/
theorem LinesAt.unhook (h : LinesAt (some ⟨q, .closing, true⟩) s) :
    LinesAt (some ⟨q, .closing, false⟩) (s.unhookLine (s.lineOf q)) := by
  have hrefs := RefsAgree.unhook (k := s.lineOf q) rfl h.refs (by simp [stageCounts])
  rw [unhookLine_eq] at hrefs ⊢
  refine h.move (q := q) (by simp) (by simp) (fun k hk => ⟨rfl, rfl⟩) ?_ (fun _ => h.present _ rfl) ?_
  · simpa [stageLife] using h.life q
  · simpa only [stageCounts, if_true] using hrefs

/-- CLOSE line 7, and the unwinding of OPEN: a slot that is not counted becomes free. -/
theorem LinesAt.drop {f : Life} (h : LinesAt (some ⟨q, f, false⟩) s) : LinesAt none (s.dropPort q) := by
  refine h.move (q := q) (by simp) nofun (fun k hk => ?_) ?_ (absurd rfl) ?_
  · simp [State.dropPort, PerSlot.get_set_ne _ _ hk]
  · simp [State.dropPort, stageLife]
  · refine h.refs.same ?_ rfl rfl rfl rfl
    simp [State.dropPort, stageCounts]

/-- Every step of M keeps the agreement, at the stage it leads to. -/
theorem MainDeed.linesAt (h : MainDeed s t) (hs : LinesAt s.mseq.stage s) : LinesAt t.mseq.stage t := by
  have hmove {u : State} {m : MSeq} (ht : t = u.setMseq m) (h : LinesAt m.stage u) : LinesAt t.mseq.stage t := by
    rw [ht]; exact h.calm (Quiet.setMseq u m).toCalm
  cases h with
  | quiet h hm => rw [hm]; exact hs.calm h.toCalm
  | allocated hst h hm ht =>
    obtain ⟨hnone, -, -, -, hu⟩ := regAlloc_eq_ok.1 h
    rw [hst] at hs
    rw [hu] at ht
    refine hmove ht ?_
    rw [hm]
    exact (hs.calm (Quiet.drawn1 s).toCalm).allocate (by rw [drawn1_slots]; exact hnone) _
  | undone hst h ht =>
    rw [hst] at hs
    rw [ht]
    exact (hs.calm h.toCalm).drop.calm (Quiet.fail _ _).toCalm
  | hooked hst hm ht =>
    rw [hst] at hs
    exact hmove ht (by rw [hm]; exact hs.hook)
  | opened hst ht =>
    rw [hst] at hs
    rw [ht, openEnd, finish_mseq]
    exact hs.opened.calm (Quiet.finish _ _).toCalm
  | closing hst hp hm ht =>
    rw [hst] at hs
    exact hmove ht (by rw [hm]; exact hs.closing hp)
  | unhooked hst hm ht =>
    rw [hst] at hs
    exact hmove ht (by rw [hm]; exact hs.unhook)
  | dropped hst hm ht =>
    rw [hst] at hs
    exact hmove ht (by rw [hm]; exact hs.drop)

/-- What is calm and leaves M in its stage keeps the model's invariant. -/
theorem linesInv_calm (hc : Calm s t) (hm : t.mseq.stage = s.mseq.stage) (hs : s.linesInv) : t.linesInv := by
  rw [linesInv_iff, hm]
  exact (linesInv_iff.1 hs).calm hc

end Moves

/-! ### The obligation -/

theorem stable_linesInv : Stable State.linesInv where
  start {s c} hidle hp := by
    refine linesInv_calm (s := s) (.of_fields rfl rfl rfl rfl rfl rfl rfl rfl) ?_ hp
    rw [hidle]; exact stage_first c _
  main h hp := linesInv_iff.2 (h.linesAt (linesInv_iff.1 hp))
  isr _ h hp := linesInv_calm h.calm (by rw [h.frame]) hp
  host h hp := by
    rw [h]; exact linesInv_calm (.of_fields rfl rfl rfl rfl rfl rfl rfl rfl) rfl hp
  poke h hp := by
    rw [hostPoke_eq_next h]; exact hp

/-- Between commands the invariant is the agreement of R32. -/
theorem linesInv_idle {s : State} (hidle : s.mseq = .idle) : s.linesInv ↔ s.linesAgree := by
  rw [linesInv_iff, hidle]
  exact ⟨fun h => ⟨h.life, h.refs⟩, fun h => ⟨h.1, nofun, h.2⟩⟩

/-- The words that are no commands and rewrite nothing keep the agreement. -/
theorem exec_linesInv {i : Instr} {s t : State} (hc : apiCommand i = none) (hr : rewires i = false)
    (h : exec i s = .next t) (hs : s.linesInv) : t.linesInv :=
  linesInv_calm (exec_calm hc hr h) (by rw [(exec_cfg_mseq hc h).2]) hs

/-- Settles O12: `stable_linesInv`, with the words by `exec_linesInv`. -/
theorem commandsKeepTheLinesInAgreement : Obligations.CommandsKeepTheLinesInAgreement := by
  refine ⟨fun i s t hr hs h => ?_, fun s t hw hs h => ?_, fun s => linesInv_idle⟩
  · cases hc : apiCommand i with
    | some c => exact stable_linesInv.command hc h hs
    | none => exact exec_linesInv hc hr h hs
  · exact stable_linesInv.step (fun w ms i u hm hd hc hu h => exec_linesInv hc (hw w ms i hm hd) h hu) h hs

end Sys2Proof.Machine

/-! ## Environment events and the edge latch -/

namespace Sys2Proof.Machine

open Sys2Proof

section Events

variable {s : State} {q : Slot} {c : StdSlot}

theorem exec_envLineEvent_std (hk : q.kind = .std c) : exec (.envLineEvent q.sel) s = .next
    (if s.cfg.present q then devStep s q (s.drawn1.setStd c
      { s.dev.std.get c with lsErr := (s.dev.std.get c).lsErr ||| s.eventBits }) else s) := by
  simp only [exec, execEnvLineEvent, onSlot_sel, envMove, hk, Res.outcome]

theorem exec_envLineEvent_integ (hk : q.kind = .integ) : exec (.envLineEvent q.sel) s = .next
    (if s.cfg.present q then devStep s q (s.drawn1.setInteg { s.dev.integ with lineErr := true }) else s) := by
  simp only [exec, execEnvLineEvent, onSlot_sel, envMove, hk, Res.outcome]

theorem exec_envModemEvent_std (hk : q.kind = .std c) : exec (.envModemEvent q.sel) s = .next
    (if s.cfg.present q then devStep s q (s.drawn1.setStd c
      { s.dev.std.get c with msDelta := (s.dev.std.get c).msDelta ||| s.eventBits }) else s) := by
  simp only [exec, execEnvModemEvent, onSlot_sel, envMove, hk, Res.outcome]

theorem exec_envModemEvent_integ (hk : q.kind = .integ) : exec (.envModemEvent q.sel) s = .next s := by
  simp only [exec, execEnvModemEvent, onSlot_sel, hk, Res.outcome]

theorem exec_envRxTimeout_std (hk : q.kind = .std c) : exec (.envRxTimeout q.sel) s = .next
    (if s.cfg.present q && (s.dev.std.get c).fifoEn && !(s.dev.std.get c).rxf.isEmpty then
      devStep s q (s.setStd c { s.dev.std.get c with rxTo := true }) else s) := by
  simp only [exec, execEnvRxTimeout, onSlot_sel, envMove, hk, Res.outcome]

theorem exec_envRxTimeout_integ (hk : q.kind = .integ) : exec (.envRxTimeout q.sel) s = .next s := by
  simp only [exec, execEnvRxTimeout, onSlot_sel, hk, Res.outcome]

/-- The bits of an event are a draw that is not 0 (spec/48_environment_device.md R293, R294). -/
theorem eventBits_ne_zero (s : State) : s.eventBits ≠ 0#4 := by
  intro h
  have hn := congrArg BitVec.toNat h
  simp only [State.eventBits, BitVec.toNat_ofNat] at hn
  omega

/-- The events at a port whose device is absent do not occur. -/
theorem events_absent (hp : s.cfg.present q = false) : exec (.envLineEvent q.sel) s = .next s
    ∧ exec (.envModemEvent q.sel) s = .next s ∧ exec (.envRxTimeout q.sel) s = .next s := by
  cases hk : q.kind with
  | std c =>
    rw [exec_envLineEvent_std hk, exec_envModemEvent_std hk, exec_envRxTimeout_std hk, hp]
    exact ⟨rfl, rfl, rfl⟩
  | integ =>
    rw [exec_envLineEvent_integ hk, exec_envModemEvent_integ hk, exec_envRxTimeout_integ hk, hp]
    exact ⟨rfl, rfl, rfl⟩

/-- The events at the INTEG port. -/
theorem events_integ (hk : q.kind = .integ) : exec (.envModemEvent q.sel) s = .next s
    ∧ exec (.envRxTimeout q.sel) s = .next s
    ∧ (s.cfg.present q = true → ∃ g, exec (.envLineEvent q.sel) s = .next { s.drawn1 with
        dev := { s.dev with integ := { s.dev.integ with lineErr := true } }, latched := g }) := by
  refine ⟨exec_envModemEvent_integ hk, exec_envRxTimeout_integ hk, fun hp =>
    ⟨(devStep s q (s.drawn1.setInteg { s.dev.integ with lineErr := true })).latched, ?_⟩⟩
  rw [exec_envLineEvent_integ hk, if_pos hp, devStep_frame]
  simp only [State.setInteg, drawn1_dev]

/-- The state after an event at a present STD device: the device, what the draw left, the edge latch. -/
theorem devStep_setStd {u : State} (hu : u.dev = s.dev) (d : StdDev) : ∃ g, devStep s q (u.setStd c d)
    = { u with dev := { s.dev with std := s.dev.std.set c d }, latched := g } := by
  refine ⟨(devStep s q (u.setStd c d)).latched, ?_⟩
  rw [devStep_frame]
  simp only [State.setStd, hu]

/-- The events at a present STD port. -/
theorem events_std (hk : q.kind = .std c) (hp : s.cfg.present q = true) : let d := s.dev.std.get c
    let after (u : State) (d' : StdDev) (g : PerLine Bool) : State :=
      { u with dev := { s.dev with std := s.dev.std.set c d' }, latched := g }
    (∃ e g, e ≠ 0#4 ∧ exec (.envLineEvent q.sel) s
        = .next (after s.drawn1 { d with lsErr := d.lsErr ||| e } g))
    ∧ (∃ e g, e ≠ 0#4 ∧ exec (.envModemEvent q.sel) s
        = .next (after s.drawn1 { d with msDelta := d.msDelta ||| e } g))
    ∧ (d.fifoEn = true → d.rxf ≠ [] →
        ∃ g, exec (.envRxTimeout q.sel) s = .next (after s { d with rxTo := true } g))
    ∧ (d.fifoEn = false ∨ d.rxf = [] → exec (.envRxTimeout q.sel) s = .next s) := by
  intro d after
  have hafter (u : State) (hu : u.dev = s.dev) (d' : StdDev) :
      ∃ g, (Host.Outcome.next (devStep s q (u.setStd c d')) : Out) = .next (after u d' g) :=
    (devStep_setStd hu d').imp fun _ => congrArg _
  refine ⟨?line, ?modem, fun hf hr => ?timeout, fun hn => ?none⟩
  case line =>
    rw [exec_envLineEvent_std hk, if_pos hp]
    exact ⟨s.eventBits, (hafter _ (drawn1_dev s) _).imp fun _ h => ⟨eventBits_ne_zero s, h⟩⟩
  case modem =>
    rw [exec_envModemEvent_std hk, if_pos hp]
    exact ⟨s.eventBits, (hafter _ (drawn1_dev s) _).imp fun _ h => ⟨eventBits_ne_zero s, h⟩⟩
  case timeout =>
    have hcond : (s.cfg.present q && d.fifoEn && !d.rxf.isEmpty) = true := by simp [hp, hf, hr]
    rw [exec_envRxTimeout_std hk, if_pos hcond]
    exact hafter s rfl _
  case none =>
    have hcond : ¬ (s.cfg.present q && d.fifoEn && !d.rxf.isEmpty) = true := by
      obtain h | h := hn <;> simp [h]
    rw [exec_envRxTimeout_std hk, if_neg hcond]

end Events

/-- What a move of the environment does to the edge latch (spec/10_state.md R35). -/
theorem EnvDeed.latched {q : Slot} {s t : State} (h : EnvDeed q s t) :
    (s.cfg.trigger = .level → t.latched = s.latched)
    ∧ (s.cfg.trigger = .edge → t.latched = s.latched.set (s.cfg.lineOf.get q)
        (s.latched.get (s.cfg.lineOf.get q)
          || (!s.irqLevel (s.cfg.lineOf.get q) && t.irqLevel (s.cfg.lineOf.get q)))) := by
  obtain rfl | ⟨u, hu, rfl⟩ := h
  · exact ⟨fun _ => rfl, fun _ => by simp⟩
  · have hlatched : u.latched = s.latched := by rw [hu.frame]
    rw [devStep_eq]
    refine ⟨fun htr => ?_, fun htr => ?_⟩
    · rw [if_neg (by simp [htr]), hlatched]
    · split
      · next hrise =>
        obtain ⟨-, hs, ht⟩ := hrise
        have ht' : (u.setLatched (s.cfg.lineOf.get q) true).irqLevel (s.cfg.lineOf.get q) = true := ht
        rw [hs, ht', setLatched_latched, hlatched, Bool.not_false, Bool.and_self, Bool.or_true]
      · next hno =>
        have hlow : (!s.irqLevel (s.cfg.lineOf.get q) && u.irqLevel (s.cfg.lineOf.get q)) = false := by
          cases hs : s.irqLevel (s.cfg.lineOf.get q) <;> cases ht : u.irqLevel (s.cfg.lineOf.get q) <;> simp_all
        rw [hlow, hlatched, Bool.or_false, PerLine.set_get]

/-- Settles O49: the events by kind of device, the latch by `EnvDeed.latched`. -/
theorem environmentEventsAndEdges : Obligations.EnvironmentEventsAndEdges :=
  ⟨fun _ _ => ⟨events_absent, events_integ, fun _ => events_std⟩,
    fun _ _ _ _ _ hi h => (exec_env hi h).latched⟩

end Sys2Proof.Machine

/-! ## The registers of HOST -/

namespace Sys2Proof.Machine

open Sys2Proof

/-! ### `CMD` -/

section Class

variable {f : Fields} {w : Word} {i : Instr}

theorem decodeApi_cls (h : decodeApi f = some i) : i.cls = 1#4 := by
  simp only [decodeApi, Fields.plain, Fields.onRing] at h
  repeat' split at h
  all_goals cases h
  all_goals rfl

theorem decodeRb_cls (h : decodeRb f = some i) : i.cls = 2#4 := by
  simp only [decodeRb, Fields.onRingByte, Fields.onRing, Fields.onRingN] at h
  repeat' split at h
  all_goals cases h
  all_goals rfl

theorem decodeReg_cls (h : decodeReg f = some i) : i.cls = 3#4 := by
  simp only [decodeReg, Fields.plain] at h
  repeat' split at h
  all_goals cases h
  all_goals rfl

theorem decodeHal_cls (h : decodeHal f = some i) : i.cls = 4#4 := by
  simp only [decodeHal, Fields.plain, Fields.onByte, Fields.onLine] at h
  repeat' split at h
  all_goals cases h
  all_goals rfl

theorem decodeDsp_cls (h : decodeDsp f = some i) : i.cls = 5#4 := by
  simp only [decodeDsp, Fields.plain, Fields.onLine] at h
  repeat' split at h
  all_goals cases h
  all_goals rfl

theorem decodeHost_cls (h : decodeHost f = some i) : i.cls = 6#4 := by
  simp only [decodeHost, Fields.onAddr, Fields.onLine] at h
  repeat' split at h
  all_goals cases h
  all_goals rfl

theorem decodeEnv_cls (h : decodeEnv f = some i) : i.cls = 7#4 := by
  simp only [decodeEnv, Fields.plain, Fields.onByte] at h
  repeat' split at h
  all_goals cases h
  all_goals rfl

/-- A legal word holds the class of its operation (spec/30_encoding.md R91, R93). -/
theorem decode_cls (h : decode w = some i) : i.cls = w.extractLsb' 28 4 := by
  refine BitVec.eq_of_toNat_eq ?_
  show _ = (fields w).cls.toNat
  unfold decode at h
  dsimp only at h
  split at h
  · split at h
    next hk => rw [decodeApi_cls h, hk]; rfl
    next hk => rw [decodeRb_cls h, hk]; rfl
    next hk => rw [decodeReg_cls h, hk]; rfl
    next hk => rw [decodeHal_cls h, hk]; rfl
    next hk => rw [decodeDsp_cls h, hk]; rfl
    next hk => rw [decodeHost_cls h, hk]; rfl
    next hk => rw [decodeEnv_cls h, hk]; rfl
    next => cases h
  · cases h

/-- A legal word of class 1 is read by the table of that class. -/
theorem decode_api (hw : w.extractLsb' 28 4 = 1#4) (h : decode w = some i) : decodeApi (fields w) = some i := by
  have hk : (fields w).cls.toNat = 1 := congrArg BitVec.toNat hw
  unfold decode at h
  dsimp only at h
  rw [hk] at h
  split at h
  · exact h
  · cases h

end Class

theorem isSome_apiCommand {i : Instr} : (apiCommand i).isSome = true ↔ i.cls = 1#4 := by
  cases i <;> simp [apiCommand, Instr.cls]

theorem bit_dirOf (b : BitVec 1) : (dirOf b).bit = b := by revert b; decide

/-- An operation of class 1 has the port and, for CLEAR, the direction of its word (spec/30_encoding.md R94). -/
theorem decodeApi_command {f : Fields} {i : Instr} {c : Cmd} (h : decodeApi f = some i)
    (hc : apiCommand i = some c) : c.p = f.sel ∧ ∀ d, c.op = .clear d → d.bit = f.dir := by
  simp only [decodeApi, Fields.plain, Fields.onRing] at h
  repeat' split at h
  all_goals cases h
  all_goals cases hc
  case h_5 => exact ⟨rfl, fun d hd => by cases hd; exact bit_dirOf _⟩
  all_goals exact ⟨rfl, nofun⟩

/-- Settles O6: the command of a word by `decodeApi_command`, its start by the definitions of its two issues. -/
theorem commandRegister : Obligations.CommandRegister := by
  intro w s i hd
  have hcls : (apiCommand i).isSome = true ↔ w.extractLsb' 28 4 = 1#4 := by
    rw [isSome_apiCommand, decode_cls hd]
  refine ⟨hcls, fun hn => by simp only [writeCmd, hd, hn], fun c hc => ?_⟩
  obtain ⟨hp, hdir⟩ := decodeApi_command (decode_api (hcls.1 (by rw [hc]; rfl)) hd) hc
  obtain ⟨whole, hexec, -⟩ := exec_api hc
  refine ⟨hp, hdir, fun hbusy => ?_, fun hidle => ?_, fun hbusy => ?_, fun hidle hctx => ?_⟩
  · simp only [writeCmd, hd, hc, if_pos hbusy]
  · simp only [writeCmd, hd, hc, hidle, ne_eq, not_true_eq_false, if_false]; rfl
  · rw [hexec, issueCommand, if_pos hbusy]
  · rw [hexec, issueCommand, if_neg (not_not_intro hidle), if_pos hctx]; rfl

/-! ### The mailbox and `HBUF` -/

/-- A HOST write of an operand is refused while a command runs (spec/10_state.md R20). -/
theorem hostSetX_busy {s : State} {i : BitVec 3} {v : Word} (hb : s.mseq ≠ .idle) (hi : i.toNat < 4) :
    hostSetX i v s = .refused .busy := by
  unfold hostSetX
  interval_cases i.toNat <;> exact if_neg hb

/-- `x[6]` and `x[7]` read 0 and ignore writes (spec/10_state.md R20). -/
theorem mailbox_rest {s : State} {i : BitVec 3} {v : Word} (hi : 6 ≤ i.toNat) :
    hostSetX i v s = .next s ∧ s.readX i = 0#32 := by
  have h7 := i.isLt
  unfold hostSetX State.readX
  interval_cases i.toNat <;> exact ⟨rfl, rfl⟩

/-- The buffer of a running SEND or RECV (spec/20_memory.md R84). -/
theorem bufferHeld_iff {s : State} {a : Word} : bufferHeld s a = true ↔
    s.a0.toNat ≤ a.toNat ∧ a.toNat < s.a0.toNat + s.a1.toNat
      ∧ ∃ p n loc, s.mseq = .run ⟨.send, p⟩ n loc ∨ s.mseq = .run ⟨.recv, p⟩ n loc := by
  unfold bufferHeld
  cases s.mseq with
  | idle => simp
  | run c n loc =>
    obtain ⟨op, p⟩ := c
    cases op <;> simp

/-- Settles O7: the mailbox register by register, `HBUF` by the tests of its two accesses. -/
theorem hostMailboxAndBuffer : Obligations.HostMailboxAndBuffer := by
  refine ⟨fun s v => ⟨fun hidle => ?_, fun hb i => hostSetX_busy hb, fun i => mailbox_rest, rfl, rfl, rfl, rfl, rfl,
    rfl, rfl, ?_⟩, fun s a b => ?_⟩
  · exact ⟨if_pos hidle, if_pos hidle, if_pos hidle, if_pos hidle⟩
  · show (s.lasterr.setWidth 32).toNat = _
    rw [BitVec.toNat_setWidth]
    exact Nat.mod_eq_of_lt (by omega)
  · have hsize (hp : a.toNat < 2 ^ s.cfg.haddrBits) : ¬ s.cfg.hbufSize ≤ a.toNat := Nat.not_le.2 hp
    refine ⟨fun hp => ?_, fun hp hh => ?_, fun hp hh => ⟨_, ?_, cellsRead_write _ _ _⟩, fun hp hh hr => ?_,
      fun hp hh => ?_, bufferHeld_iff⟩
    · have hout : s.cfg.hbufSize ≤ a.toNat := Nat.not_lt.1 hp
      exact ⟨if_pos hout, if_pos hout⟩
    · rw [hostPoke, if_neg (hsize hp), if_pos hh]
    · rw [hostPoke, if_neg (hsize hp), hh, if_neg nofun]; rfl
    · rw [hostPeek, if_neg (hsize hp), hh, hr]; rfl
    · have hfree : (bufferHeld s a && recvRuns s) = false := by rwa [Bool.and_eq_false_iff]
      rw [hostPeek, if_neg (hsize hp), hfree, if_neg nofun]
      cases cellsRead s.hbuf a.toNat <;> rfl

end Sys2Proof.Machine

/-! ## Reset -/

namespace Sys2Proof.Machine

open Sys2Proof

/-- Settles O8: the values are read off `State.resetWith`. -/
theorem resetValues : Obligations.ResetValues := by
  refine ⟨rfl, fun cfg => ?_⟩
  have hdev (c : StdSlot) : (State.resetWith cfg).dev.std.get c = StdDev.reset := by cases c <;> rfl
  have hiir : StdDev.reset.readValue cfg.stdMap .iir 0#16 = cfg.stdMap.iirNone := by
    simp [StdDev.readValue, StdDev.iir, StdDev.cause, StdDev.reset, StdMap.iirBits, hasBit, RxTrigger.level]
  have hlsr : StdDev.reset.readValue cfg.stdMap .lsr 0#16 = cfg.stdMap.lsrThre ||| cfg.stdMap.lsrTemt := by
    simp [StdDev.readValue, StdDev.lsr, StdDev.reset]
  refine ⟨fun q => ?slot, fun l => ?line, rfl, rfl, fun c => ?std, rfl, rfl, rfl⟩
  case slot => cases q <;> exact ⟨rfl, rfl, rfl, rfl⟩
  case line => cases l <;> exact ⟨⟨_, rfl⟩, rfl, rfl, rfl, rfl⟩
  case std =>
    rw [hdev]
    refine ⟨rfl, rfl, rfl, rfl, rfl, rfl, rfl, rfl, rfl, rfl, rfl, hiir, hlsr, fun href => ?_⟩
    rw [hiir, hlsr, href]
    exact ⟨rfl, rfl⟩

/-- Nothing is open after reset, and no vector is the dispatcher's. -/
theorem reset_linesAgree : State.reset.linesAgree := by
  refine ⟨fun q => by cases q <;> rfl, fun l => ?_⟩
  cases l <;> exact ⟨rfl, by decide, by decide⟩

/-- Settles O9: the Boolean invariants are computed, and the agreement is `reset_linesAgree`. -/
theorem resetMeetsTheInvariants : Obligations.ResetMeetsTheInvariants :=
  ⟨by decide +kernel, by decide +kernel, by decide +kernel, reset_linesAgree,
    (linesInv_idle rfl).2 reset_linesAgree⟩

end Sys2Proof.Machine

/-! ## The rest of the `IO` space -/

namespace Sys2Proof.Machine

open Sys2Proof

/-! ### Who claims an address -/

/-- The addresses of the INTEG registers, as a list. -/
theorem mem_integAddrs {cfg : Config} {a : Half} :
    a ∈ [cfg.iIen, cfg.iLctl, cfg.iBaud, cfg.iStat, cfg.iTxd, cfg.iRxd] ↔ ∃ r, a = integAddr cfg r := by
  constructor
  · simp only [List.mem_cons, List.not_mem_nil, or_false]
    rintro (h | h | h | h | h | h)
    exacts [⟨.ien, h⟩, ⟨.lctl, h⟩, ⟨.baud, h⟩, ⟨.stat, h⟩, ⟨.txd, h⟩, ⟨.rxd, h⟩]
  · rintro ⟨r, rfl⟩
    cases r <;> simp [integAddr]

theorem integRegAt_eq_none {cfg : Config} {a : Half} (h : ∀ r, a ≠ integAddr cfg r) :
    integRegAt cfg a = none :=
  (if_neg (h .ien)).trans <| (if_neg (h .lctl)).trans <| (if_neg (h .baud)).trans <|
    (if_neg (h .stat)).trans <| (if_neg (h .txd)).trans <| if_neg (h .rxd)

/-- An address outside every STD block that is neither `EOI_ADDR` nor a register of a present INTEG device is
claimed by nobody (spec/47_host_primitives.md R254). -/
theorem route_nobody {cfg : Config} (hwf : cfg.wf = true) {a : Half}
    (hstd : ∀ c, inBlock (cfg.stdBase.get c) a = false) (heoi : a ≠ cfg.eoiAddr)
    (hint : (∀ r, a ≠ integAddr cfg r) ∨ cfg.integPresent = false) : route cfg a = .nobody := by
  by_cases hreg : ∃ r, a = integAddr cfg r
  · obtain ⟨r, rfl⟩ := hreg
    have habs : cfg.integPresent = false := hint.resolve_left fun h => h r rfl
    rw [route_integ hwf, habs, if_neg Bool.false_ne_true]
  · have hfind : (StdSlot.all.find? fun c => inBlock (cfg.stdBase.get c) a) = none := by simp [hstd]
    rw [route, hfind, integRegAt_eq_none fun r h => hreg ⟨r, h⟩]
    exact if_neg heoi

/-- The interrupt controller knows the completion values of the lines (spec/48_environment_device.md R288). -/
theorem eoiKnown_eq_true {cfg : Config} {v : Half} : eoiKnown cfg v = true ↔ ∃ l, v = cfg.eoiValue.get l := by
  simp only [eoiKnown, List.any_eq_true, decide_eq_true_eq]
  exact exists_congr fun l => and_iff_right (by cases l <;> simp)

/-! ### The register primitives by who claims the address -/

section Claimed

variable {s : State} {a : Half}

theorem observe_drawn1 (s : State) (e : HostEvent) :
    s.drawn1.observe e = { s.drawn1 with trace := s.trace ++ [e] } := by rw [State.observe, drawn1_trace]

/-- HOST.RD8 of an address nobody claims, or of the block of an absent chip, is a draw (R254). -/
theorem exec_hostRd8_unclaimed (h : route s.cfg a = .stdAbsent ∨ route s.cfg a = .nobody) :
    let v : Byte := s.drawValue.setWidth 8
    exec (.hostRd8 a) s = .next { s.drawn1 with trace := s.trace ++ [.rd8 a v], ret := .u8 v } := by
  have hr : ioRd8 a s = .ok (s.drawValue.setWidth 8) (s.drawn1.observe (.rd8 a (s.drawValue.setWidth 8))) := by
    rcases h with h | h <;> rw [ioRd8, h]
  show (ioRd8 a s).returning .u8 = _
  rw [hr, observe_drawn1]; rfl

/-- HOST.WR8 of such an address does nothing but show in the trace (R254). -/
theorem exec_hostWr8_unclaimed (h : route s.cfg a = .stdAbsent ∨ route s.cfg a = .nobody) :
    exec (.hostWr8 a) s
      = .next { s with trace := s.trace ++ [.wr8 a (s.side.value.setWidth 8)], ret := .unit } := by
  show (ioWr8 a _ s).returning _ = _
  rcases h with h | h <;> rw [ioWr8, h] <;> rfl

/-- HOST.WR16 of such an address does nothing but show in the trace (R254). -/
theorem exec_hostWr16_unclaimed (h : route s.cfg a = .stdAbsent ∨ route s.cfg a = .nobody) :
    exec (.hostWr16 a) s = .next { s with trace := s.trace ++ [.wr16 a s.side.value], ret := .unit } := by
  show (ioWr16 a _ s).returning _ = _
  rcases h with h | h <;> rw [ioWr16, h] <;> rfl

/-- HOST.RD16 of `EOI_ADDR` (R288) and of an address nobody claims (R254) is a draw. -/
theorem exec_hostRd16_draw (h : route s.cfg a = .eoi ∨ route s.cfg a = .nobody) :
    exec (.hostRd16 a) s
      = .next { s.drawn1 with trace := s.trace ++ [.rd16 a s.drawValue], ret := .u16 s.drawValue } := by
  have hr : ioRd16 a s = .ok s.drawValue (s.drawn1.observe (.rd16 a s.drawValue)) := by
    rcases h with h | h <;> rw [ioRd16, h]
  show (ioRd16 a s).returning .u16 = _
  rw [hr, observe_drawn1]; rfl

/-- HOST.WR16 of `EOI_ADDR` takes a completion value (R288) and refuses any other (log entry 19). -/
theorem exec_hostWr16_eoi (h : route s.cfg a = .eoi) :
    exec (.hostWr16 a) s = if eoiKnown s.cfg s.side.value = true
      then .next { s with trace := s.trace ++ [.wr16 a s.side.value], ret := .unit }
      else .refused .eoiValueUnknown := by
  show (ioWr16 a _ s).returning _ = _
  rw [ioWr16, h]
  cases eoiKnown s.cfg s.side.value <;> rfl

/-- An 8-bit access of a location that is 16 bits wide is refused (R289). -/
theorem exec_host8_wrongWidth (h : (∃ r, route s.cfg a = .integ r) ∨ route s.cfg a = .eoi) :
    exec (.hostRd8 a) s = .refused .wrongWidth ∧ exec (.hostWr8 a) s = .refused .wrongWidth := by
  show (ioRd8 a s).returning _ = _ ∧ (ioWr8 a _ s).returning _ = _
  rcases h with ⟨r, h⟩ | h <;> rw [ioRd8, ioWr8, h] <;> exact ⟨rfl, rfl⟩

/-- A 16-bit read in the block of a STD chip, present or not, is refused (R251, log entry 21). -/
theorem exec_hostRd16_std (h : (∃ c r, route s.cfg a = .std c r) ∨ route s.cfg a = .stdAbsent) :
    exec (.hostRd16 a) s = .refused .wrongWidth := by
  show (ioRd16 a s).returning _ = _
  rcases h with ⟨c, r, h⟩ | h <;> rw [ioRd16, h] <;> rfl

/-- A 16-bit write of a register of a STD chip is refused (R289). -/
theorem exec_hostWr16_std {c : StdSlot} {r : SReg} (h : route s.cfg a = .std c r) :
    exec (.hostWr16 a) s = .refused .wrongWidth := by
  show (ioWr16 a _ s).returning _ = _
  rw [ioWr16, h]; rfl

end Claimed

/-- Settles O46: each clause fixes who claims the address, and the primitives follow from that. -/
theorem ioRouting : Obligations.IoRouting := by
  intro s a hwf
  have hin {c : StdSlot} : inBlock (s.cfg.stdBase.get c) a = true ↔
      (s.cfg.stdBase.get c).toNat ≤ a.toNat ∧ a.toNat ≤ (s.cfg.stdBase.get c).toNat + 7 := by
    simp [inBlock]
  refine ⟨fun c hc => ?std, fun ha hp => ?integ, fun ha => ?eoi, fun hc ha hi => ?nobody⟩
  case std =>
    have hroute := route_block hwf c (hin.2 hc)
    cases hp : s.cfg.stdPresent.get c with
    | true =>
      rw [if_pos hp] at hroute
      exact ⟨exec_hostRd16_std (.inl ⟨_, _, hroute⟩), fun _ => exec_hostWr16_std hroute, nofun⟩
    | false =>
      rw [if_neg (by simp [hp])] at hroute
      exact ⟨exec_hostRd16_std (.inr hroute), nofun, fun _ => ⟨⟨exec_hostRd8_unclaimed (.inl hroute),
        exec_hostWr8_unclaimed (.inl hroute)⟩, exec_hostWr16_unclaimed (.inl hroute)⟩⟩
  case integ =>
    obtain ⟨r, rfl⟩ := mem_integAddrs.1 ha
    exact exec_host8_wrongWidth (.inl ⟨r, by rw [route_integ hwf, if_pos hp]⟩)
  case eoi =>
    have hroute : route s.cfg a = .eoi := by rw [ha, route_eoi hwf]
    obtain ⟨hrd, hwr⟩ := exec_host8_wrongWidth (s := s) (.inr hroute)
    refine ⟨hrd, hwr, exec_hostRd16_draw (.inl hroute), fun l hl => ?known, fun hl => ?unknown⟩
    case known => exact (exec_hostWr16_eoi hroute).trans (if_pos (eoiKnown_eq_true.2 ⟨l, hl⟩))
    case unknown =>
      have hnot : ¬ eoiKnown s.cfg s.side.value = true := fun h => (eoiKnown_eq_true.1 h).elim hl
      exact (exec_hostWr16_eoi hroute).trans (if_neg hnot)
  case nobody =>
    have hroute : route s.cfg a = .nobody :=
      route_nobody hwf (fun c => Bool.eq_false_iff.2 fun h => hc c (hin.1 h)) ha
        (hi.imp_left fun h r hr => h (mem_integAddrs.2 ⟨r, hr⟩))
    exact ⟨⟨exec_hostRd8_unclaimed (.inr hroute), exec_hostWr8_unclaimed (.inr hroute)⟩,
      exec_hostRd16_draw (.inr hroute), exec_hostWr16_unclaimed (.inr hroute)⟩

end Sys2Proof.Machine

/-! ## The stops of the ring operations -/

namespace Sys2Proof.Machine

open Sys2Proof

section Stops

variable {s : State} {q : Slot} {d : Dir} {b : Byte} {n : Half} {ps : PortState}

/-! ### The words of class RB on a slot -/

theorem onSlot_sel_returning {α : Type} (q : Slot) (f : Slot → Res α) (g : α → Ret) :
    (onSlot q.sel f).returning g = (f q).returning g := by rw [onSlot_sel]

theorem exec_rbPush : exec (.rbPush q.sel d b) s = (ringPush q d b s).returning .bool :=
  onSlot_sel_returning _ _ _

theorem exec_rbPop : exec (.rbPop q.sel d) s = (ringPop q d s).returning .byte :=
  onSlot_sel_returning _ _ _

theorem exec_rbAvail : exec (.rbAvail q.sel d) s = (ringAvail q d s).returning .count :=
  onSlot_sel_returning _ _ _

theorem exec_rbClear : exec (.rbClear q.sel d) s = (ringClear q d s).returning fun _ => .unit :=
  onSlot_sel_returning _ _ _

theorem exec_rbPushN : exec (.rbPushN q.sel d n) s
    = (ringPushN q d n.toNat s.side.addr.toNat s).returning fun _ => .unit :=
  onSlot_sel_returning _ _ _

theorem exec_rbPopN : exec (.rbPopN q.sel d n) s
    = (ringPopN q d n.toNat s.side.addr.toNat s).returning fun _ => .unit :=
  onSlot_sel_returning _ _ _

/-! ### What stops before the ring is looked at -/

/-- There is nothing to operate on in an absent slot (log entry 15). -/
theorem withPort_none {α : Type} (h : s.slots.get q = none) (f : PortState → Res α) :
    withPort q s f = .refuse .portAbsent := by rw [withPort, h]

/-- A mutator outside its issuing condition is refused (spec/41_ring_buffer.md R121). -/
theorem mutateRing_unowned {α : Type} (h : (s.slots.get q).isSome = true) (ho : s.ringOwned q = false)
    (f : PortState → Res α) : mutateRing q s f = .refuse .ringUnprotected := by
  obtain ⟨ps, hps⟩ := Option.isSome_iff_exists.1 h
  rw [mutateRing, withPort_some hps, ho, if_neg Bool.false_ne_true]

theorem mutateRing_owned {α : Type} (h : s.slots.get q = some ps) (ho : s.ringOwned q = true)
    (f : PortState → Res α) : mutateRing q s f = f ps := by
  rw [mutateRing, withPort_some h, if_pos ho]

/-- The issuing condition fails for M while the line is unmasked, and in the handler of another line
(spec/41_ring_buffer.md R121). -/
theorem ringOwned_eq_false (h : (s.ctx = [] ∧ s.masked.get (s.cfg.lineOf.get q) = false)
    ∨ ∃ m rest, s.ctx = m :: rest ∧ m ≠ s.cfg.lineOf.get q) : s.ringOwned q = false := by
  rcases h with ⟨hctx, hmask⟩ | ⟨m, rest, hctx, hm⟩ <;> rw [State.ringOwned, hctx]
  · exact hmask
  · exact decide_eq_false hm

/-- What refuses every mutator of the slot refuses the five operations that are mutators. -/
theorem exec_mutators_refused {e : Refusal}
    (h : ∀ {α : Type} (f : PortState → Res α), mutateRing q s f = .refuse e) :
    ∀ i ∈ [Instr.rbPush q.sel d b, .rbPop q.sel d, .rbClear q.sel d, .rbPushN q.sel d n, .rbPopN q.sel d n],
      exec i s = .refused e := by
  simp only [List.forall_mem_cons]
  refine ⟨?push, ?pop, ?clear, ?pushN, ?popN, List.forall_mem_nil _⟩
  case push => rw [exec_rbPush, ringPush, h, returning_refuse]
  case pop => rw [exec_rbPop, ringPop, h, returning_refuse]
  case clear => rw [exec_rbClear, ringClear, h, returning_refuse]
  case pushN => rw [exec_rbPushN, ringPushN, h, returning_refuse]
  case popN => rw [exec_rbPopN, ringPopN, h, returning_refuse]

/-! ### What stops a bulk -/

theorem bufferInside_past_end {cfg : Config} {a n : Nat} (h : 2 ^ cfg.haddrBits < a + n) :
    bufferInside cfg a n = false := by
  rw [bufferInside, Config.hbufSize, decide_eq_false (by omega), Bool.false_and]

theorem bufferInside_of_fits {cfg : Config} {a n : Nat} (hn : 0 < n) (h : a + n ≤ 2 ^ cfg.haddrBits) :
    bufferInside cfg a n = true := by
  rw [bufferInside, Config.hbufSize, decide_eq_true h, decide_eq_true (by omega : a < _)]; rfl

/-- A read of several bytes needs each of them written (spec/20_memory.md R60). -/
theorem cellsReadList_eq_none {m : List Host.Cell} {a k j : Nat} (hj : j < k) (h : cellsRead m (a + j) = none) :
    cellsReadList m a k = none := by
  refine Option.eq_none_iff_forall_ne_some.2 fun bs hbs => ?_
  obtain ⟨hlen, hread⟩ := cellsReadList_eq_some.1 hbs
  have hpast := List.getElem?_eq_none_iff.1 ((hread j hj).symm.trans h)
  omega

variable (hp : s.slots.get q = some ps) (ho : s.ringOwned q = true)
include hp ho

/-- A bulk longer than the room is refused (spec/41_ring_buffer.md R127). -/
theorem ringPushN_tooLong {k src : Nat} (hk : (ps.ring d).room < k) :
    ringPushN q d k src s = .refuse .bulkTooLong := by
  rw [ringPushN, mutateRing_owned hp ho]
  exact if_pos hk

/-- A bulk longer than the count is refused (spec/41_ring_buffer.md R129). -/
theorem ringPopN_tooLong {k dst : Nat} (hk : (ps.ring d).count.toNat < k) :
    ringPopN q d k dst s = .refuse .bulkTooLong := by
  rw [ringPopN, mutateRing_owned hp ho]
  exact if_pos hk

/-- A source that leaves `HBUF` is refused (log entry 16). -/
theorem ringPushN_outside {k src : Nat} (hk : k ≤ (ps.ring d).room) (hpos : 0 < k)
    (hout : 2 ^ s.cfg.haddrBits < src + k) : ringPushN q d k src s = .refuse .bufferOutside := by
  rw [ringPushN, mutateRing_owned hp ho]
  exact (if_neg (Nat.not_lt.2 hk)).trans (if_pos ⟨hpos.ne', by rw [bufferInside_past_end hout]; rfl⟩)

/-- A destination that leaves `HBUF` is refused (log entry 16). -/
theorem ringPopN_outside {k dst : Nat} (hk : k ≤ (ps.ring d).count.toNat) (hpos : 0 < k)
    (hout : 2 ^ s.cfg.haddrBits < dst + k) : ringPopN q d k dst s = .refuse .bufferOutside := by
  rw [ringPopN, mutateRing_owned hp ho]
  exact (if_neg (Nat.not_lt.2 hk)).trans (if_pos ⟨hpos.ne', by rw [bufferInside_past_end hout]; rfl⟩)

/-- A source byte that nothing has written is a model fault (spec/20_memory.md R60). -/
theorem ringPushN_unwritten {k src j : Nat} (hk : k ≤ (ps.ring d).room) (hin : src + k ≤ 2 ^ s.cfg.haddrBits)
    (hj : j < k) (hnone : cellsRead s.hbuf (src + j) = none) :
    ringPushN q d k src s = .fault .hbufUnwritten := by
  rw [ringPushN, mutateRing_owned hp ho, cellsReadList_eq_none hj hnone]
  refine (if_neg (Nat.not_lt.2 hk)).trans (if_neg fun hout => ?_)
  simp [bufferInside_of_fits (by omega) hin] at hout

end Stops

/-- Settles O23: an absent slot and a failed issuing condition stop every mutator at once; the stops of a bulk
come after them, in the order of the model's tests. -/
theorem ringStops : Obligations.RingStops := by
  intro s q d b n
  refine ⟨fun habs => ?absent, fun hpres hissue => ?unprotected, fun ps hps howned => ?bulk⟩
  case absent =>
    have hmut := exec_mutators_refused (d := d) (b := b) (n := n) (e := .portAbsent)
      fun _ => withPort_none habs _
    have havail : exec (.rbAvail q.sel d) s = .refused .portAbsent := by
      rw [exec_rbAvail, ringAvail, withPort_none habs, returning_refuse]
    simp only [List.forall_mem_cons] at hmut ⊢
    obtain ⟨hpush, hpop, hrest⟩ := hmut
    exact ⟨hpush, hpop, havail, hrest⟩
  case unprotected => exact exec_mutators_refused (mutateRing_unowned hpres (ringOwned_eq_false hissue))
  case bulk =>
    rw [exec_rbPushN, exec_rbPopN]
    refine ⟨fun hn => ?_, fun hn => ?_, fun hn hpos hout => ?_, fun hn hpos hout => ?_,
      fun hn hin ⟨j, hj, hnone⟩ => ?_⟩
    · rw [ringPushN_tooLong hps howned hn]; rfl
    · rw [ringPopN_tooLong hps howned hn]; rfl
    · rw [ringPushN_outside hps howned hn hpos hout]; rfl
    · rw [ringPopN_outside hps howned hn hpos hout]; rfl
    · rw [ringPushN_unwritten hps howned hn hin hj hnone]; rfl

end Sys2Proof.Machine

/-! ## The encoding

A word and its fields are one another's inverse, and the decoder is a table: class and opcode choose the form of an
operation, which says how the other fields give its operands. Decoding, encoding and the rows of the opcode table
are each compared with this table, form by form (spec/30_encoding.md R91, R94 to R103). -/

namespace Sys2Proof

/-! ### A word and its fields -/

/-- The word with the given fields (spec/30_encoding.md R91). -/
def Fields.word (f : Fields) : Word := ((((f.cls ++ f.op) ++ f.sel) ++ f.dir) ++ f.rsv) ++ f.imm

theorem assemble_eq_word (cls op sel : BitVec 4) (dir : BitVec 1) (imm : Half) :
    assemble cls op sel dir imm = Fields.word ⟨cls, op, sel, dir, 0#3, imm⟩ := rfl

@[simp] theorem fields_word (f : Fields) : fields f.word = f := by
  obtain ⟨cls, op, sel, dir, rsv, imm⟩ := f
  simp only [fields, Fields.word, Fields.mk.injEq]
  refine ⟨?_, ?_, ?_, ?_, ?_, ?_⟩
  all_goals
    apply BitVec.eq_of_getLsbD_eq
    intro j hj
    simp only [BitVec.getLsbD_extractLsb', BitVec.getLsbD_append, hj]
    interval_cases j <;> simp

@[simp] theorem word_fields (w : Word) : (fields w).word = w := by
  apply BitVec.eq_of_getLsbD_eq
  intro j hj
  simp only [fields, Fields.word, BitVec.getLsbD_extractLsb', BitVec.getLsbD_append]
  interval_cases j <;> simp

theorem fields_inj {v w : Word} : fields v = fields w ↔ v = w :=
  ⟨fun h => by rw [← word_fields v, h, word_fields], congrArg _⟩

/-- The conjunction of two words is that of their fields. -/
theorem fields_and (v w : Word) : fields (v &&& w)
    = ⟨(fields v).cls &&& (fields w).cls, (fields v).op &&& (fields w).op, (fields v).sel &&& (fields w).sel,
        (fields v).dir &&& (fields w).dir, (fields v).rsv &&& (fields w).rsv, (fields v).imm &&& (fields w).imm⟩ := by
  simp only [fields, BitVec.extractLsb'_and]

theorem word_eq_assemble {f : Fields} (hr : f.rsv = 0#3) : f.word = assemble f.cls f.op f.sel f.dir f.imm := by
  rw [assemble_eq_word, ← hr]

@[simp] theorem dirOf_bit (d : Dir) : dirOf d.bit = d := by cases d <;> rfl

/-! ### A byte in the operand (spec/30_encoding.md R101) -/

/-- The high byte of the operand. -/
def highByte : Half := BitVec.allOnes 8 ++ 0#8

theorem and_highByte {imm : Half} : imm &&& highByte = 0#16 ↔ imm.extractLsb' 8 8 = 0#8 := by
  have hkeep : imm &&& highByte = imm.extractLsb' 8 8 ++ 0#8 := calc
    imm &&& highByte = (imm.extractLsb' 8 8 ++ imm.extractLsb' 0 8) &&& (BitVec.allOnes 8 ++ 0#8) := by
      rw [BitVec.extractLsb'_append_extractLsb' (w := 8) (len := 8)]; rfl
    _ = (imm.extractLsb' 8 8 &&& .allOnes 8) ++ (imm.extractLsb' 0 8 &&& 0#8) := BitVec.and_append
    _ = imm.extractLsb' 8 8 ++ 0#8 := by rw [BitVec.and_allOnes, BitVec.and_zero]
  rw [hkeep]
  exact BitVec.append_left_inj (s₂ := 0#8) 0#8

theorem setWidth_lowByte {imm : Half} (h : imm.extractLsb' 8 8 = 0#8) : (imm.extractLsb' 0 8).setWidth 16 = imm := by
  have hhigh := congrArg BitVec.toNat h
  apply BitVec.eq_of_toNat_eq
  simp only [BitVec.extractLsb'_toNat, BitVec.toNat_setWidth, BitVec.toNat_ofNat, Nat.shiftRight_eq_div_pow]
    at hhigh ⊢
  omega

@[simp] theorem lowByte_setWidth (b : Byte) : (b.setWidth 16).extractLsb' 0 8 = b := by
  apply BitVec.eq_of_toNat_eq
  simp only [BitVec.extractLsb'_toNat, BitVec.toNat_setWidth, Nat.shiftRight_zero]
  omega

@[simp] theorem highByte_setWidth (b : Byte) : (b.setWidth 16).extractLsb' 8 8 = 0#8 := by
  apply BitVec.eq_of_toNat_eq
  simp only [BitVec.extractLsb'_toNat, BitVec.toNat_setWidth, BitVec.toNat_ofNat, Nat.shiftRight_eq_div_pow]
  omega

/-! ### The table of the operations -/

/-- The form of an operation: which fields give its operands, and the operation they give. -/
inductive Form where
  | plain (i : BitVec 4 → Instr)
  | onLine (i : BitVec 4 → Instr)
  | onRing (i : BitVec 4 → Dir → Instr)
  | onRingN (i : BitVec 4 → Dir → Half → Instr)
  | onRingByte (i : BitVec 4 → Dir → Byte → Instr)
  | onByte (i : BitVec 4 → Byte → Instr)
  | onAddr (i : Half → Instr)

/-- The operation that the fields give, if they are legal for the form. -/
def Form.read : Form → Fields → Option Instr
  | .plain i, f => f.plain i
  | .onLine i, f => f.onLine i
  | .onRing i, f => f.onRing i
  | .onRingN i, f => f.onRingN i
  | .onRingByte i, f => f.onRingByte i
  | .onByte i, f => f.onByte i
  | .onAddr i, f => f.onAddr i

/-- Class 1 (spec/30_encoding.md R94). -/
def apiForms : List Form :=
  [.plain .openPort, .plain .configure, .plain .send, .plain .recv, .onRing .clear, .plain .available,
    .plain .close, .plain .rxDropped]

/-- Class 2 (spec/30_encoding.md R95). -/
def rbForms : List Form :=
  [.onRingByte .rbPush, .onRing .rbPop, .onRing .rbAvail, .onRing .rbClear, .onRingN .rbPushN, .onRingN .rbPopN]

/-- Class 3 (spec/30_encoding.md R96). -/
def regForms : List Form := [.plain .regLookup, .plain .regAlloc, .plain .regFree]

/-- Class 4 (spec/30_encoding.md R97). -/
def halForms : List Form :=
  [.plain .halEnRx, .plain .halEnTx, .plain .halDisInt, .plain .halCause, .plain .halDrainRx, .onByte .halFillTx,
    .plain .halConfig, .onLine .halAckLine, .plain .halTxEmpty, .plain .halDetect, .plain .halInit,
    .plain .halSnapshot, .plain .halRestore, .plain .halClrMs, .plain .halClrLs, .plain .halDisTx]

/-- Class 5 (spec/30_encoding.md R98). -/
def dspForms : List Form :=
  [.onLine .dspEnter, .plain .dspVisit, .onLine .dspExit, .plain .dspOnModem, .plain .dspOnLine,
    .plain .dspOnTxEmpty, .plain .dspOnRxReady, .plain .dspOnRxTimeout]

/-- Class 6 (spec/30_encoding.md R99). -/
def hostForms : List Form :=
  [.onAddr .hostRd8, .onAddr .hostRd16, .onAddr .hostWr8, .onAddr .hostWr16, .onLine .hostInstall,
    .onLine .hostRestore, .onLine .hostMask, .onLine .hostUnmask]

/-- Class 7 (spec/30_encoding.md R100). -/
def envForms : List Form :=
  [.onByte .envRxArrive, .plain .envTxShift, .plain .envLineEvent, .plain .envModemEvent, .plain .envRxTimeout]

/-- The forms of the operations of a class, by opcode. -/
def formsOf : Nat → List Form
  | 1 => apiForms
  | 2 => rbForms
  | 3 => regForms
  | 4 => halForms
  | 5 => dspForms
  | 6 => hostForms
  | 7 => envForms
  | _ => []

/-- The form that a class and an opcode choose, if they choose one. -/
def formOf (c o : BitVec 4) : Option Form := (formsOf c.toNat)[o.toNat]?

/-! ### The decoder reads the table -/

section Decoder

variable (f : Fields)

theorem decodeApi_eq_read : decodeApi f = apiForms[f.op.toNat]?.bind (·.read f) := by
  unfold decodeApi
  match f.op.toNat with
  | 0 | 1 | 2 | 3 | 4 | 5 | 6 | 7 | _ + 8 => rfl

theorem decodeRb_eq_read : decodeRb f = rbForms[f.op.toNat]?.bind (·.read f) := by
  unfold decodeRb
  match f.op.toNat with
  | 0 | 1 | 2 | 3 | 4 | 5 | _ + 6 => rfl

theorem decodeReg_eq_read : decodeReg f = regForms[f.op.toNat]?.bind (·.read f) := by
  unfold decodeReg
  match f.op.toNat with
  | 0 | 1 | 2 | _ + 3 => rfl

theorem decodeHal_eq_read : decodeHal f = halForms[f.op.toNat]?.bind (·.read f) := by
  unfold decodeHal
  match f.op.toNat with
  | 0 | 1 | 2 | 3 | 4 | 5 | 6 | 7 | 8 | 9 | 10 | 11 | 12 | 13 | 14 | 15 | _ + 16 => rfl

theorem decodeDsp_eq_read : decodeDsp f = dspForms[f.op.toNat]?.bind (·.read f) := by
  unfold decodeDsp
  match f.op.toNat with
  | 0 | 1 | 2 | 3 | 4 | 5 | 6 | 7 | _ + 8 => rfl

theorem decodeHost_eq_read : decodeHost f = hostForms[f.op.toNat]?.bind (·.read f) := by
  unfold decodeHost
  match f.op.toNat with
  | 0 | 1 | 2 | 3 | 4 | 5 | 6 | 7 | _ + 8 => rfl

theorem decodeEnv_eq_read : decodeEnv f = envForms[f.op.toNat]?.bind (·.read f) := by
  unfold decodeEnv
  match f.op.toNat with
  | 0 | 1 | 2 | 3 | 4 | _ + 5 => rfl

end Decoder

/-- A word decodes to what its form reads from its fields, if its reserved bits are 0. -/
theorem decode_eq_read (w : Word) : decode w
    = if (fields w).rsv = 0#3 then (formOf (fields w).cls (fields w).op).bind (·.read (fields w)) else none := by
  unfold decode formOf
  dsimp only
  congr 1
  match (fields w).cls.toNat with
  | 1 => exact decodeApi_eq_read _
  | 2 => exact decodeRb_eq_read _
  | 3 => exact decodeReg_eq_read _
  | 4 => exact decodeHal_eq_read _
  | 5 => exact decodeDsp_eq_read _
  | 6 => exact decodeHost_eq_read _
  | 7 => exact decodeEnv_eq_read _
  | 0 | _ + 8 => rfl

theorem decode_eq_some {w : Word} {i : Instr} : decode w = some i ↔ (fields w).rsv = 0#3
    ∧ ∃ k, formOf (fields w).cls (fields w).op = some k ∧ k.read (fields w) = some i := by
  rw [decode_eq_read]
  split <;> simp_all [Option.bind_eq_some_iff]

/-! ### Decoding an encoded operation -/

/-- An assembled word decodes to what the form of its class and opcode reads. -/
theorem decode_assemble {c o : BitVec 4} {k : Form} (hk : formOf c o = some k) (sel : BitVec 4) (dir : BitVec 1)
    (imm : Half) : decode (assemble c o sel dir imm) = k.read ⟨c, o, sel, dir, 0#3, imm⟩ := by
  rw [decode_eq_read, assemble_eq_word, fields_word, if_pos rfl, hk, Option.bind_some]

section Assembled

variable {c o : BitVec 4}

theorem decode_plain {i : BitVec 4 → Instr} (hk : formOf c o = some (.plain i)) (p : BitVec 4) :
    decode (assemble c o p 0#1 0#16) = some (i p) := by
  rw [decode_assemble hk, Form.read, Fields.plain, if_pos ⟨rfl, rfl⟩]

theorem decode_onLine {i : BitVec 4 → Instr} (hk : formOf c o = some (.onLine i)) {l : BitVec 4}
    (hl : lineSelOk l = true) : decode (assemble c o l 0#1 0#16) = some (i l) := by
  rw [decode_assemble hk, Form.read, Fields.onLine, if_pos ⟨rfl, rfl, hl⟩]

theorem decode_onRing {i : BitVec 4 → Dir → Instr} (hk : formOf c o = some (.onRing i)) (p : BitVec 4) (d : Dir) :
    decode (assemble c o p d.bit 0#16) = some (i p d) := by
  rw [decode_assemble hk, Form.read, Fields.onRing, if_pos rfl, dirOf_bit]

theorem decode_onRingN {i : BitVec 4 → Dir → Half → Instr} (hk : formOf c o = some (.onRingN i)) (p : BitVec 4)
    (d : Dir) (n : Half) : decode (assemble c o p d.bit n) = some (i p d n) := by
  rw [decode_assemble hk, Form.read, Fields.onRingN, dirOf_bit]

theorem decode_onRingByte {i : BitVec 4 → Dir → Byte → Instr} (hk : formOf c o = some (.onRingByte i))
    (p : BitVec 4) (d : Dir) (b : Byte) : decode (assemble c o p d.bit (b.setWidth 16)) = some (i p d b) := by
  rw [decode_assemble hk, Form.read, Fields.onRingByte, if_pos (highByte_setWidth b), lowByte_setWidth, dirOf_bit]

theorem decode_onByte {i : BitVec 4 → Byte → Instr} (hk : formOf c o = some (.onByte i)) (p : BitVec 4) (b : Byte) :
    decode (assemble c o p 0#1 (b.setWidth 16)) = some (i p b) := by
  rw [decode_assemble hk, Form.read, Fields.onByte, if_pos ⟨rfl, highByte_setWidth b⟩, lowByte_setWidth]

theorem decode_onAddr {i : Half → Instr} (hk : formOf c o = some (.onAddr i)) (a : Half) :
    decode (assemble c o 0#4 0#1 a) = some (i a) := by
  rw [decode_assemble hk, Form.read, Fields.onAddr, if_pos ⟨rfl, rfl⟩]

end Assembled

/-- Settles O1: the word of each operation is one of its form, which reads the operands back. -/
theorem decodeOfEncode : Obligations.DecodeOfEncode := by
  intro i hwf
  cases i with
  | openPort p | configure p | send p | recv p | available p | close p | rxDropped p
  | regLookup p | regAlloc p | regFree p
  | halEnRx p | halEnTx p | halDisInt p | halCause p | halDrainRx p | halConfig p | halTxEmpty p | halDetect p
  | halInit p | halSnapshot p | halRestore p | halClrMs p | halClrLs p | halDisTx p
  | dspVisit p | dspOnModem p | dspOnLine p | dspOnTxEmpty p | dspOnRxReady p | dspOnRxTimeout p
  | envTxShift p | envLineEvent p | envModemEvent p | envRxTimeout p => exact decode_plain rfl p
  | halAckLine l | dspEnter l | dspExit l | hostInstall l | hostRestore l | hostMask l | hostUnmask l =>
    exact decode_onLine rfl hwf
  | clear p d | rbPop p d | rbAvail p d | rbClear p d => exact decode_onRing rfl p d
  | rbPushN p d n | rbPopN p d n => exact decode_onRingN rfl p d n
  | rbPush p d b => exact decode_onRingByte rfl p d b
  | halFillTx p b | envRxArrive p b => exact decode_onByte rfl p b
  | hostRd8 a | hostRd16 a | hostWr8 a | hostWr16 a => exact decode_onAddr rfl a

/-! ### Encoding a decoded word -/

/-- Each operation of the form is encoded under the class and the opcode with its operands where the form reads
them, and is well formed unless the form names a line and `sel` does not. -/
def Form.Encodes (c o : BitVec 4) : Form → Prop
  | .plain i => ∀ p, (i p).wellFormed = true ∧ encode (i p) = assemble c o p 0#1 0#16
  | .onLine i => ∀ l, (i l).wellFormed = lineSelOk l ∧ encode (i l) = assemble c o l 0#1 0#16
  | .onRing i => ∀ p d, (i p d).wellFormed = true ∧ encode (i p d) = assemble c o p d.bit 0#16
  | .onRingN i => ∀ p d n, (i p d n).wellFormed = true ∧ encode (i p d n) = assemble c o p d.bit n
  | .onRingByte i => ∀ p d b, (i p d b).wellFormed = true ∧ encode (i p d b) = assemble c o p d.bit (b.setWidth 16)
  | .onByte i => ∀ p b, (i p b).wellFormed = true ∧ encode (i p b) = assemble c o p 0#1 (b.setWidth 16)
  | .onAddr i => ∀ a, (i a).wellFormed = true ∧ encode (i a) = assemble c o 0#4 0#1 a

theorem formsOf_encodes (c : Nat) :
    ∀ x ∈ (formsOf c).zipIdx, x.1.Encodes (BitVec.ofNat 4 c) (BitVec.ofNat 4 x.2) := by
  match c with
  | 1 | 2 | 3 | 4 | 5 | 6 | 7 =>
    simp only [formsOf, apiForms, rbForms, regForms, halForms, dspForms, hostForms, envForms, List.zipIdx,
      List.forall_mem_cons, List.not_mem_nil, IsEmpty.forall_iff, implies_true, and_true, Form.Encodes]
    repeat' apply And.intro
    all_goals intros
    all_goals exact ⟨rfl, rfl⟩
  | 0 | _ + 8 => nofun

theorem formOf_encodes {c o : BitVec 4} {k : Form} (hk : formOf c o = some k) : k.Encodes c o := by
  have h := formsOf_encodes c.toNat (k, o.toNat) (List.mem_zipIdx_iff_getElem?.2 hk)
  rwa [BitVec.ofNat_toNat, BitVec.setWidth_eq, BitVec.ofNat_toNat, BitVec.setWidth_eq] at h

/-- What a form reads from the fields of its operations is well formed and encoded by those fields. -/
theorem Form.Encodes.of_read {k : Form} {f : Fields} {i : Instr} (h : k.Encodes f.cls f.op) (hr : f.rsv = 0#3)
    (hi : k.read f = some i) : i.wellFormed = true ∧ encode i = f.word := by
  rw [word_eq_assemble hr]
  cases k with
  | plain i | onAddr i =>
    obtain ⟨⟨hfst, hsnd⟩, ⟨⟩⟩ := Option.ite_none_right_eq_some.1 hi
    rw [hfst, hsnd]; exact h _
  | onLine i =>
    obtain ⟨⟨hdir, himm, hline⟩, ⟨⟩⟩ := Option.ite_none_right_eq_some.1 hi
    obtain ⟨hwf, henc⟩ := h f.sel
    rw [hdir, himm]; exact ⟨hwf.trans hline, henc⟩
  | onRing i =>
    obtain ⟨himm, ⟨⟩⟩ := Option.ite_none_right_eq_some.1 hi
    simpa only [himm, Machine.bit_dirOf] using h f.sel (dirOf f.dir)
  | onRingN i =>
    obtain ⟨⟩ := hi
    simpa only [Machine.bit_dirOf] using h f.sel (dirOf f.dir) f.imm
  | onRingByte i =>
    obtain ⟨hbyte, ⟨⟩⟩ := Option.ite_none_right_eq_some.1 hi
    simpa only [Machine.bit_dirOf, setWidth_lowByte hbyte] using h f.sel (dirOf f.dir) (f.imm.extractLsb' 0 8)
  | onByte i =>
    obtain ⟨⟨hdir, hbyte⟩, ⟨⟩⟩ := Option.ite_none_right_eq_some.1 hi
    simpa only [hdir, setWidth_lowByte hbyte] using h f.sel (f.imm.extractLsb' 0 8)

/-- Settles O2: a legal word is read by its form, and `Form.Encodes.of_read` puts it together again. -/
theorem encodeOfDecode : Obligations.EncodeOfDecode := by
  intro w i hd
  obtain ⟨hr, k, hk, hi⟩ := decode_eq_some.1 hd
  simpa only [word_fields] using (formOf_encodes hk).of_read hr hi

/-! ### The opcode table holds the rows of the forms -/

/-- The bits of `sel`, `dir` and `imm` that the form does not use, which must be 0 (spec/30_encoding.md R107). -/
def Form.unused : Form → BitVec 4 × BitVec 1 × Half
  | .plain _ | .onLine _ => (0#4, .allOnes 1, .allOnes 16)
  | .onRing _ => (0#4, 0#1, .allOnes 16)
  | .onRingN _ => (0#4, 0#1, 0#16)
  | .onRingByte _ => (0#4, 0#1, highByte)
  | .onByte _ => (0#4, .allOnes 1, highByte)
  | .onAddr _ => (.allOnes 4, .allOnes 1, 0#16)

/-- `sel` is a line identifier (spec/30_encoding.md R102). -/
def Form.namesLine : Form → Bool
  | .onLine _ => true
  | _ => false

/-- The row of the opcode table for an operation of the form. -/
def Form.row (k : Form) (c o : BitVec 4) : Machine.OpRow :=
  { mask := Fields.word ⟨.allOnes 4, .allOnes 4, k.unused.1, k.unused.2.1, .allOnes 3, k.unused.2.2⟩
    value := assemble c o 0#4 0#1 0#16
    onLine := k.namesLine }

/-- A form reads the fields whose unused bits are 0 and whose line identifier, if they hold one, names a line. -/
theorem Form.reads_iff {k : Form} {f : Fields} : (∃ i, k.read f = some i)
    ↔ (f.sel &&& k.unused.1 = 0#4 ∧ f.dir &&& k.unused.2.1 = 0#1 ∧ f.imm &&& k.unused.2.2 = 0#16)
      ∧ (k.namesLine = true → lineSelOk f.sel = true) := by
  cases k <;> simp [-BitVec.reduceAllOnes, read, unused, namesLine, Fields.plain, Fields.onLine, Fields.onRing,
    Fields.onRingN, Fields.onRingByte, Fields.onByte, Fields.onAddr, and_highByte, and_assoc]

/-- A word is of the row exactly when it has the row's class and opcode and the form reads its fields. -/
theorem row_legal_iff {k : Form} {c o : BitVec 4} {w : Word} : (k.row c o).legal w = true
    ↔ (fields w).cls = c ∧ (fields w).op = o ∧ (fields w).rsv = 0#3 ∧ ∃ i, k.read (fields w) = some i := by
  have hline : (!k.namesLine || (w.extractLsb' 20 4).toNat < 3) = true
      ↔ (k.namesLine = true → lineSelOk (fields w).sel = true) := by
    change _ ↔ (_ → decide ((w.extractLsb' 20 4).toNat < 3) = true)
    cases k.namesLine <;> simp
  simp only [Machine.OpRow.legal, Form.row, assemble_eq_word, ← fields_inj, fields_and, fields_word, Fields.mk.injEq,
    BitVec.and_allOnes, Bool.and_eq_true, decide_eq_true_eq, hline, Form.reads_iff]
  exact ⟨fun ⟨⟨hc, ho, hsel, hdir, hr, himm⟩, hl⟩ => ⟨hc, ho, hr, ⟨hsel, hdir, himm⟩, hl⟩,
    fun ⟨hc, ho, hr, ⟨hsel, hdir, himm⟩, hl⟩ => ⟨⟨hc, ho, hsel, hdir, hr, himm⟩, hl⟩⟩

/-- The opcode table of R94 to R100 is the table of the forms, row by row. -/
theorem opTable_eq_rows : Machine.opTable = (List.finRange 16).flatMap fun c => (List.finRange 16).filterMap fun o =>
    (formOf (.ofFin c) (.ofFin o)).map (·.row (.ofFin c) (.ofFin o)) := by
  decide

theorem mem_opTable {r : Machine.OpRow} :
    r ∈ Machine.opTable ↔ ∃ c o k, formOf c o = some k ∧ k.row c o = r := by
  simp only [opTable_eq_rows, List.mem_flatMap, List.mem_filterMap, List.mem_finRange, true_and,
    Option.map_eq_some_iff]
  exact ⟨fun ⟨c, o, k, h⟩ => ⟨_, _, k, h⟩, fun ⟨c, o, k, h⟩ => ⟨c.toFin, o.toFin, k, h⟩⟩

/-- A word decodes exactly when it is of a row. -/
theorem decodes_iff_legal {w : Word} : (∃ i, decode w = some i) ↔ ∃ r ∈ Machine.opTable, r.legal w = true := by
  simp only [decode_eq_some, mem_opTable]
  constructor
  · rintro ⟨i, hr, k, hk, hi⟩
    exact ⟨_, ⟨_, _, k, hk, rfl⟩, row_legal_iff.2 ⟨rfl, rfl, hr, i, hi⟩⟩
  · rintro ⟨_, ⟨c, o, k, hk, rfl⟩, hl⟩
    obtain ⟨rfl, rfl, hr, i, hi⟩ := row_legal_iff.1 hl
    exact ⟨i, hr, k, hk, hi⟩

/-- A word is illegal exactly when it is of no row (spec/30_encoding.md R107). -/
theorem decode_eq_none {w : Word} : decode w = none ↔ ∀ r ∈ Machine.opTable, r.legal w = false := by
  rw [Option.eq_none_iff_forall_ne_some, ← not_exists, decodes_iff_legal]
  simp only [not_exists, not_and, Bool.not_eq_true]

/-- Settles O4: the legal words are the encodings of their operations, the others are of no row. -/
theorem specWordsDecode : Obligations.SpecWordsDecode :=
  ⟨decodeOfEncode (.openPort 0#4) rfl, decodeOfEncode (.clear 0#4 .tx) rfl,
    decodeOfEncode (.rbPush 0#4 .tx 0x41#8) rfl, decodeOfEncode (.rbPushN 0#4 .tx 3#16) rfl,
    decodeOfEncode (.regLookup 5#4) rfl, decodeOfEncode (.halFillTx 0#4 16#8) rfl, decodeOfEncode (.halDisTx 2#4) rfl,
    decodeOfEncode (.dspExit 1#4) rfl, decodeOfEncode (.hostRd16 0xFF12#16) rfl, decodeOfEncode (.hostInstall 0#4) rfl,
    decodeOfEncode (.envRxArrive 3#4 0x55#8) rfl, decode_eq_none.2 (by decide), decode_eq_none.2 (by decide)⟩

end Sys2Proof

namespace Sys2Proof.Machine

open Sys2Proof

/-! ### An illegal word is refused -/

theorem writeCmd_illegal {w : Word} (hd : decode w = none) (s : State) : writeCmd w s = .refused .illegalWord := by
  simp only [writeCmd, hd]

theorem step_issue_illegal {w : Word} (hd : decode w = none) {s : State} (hwf : s.cfg.wf = true) :
    step (s.issue w) = .refused .illegalWord :=
  step_of_settled (s := s.issue w) hwf (by simp only [nextTodo, issue_moves, issueWord, hd])

/-- Settles O3: the rows by `decode_eq_none`, the refusals by the definitions of the two issues. -/
theorem illegalWordsAreTheOthers : Obligations.IllegalWordsAreTheOthers := fun _ =>
  ⟨decode_eq_none, fun hd s => ⟨writeCmd_illegal hd s, step_issue_illegal hd⟩⟩

/-! ### A micro-operation on no slot or no line -/

section Missing

variable {α : Type} {p : BitVec 4}

theorem onSlot_missing_returning (hp : 4 ≤ p.toNat) (f : Slot → Res α) (g : α → Ret) :
    (onSlot p f).returning g = .refused .noSuchSlot := by rw [onSlot_missing hp]; rfl

theorem onSlot_missing_outcome (hp : 4 ≤ p.toNat) (f : Slot → Res Unit) :
    (onSlot p f).outcome = .refused .noSuchSlot := by rw [onSlot_missing hp]; rfl

theorem onLine_missing (hp : 3 ≤ p.toNat) (f : Line → Res α) : onLine p f = .refuse .noSuchLine := by
  simp only [onLine, lineOfSel_eq_none.2 hp]

theorem onLine_missing_returning (hp : 3 ≤ p.toNat) (f : Line → Res α) (g : α → Ret) :
    (onLine p f).returning g = .refused .noSuchLine := by rw [onLine_missing hp]; rfl

theorem onLine_missing_outcome (hp : 3 ≤ p.toNat) (f : Line → Res Unit) :
    (onLine p f).outcome = .refused .noSuchLine := by rw [onLine_missing hp]; rfl

end Missing

theorem exec_regLookup_missing {p : BitVec 4} (hp : 4 ≤ p.toNat) (s : State) :
    exec (.regLookup p) s = .next { s with ret := .lookup .invalid } := by
  have hlookup : regLookup p s = .invalid := by simp only [regLookup, slotOfSel_eq_none.2 hp]
  simp only [exec, execRegLookup, hlookup, Res.returning]

/-- Settles O17: each of the operations starts by finding the slot or the line it is on. In the lists, the operations
that answer (classes 2, 3, 4 and 6) and those that do not (classes 5 and 7) stand together. -/
theorem microOpsNeedASlot : Obligations.MicroOpsNeedASlot := by
  intro s p d b m n
  refine ⟨fun hp => ⟨exec_regLookup_missing hp s, ?slots⟩, fun hp => ?lines⟩
  case slots =>
    iterate 23 refine List.forall_mem_cons.2 ⟨onSlot_missing_returning hp _ _, ?_⟩
    iterate 11 refine List.forall_mem_cons.2 ⟨onSlot_missing_outcome hp _, ?_⟩
    exact List.forall_mem_nil _
  case lines =>
    refine List.forall_mem_cons.2 ⟨onLine_missing_returning hp _ _, ?_⟩
    iterate 2 refine List.forall_mem_cons.2 ⟨onLine_missing_outcome hp _, ?_⟩
    iterate 4 refine List.forall_mem_cons.2 ⟨onLine_missing_returning hp _ _, ?_⟩
    exact List.forall_mem_nil _

end Sys2Proof.Machine

/-! ## The ring buffer as a queue

The rules of the ring as a data structure, the result of each ring operation on a ring that the issuing condition
allows, and the statements of spec/41_ring_buffer.md. -/

namespace Sys2Proof.Machine

open Sys2Proof

/-! ### The parts of the ring invariant -/

section Invariant

variable {rb : RingBuffer} (h : rb.ok = true)
include h

theorem RingBuffer.capacity_pos : 0 < rb.capacity.toNat := by
  obtain ⟨hcap, -⟩ := RingBuffer.ok_iff.1 h; exact hcap

theorem RingBuffer.count_le : rb.count.toNat ≤ rb.capacity.toNat := by
  obtain ⟨-, hcount, -⟩ := RingBuffer.ok_iff.1 h; exact hcount

theorem RingBuffer.head_lt : rb.head.toNat < rb.capacity.toNat := by
  obtain ⟨-, -, hhead, -⟩ := RingBuffer.ok_iff.1 h; exact hhead

theorem RingBuffer.tail_lt : rb.tail.toNat < rb.capacity.toNat := by
  obtain ⟨-, -, -, htail, -⟩ := RingBuffer.ok_iff.1 h; exact htail

theorem RingBuffer.storage_wf : cellsWf 0 rb.capacity.toNat rb.storage = true := by
  obtain ⟨-, -, -, -, -, hwf⟩ := RingBuffer.ok_iff.1 h; exact hwf

end Invariant

/-! ### Queueing bytes -/

section PutAll

variable {rb : RingBuffer} {bs : List Byte}

@[simp] theorem RingBuffer.putAll_capacity (rb : RingBuffer) (bs : List Byte) :
    (rb.putAll bs).capacity = rb.capacity := rfl

theorem RingBuffer.putAll_head (h : rb.ok = true) :
    (rb.putAll bs).head.toNat = (rb.head.toNat + bs.length) % rb.capacity.toNat :=
  half_mod (RingBuffer.capacity_pos h)

theorem RingBuffer.putAll_count (h : rb.ok = true) (hb : bs.length ≤ rb.room) :
    (rb.putAll bs).count.toNat = rb.count.toNat + bs.length := by
  have hcount := count_le h
  have hcap := rb.capacity.isLt
  unfold RingBuffer.room at hb
  rw [RingBuffer.putAll, BitVec.toNat_ofNat, Nat.mod_eq_of_lt (by omega)]

theorem RingBuffer.putAll_room (h : rb.ok = true) (hb : bs.length ≤ rb.room) :
    (rb.putAll bs).room = rb.room - bs.length := by
  rw [RingBuffer.room, RingBuffer.room, putAll_count h hb, putAll_capacity, Nat.sub_sub]

/-- A legal ring that is not full has room for a byte. -/
theorem RingBuffer.room_pos (h : rb.ok = true) (hne : rb.count ≠ rb.capacity) : 0 < rb.room := by
  exact Nat.sub_pos_of_lt (Nat.lt_of_le_of_ne (count_le h) fun he => hne (BitVec.eq_of_toNat_eq he))

/-- An index below the capacity comes back from the end of storage as it was. -/
theorem ofNat_toNat_mod {i c : Half} (h : i.toNat < c.toNat) : BitVec.ofNat 16 (i.toNat % c.toNat) = i := by
  rw [Nat.mod_eq_of_lt h, BitVec.ofNat_toNat, BitVec.setWidth_eq]

theorem RingBuffer.putAll_nil (h : rb.ok = true) : rb.putAll [] = rb := by
  simp [RingBuffer.putAll, RingBuffer.step, cellsWriteList, ofNat_toNat_mod (head_lt h)]

/-- Different bytes of a run stand at different indices of storage. -/
theorem ringIndex_inj {c h j k : Nat} (hj : j < c) (hk : k < c) (e : (h + j) % c = (h + k) % c) : j = k :=
  (Nat.ModEq.add_left_cancel' h e).eq_of_lt_of_lt hj hk

/-- Storage is the same after two runs of bytes as after the one run of both. -/
theorem RingBuffer.putAll_putAll_read (h : rb.ok = true) {as : List Byte} (hab : as.length + bs.length ≤ rb.room)
    (i : Nat) :
    cellsRead ((rb.putAll as).putAll bs).storage i = cellsRead (rb.putAll (as ++ bs)).storage i := by
  have hcap : rb.room ≤ rb.capacity.toNat := Nat.sub_le _ _
  have ha : as.length ≤ rb.room := by omega
  obtain ⟨hin, hout⟩ := putAll_read h ha
  obtain ⟨hin₂, hout₂⟩ := putAll_read (putAll_ok h ha) (bs := bs) (by rw [putAll_room h ha]; omega)
  obtain ⟨hinB, houtB⟩ := putAll_read h (bs := as ++ bs) (by rwa [List.length_append])
  simp only [putAll_capacity, putAll_head h, Nat.mod_add_mod, Nat.add_assoc] at hin₂ hout₂
  rw [List.length_append] at hinB houtB
  by_cases hi : ∃ j < as.length + bs.length, i = (rb.head.toNat + j) % rb.capacity.toNat
  · obtain ⟨j, hj, rfl⟩ := hi
    rw [hinB j hj]
    rcases Nat.lt_or_ge j as.length with hfst | hsnd
    · rw [hout₂ _ fun k hk e => by have := ringIndex_inj (by omega) (by omega) e; omega, hin j hfst,
        List.getElem?_append_left hfst]
    · obtain ⟨k, rfl⟩ := Nat.exists_eq_add_of_le hsnd
      rw [hin₂ k (by omega), List.getElem?_append_right hsnd, Nat.add_sub_cancel_left]
  · have hne (j) (hj : j < as.length + bs.length) : i ≠ (rb.head.toNat + j) % rb.capacity.toNat :=
      fun e => hi ⟨j, hj, e⟩
    rw [hout₂ i fun k hk => hne _ (by omega), hout i fun k hk => hne _ (by omega), houtB i hne]

/-- Two runs of bytes, one after the other, are one run of both, wherever they wrap. -/
theorem RingBuffer.putAll_putAll (h : rb.ok = true) {as : List Byte} (hab : as.length + bs.length ≤ rb.room) :
    (rb.putAll as).putAll bs = rb.putAll (as ++ bs) := by
  have ha : as.length ≤ rb.room := by omega
  have hb : bs.length ≤ (rb.putAll as).room := by rw [putAll_room h ha]; omega
  have hab' : (as ++ bs).length ≤ rb.room := by rwa [List.length_append]
  have hstorage : ((rb.putAll as).putAll bs).storage = (rb.putAll (as ++ bs)).storage :=
    cells_ext (storage_wf (putAll_ok (putAll_ok h ha) hb)) (storage_wf (putAll_ok h hab')) (putAll_putAll_read h hab)
  have hhead : ((rb.putAll as).putAll bs).head = (rb.putAll (as ++ bs)).head := by
    apply BitVec.eq_of_toNat_eq
    rw [putAll_head (putAll_ok h ha), putAll_head h, putAll_head h, putAll_capacity, Nat.mod_add_mod,
      List.length_append, Nat.add_assoc]
  have hcount : ((rb.putAll as).putAll bs).count = (rb.putAll (as ++ bs)).count := by
    apply BitVec.eq_of_toNat_eq
    rw [putAll_count (putAll_ok h ha) hb, putAll_count h ha, putAll_count h hab', List.length_append, Nat.add_assoc]
  unfold RingBuffer.putAll at hstorage hhead hcount ⊢
  rw [RingBuffer.mk.injEq]
  exact ⟨rfl, hstorage, hhead, rfl, hcount⟩

end PutAll

/-! ### Removing bytes -/

section Drop

variable {rb : RingBuffer} {n m : Nat}

theorem RingBuffer.drop_zero (h : rb.ok = true) : rb.drop 0 = rb := by
  simp [RingBuffer.drop, RingBuffer.step, ofNat_toNat_mod (tail_lt h)]

/-- The count that is left, as a subtraction of words. -/
theorem ofNat_sub_eq {c k : Half} (hk : k.toNat ≤ c.toNat) : BitVec.ofNat 16 (c.toNat - k.toNat) = c - k := by
  apply BitVec.eq_of_toNat_eq
  rw [BitVec.toNat_sub_of_le hk, BitVec.toNat_ofNat]
  have := c.isLt
  omega

theorem RingBuffer.drop_count (rb : RingBuffer) (n : Nat) : (rb.drop n).count.toNat = rb.count.toNat - n := by
  have := rb.count.isLt
  rw [RingBuffer.drop, BitVec.toNat_ofNat]
  omega

theorem RingBuffer.drop_tail (h : rb.ok = true) : (rb.drop n).tail.toNat = rb.indexOf n :=
  half_mod (RingBuffer.capacity_pos h)

theorem RingBuffer.drop_drop (h : rb.ok = true) : (rb.drop n).drop m = rb.drop (n + m) := by
  have htail : (rb.drop n).step (rb.drop n).tail m = rb.step rb.tail (n + m) := by
    rw [RingBuffer.step, drop_tail h, RingBuffer.indexOf, RingBuffer.step, ← Nat.add_assoc]
    exact congrArg _ (Nat.mod_add_mod _ _ _)
  rw [RingBuffer.drop, htail, drop_count, Nat.sub_sub, RingBuffer.drop]
  rfl

theorem RingBuffer.drop_indexOf (h : rb.ok = true) (i : Nat) : (rb.drop n).indexOf i = rb.indexOf (n + i) := by
  rw [RingBuffer.indexOf, drop_tail h, RingBuffer.indexOf, RingBuffer.indexOf, ← Nat.add_assoc]
  exact Nat.mod_add_mod _ _ _

/-- The byte at `tail` is the oldest. -/
theorem RingBuffer.indexOf_zero (h : rb.ok = true) : rb.indexOf 0 = rb.tail.toNat :=
  Nat.mod_eq_of_lt (RingBuffer.tail_lt h)

/-- A ring that is not empty holds the byte at `tail` and then what is left without it. -/
theorem RingBuffer.queued_eq_cons (h : rb.ok = true) (hpos : 1 ≤ rb.count.toNat) :
    rb.queued = cellsRead rb.storage rb.tail.toNat :: (rb.drop 1).queued := by
  have hlen : 0 < rb.queued.length := by rwa [queued_length]
  calc rb.queued = rb.queued[0] :: rb.queued.drop 1 := by rw [List.getElem_cons_drop, List.drop_zero]
    _ = _ := by rw [queued_drop h hpos, ← indexOf_zero h]; simp only [queued, List.getElem_map, List.getElem_range]

theorem one_le_toNat {c : Half} (h : c ≠ 0#16) : 1 ≤ c.toNat :=
  Nat.one_le_iff_ne_zero.2 fun h0 => h (BitVec.eq_of_toNat_eq h0)

end Drop

/-! ### The oldest bytes -/

section Oldest

/-- The `n` oldest bytes of a ring, in order, with a draw for each that nothing has written
(spec/10_state.md R25, R26, log entry 13). -/
def RingBuffer.oldest (rb : RingBuffer) (n : Nat) (s : State) : List Byte × State :=
  storageBytes rb ((List.range n).map rb.indexOf) s

variable {rb : RingBuffer} {n : Nat} {s : State}

/-- The two segments of a bulk pop are the oldest bytes (spec/41_ring_buffer.md R128). -/
theorem storageBytes_popIndex (h : rb.ok = true) (hn : n ≤ rb.count.toNat) :
    storageBytes rb ((List.range n).map (rb.popIndex n)) s = rb.oldest n s := by
  have hindex : ∀ j ∈ List.range n, rb.popIndex n j = rb.indexOf j := fun j hj =>
    RingBuffer.popIndex_eq h hn (List.mem_range.1 hj)
  rw [List.map_congr_left hindex, RingBuffer.oldest]

theorem RingBuffer.oldest_frame (rb : RingBuffer) (n : Nat) (s : State) :
    (rb.oldest n s).2 = { s with draws := (rb.oldest n s).2.draws, drawn := (rb.oldest n s).2.drawn } :=
  storageBytes_frame _ _ _

@[simp] theorem RingBuffer.oldest_length (rb : RingBuffer) (n : Nat) (s : State) :
    (rb.oldest n s).1.length = n := by simp [RingBuffer.oldest]

/-- A written byte is among the oldest as it stands; in the place of an unwritten one is some byte. -/
theorem RingBuffer.oldest_getElem? (rb : RingBuffer) (s : State) {j : Nat} (hj : j < n) :
    ∃ b, (rb.oldest n s).1[j]? = some b ∧ ∀ v, cellsRead rb.storage (rb.indexOf j) = some v → b = v :=
  storageBytes_getElem? _ _ _ (by rw [List.getElem?_map, List.getElem?_range hj]; rfl)

/-- Where every byte has been written, no draw is taken. -/
theorem RingBuffer.oldest_written
    (h : ∀ j < n, (cellsRead rb.storage (rb.indexOf j)).isSome = true) : (rb.oldest n s).2 = s := by
  refine storageBytes_written _ _ _ fun i hi => ?_
  obtain ⟨j, hj, rfl⟩ := List.mem_map.1 hi
  exact Option.isSome_iff_ne_none.1 (h j (List.mem_range.1 hj))

theorem storageByte_unwritten {i : Nat} (h : cellsRead rb.storage i = none) (s : State) :
    storageByte rb i s = (s.drawValue.setWidth 8, s.drawn1) := by simp only [storageByte, h]

theorem storageByte_setSlot (rb : RingBuffer) (i : Nat) (s : State) (q : Slot) (v : Option PortState) :
    storageByte rb i (s.setSlot q v) = ((storageByte rb i s).1, (storageByte rb i s).2.setSlot q v) := by
  unfold storageByte
  cases cellsRead rb.storage i with
  | some b => rfl
  | none =>
    simp only [State.drawValue, State.drawn1, setSlot_draws]
    cases s.draws <;> rfl

/-- Reading the bytes of storage looks at no slot. -/
theorem storageBytes_setSlot (rb : RingBuffer) (is : List Nat) (s : State) (q : Slot) (v : Option PortState) :
    storageBytes rb is (s.setSlot q v) = ((storageBytes rb is s).1, (storageBytes rb is s).2.setSlot q v) := by
  induction is generalizing s with
  | nil => rfl
  | cons i is ih => simp only [storageBytes, storageByte_setSlot, ih]

theorem storageBytes_congr {r r' : RingBuffer} (h : r.storage = r'.storage) (is : List Nat) (s : State) :
    storageBytes r is s = storageBytes r' is s := by
  induction is generalizing s with
  | nil => rfl
  | cons i is ih => simp only [storageBytes, storageByte, h, ih]

theorem RingBuffer.oldest_setSlot (rb : RingBuffer) (n : Nat) (s : State) (q : Slot) (v : Option PortState) :
    rb.oldest n (s.setSlot q v) = ((rb.oldest n s).1, (rb.oldest n s).2.setSlot q v) :=
  storageBytes_setSlot _ _ _ _ _

/-- The oldest bytes are the one at `tail` and the oldest of what is left without it. -/
theorem RingBuffer.oldest_succ (h : rb.ok = true) (n : Nat) (s : State) :
    rb.oldest (n + 1) s =
      ((storageByte rb rb.tail.toNat s).1 :: ((rb.drop 1).oldest n (storageByte rb rb.tail.toNat s).2).1,
        ((rb.drop 1).oldest n (storageByte rb rb.tail.toNat s).2).2) := by
  have hindex : rb.indexOf ∘ Nat.succ = (rb.drop 1).indexOf :=
    funext fun i => by rw [drop_indexOf h, Function.comp_apply, Nat.succ_eq_one_add]
  rw [RingBuffer.oldest, List.range_succ_eq_map, List.map_cons, List.map_map, hindex, indexOf_zero h, storageBytes,
    RingBuffer.oldest, storageBytes_congr (r := rb.drop 1) (r' := rb) rfl]

end Oldest

/-! ### Operands and results of the operations -/

/-- Each byte of the source has been written, so the run can be read. -/
theorem cellsReadList_of_written {m : List Host.Cell} {a n : Nat}
    (h : ∀ j < n, (cellsRead m (a + j)).isSome = true) : ∃ bs, cellsReadList m a n = some bs := by
  induction n generalizing a with
  | zero => exact ⟨[], rfl⟩
  | succ n ih =>
    obtain ⟨b, hb⟩ : ∃ b, cellsRead m a = some b := Option.isSome_iff_exists.1 (h 0 (Nat.succ_pos n))
    obtain ⟨bs, hbs⟩ := ih (a := a + 1) fun j hj => by
      rw [Nat.add_right_comm]; exact h (j + 1) (Nat.succ_lt_succ hj)
    exact ⟨b :: bs, by simp only [cellsReadList, hb, hbs]⟩

theorem bufferInside_or {cfg : Config} {a n : Nat} (h : n = 0 ∨ a + n ≤ 2 ^ cfg.haddrBits) :
    n = 0 ∨ bufferInside cfg a n = true :=
  (Nat.eq_zero_or_pos n).imp_right fun hpos =>
    bufferInside_of_fits hpos (h.resolve_left hpos.ne')

theorem get_setSlot (s : State) (q : Slot) (v : Option PortState) : (s.setSlot q v).slots.get q = v :=
  PerSlot.get_set_same _ _ _

theorem setSlot_same {s : State} {q : Slot} {v : Option PortState} (h : s.slots.get q = v) : s.setSlot q v = s := by
  rw [State.setSlot, ← h, PerSlot.set_get]

theorem setSlot_setSlot (s : State) (q : Slot) (v w : Option PortState) :
    (s.setSlot q v).setSlot q w = s.setSlot q w := by
  simp only [State.setSlot, PerSlot.set_set]

/-! ### The operations on a ring that the issuing condition allows -/

section Owned

variable {s : State} {q : Slot} {d : Dir} {b : Byte} {ps : PortState} {n a : Nat}
  (hp : s.slots.get q = some ps) (ho : s.ringOwned q = true)
include hp ho

theorem ringPush_full (hfull : (ps.ring d).count = (ps.ring d).capacity) : ringPush q d b s = .ok false s :=
  ringPush_eq_ok.2 ⟨ps, hp, ho, .inl ⟨hfull, rfl, rfl⟩⟩

theorem ringPush_takes (hroom : (ps.ring d).count ≠ (ps.ring d).capacity) :
    ringPush q d b s = .ok true (s.setSlot q (some (ps.setRing d ((ps.ring d).putAll [b])))) :=
  ringPush_eq_ok.2 ⟨ps, hp, ho, .inr ⟨hroom, rfl, rfl⟩⟩

theorem ringPop_empty (hempty : (ps.ring d).count = 0#16) : ringPop q d s = .ok none s :=
  ringPop_eq_ok.2 ⟨ps, hp, ho, .inl ⟨hempty, rfl, rfl⟩⟩

theorem ringPop_takes (hne : (ps.ring d).count ≠ 0#16) :
    ringPop q d s = .ok (some (storageByte (ps.ring d) (ps.ring d).tail.toNat s).1)
      ((storageByte (ps.ring d) (ps.ring d).tail.toNat s).2.setSlot q
        (some (ps.setRing d ((ps.ring d).drop 1)))) :=
  ringPop_eq_ok.2 ⟨ps, hp, ho, .inr ⟨hne, rfl, rfl⟩⟩

theorem ringPushN_takes {bs : List Byte} (hn : n ≤ (ps.ring d).room) (hin : n = 0 ∨ a + n ≤ 2 ^ s.cfg.haddrBits)
    (hr : cellsReadList s.hbuf a n = some bs) :
    ringPushN q d n a s = .ok () (s.setSlot q (some (ps.setRing d ((ps.ring d).putAll bs)))) :=
  ringPushN_eq_ok.2 ⟨ps, bs, hp, ho, hn, bufferInside_or hin, hr, rfl⟩

theorem ringPopN_takes (hok : (ps.ring d).ok = true) (hn : n ≤ (ps.ring d).count.toNat)
    (hin : n = 0 ∨ a + n ≤ 2 ^ s.cfg.haddrBits) :
    ringPopN q d n a s = .ok ()
      ((((ps.ring d).oldest n s).2.setHbuf (cellsWriteList s.hbuf a ((ps.ring d).oldest n s).1)).setSlot q
        (some (ps.setRing d ((ps.ring d).drop n)))) := by
  rw [← storageBytes_popIndex hok hn]
  exact ringPopN_eq_ok.2 ⟨ps, hp, ho, hn, bufferInside_or hin, rfl⟩

end Owned

/-! ### The sequences of pushes and pops -/

section Fifo

/-- The ring of slot `q` towards `d` is `rb`, the issuing condition allows its mutators, it meets the invariant, and
each byte it holds has been written (spec/41_ring_buffer.md R121, spec/10_state.md R25). -/
structure FifoRing (q : Slot) (d : Dir) (rb : RingBuffer) (s : State) : Prop where
  port : ∃ ps, s.slots.get q = some ps ∧ ps.ring d = rb
  owned : s.ringOwned q = true
  ok : rb.ok = true
  written : ∀ x ∈ rb.queued, x.isSome = true

variable {q : Slot} {d : Dir} {rb : RingBuffer} {s : State}

/-- A push that is taken appends its byte; one that is not changes nothing (spec/41_ring_buffer.md R120). -/
theorem FifoRing.push (h : FifoRing q d rb s) (b : Byte) :
    ∃ taken t rb', ringPush q d b s = .ok taken t ∧ FifoRing q d rb' t ∧ rb'.capacity = rb.capacity
      ∧ rb'.queued = rb.queued ++ (if taken then [some b] else []) := by
  obtain ⟨⟨ps, hp, rfl⟩, ho, hok, hw⟩ := h
  by_cases hfull : (ps.ring d).count = (ps.ring d).capacity
  · exact ⟨false, s, ps.ring d, ringPush_full hp ho hfull, ⟨⟨ps, hp, rfl⟩, ho, hok, hw⟩, rfl,
      (List.append_nil _).symm⟩
  · have hroom : [b].length ≤ (ps.ring d).room := RingBuffer.room_pos hok hfull
    have hqueued := RingBuffer.queued_putAll hok hroom
    refine ⟨true, _, (ps.ring d).putAll [b], ringPush_takes hp ho hfull, ⟨⟨_, get_setSlot _ _ _,
      ring_setRing_same _ _ _⟩, ho, RingBuffer.putAll_ok hok hroom, fun x hx => ?_⟩, rfl, hqueued⟩
    rcases List.mem_append.1 (hqueued ▸ hx) with hold | hnew
    · exact hw x hold
    · obtain ⟨_, -, rfl⟩ := List.mem_map.1 hnew; rfl

/-- A pop takes the oldest byte, if there is one (spec/41_ring_buffer.md R122). -/
theorem FifoRing.pop (h : FifoRing q d rb s) :
    ∃ x t rb', ringPop q d s = .ok x t ∧ FifoRing q d rb' t ∧ rb'.capacity = rb.capacity
      ∧ rb.queued = x.toList.map some ++ rb'.queued := by
  obtain ⟨⟨ps, hp, rfl⟩, ho, hok, hw⟩ := h
  by_cases hempty : (ps.ring d).count = 0#16
  · exact ⟨none, s, ps.ring d, ringPop_empty hp ho hempty, ⟨⟨ps, hp, rfl⟩, ho, hok, hw⟩, rfl, rfl⟩
  · have hcons := RingBuffer.queued_eq_cons hok (one_le_toNat hempty)
    rw [hcons, List.forall_mem_cons] at hw
    obtain ⟨hbyte, hrest⟩ := hw
    obtain ⟨b, hb⟩ := Option.isSome_iff_exists.1 hbyte
    have hpop := ringPop_takes hp ho hempty
    rw [storageByte_written hb] at hpop
    exact ⟨some b, _, (ps.ring d).drop 1, hpop, ⟨⟨_, get_setSlot _ _ _, ring_setRing_same _ _ _⟩, ho,
      RingBuffer.drop_ok hok (one_le_toNat hempty), hrest⟩, rfl, hcons.trans (by rw [hb]; rfl)⟩

/-- What was queued and then pushed is what was popped and is queued now, in the same order
(spec/41_ring_buffer.md R123). -/
theorem FifoRing.run (ops : List RingOp) (h : FifoRing q d rb s) :
    ∃ pushed popped t rb', runRing q d ops s = .ok (pushed, popped) t ∧ FifoRing q d rb' t
      ∧ rb'.capacity = rb.capacity ∧ rb.queued ++ pushed.map some = popped.map some ++ rb'.queued := by
  induction ops generalizing rb s with
  | nil => exact ⟨[], [], s, rb, rfl, h, rfl, List.append_nil _⟩
  | cons op ops ih =>
    cases op with
    | push b =>
      obtain ⟨taken, u, rb₁, hpush, h₁, hcap₁, hqueued₁⟩ := h.push b
      obtain ⟨pushed, popped, t, rb', hrun, h', hcap', horder⟩ := ih h₁
      refine ⟨if taken then b :: pushed else pushed, popped, t, rb', ?_, h', hcap'.trans hcap₁, ?_⟩
      · rw [runRing, hpush, andThen_ok, hrun, andThen_ok]
      · rw [← horder, hqueued₁]
        cases taken <;> simp
    | pop =>
      obtain ⟨x, u, rb₁, hpop, h₁, hcap₁, hqueued₁⟩ := h.pop
      obtain ⟨pushed, popped, t, rb', hrun, h', hcap', horder⟩ := ih h₁
      refine ⟨pushed, x.toList ++ popped, t, rb', ?_, h', hcap'.trans hcap₁, ?_⟩
      · rw [runRing, hpop, andThen_ok, hrun, andThen_ok]
      · rw [hqueued₁, List.append_assoc, horder, List.map_append, List.append_assoc]

end Fifo

/-- Settles O25: `FifoRing.run` gives the order and the invariant; the count is the length of the queue. -/
theorem ringIsAFifo : Obligations.RingIsAFifo := by
  intro ops s q d ps hp ho hok hw
  obtain ⟨pushed, popped, t, rb', hrun, ⟨⟨ps', hp', rfl⟩, -, hok', -⟩, hcap, horder⟩ :=
    FifoRing.run ops ⟨⟨ps, hp, rfl⟩, ho, hok, hw⟩
  have hcount := congrArg List.length horder
  simp only [List.length_append, List.length_map, RingBuffer.queued_length] at hcount
  exact ⟨pushed, popped, t, ps', hrun, hp', hok', hcap, by omega, horder⟩

/-! ### The single operations -/

/-- Settles O18: the ring after a push that is taken is `putAll [b]`, whose storage differs at `head` alone. -/
theorem rbPush : Obligations.RbPush := by
  intro s q d b ps hp ho hok
  rw [exec_rbPush]
  refine ⟨fun hfull => by rw [ringPush_full hp ho hfull, returning_ok], fun hroom => ?_⟩
  have hlen : [b].length ≤ (ps.ring d).room := RingBuffer.room_pos hok hroom
  obtain ⟨hin, hout⟩ := RingBuffer.putAll_read hok hlen
  have hhead : (ps.ring d).head.toNat % (ps.ring d).capacity.toNat = (ps.ring d).head.toNat :=
    Nat.mod_eq_of_lt (RingBuffer.head_lt hok)
  simp only [List.length_singleton, Nat.lt_one_iff, forall_eq, Nat.add_zero, hhead, List.getElem?_cons_zero]
    at hin hout
  refine ⟨(ps.ring d).putAll [b], by rw [ringPush_takes hp ho hroom, returning_ok]; rfl, rfl, rfl,
    RingBuffer.putAll_head hok, RingBuffer.putAll_count hok hlen, fun i => ?_⟩
  split
  · next hi => rw [hi, hin]
  · next hi => exact hout i hi

/-- Settles O19: the three cases of the byte at `tail`: none is queued, it has been written, it has not. -/
theorem rbPop : Obligations.RbPop := by
  intro s q d ps hp ho
  rw [exec_rbPop]
  have hdrop (hne : (ps.ring d).count ≠ 0#16) :
      (ps.ring d).drop 1 = { ps.ring d with
        tail := BitVec.ofNat 16 (((ps.ring d).tail.toNat + 1) % (ps.ring d).capacity.toNat)
        count := (ps.ring d).count - 1#16 } := by
    rw [← ofNat_sub_eq (k := 1#16) (one_le_toNat hne)]; rfl
  refine ⟨fun hempty => ?_, fun hne b hb => ?_, fun hne hb => ?_⟩
  · rw [ringPop_empty hp ho hempty, returning_ok]
  · rw [ringPop_takes hp ho hne, storageByte_written hb, hdrop hne]; rfl
  · rw [ringPop_takes hp ho hne, storageByte_unwritten hb, hdrop hne, returning_ok, State.setSlot, drawn1_slots]

/-- Settles O20: AVAIL is a read of the port, CLEAR a write of its ring. -/
theorem rbAvailAndClear : Obligations.RbAvailAndClear := by
  intro s q d ps hp
  rw [exec_rbAvail, exec_rbClear]
  refine ⟨?_, fun ho => ?_⟩
  · rw [ringAvail_eq_ok.2 ⟨ps, hp, rfl, rfl⟩, returning_ok]
  · rw [ringClear_eq_ok.2 ⟨ps, hp, ho, rfl⟩]; rfl

/-! ### The bulk operations -/

/-- Settles O21: the bytes read from `HBUF` are queued by `putAll`, and the two segments of the statement are the
remainder by the capacity. -/
theorem rbPushN : Obligations.RbPushN := by
  intro s q d n ps hp ho hok
  dsimp only
  intro hn hin hwritten
  obtain ⟨bs, hread⟩ := cellsReadList_of_written hwritten
  obtain ⟨hlen, hbyte⟩ := cellsReadList_eq_some.1 hread
  rw [exec_rbPushN, ringPushN_takes hp ho hn hin hread]
  generalize ps.ring d = rb at hok hn
  have hbs : bs.length ≤ rb.room := hlen.trans_le hn
  have hroom : rb.room ≤ rb.capacity.toNat := Nat.sub_le _ _
  have hhead := RingBuffer.head_lt hok
  obtain ⟨hput, hkeep⟩ := RingBuffer.putAll_read hok hbs
  rw [hlen] at hput hkeep
  refine ⟨rb.putAll bs, rfl, rfl, rfl, ?_, ?_, fun j hj => ?_, hkeep⟩
  · rw [RingBuffer.putAll_head hok, hlen]
  · rw [RingBuffer.putAll_count hok hbs, hlen]
  · rw [hbyte j hj, ← hput j hj, mod_below_twice (by omega)]

/-- Settles O22: the bytes written to `HBUF` are the oldest of the ring. -/
theorem rbPopN : Obligations.RbPopN := by
  intro s q d n ps hp ho hok
  dsimp only
  intro hn hin
  rw [exec_rbPopN, ringPopN_takes hp ho hok hn hin, returning_ok]
  generalize ps.ring d = rb at hok hn
  generalize s.side.addr.toNat = dst
  have hlen := RingBuffer.oldest_length rb n.toNat s
  have hread (j) (hj : j < n.toNat) :
      cellsRead (cellsWriteList s.hbuf dst (rb.oldest n.toNat s).1) (dst + j) = (rb.oldest n.toNat s).1[j]? := by
    rw [cellsRead_writeList, if_pos (by omega), Nat.add_sub_cancel_left]
  refine ⟨_, rfl, ?frame, fun j hj b hb => ?_, fun j hj => ?_, fun x hx => ?_, fun hall => ?_⟩
  case frame =>
    rw [RingBuffer.oldest_frame, ← ofNat_sub_eq hn]; rfl
  · obtain ⟨v, hv, heq⟩ := RingBuffer.oldest_getElem? rb s hj
    exact (hread j hj).trans (heq b hb ▸ hv)
  · obtain ⟨v, hv, -⟩ := RingBuffer.oldest_getElem? rb s hj
    exact Option.isSome_iff_exists.2 ⟨v, (hread j hj).trans hv⟩
  · exact (cellsRead_writeList _ _ _ _).trans (if_neg (by omega))
  · have hsame : (rb.oldest n.toNat s).2 = s := RingBuffer.oldest_written hall
    rw [hsame]
    exact ⟨rfl, rfl⟩

/-! ### A bulk operation and its single operations -/

/-- Pushes of bytes that fit, one after another, queue them all. -/
theorem pushEach_takes {q : Slot} {d : Dir} {bs : List Byte} {s : State} {ps : PortState}
    (hp : s.slots.get q = some ps) (ho : s.ringOwned q = true) (hok : (ps.ring d).ok = true)
    (hb : bs.length ≤ (ps.ring d).room) :
    pushEach q d bs s = .ok true (s.setSlot q (some (ps.setRing d ((ps.ring d).putAll bs)))) := by
  induction bs generalizing s ps with
  | nil => rw [pushEach, RingBuffer.putAll_nil hok, setRing_ring, setSlot_same hp]
  | cons b bs ih =>
    rw [List.length_cons, Nat.add_comm] at hb
    have hone : [b].length ≤ (ps.ring d).room := by rw [List.length_singleton]; omega
    have hne : (ps.ring d).count ≠ (ps.ring d).capacity := fun hfull => by
      simp [RingBuffer.room, hfull] at hone
    have hok₁ : ((ps.setRing d ((ps.ring d).putAll [b])).ring d).ok = true := by
      rw [ring_setRing_same]; exact RingBuffer.putAll_ok hok hone
    have hb₁ : bs.length ≤ ((ps.setRing d ((ps.ring d).putAll [b])).ring d).room := by
      rw [ring_setRing_same, RingBuffer.putAll_room hok hone, List.length_singleton]; omega
    rw [pushEach, ringPush_takes hp ho hne, andThen_ok, if_pos rfl, ih (get_setSlot s q _) ho hok₁ hb₁,
      setSlot_setSlot, setRing_setRing, ring_setRing_same, RingBuffer.putAll_putAll (as := [b]) hok hb,
      List.singleton_append]

/-- Pops of bytes that are there, one after another, answer the oldest bytes and leave the ring without them. -/
theorem popEach_takes {q : Slot} {d : Dir} {n : Nat} {s : State} {ps : PortState}
    (hp : s.slots.get q = some ps) (ho : s.ringOwned q = true) (hok : (ps.ring d).ok = true)
    (hn : n ≤ (ps.ring d).count.toNat) :
    popEach q d n s = .ok ((ps.ring d).oldest n s).1
      (((ps.ring d).oldest n s).2.setSlot q (some (ps.setRing d ((ps.ring d).drop n)))) := by
  induction n generalizing s ps with
  | zero =>
    rw [RingBuffer.drop_zero hok, setRing_ring]
    exact congrArg _ (setSlot_same hp).symm
  | succ n ih =>
    have hne : (ps.ring d).count ≠ 0#16 := fun h0 => by simp [h0] at hn
    have hok₁ : ((ps.setRing d ((ps.ring d).drop 1)).ring d).ok = true := by
      rw [ring_setRing_same]; exact RingBuffer.drop_ok hok (one_le_toNat hne)
    have hn₁ : n ≤ ((ps.setRing d ((ps.ring d).drop 1)).ring d).count.toNat := by
      rw [ring_setRing_same, RingBuffer.drop_count]; omega
    have ho₁ : (storageByte (ps.ring d) (ps.ring d).tail.toNat s).2.ringOwned q = true := by
      rw [storageByte_frame]; exact ho
    rw [popEach, ringPop_takes hp ho hne, andThen_ok]
    dsimp only
    rw [ih (get_setSlot _ q _) ho₁ hok₁ hn₁, andThen_ok, ring_setRing_same, setRing_setRing,
      RingBuffer.oldest_setSlot, setSlot_setSlot, RingBuffer.drop_drop hok, Nat.add_comm 1 n,
      RingBuffer.oldest_succ hok]

/-- Settles O24: both sides queue the same bytes (`pushEach_takes`), or take the same oldest ones
(`popEach_takes`). -/
theorem bulkAgreesWithSingles : Obligations.BulkAgreesWithSingles := by
  intro s q d n a ps hp ho hok hin
  refine ⟨fun bs hn hread => ?push, fun hn => ?pop⟩
  case push =>
    have hlen : bs.length ≤ (ps.ring d).room := (cellsReadList_eq_some.1 hread).1.trans_le hn
    exact ⟨_, ringPushN_takes hp ho hn hin hread, pushEach_takes hp ho hok hlen⟩
  case pop =>
    exact ⟨_, _, popEach_takes hp ho hok hn, RingBuffer.oldest_length _ _ _, ringPopN_takes hp ho hok hn hin⟩

end Sys2Proof.Machine

/-! ## The operations of the registry

What each word of class REG does on a slot, in the order of spec/42_registry.md. -/

namespace Sys2Proof.Machine

open Sys2Proof

section Registry

variable {s : State} {q : Slot} {mode txCap rxCap : Word}

/-- A capacity is legal exactly between the two limits of the configuration. -/
theorem capacityOk_iff {cfg : Config} {c : Word} :
    capacityOk cfg c = true ↔ cfg.capMin ≤ c.toNat ∧ c.toNat ≤ cfg.capMax := by
  rw [capacityOk, Bool.and_eq_true, decide_eq_true_eq, decide_eq_true_eq]

/-! ### The words of class REG on a slot -/

theorem exec_regLookup :
    exec (.regLookup q.sel) s = .next { s with ret := .lookup (regLookup q.sel s) } := rfl

theorem exec_regAlloc : exec (.regAlloc q.sel) s = (regAlloc q s.a0 s.a1 s.a2 s).returning .alloc :=
  onSlot_sel_returning _ _ _

theorem exec_regFree : exec (.regFree q.sel) s = (regFree q s).returning fun _ => .unit :=
  onSlot_sel_returning _ _ _

/-! ### The classes of a lookup -/

/-- A port below 4 is never invalid: its slot is absent or present (spec/42_registry.md R140). -/
theorem regLookup_sel : regLookup q.sel s = if s.slots.get q = none then .absent else .present := by
  simp only [regLookup, slotOfSel_sel, Option.isNone_iff_eq_none]

/-! ### Where the allocation and the release stop (log entry 16) -/

theorem regAlloc_occupied (hp : (s.slots.get q).isSome = true) :
    regAlloc q mode txCap rxCap s = .refuse .slotOccupied := if_pos hp

theorem regAlloc_notValidated (habs : s.slots.get q = none)
    (hcap : ¬(capacityOk s.cfg txCap = true ∧ capacityOk s.cfg rxCap = true)) :
    regAlloc q mode txCap rxCap s = .refuse .notValidated := by
  have hrejected : (!(capacityOk s.cfg txCap && capacityOk s.cfg rxCap)) = true := by
    rwa [Bool.not_eq_true', ← Bool.not_eq_true, Bool.and_eq_true]
  rw [regAlloc, habs, Option.isSome_none, if_neg Bool.false_ne_true, if_pos hrejected]

theorem regFree_absent (habs : s.slots.get q = none) : regFree q s = .refuse .portAbsent :=
  withPort_none habs _

end Registry

/-- Settles O26: each word by the operation it performs; what the allocation writes is `regAlloc_eq_ok`, by the
answer of the oracle. -/
theorem registryOperations : Obligations.RegistryOperations := by
  intro s q
  dsimp only
  rw [exec_regLookup, exec_regAlloc, exec_regFree, regLookup_sel]
  have hlegal : (capacityOk s.cfg s.a1 = true ∧ capacityOk s.cfg s.a2 = true)
      ↔ s.cfg.capMin ≤ s.a1.toNat ∧ s.a1.toNat ≤ s.cfg.capMax
        ∧ s.cfg.capMin ≤ s.a2.toNat ∧ s.a2.toNat ≤ s.cfg.capMax := by
    rw [capacityOk_iff, capacityOk_iff, and_assoc]
  rw [← hlegal]
  refine ⟨rfl, fun hp => ?freed, fun habs => ?notThere, fun habs hcap hdraw => ?published,
    fun habs hcap hdraw => ?outOfMemory, fun hp => ?occupied, fun habs hcap => ?rejected⟩
  case freed => rw [regFree_eq_ok.2 ⟨hp, rfl⟩]; rfl
  case notThere => rw [regFree_absent habs, returning_refuse]
  case published =>
    obtain ⟨htx, hrx⟩ := hcap
    rw [regAlloc_eq_ok.2 ⟨habs, htx, hrx, hdraw.symm, rfl⟩, if_pos rfl, returning_ok, State.setSlot, drawn1_slots]
    rfl
  case outOfMemory =>
    obtain ⟨htx, hrx⟩ := hcap
    rw [regAlloc_eq_ok.2 ⟨habs, htx, hrx, hdraw.symm, rfl⟩, if_neg Bool.false_ne_true, returning_ok]
  case occupied => rw [regAlloc_occupied hp, returning_refuse]
  case rejected => rw [regAlloc_notValidated habs hcap, returning_refuse]

end Sys2Proof.Machine

/-! ## The capabilities of the mux

What the word of each capability does on each variant, present or not (spec/43_hal_variant_mux.md). -/

namespace Sys2Proof.Machine

open Sys2Proof

/-! ### Bits of a register value -/

section Bits

variable {n : Nat} {v a b m : BitVec n}

theorem hasBit_eq_false : hasBit v m = false ↔ v &&& m = 0#n := by
  rw [hasBit, decide_eq_false_iff_not, not_not]

theorem hasBit_eq_true : hasBit v m = true ↔ v &&& m ≠ 0#n := by rw [hasBit, decide_eq_true_eq]

@[simp] theorem hasBit_zero (m : BitVec n) : hasBit 0#n m = false := by rw [hasBit_eq_false, BitVec.zero_and]

theorem bits_or_eq_zero : a ||| b = 0#n ↔ a = 0#n ∧ b = 0#n := by
  refine ⟨fun h => ?_, fun ⟨ha, hb⟩ => by rw [ha, hb, BitVec.or_zero]⟩
  have hbit (i) (hi : i < n) : a[i] = false ∧ b[i] = false := by
    rw [← Bool.or_eq_false_iff, ← BitVec.getElem_or hi, h, BitVec.getElem_zero]
  exact ⟨BitVec.eq_of_getElem_eq fun i hi => by rw [(hbit i hi).1, BitVec.getElem_zero],
    BitVec.eq_of_getElem_eq fun i hi => by rw [(hbit i hi).2, BitVec.getElem_zero]⟩

/-- A bit of a mask is set in one value or the other. -/
theorem hasBit_or (a b m : BitVec n) : hasBit (a ||| b) m = (hasBit a m || hasBit b m) := by
  rw [Bool.eq_iff_iff, Bool.or_eq_true, hasBit_eq_true, hasBit_eq_true, hasBit_eq_true, BitVec.and_or_distrib_right,
    ne_eq, bits_or_eq_zero, not_and_or]

/-- A bit of one mask or the other is set in a value. -/
theorem hasBit_or_mask (v a b : BitVec n) : hasBit v (a ||| b) = (hasBit v a || hasBit v b) := by
  rw [hasBit, BitVec.and_comm, ← hasBit, hasBit_or, hasBit, hasBit, BitVec.and_comm, BitVec.and_comm b]; rfl

/-- The bits of a part of a mask are bits of the mask. -/
theorem hasBit_and_eq_false (h : hasBit b m = false) (a : BitVec n) : hasBit (a &&& b) m = false := by
  rw [hasBit_eq_false] at h ⊢
  rw [BitVec.and_assoc, h, BitVec.and_zero]

theorem oneBit_ne_zero (h : oneBit m = true) : m ≠ 0#n := by
  rw [oneBit, Bool.and_eq_true, decide_eq_true_eq] at h
  exact h.1

theorem hasBit_self (h : oneBit m = true) : hasBit m m = true := by
  rw [hasBit_eq_true, BitVec.and_self]; exact oneBit_ne_zero h

/-- A mask of one bit is a power of two. -/
theorem oneBit_eq_twoPow (h : oneBit m = true) : ∃ k, m = BitVec.twoPow n k := by
  have hne := oneBit_ne_zero h
  rw [oneBit, Bool.and_eq_true, decide_eq_true_eq, decide_eq_true_eq] at h
  obtain ⟨-, hand⟩ := h
  have hpos : m.toNat ≠ 0 := fun h0 => hne (BitVec.eq_of_toNat_eq h0)
  have hlt := m.isLt
  have hn : n ≠ 0 := by rintro rfl; rw [pow_zero] at hlt; omega
  have hone : 1 < 2 ^ n := Nat.one_lt_two_pow hn
  have hpred : (m - 1#n).toNat = m.toNat - 1 := by
    rw [BitVec.toNat_sub_of_le (by rw [BitVec.le_def, BitVec.toNat_ofNat, Nat.mod_eq_of_lt hone]; omega),
      BitVec.toNat_ofNat, Nat.mod_eq_of_lt hone]
  have hnat : m.toNat &&& (m.toNat - 1) = 0 := by
    rw [← hpred, ← BitVec.toNat_and, hand, BitVec.toNat_zero]
  obtain ⟨k, hk⟩ := (Nat.and_sub_one_eq_zero_iff_isPowerOfTwo hpos).1 hnat
  exact ⟨k, BitVec.eq_of_toNat_eq (by rw [BitVec.toNat_twoPow, ← hk, Nat.mod_eq_of_lt hlt])⟩

/-- Two masks of one bit that differ have no bit in common. -/
theorem hasBit_oneBit_ne (ha : oneBit a = true) (hb : oneBit b = true) (hne : a ≠ b) : hasBit a b = false := by
  obtain ⟨i, rfl⟩ := oneBit_eq_twoPow ha
  obtain ⟨j, rfl⟩ := oneBit_eq_twoPow hb
  have hij : i ≠ j := fun h => hne (by rw [h])
  rw [hasBit_eq_false]
  refine BitVec.eq_of_getElem_eq fun k hk => ?_
  rw [BitVec.getElem_and, BitVec.getElem_twoPow, BitVec.getElem_twoPow, BitVec.getElem_zero, Bool.and_eq_false_iff,
    decide_eq_false_iff_not, decide_eq_false_iff_not]
  omega

end Bits


/-! ### The masks of a legal configuration -/

section Masks

variable {m : StdMap} (h : m.wf = true)
include h

/-- The bits of the STD registers are single (spec/43_hal_variant_mux.md R153). -/
theorem StdMap.wf_bits {b : Byte} (hb : b ∈ [m.ierRx, m.ierTx, m.ierLs, m.ierMs, m.iirNone, m.fcrEn, m.fcrRx, m.fcrTx,
    m.lcrStop, m.lcrParity, m.lcrEven, m.lcrStick, m.lcrBreak, m.lcrDlab, m.lsrDr, m.lsrThre, m.lsrTemt]) :
    oneBit b = true := by
  simp only [StdMap.wf, Bool.and_eq_true] at h
  exact List.all_eq_true.1 (by tauto) b hb

/-- The enables of the IER differ. -/
theorem StdMap.wf_ier : [m.ierRx, m.ierTx, m.ierLs, m.ierMs].Nodup := by
  simp only [StdMap.wf, Bool.and_eq_true, decide_eq_true_eq] at h; tauto

/-- The identities of the causes differ (spec/43_hal_variant_mux.md R161). -/
theorem StdMap.wf_ids : [m.iirMs, m.iirTx, m.iirRx, m.iirLs, m.iirTo].Nodup := by
  simp only [StdMap.wf, Bool.and_eq_true, decide_eq_true_eq] at h
  show m.iirIds.Nodup
  tauto

/-- The trigger codes differ, and their field fits beside the other bits of the FCR. -/
theorem StdMap.wf_fcr : m.fcrTrig ≤ 6 ∧ [m.fcrT1, m.fcrT4, m.fcrT8, m.fcrT14].Nodup
    ∧ hasBit (0x03#8 <<< m.fcrTrig) (m.fcrEn ||| m.fcrRx ||| m.fcrTx) = false := by
  simp only [StdMap.wf, Bool.and_eq_true, decide_eq_true_eq, Bool.not_eq_true'] at h; tauto

/-- The bits of the LSR differ, and the error field fits beside them. -/
theorem StdMap.wf_lsr : [m.lsrDr, m.lsrThre, m.lsrTemt].Nodup
    ∧ hasBit (0x0F#8 <<< m.lsrErr) (m.lsrDr ||| m.lsrThre ||| m.lsrTemt) = false := by
  simp only [StdMap.wf, Bool.and_eq_true, decide_eq_true_eq, Bool.not_eq_true'] at h; tauto

end Masks

/-- The masks of the INTEG registers are single bits, those of the status word differ
(spec/43_hal_variant_mux.md R154). -/
theorem Config.wf_masks {cfg : Config} (h : cfg.wf = true) :
    (∀ b ∈ [cfg.imRxie, cfg.imTxie, cfg.isRxrdy, cfg.isThre, cfg.isTxint, cfg.isLineerr], oneBit b = true)
    ∧ [cfg.isRxrdy, cfg.isThre, cfg.isTxint, cfg.isLineerr].Nodup := by
  obtain ⟨-, hmasks, -⟩ := Config.wf_parts h
  simp only [Config.masksOk, Bool.and_eq_true, List.all_eq_true, decide_eq_true_eq] at hmasks
  obtain ⟨⟨hbits, -⟩, hnodup⟩ := hmasks
  exact ⟨hbits, hnodup⟩

theorem Config.wf_stdMap {cfg : Config} (h : cfg.wf = true) : cfg.stdMap.wf = true := by
  obtain ⟨-, -, -, hmap, -⟩ := Config.wf_parts h; exact hmap

/-! ### The values of the status registers -/

section Status

variable {m : StdMap} {d : StdDev}

/-- The error bits of the LSR are none of its other bits (spec/48_environment_device.md R279). -/
theorem hasBit_lsErr (h : m.wf = true) {b : Byte} (hb : b ∈ [m.lsrDr, m.lsrThre, m.lsrTemt]) (e : BitVec 4) :
    hasBit (e.setWidth 8 <<< m.lsrErr) b = false := by
  obtain ⟨-, hfield⟩ := StdMap.wf_lsr h
  have hin : e.setWidth 8 <<< m.lsrErr = (e.setWidth 8 <<< m.lsrErr) &&& (0x0F#8 <<< m.lsrErr) := by
    rw [← BitVec.shiftLeft_and_distrib]
    congr 1
    revert e; decide
  rw [hin]
  refine hasBit_and_eq_false ?_ _
  rw [hasBit_or_mask, hasBit_or_mask, Bool.or_eq_false_iff, Bool.or_eq_false_iff] at hfield
  obtain ⟨⟨hdr, hthre⟩, htemt⟩ := hfield
  rcases List.mem_cons.1 hb with rfl | hb
  · exact hdr
  rcases List.mem_cons.1 hb with rfl | hb
  · exact hthre
  · rwa [List.mem_singleton.1 hb]

/-- The LSR shows whether a byte waits (spec/48_environment_device.md R279). -/
theorem hasBit_lsr_dr (h : m.wf = true) (d : StdDev) : hasBit (d.lsr m) m.lsrDr = !d.rxf.isEmpty := by
  have hdr := StdMap.wf_bits h (b := m.lsrDr) (by simp)
  have hthre := StdMap.wf_bits h (b := m.lsrThre) (by simp)
  have htemt := StdMap.wf_bits h (b := m.lsrTemt) (by simp)
  obtain ⟨hnodup, -⟩ := StdMap.wf_lsr h
  simp only [List.nodup_cons, List.mem_cons, not_or] at hnodup
  obtain ⟨⟨hne₁, hne₂, -⟩, -⟩ := hnodup
  rw [StdDev.lsr, hasBit_or, hasBit_or, hasBit_lsErr h (by simp), Bool.or_false]
  cases d.rxf.isEmpty <;> cases d.txf.isEmpty <;>
    simp [hasBit_self hdr, hasBit_or, hasBit_oneBit_ne hthre hdr (Ne.symm hne₁),
      hasBit_oneBit_ne htemt hdr (Ne.symm hne₂)]

/-- The LSR shows whether the transmitter holds a byte (spec/48_environment_device.md R279). -/
theorem hasBit_lsr_thre (h : m.wf = true) (d : StdDev) : hasBit (d.lsr m) m.lsrThre = d.txf.isEmpty := by
  have hdr := StdMap.wf_bits h (b := m.lsrDr) (by simp)
  have hthre := StdMap.wf_bits h (b := m.lsrThre) (by simp)
  obtain ⟨hnodup, -⟩ := StdMap.wf_lsr h
  simp only [List.nodup_cons, List.mem_cons, not_or] at hnodup
  obtain ⟨⟨hne, -⟩, -⟩ := hnodup
  rw [StdDev.lsr, hasBit_or, hasBit_or, hasBit_lsErr h (by simp), Bool.or_false]
  cases d.rxf.isEmpty <;> cases d.txf.isEmpty <;>
    simp [hasBit_self hthre, hasBit_or, hasBit_oneBit_ne hdr hthre hne]

variable {cfg : Config}

/-- The free bits of the status word are none of its masks (spec/48_environment_device.md R282). -/
theorem hasBit_statusFree {b : Half} (hb : b ∈ [cfg.isRxrdy, cfg.isThre, cfg.isTxint, cfg.isLineerr]) (free : Half) :
    hasBit (free &&& ~~~cfg.statusMask) b = false := by
  refine hasBit_and_eq_false ?_ free
  have hnone : hasBit (~~~cfg.statusMask) cfg.statusMask = false := by
    rw [hasBit_eq_false, BitVec.and_comm, BitVec.and_not_self]; rfl
  rw [Config.statusMask, hasBit_or_mask, hasBit_or_mask, hasBit_or_mask, ← Config.statusMask, Bool.or_eq_false_iff,
    Bool.or_eq_false_iff, Bool.or_eq_false_iff] at hnone
  obtain ⟨⟨⟨hrx, hthre⟩, htx⟩, herr⟩ := hnone
  simp only [List.mem_cons, List.not_mem_nil, or_false] at hb
  obtain rfl | rfl | rfl | rfl := hb <;> assumption

/-- What a bit of the INTEG status word says (spec/48_environment_device.md R282). -/
theorem hasBit_status (h : cfg.wf = true) (d : IntegDev) (free : Half) :
    hasBit (d.status cfg free) cfg.isRxrdy = d.rxd.isSome
    ∧ hasBit (d.status cfg free) cfg.isThre = d.txd.isNone := by
  obtain ⟨hbits, hnodup⟩ := Config.wf_masks h
  have hrx := hbits cfg.isRxrdy (by simp)
  have hthre := hbits cfg.isThre (by simp)
  have htx := hbits cfg.isTxint (by simp)
  have herr := hbits cfg.isLineerr (by simp)
  simp only [List.nodup_cons, List.mem_cons, not_or] at hnodup
  obtain ⟨⟨hne₁, hne₂, hne₃, -⟩, ⟨hne₄, hne₅, -⟩, -⟩ := hnodup
  have hclear (c : Prop) [Decidable c] {a b : Half} (hab : hasBit a b = false) :
      hasBit (if c then a else 0#16) b = false := by split <;> simp [hab]
  have hshow (c : Bool) {a : Half} (ha : oneBit a = true) : hasBit (if c = true then a else 0#16) a = c := by
    cases c <;> simp [hasBit_self ha]
  constructor
  · rw [IntegDev.status, hasBit_or, hasBit_or, hasBit_or, hasBit_or, hasBit_statusFree (by simp), hshow _ hrx,
      hclear _ (hasBit_oneBit_ne hthre hrx (Ne.symm hne₁)), hclear _ (hasBit_oneBit_ne htx hrx (Ne.symm hne₂)),
      hclear _ (hasBit_oneBit_ne herr hrx (Ne.symm hne₃))]
    simp
  · rw [IntegDev.status, hasBit_or, hasBit_or, hasBit_or, hasBit_or, hasBit_statusFree (by simp), hshow _ hthre,
      hclear _ (hasBit_oneBit_ne hrx hthre hne₁), hclear _ (hasBit_oneBit_ne htx hthre (Ne.symm hne₄)),
      hclear _ (hasBit_oneBit_ne herr hthre (Ne.symm hne₅))]
    simp

end Status

/-! ### The FCR value of HAL.INIT -/

/-- A field of two bits beside other bits is read back by its position. -/
theorem field_code {rest : Byte} {k : Nat} (hk : k ≤ 6) (hfield : 3#8 <<< k &&& rest = 0#8) (code : BitVec 2) :
    ((rest ||| (code.setWidth 8 <<< k)) >>> k).extractLsb' 0 2 = code := by
  refine BitVec.eq_of_getLsbD_eq fun i hi => ?_
  have hlt : k + i < 8 := by omega
  have hi8 : i < 8 := by omega
  have hthree : (3#8).getLsbD i = true := by
    obtain rfl | rfl : i = 0 ∨ i = 1 := by omega
    all_goals rfl
  have hrest : rest.getLsbD (k + i) = false := by
    have hbit := congrArg (fun x => x.getLsbD (k + i)) hfield
    simpa [hlt, hthree] using hbit
  simp [hi, hi8, hlt, hrest, -BitVec.getLsbD_eq_getElem]

section Fcr

variable {cfg : Config} (h : cfg.wf = true)
include h

/-- The FCR value enables the FIFOs and resets both (spec/43_hal_variant_mux.md R166). -/
theorem fcrInit_bits : hasBit cfg.fcrInit cfg.stdMap.fcrEn = true ∧ hasBit cfg.fcrInit cfg.stdMap.fcrRx = true
    ∧ hasBit cfg.fcrInit cfg.stdMap.fcrTx = true := by
  have hself {b : Byte} (hb : b ∈ [cfg.stdMap.fcrEn, cfg.stdMap.fcrRx, cfg.stdMap.fcrTx]) : hasBit b b = true :=
    hasBit_self (StdMap.wf_bits (Config.wf_stdMap h) (by
      simp only [List.mem_cons, List.not_mem_nil, or_false] at hb ⊢; tauto))
  simp [Config.fcrInit, hasBit_or, hself]

/-- The trigger field of the FCR value holds the code of `STD_RX_TRIGGER`. -/
theorem fcrInit_code : (cfg.fcrInit >>> cfg.stdMap.fcrTrig).extractLsb' 0 2 = cfg.stdMap.triggerCode cfg.stdRxTrigger := by
  obtain ⟨hpos, -, hfield⟩ := StdMap.wf_fcr (Config.wf_stdMap h)
  exact field_code hpos (hasBit_eq_false.1 hfield) _

/-- The FCR value selects `STD_RX_TRIGGER` (spec/48_environment_device.md R277). -/
theorem ofFcr_fcrInit : RxTrigger.ofFcr cfg.stdMap cfg.fcrInit = cfg.stdRxTrigger := by
  obtain ⟨hen, -⟩ := fcrInit_bits h
  obtain ⟨-, hnodup, -⟩ := StdMap.wf_fcr (Config.wf_stdMap h)
  simp only [List.nodup_cons, List.mem_cons, not_or] at hnodup
  obtain ⟨⟨h14, h18, h114, -⟩, ⟨h48, h414, -⟩, ⟨h814, -⟩, -⟩ := hnodup
  rw [RxTrigger.ofFcr, if_pos hen, fcrInit_code h]
  cases cfg.stdRxTrigger <;>
    simp [StdMap.triggerCode, Ne.symm h14, Ne.symm h18, Ne.symm h114, Ne.symm h48, Ne.symm h414, Ne.symm h814]

end Fcr

/-! ### The words of class HAL on a slot -/

section Words

variable {q : Slot} {s : State}

theorem exec_halEnRx : exec (.halEnRx q.sel) s = (runHal q accEnRx s).returning fun _ => .unit :=
  onSlot_sel_returning _ _ _

theorem exec_halEnTx : exec (.halEnTx q.sel) s = (runHal q accEnTx s).returning fun _ => .unit :=
  onSlot_sel_returning _ _ _

theorem exec_halDisInt : exec (.halDisInt q.sel) s = (runHal q accDisInt s).returning fun _ => .unit :=
  onSlot_sel_returning _ _ _

theorem exec_halDisTx : exec (.halDisTx q.sel) s = (halDisTx q s).returning fun _ => .unit :=
  onSlot_sel_returning _ _ _

theorem exec_halCause : exec (.halCause q.sel) s = (halCause q s).returning .cause :=
  onSlot_sel_returning _ _ _

theorem exec_halDrainRx : exec (.halDrainRx q.sel) s = (runHal q accDrainRx s).returning fun _ => .unit :=
  onSlot_sel_returning _ _ _

theorem exec_halFillTx (m : Byte) :
    exec (.halFillTx q.sel m) s = (runHal q (accFillTx m.toNat) s).returning fun _ => .unit :=
  onSlot_sel_returning _ _ _

theorem exec_halConfig :
    exec (.halConfig q.sel) s = (runHal q (accConfig s.a0 s.a1 s.a2 s.a3) s).returning fun _ => .unit :=
  onSlot_sel_returning _ _ _

theorem exec_halAckLine (l : Line) : exec (.halAckLine l.sel) s = (ackLine l s).returning fun _ => .unit := by
  cases l <;> rfl

theorem exec_halTxEmpty : exec (.halTxEmpty q.sel) s = (halTxEmpty q s).returning .bool :=
  onSlot_sel_returning _ _ _

theorem exec_halDetect : exec (.halDetect q.sel) s = (halDetect q s).returning .bool :=
  onSlot_sel_returning _ _ _

theorem exec_halInit : exec (.halInit q.sel) s = (runHal q accInit s).returning fun _ => .unit :=
  onSlot_sel_returning _ _ _

theorem exec_halSnapshot : exec (.halSnapshot q.sel) s = (runHal q accSnapshot s).returning fun _ => .unit :=
  onSlot_sel_returning _ _ _

theorem exec_halRestore : exec (.halRestore q.sel) s = (runHal q accRestore s).returning fun _ => .unit :=
  onSlot_sel_returning _ _ _

theorem exec_halClrMs : exec (.halClrMs q.sel) s = (runHal q accClrMs s).returning fun _ => .unit :=
  onSlot_sel_returning _ _ _

theorem exec_halClrLs : exec (.halClrLs q.sel) s = (runHal q accClrLs s).returning fun _ => .unit :=
  onSlot_sel_returning _ _ _

/-! ### The actions of the dispatcher that are a capability (spec/44_dispatcher.md R193, R194, R196, R197) -/

theorem onSlot_sel_outcome (q : Slot) (f : Slot → Res Unit) : (onSlot q.sel f).outcome = (f q).outcome := by
  rw [onSlot_sel]

theorem exec_dspOnModem : exec (.dspOnModem q.sel) s
    = ((runHal q accClrMs s).andThen fun _ s => .ok () s).outcome := onSlot_sel_outcome _ _

theorem exec_dspOnLine : exec (.dspOnLine q.sel) s
    = ((runHal q accClrLs s).andThen fun _ s => .ok () s).outcome := onSlot_sel_outcome _ _

theorem exec_dspOnRxReady : exec (.dspOnRxReady q.sel) s
    = ((runHal q accDrainRx s).andThen fun _ s => .ok () s).outcome := onSlot_sel_outcome _ _

theorem exec_dspOnRxTimeout : exec (.dspOnRxTimeout q.sel) s
    = ((runHal q accDrainRx s).andThen fun _ s => .ok () s).outcome := onSlot_sel_outcome _ _

end Words

/-! ### The accesses of a capability, one after another (spec/43_hal_variant_mux.md R151) -/

section Accesses

variable {q : Slot} {as : List Acc} {v : Half} {s : State}

@[simp] theorem runAccs_nil : runAccs q [] v s = .ok v s := rfl

@[simp] theorem runAccs_rd8 (a : Half) : runAccs q (.rd8 a :: as) v s
    = (ioRd8 a s).andThen fun r t => runAccs q as (r.setWidth 16) t := by
  simp only [runAccs, accStep, andThen_assoc, andThen_ok, Bool.false_eq_true, if_false]

@[simp] theorem runAccs_rd16 (a : Half) : runAccs q (.rd16 a :: as) v s
    = (ioRd16 a s).andThen fun r t => runAccs q as r t := by
  simp only [runAccs, accStep, andThen_assoc, andThen_ok, Bool.false_eq_true, if_false]

@[simp] theorem runAccs_wr8 (a : Half) (e : WVal) : runAccs q (.wr8 a e :: as) v s
    = (ioWr8 a ((e.eval v).setWidth 8) s).andThen fun _ t => runAccs q as v t := by
  simp only [runAccs, accStep, andThen_assoc, andThen_ok, Bool.false_eq_true, if_false]

@[simp] theorem runAccs_wr16 (a : Half) (e : WVal) : runAccs q (.wr16 a e :: as) v s
    = (ioWr16 a (e.eval v) s).andThen fun _ t => runAccs q as v t := by
  simp only [runAccs, accStep, andThen_assoc, andThen_ok, Bool.false_eq_true, if_false]

@[simp] theorem runAccs_snap (a : Half) (r : CfgReg) : runAccs q (.snap a r :: as) v s
    = (ioRd16 a s).andThen fun x t => runAccs q as v (t.setSavedInteg r x) := by
  simp only [runAccs, accStep, andThen_assoc, andThen_ok, Bool.false_eq_true, if_false]

@[simp] theorem runAccs_rest (a : Half) (r : CfgReg) : runAccs q (.rest a r :: as) v s
    = (ioWr16 a (s.savedInteg.get r) s).andThen fun _ t => runAccs q as v t := by
  simp only [runAccs, accStep, andThen_assoc, andThen_ok, Bool.false_eq_true, if_false]

theorem runAccs_test8 (a : Half) (m : Byte) : runAccs q (.test8 a m :: as) v s = (ioRd8 a s).andThen fun r t =>
    if hasBit r m = true then runAccs q as (r.setWidth 16) t else .ok (r.setWidth 16) t := by
  simp only [runAccs, accStep, andThen_assoc, andThen_ok, hasBit, decide_eq_true_eq, ne_eq, ite_not]

theorem runAccs_test16 (a : Half) (m : Half) : runAccs q (.test16 a m :: as) v s = (ioRd16 a s).andThen fun r t =>
    if hasBit r m = true then runAccs q as r t else .ok r t := by
  simp only [runAccs, accStep, andThen_assoc, andThen_ok, hasBit, decide_eq_true_eq, ne_eq, ite_not]

theorem runAccs_take8 (a : Half) : runAccs q (.take8 a :: as) v s
    = (ioRd8 a s).andThen fun b t => (takeByte q b t).andThen fun _ u => runAccs q as v u := by
  simp only [runAccs, accStep, andThen_assoc, andThen_ok, Bool.false_eq_true, if_false]

theorem runAccs_take16 (a : Half) : runAccs q (.take16 a :: as) v s
    = (ioRd16 a s).andThen fun b t => (takeByte q (b.setWidth 8) t).andThen fun _ u => runAccs q as v u := by
  simp only [runAccs, accStep, andThen_assoc, andThen_ok, Bool.false_eq_true, if_false]

end Accesses

/-! ### The devices and the trace after some accesses -/

/-- The devices with the STD chip of a slot in a new state. -/
def Devices.setStd (D : Devices) (c : StdSlot) (d : StdDev) : Devices := { D with std := D.std.set c d }

/-- The devices with the INTEG device in a new state. -/
def Devices.setInteg (D : Devices) (d : IntegDev) : Devices := { D with integ := d }

@[simp] theorem Devices.setStd_get (D : Devices) (c : StdSlot) (d : StdDev) : (D.setStd c d).std.get c = d :=
  PerStd.get_set_same _ _ _

@[simp] theorem Devices.setStd_setStd (D : Devices) (c : StdSlot) (d e : StdDev) :
    (D.setStd c d).setStd c e = D.setStd c e := by
  rw [setStd, setStd, setStd, PerStd.set_set]

@[simp] theorem Devices.setStd_same (D : Devices) (c : StdSlot) : D.setStd c (D.std.get c) = D := by
  rw [setStd, PerStd.set_get]

@[simp] theorem Devices.setInteg_setInteg (D : Devices) (d e : IntegDev) :
    (D.setInteg d).setInteg e = D.setInteg e := rfl

/-- The state with these devices and this trace: what a row of `IO` accesses makes of `s`, but for its draws. -/
def State.withIo (s : State) (D : Devices) (es : List HostEvent) : State := { s with dev := D, trace := es }

section WithIo

variable {s : State} {D : Devices} {es : List HostEvent}

/-- Before the first access. -/
theorem withIo_self (s : State) : s.withIo s.dev s.trace = s := rfl

@[simp] theorem withIo_drawn1 (s : State) (D : Devices) (es : List HostEvent) :
    (s.withIo D es).drawn1 = s.drawn1.withIo D es := by
  unfold State.drawn1 State.withIo
  cases s.draws <;> rfl

theorem withIo_drawnIf (s : State) (D : Devices) (es : List HostEvent) (b : Bool) :
    (s.withIo D es).drawnIf b = (s.drawnIf b).withIo D es := by
  cases b
  · rfl
  · exact withIo_drawn1 s D es

variable {c : StdSlot} (hwf : s.cfg.wf = true)
include hwf

/-- A read of a register of a STD chip (spec/47_host_primitives.md R250). -/
theorem ioRd8_chip (hp : s.cfg.stdPresent.get c = true) (r : SReg) :
    ioRd8 (s.cfg.stdMap.addr (s.cfg.stdBase.get c) r) (s.withIo D es) =
      .ok ((D.std.get c).readValue s.cfg.stdMap r s.drawValue)
        ((s.drawnIf ((D.std.get c).readDraws s.cfg.stdMap r)).withIo
          (D.setStd c ((D.std.get c).afterRead s.cfg.stdMap r))
          (es ++ [.rd8 (s.cfg.stdMap.addr (s.cfg.stdBase.get c) r)
            ((D.std.get c).readValue s.cfg.stdMap r s.drawValue)])) := by
  refine (ioRd8_present (s := s.withIo D es) hwf hp r).trans ?_
  rw [withIo_drawnIf]; rfl

/-- A read in the block of an absent STD chip takes a draw (spec/20_memory.md R69). -/
theorem ioRd8_noChip (hp : s.cfg.stdPresent.get c = false) (r : SReg) :
    ioRd8 (s.cfg.stdMap.addr (s.cfg.stdBase.get c) r) (s.withIo D es) =
      .ok (s.drawValue.setWidth 8) (s.drawn1.withIo D
        (es ++ [.rd8 (s.cfg.stdMap.addr (s.cfg.stdBase.get c) r) (s.drawValue.setWidth 8)])) := by
  refine (ioRd8_absent (s := s.withIo D es) hwf hp r).trans ?_
  rw [withIo_drawn1]; rfl

/-- A write of a register of a STD chip (spec/47_host_primitives.md R252). -/
theorem ioWr8_chip (hp : s.cfg.stdPresent.get c = true) (r : SReg) (v : Byte) :
    ioWr8 (s.cfg.stdMap.addr (s.cfg.stdBase.get c) r) v (s.withIo D es) =
      .ok () (s.withIo (D.setStd c ((D.std.get c).write s.cfg.stdMap r v))
        (es ++ [.wr8 (s.cfg.stdMap.addr (s.cfg.stdBase.get c) r) v])) :=
  ioWr8_present (s := s.withIo D es) hwf hp r v

/-- A write in the block of an absent STD chip is seen by nobody (spec/20_memory.md R69). -/
theorem ioWr8_noChip (hp : s.cfg.stdPresent.get c = false) (r : SReg) (v : Byte) :
    ioWr8 (s.cfg.stdMap.addr (s.cfg.stdBase.get c) r) v (s.withIo D es) =
      .ok () (s.withIo D (es ++ [.wr8 (s.cfg.stdMap.addr (s.cfg.stdBase.get c) r) v])) :=
  ioWr8_absent (s := s.withIo D es) hwf hp r v

/-- A read of a register of the INTEG device (spec/47_host_primitives.md R251). -/
theorem ioRd16_device (hp : s.cfg.integPresent = true) (r : IReg) :
    ioRd16 (integAddr s.cfg r) (s.withIo D es) =
      .ok (D.integ.readValue s.cfg r s.drawValue)
        ((s.drawnIf (D.integ.readDraws r)).withIo (D.setInteg (D.integ.afterRead r))
          (es ++ [.rd16 (integAddr s.cfg r) (D.integ.readValue s.cfg r s.drawValue)])) := by
  refine (ioRd16_present (s := s.withIo D es) hwf hp r).trans ?_
  rw [withIo_drawnIf]; rfl

/-- A read of a register of the absent INTEG device takes a draw (spec/47_host_primitives.md R254). -/
theorem ioRd16_noDevice (hp : s.cfg.integPresent = false) (r : IReg) :
    ioRd16 (integAddr s.cfg r) (s.withIo D es) =
      .ok s.drawValue (s.drawn1.withIo D (es ++ [.rd16 (integAddr s.cfg r) s.drawValue])) := by
  refine (ioRd16_absent (s := s.withIo D es) hwf hp r).trans ?_
  rw [withIo_drawn1]; rfl

/-- A write of a register of the INTEG device (spec/47_host_primitives.md R253). -/
theorem ioWr16_device (hp : s.cfg.integPresent = true) (r : IReg) (v : Half) :
    ioWr16 (integAddr s.cfg r) v (s.withIo D es) =
      .ok () (s.withIo (D.setInteg (D.integ.write r v)) (es ++ [.wr16 (integAddr s.cfg r) v])) :=
  ioWr16_present (s := s.withIo D es) hwf hp r v

/-- A write of a register of the absent INTEG device is seen by nobody (spec/47_host_primitives.md R254). -/
theorem ioWr16_noDevice (hp : s.cfg.integPresent = false) (r : IReg) (v : Half) :
    ioWr16 (integAddr s.cfg r) v (s.withIo D es) = .ok () (s.withIo D (es ++ [.wr16 (integAddr s.cfg r) v])) :=
  ioWr16_absent (s := s.withIo D es) hwf hp r v

end WithIo

/-! ### A capability on each variant -/

section Variants

variable {q : Slot} {s : State} (hregs : s.regs q = regsOf s.cfg q)
include hregs

/-- The address record of a STD port is the base of its block (spec/10_state.md R37). -/
theorem regs_std {c : StdSlot} (hk : q.kind = .std c) : s.regs q = .std (s.cfg.stdBase.get c) := by
  rw [hregs, regsOf, hk]

/-- The address record of the INTEG port is its six registers (spec/10_state.md R37). -/
theorem regs_integ (hk : q.kind = .integ) : s.regs q = .integ (integAddr s.cfg .ien) (integAddr s.cfg .lctl)
    (integAddr s.cfg .baud) (integAddr s.cfg .stat) (integAddr s.cfg .txd) (integAddr s.cfg .rxd) := by
  rw [hregs, regsOf, hk]; rfl

theorem runHal_std (accs : Config → Regs → List Acc) {c : StdSlot} (hk : q.kind = .std c) : runHal q accs s
    = runAccs q (accs s.cfg (.std (s.cfg.stdBase.get c))) 0#16 (s.withIo s.dev s.trace) := by
  rw [runHal, regs_std hregs hk, withIo_self]

theorem runHal_integ (accs : Config → Regs → List Acc) (hk : q.kind = .integ) : runHal q accs s
    = runAccs q (accs s.cfg (.integ (integAddr s.cfg .ien) (integAddr s.cfg .lctl) (integAddr s.cfg .baud)
      (integAddr s.cfg .stat) (integAddr s.cfg .txd) (integAddr s.cfg .rxd))) 0#16 (s.withIo s.dev s.trace) := by
  rw [runHal, regs_integ hregs hk, withIo_self]

/-- A capability of one read, on a STD port. -/
theorem runHal_read8 {accs : Config → Regs → List Acc} {c : StdSlot} (hk : q.kind = .std c) {r : SReg} {v : Byte}
    {t : State} (haccs : accs s.cfg (.std (s.cfg.stdBase.get c)) = [.rd8 (s.cfg.stdMap.addr (s.cfg.stdBase.get c) r)])
    (h : ioRd8 (s.cfg.stdMap.addr (s.cfg.stdBase.get c) r) (s.withIo s.dev s.trace) = .ok v t) :
    runHal q accs s = .ok (v.setWidth 16) t := by
  rw [runHal_std hregs _ hk, haccs, runAccs_rd8, h]; rfl

/-- A capability of one read, on the INTEG port. -/
theorem runHal_read16 {accs : Config → Regs → List Acc} (hk : q.kind = .integ) {r : IReg} {v : Half}
    {t : State} (haccs : accs s.cfg (.integ (integAddr s.cfg .ien) (integAddr s.cfg .lctl) (integAddr s.cfg .baud)
      (integAddr s.cfg .stat) (integAddr s.cfg .txd) (integAddr s.cfg .rxd)) = [.rd16 (integAddr s.cfg r)])
    (h : ioRd16 (integAddr s.cfg r) (s.withIo s.dev s.trace) = .ok v t) : runHal q accs s = .ok v t := by
  rw [runHal_integ hregs _ hk, haccs, runAccs_rd16, h]; rfl

end Variants

/-- The devices are as they were where only a draw was taken. -/
theorem withIo_drawn1_dev (s : State) (es : List HostEvent) :
    s.drawn1.withIo s.dev es = { s.drawn1 with trace := es } := by
  rw [State.withIo, ← drawn1_dev s]

/-- The first read of a capability, where the STD chip is absent. -/
theorem ioRd8_noChip_first {s : State} (hwf : s.cfg.wf = true) {c : StdSlot} (hp : s.cfg.stdPresent.get c = false)
    (r : SReg) :
    ioRd8 (s.cfg.stdMap.addr (s.cfg.stdBase.get c) r) (s.withIo s.dev s.trace) =
      .ok (s.drawValue.setWidth 8) { s.drawn1 with trace := s.trace
        ++ [.rd8 (s.cfg.stdMap.addr (s.cfg.stdBase.get c) r) (s.drawValue.setWidth 8)] } := by
  rw [ioRd8_noChip hwf hp, withIo_drawn1_dev]

/-- The first read of a capability, where the INTEG device is absent. -/
theorem ioRd16_noDevice_first {s : State} (hwf : s.cfg.wf = true) (hp : s.cfg.integPresent = false) (r : IReg) :
    ioRd16 (integAddr s.cfg r) (s.withIo s.dev s.trace) =
      .ok s.drawValue { s.drawn1 with trace := s.trace ++ [.rd16 (integAddr s.cfg r) s.drawValue] } := by
  rw [ioRd16_noDevice hwf hp, withIo_drawn1_dev]

/-- A byte read is a byte again after it has stood in a temporary (spec/43_hal_variant_mux.md R155). -/
@[simp] theorem setWidth_half_byte (b : Byte) : (b.setWidth 16).setWidth 8 = b := by
  rw [BitVec.setWidth_setWidth_of_le _ (by decide), BitVec.setWidth_eq]

/-! ### The clearing reads (spec/43_hal_variant_mux.md R169, R170) -/

section Clearing

variable {q : Slot} {s u : State} {v : Half}

/-- HAL.CLR_MS as a word and as the action of the dispatcher. -/
theorem clrMs_words (h : runHal q accClrMs s = .ok v u) :
    exec (.halClrMs q.sel) s = .next { u with ret := .unit } ∧ exec (.dspOnModem q.sel) s = .next u := by
  rw [exec_halClrMs, exec_dspOnModem, h]; exact ⟨rfl, rfl⟩

/-- HAL.CLR_LS as a word and as the action of the dispatcher. -/
theorem clrLs_words (h : runHal q accClrLs s = .ok v u) :
    exec (.halClrLs q.sel) s = .next { u with ret := .unit } ∧ exec (.dspOnLine q.sel) s = .next u := by
  rw [exec_halClrLs, exec_dspOnLine, h]; exact ⟨rfl, rfl⟩

end Clearing

/-- Settles O36: one read on each variant, of the MSR (none on INTEG) and of the status register. -/
theorem clearingReads : Obligations.ClearingReads := by
  intro s q hwf hregs
  refine ⟨fun c hk => ⟨fun hp => ⟨?ms, ?ls⟩, fun hp => ⟨?msAbsent, ?lsAbsent⟩⟩, fun hk => ⟨?msInteg, ?lsInteg⟩⟩
  case ms => exact ⟨_, clrMs_words (runHal_read8 hregs hk rfl (ioRd8_chip hwf hp .msr))⟩
  case ls => exact ⟨_, clrLs_words (runHal_read8 hregs hk rfl (ioRd8_chip hwf hp .lsr))⟩
  case msAbsent => exact ⟨_, clrMs_words (runHal_read8 hregs hk rfl (ioRd8_noChip_first hwf hp .msr))⟩
  case lsAbsent => exact ⟨_, clrLs_words (runHal_read8 hregs hk rfl (ioRd8_noChip_first hwf hp .lsr))⟩
  case msInteg => exact clrMs_words (v := 0#16) (by rw [runHal_integ hregs _ hk]; rfl)
  case lsInteg =>
    dsimp only
    cases hp : s.cfg.integPresent with
    | false =>
      exact ⟨_, clrLs_words (runHal_read16 hregs hk rfl (ioRd16_noDevice hwf hp .stat))⟩
    | true => exact ⟨_, clrLs_words (runHal_read16 hregs hk rfl (ioRd16_device hwf hp .stat))⟩

/-! ### HAL.TX_EMPTY (spec/43_hal_variant_mux.md R164) -/

section TxEmpty

variable {q : Slot} {s : State} (hregs : s.regs q = regsOf s.cfg q)
include hregs

theorem halTxEmpty_std {c : StdSlot} (hk : q.kind = .std c) {v : Byte} {t : State}
    (h : ioRd8 (s.cfg.stdMap.addr (s.cfg.stdBase.get c) .lsr) (s.withIo s.dev s.trace) = .ok v t) :
    exec (.halTxEmpty q.sel) s = .next { t with ret := .bool (hasBit v s.cfg.stdMap.lsrThre) } := by
  rw [exec_halTxEmpty, halTxEmpty, runHal_read8 hregs hk rfl h, andThen_ok, regs_std hregs hk, returning_ok,
    txEmptyOf, Regs.variant, setWidth_half_byte]

theorem halTxEmpty_integ (hk : q.kind = .integ) {v : Half} {t : State}
    (h : ioRd16 (integAddr s.cfg .stat) (s.withIo s.dev s.trace) = .ok v t) :
    exec (.halTxEmpty q.sel) s = .next { t with ret := .bool (hasBit v s.cfg.isThre) } := by
  rw [exec_halTxEmpty, halTxEmpty, runHal_read16 hregs hk rfl h, andThen_ok, regs_integ hregs hk, returning_ok]; rfl

end TxEmpty

/-- Settles O34: the value of the status register by `hasBit_lsr_thre` and `hasBit_status`, the acknowledge by
`ackLine_eq`. -/
theorem halTxEmptyAndAckLine : Obligations.HalTxEmptyAndAckLine := by
  refine ⟨fun s q hwf hregs => ⟨fun c hk => ⟨fun hp => ?present, fun hp => ?absent⟩,
    fun hk => ⟨fun hp => ?device, fun hp => ?noDevice⟩⟩, fun s l hwf => ?ack⟩
  case present =>
    rw [halTxEmpty_std hregs hk (ioRd8_chip hwf hp .lsr), StdDev.readValue, hasBit_lsr_thre (Config.wf_stdMap hwf)]
    exact ⟨_, rfl⟩
  case absent => exact ⟨_, halTxEmpty_std hregs hk (ioRd8_noChip_first hwf hp .lsr)⟩
  case device =>
    obtain ⟨-, hthre⟩ := hasBit_status hwf s.dev.integ s.drawValue
    rw [halTxEmpty_integ hregs hk (ioRd16_device hwf hp .stat), IntegDev.readValue, hthre]
    exact ⟨_, rfl⟩
  case noDevice => exact ⟨_, halTxEmpty_integ hregs hk (ioRd16_noDevice_first hwf hp .stat)⟩
  case ack =>
    obtain ⟨-, -, hlines⟩ := Config.wf_tables hwf
    obtain ⟨-, -, hack⟩ := hlines l
    rw [exec_halAckLine, ackLine_eq hwf, returning_ok]
    by_cases h : Slot.p2 ∈ s.cfg.portsOf l
    · rw [if_pos (hack.2 h), if_pos h]; rfl
    · rw [if_neg (mt hack.1 h), if_neg h]

/-! ### HAL.CAUSE (spec/43_hal_variant_mux.md R159, R161) -/

section CauseWord

variable {q : Slot} {s t : State} (hregs : s.regs q = regsOf s.cfg q)
include hregs

theorem halCause_std {c : StdSlot} (hk : q.kind = .std c) {v : Byte} {x : Cause}
    (h : ioRd8 (s.cfg.stdMap.addr (s.cfg.stdBase.get c) .iir) s = .ok v t) (hx : stdCauseOf s.cfg.stdMap v = some x) :
    exec (.halCause q.sel) s = .next { t with ret := .cause x } := by
  have hcause : causeOf s.cfg (s.regs q) (v.setWidth 16) = some x := by
    rw [regs_std hregs hk, causeOf, Regs.variant, setWidth_half_byte]; exact hx
  rw [exec_halCause, halCause_eq_ok.2 ⟨_, runHal_read8 hregs hk rfl h, hcause⟩, returning_ok]

theorem halCause_reserved {c : StdSlot} (hk : q.kind = .std c) {v : Byte}
    (h : ioRd8 (s.cfg.stdMap.addr (s.cfg.stdBase.get c) .iir) s = .ok v t) (hx : stdCauseOf s.cfg.stdMap v = none) :
    exec (.halCause q.sel) s = .refused .reservedCause := by
  have hcause : causeOf s.cfg (s.regs q) (v.setWidth 16) = none := by
    rw [regs_std hregs hk, causeOf, Regs.variant, setWidth_half_byte]; exact hx
  rw [exec_halCause, halCause, runHal_read8 hregs hk rfl h, andThen_ok, hcause]; rfl

theorem halCause_integ (hk : q.kind = .integ) {v : Half} (h : ioRd16 (integAddr s.cfg .stat) s = .ok v t) :
    exec (.halCause q.sel) s = .next { t with ret := .cause (integCauseOf s.cfg v) } := by
  have hcause : causeOf s.cfg (s.regs q) v = some (integCauseOf s.cfg v) := by
    rw [regs_integ hregs hk]; rfl
  rw [exec_halCause, halCause_eq_ok.2 ⟨_, runHal_read16 hregs hk rfl h, hcause⟩, returning_ok]

end CauseWord

section CauseValue

variable {m : StdMap} {v : Byte}

/-- A value with the bit for nothing pending names no cause, whatever its identity. -/
theorem stdCauseOf_idle (h : v &&& m.iirNone ≠ 0#8) : stdCauseOf m v = some .none :=
  if_pos (hasBit_eq_true.2 h)

/-- Otherwise the identity names the cause; the identities of a legal map differ. -/
theorem stdCauseOf_pending (hm : m.wf = true) (h : v &&& m.iirNone = 0#8) :
    (v &&& m.iirId = m.iirMs → stdCauseOf m v = some .modemStatus)
    ∧ (v &&& m.iirId = m.iirTx → stdCauseOf m v = some .txEmpty)
    ∧ (v &&& m.iirId = m.iirRx → stdCauseOf m v = some .rxReady)
    ∧ (v &&& m.iirId = m.iirLs → stdCauseOf m v = some .lineStatus)
    ∧ (v &&& m.iirId = m.iirTo → stdCauseOf m v = some .rxTimeout)
    ∧ (v &&& m.iirId ∉ [m.iirMs, m.iirTx, m.iirRx, m.iirLs, m.iirTo] → stdCauseOf m v = none) := by
  have hids := StdMap.wf_ids hm
  simp only [List.nodup_cons, List.mem_cons, not_or] at hids
  obtain ⟨⟨n₁, n₂, n₃, n₄, -⟩, ⟨n₅, n₆, n₇, -⟩, ⟨n₈, n₉, -⟩, ⟨n₀, -⟩, -⟩ := hids
  have hb : hasBit v m.iirNone = false := hasBit_eq_false.2 h
  refine ⟨fun e => ?_, fun e => ?_, fun e => ?_, fun e => ?_, fun e => ?_, fun e => ?_⟩
  · simp [stdCauseOf, hb, e]
  · simp [stdCauseOf, hb, e, Ne.symm n₁]
  · simp [stdCauseOf, hb, e, Ne.symm n₂, Ne.symm n₅]
  · simp [stdCauseOf, hb, e, Ne.symm n₃, Ne.symm n₆, Ne.symm n₈]
  · simp [stdCauseOf, hb, e, Ne.symm n₄, Ne.symm n₇, Ne.symm n₉, Ne.symm n₀]
  · simp only [List.mem_cons, List.not_mem_nil, or_false, not_or] at e
    obtain ⟨e₁, e₂, e₃, e₄, e₅⟩ := e
    simp [stdCauseOf, hb, e₁, e₂, e₃, e₄, e₅]

end CauseValue

/-- Settles O28: the read always answers, and `stdCauseOf_pending` takes the identities one by one. -/
theorem halCauseDecodes : Obligations.HalCauseDecodes := by
  intro s q hwf hregs
  refine ⟨fun c hk => ?std, fun hk => ?integ⟩
  case std =>
    obtain ⟨v, t, hread⟩ := ioRd8_std_ok hwf c .iir
    refine ⟨v, t, hread, fun hidle => halCause_std hregs hk hread (stdCauseOf_idle hidle), fun hbusy => ?_⟩
    obtain ⟨hms, htx, hrx, hls, hto, hother⟩ := stdCauseOf_pending (Config.wf_stdMap hwf) hbusy
    exact ⟨fun e => halCause_std hregs hk hread (hms e), fun e => halCause_std hregs hk hread (htx e),
      fun e => halCause_std hregs hk hread (hrx e), fun e => halCause_std hregs hk hread (hls e),
      fun e => halCause_std hregs hk hread (hto e), fun e => halCause_reserved hregs hk hread (hother e)⟩
  case integ =>
    obtain ⟨v, t, hread⟩ := ioRd16_integ_ok hwf .stat
    exact ⟨v, t, hread, halCause_integ hregs hk hread⟩

/-! ### HAL.CONFIG (spec/43_hal_variant_mux.md R162, R172, R173) -/

/-- The frame byte of settings that CONFIGURE accepts. -/
theorem stdFrameWord_legal {cfg : Config} {par data stop : Word} (hlo : 5 ≤ data.toNat) (hhi : data.toNat ≤ 8)
    (hpar : par.toNat ≤ 4) (hstop : stop.toNat = 1 ∨ stop.toNat = 2) : stdFrameWord cfg par data stop =
      (BitVec.ofNat 8 (data.toNat - 5) <<< cfg.stdMap.lcrData)
      ||| (if stop.toNat = 2 then cfg.stdMap.lcrStop else 0#8)
      ||| (if par.toNat = 0 then 0#8 else if par.toNat = 1 then cfg.stdMap.lcrParity
        else if par.toNat = 2 then cfg.stdMap.lcrParity ||| cfg.stdMap.lcrEven
        else if par.toNat = 3 then cfg.stdMap.lcrParity ||| cfg.stdMap.lcrStick
        else cfg.stdMap.lcrParity ||| cfg.stdMap.lcrEven ||| cfg.stdMap.lcrStick) := by
  have hone : stop = 1#32 ↔ stop.toNat = 1 := BitVec.toNat_inj.symm
  have htwo : stop = 2#32 ↔ stop.toNat = 2 := BitVec.toNat_inj.symm
  have hparity : cfg.stdMap.parityBits par = if par.toNat = 0 then 0#8 else if par.toNat = 1 then cfg.stdMap.lcrParity
      else if par.toNat = 2 then cfg.stdMap.lcrParity ||| cfg.stdMap.lcrEven
      else if par.toNat = 3 then cfg.stdMap.lcrParity ||| cfg.stdMap.lcrStick
      else cfg.stdMap.lcrParity ||| cfg.stdMap.lcrEven ||| cfg.stdMap.lcrStick := by
    rw [StdMap.parityBits]
    generalize par.toNat = n at hpar
    interval_cases n <;> rfl
  simp only [stdFrameWord, StdMap.frame, hparity, hone, htwo, hlo, hhi, hpar, hstop, decide_true, Bool.and_true,
    Bool.or_eq_true, decide_eq_true_eq, Bool.true_and, if_true]

/-- The frame byte of the reference map, as a number (spec/43_hal_variant_mux.md R173). -/
theorem reference_frame {data par stop : Nat} (hlo : 5 ≤ data) (hhi : data ≤ 8) (hpar : par ≤ 4)
    (hstop : stop = 1 ∨ stop = 2) : let m := StdMap.reference
    (BitVec.ofNat 8 (data - 5) <<< m.lcrData) ||| (if stop = 2 then m.lcrStop else 0#8)
      ||| (if par = 0 then 0#8 else if par = 1 then m.lcrParity else if par = 2 then m.lcrParity ||| m.lcrEven
        else if par = 3 then m.lcrParity ||| m.lcrStick else m.lcrParity ||| m.lcrEven ||| m.lcrStick)
    = BitVec.ofNat 8 ((data - 5) + 4 * (stop - 1) + (if par = 0 then 0x00 else if par = 1 then 0x08
        else if par = 2 then 0x18 else if par = 3 then 0x28 else 0x38)) := by
  obtain rfl | rfl := hstop <;> interval_cases data <;> interval_cases par <;> rfl

section ConfigWords

variable {m : StdMap}

/-- The four writes of HAL.CONFIG, the middle two through the mode-switch bit. -/
theorem StdDev.write_config (hm : m.wf = true) (d : StdDev) (lo hi frame : Byte) :
    (((d.write m .lcr m.lcrDlab).write m .data lo).write m .ier hi).write m .lcr frame
      = { d with dll := lo, dlm := hi, lcr := frame } := by
  have hdlab : hasBit m.lcrDlab m.lcrDlab = true := hasBit_self (StdMap.wf_bits hm (by simp))
  simp [StdDev.write, StdDev.dlab, hdlab]

theorem setWidth_low (x : Half) : (x &&& 0x00FF#16).setWidth 8 = x.extractLsb' 0 8 := by
  ext i hi
  interval_cases i <;> simp

theorem setWidth_high (x : Half) : (x >>> 8).setWidth 8 = x.extractLsb' 8 8 := by
  ext i hi
  simp

end ConfigWords

end Sys2Proof.Machine

namespace Sys2Proof

open Machine

/-- Settles O33: the divisor is `stdDivisorWord` and the frame `stdFrameWord`, whatever the settings; on a chip the
four writes come together by `StdDev.write_config`. -/
theorem halConfig : Obligations.HalConfig := by
  intro s q hwf hregs
  refine ⟨fun c hk => ⟨stdDivisorWord s.cfg s.a0, stdFrameWord s.cfg s.a1 s.a2 s.a3, fun x hx => ?divisor,
    fun ⟨hlo, hhi, hpar, hstop⟩ => stdFrameWord_legal hlo hhi hpar hstop,
    fun ⟨hlo, hhi, hpar, hstop⟩ hm => ?reference, ?std⟩, fun hk => ?integ⟩
  case divisor => rw [stdDivisorWord, Config.stdDivisor?, hx]; rfl
  case reference =>
    rw [stdFrameWord_legal hlo hhi hpar hstop, hm]; exact reference_frame hlo hhi hpar hstop
  case std =>
    rw [exec_halConfig, runHal_std hregs _ hk, accConfig]
    cases hp : s.cfg.stdPresent.get c with
    | false =>
      simp only [runAccs_wr8, runAccs_nil, WVal.eval, ioWr8_noChip hwf hp, andThen_ok, returning_ok, setWidth_low,
        setWidth_high, setWidth_half_byte, List.append_assoc]
      rfl
    | true =>
      simp only [runAccs_wr8, runAccs_nil, WVal.eval, ioWr8_chip hwf hp, andThen_ok, returning_ok, setWidth_low,
        setWidth_high, setWidth_half_byte, List.append_assoc, Devices.setStd_get, Devices.setStd_setStd,
        StdDev.write_config (Config.wf_stdMap hwf)]
      rfl
  case integ =>
    rw [exec_halConfig, runHal_integ hregs _ hk, accConfig]
    cases hp : s.cfg.integPresent with
    | false =>
      simp only [runAccs_wr16, runAccs_nil, WVal.eval, ioWr16_noDevice hwf hp, andThen_ok, returning_ok,
        List.append_assoc]
      rfl
    | true =>
      simp only [runAccs_wr16, runAccs_nil, WVal.eval, ioWr16_device hwf hp, andThen_ok, returning_ok,
        List.append_assoc]
      rfl

end Sys2Proof

namespace Sys2Proof.Machine

open Sys2Proof

/-! ### The enables (spec/43_hal_variant_mux.md R155 to R157, R171) -/

section Enables

variable {s t u : State} {q : Slot} {c : StdSlot} {v : Byte} {x : Half}

/-- A capability that sets a bit of a STD register: the value read, with the bit set, is written back. -/
theorem runHal_setBit (hregs : s.regs q = regsOf s.cfg q) (hk : q.kind = .std c)
    {accs : Config → Regs → List Acc} {a : Half} {b : Byte}
    (haccs : accs s.cfg (.std (s.cfg.stdBase.get c)) = [.rd8 a, .wr8 a (.orV (b.setWidth 16))])
    (hread : ioRd8 a s = .ok v t) (hwrite : ioWr8 a (v ||| b) t = .ok () u) :
    runHal q accs s = .ok (v.setWidth 16) u := by
  rw [runHal_std hregs _ hk, haccs, withIo_self, runAccs_rd8, hread, andThen_ok, runAccs_wr8, WVal.eval,
    BitVec.setWidth_or, setWidth_half_byte, setWidth_half_byte, hwrite]; rfl

/-- HAL.DIS_INT on a STD port (spec/43_hal_variant_mux.md R157). -/
theorem runHal_disInt (hregs : s.regs q = regsOf s.cfg q) (hk : q.kind = .std c)
    (hwrite : ioWr8 (s.cfg.stdMap.addr (s.cfg.stdBase.get c) .ier) 0#8 s = .ok () u) :
    runHal q accDisInt s = .ok 0#16 u := by
  have hzero : BitVec.setWidth 8 0#16 = 0#8 := rfl
  rw [runHal_std hregs _ hk, accDisInt, withIo_self, runAccs_wr8, WVal.eval, hzero, hwrite]; rfl

/-- A capability that changes the enable word of the INTEG port: the value read is written back, changed. -/
theorem runHal_changeIen (hregs : s.regs q = regsOf s.cfg q) (hk : q.kind = .integ)
    {accs : Config → Regs → List Acc} {e : WVal}
    (haccs : accs s.cfg (.integ (integAddr s.cfg .ien) (integAddr s.cfg .lctl) (integAddr s.cfg .baud)
      (integAddr s.cfg .stat) (integAddr s.cfg .txd) (integAddr s.cfg .rxd))
      = [.rd16 (integAddr s.cfg .ien), .wr16 (integAddr s.cfg .ien) e])
    (hread : ioRd16 (integAddr s.cfg .ien) s = .ok x t)
    (hwrite : ioWr16 (integAddr s.cfg .ien) (e.eval x) t = .ok () u) : runHal q accs s = .ok x u := by
  rw [runHal_integ hregs _ hk, haccs, withIo_self, runAccs_rd16, hread, andThen_ok, runAccs_wr16, hwrite]; rfl

/-- HAL.DIS_TX on the INTEG port (spec/43_hal_variant_mux.md R171). -/
theorem halDisTx_integ (hregs : s.regs q = regsOf s.cfg q) (hk : q.kind = .integ) :
    halDisTx q s = runHal q accDisTx s := by
  rw [halDisTx, regs_integ hregs hk]; rfl

variable (hwf : s.cfg.wf = true)
include hwf

/-- A register of a STD block can be read and written back, present or not. -/
theorem std_readModifyWrite (c : StdSlot) (r : SReg) (f : Byte → Byte) :
    ∃ v t u, ioRd8 (s.cfg.stdMap.addr (s.cfg.stdBase.get c) r) s = .ok v t
      ∧ ioWr8 (s.cfg.stdMap.addr (s.cfg.stdBase.get c) r) (f v) t = .ok () u := by
  obtain ⟨v, t, hread⟩ := ioRd8_std_ok hwf c r
  have hcfg : t.cfg = s.cfg := by rw [ioRd8_frame hread]
  obtain ⟨u, hwrite⟩ := ioWr8_std_ok (s := t) (hcfg ▸ hwf) c r (f v)
  exact ⟨v, t, u, hread, hcfg ▸ hwrite⟩

/-- An INTEG register can be read and written back, present or not. -/
theorem integ_readModifyWrite (r : IReg) (e : WVal) :
    ∃ v t u, ioRd16 (integAddr s.cfg r) s = .ok v t ∧ ioWr16 (integAddr s.cfg r) (e.eval v) t = .ok () u := by
  obtain ⟨v, t, hread⟩ := ioRd16_integ_ok hwf r
  have hcfg : t.cfg = s.cfg := by rw [ioRd16_frame hread]
  obtain ⟨u, hwrite⟩ := ioWr16_integ_ok (s := t) (hcfg ▸ hwf) r (e.eval v)
  exact ⟨v, t, u, hread, hcfg ▸ hwrite⟩

/-- The IER of a present chip is read as it stands, with the divisor latch off. -/
theorem ioRd8_ier (hp : s.cfg.stdPresent.get c = true) (hdlab : (s.dev.std.get c).dlab s.cfg.stdMap = false) :
    ioRd8 (s.cfg.stdMap.addr (s.cfg.stdBase.get c) .ier) s = .ok (s.dev.std.get c).ier (s.withIo s.dev
      (s.trace ++ [.rd8 (s.cfg.stdMap.addr (s.cfg.stdBase.get c) .ier) (s.dev.std.get c).ier])) := by
  refine (ioRd8_chip (D := s.dev) (es := s.trace) hwf hp .ier).trans ?_
  simp only [StdDev.readValue, StdDev.readDraws, StdDev.afterRead, hdlab, Devices.setStd_same, Bool.false_eq_true,
    if_false]
  rfl

end Enables

section EnableValues

variable {m : StdMap} {d : StdDev} (hm : m.wf = true) (hdlab : d.dlab m = false)
include hdlab

/-- A write of 0 to the IER turns every enable off and raises nothing (spec/48_environment_device.md R276). -/
theorem StdDev.write_ier_zero : d.write m .ier 0#8 = { d with ier := 0#8 } := by
  simp [StdDev.write, hdlab]

include hm

/-- Setting the receive enable raises nothing (spec/48_environment_device.md R276). -/
theorem StdDev.write_ier_rx :
    d.write m .ier (d.ier ||| m.ierRx) = { d with ier := (d.ier ||| m.ierRx) &&& m.ierMask } := by
  have hids := StdMap.wf_ier hm
  simp only [List.nodup_cons, List.mem_cons, not_or] at hids
  obtain ⟨⟨hne, -⟩, -⟩ := hids
  have hother : hasBit m.ierRx m.ierTx = false :=
    hasBit_oneBit_ne (StdMap.wf_bits hm (by simp)) (StdMap.wf_bits hm (by simp)) hne
  simp only [StdDev.write, hdlab, hasBit_or, hother, Bool.or_false, Bool.false_eq_true, if_false]
  cases hasBit d.ier m.ierTx <;> simp

/-- Setting the transmit enable where it was off raises the condition, if nothing waits to be sent
(spec/48_environment_device.md R276). -/
theorem StdDev.write_ier_tx : d.write m .ier (d.ier ||| m.ierTx) = { d with
    ier := (d.ier ||| m.ierTx) &&& m.ierMask
    threInt := d.threInt || (decide (d.ier &&& m.ierTx = 0#8) && d.txf.isEmpty) } := by
  have hself : hasBit m.ierTx m.ierTx = true := hasBit_self (StdMap.wf_bits hm (by simp))
  have hoff : (!hasBit d.ier m.ierTx) = decide (d.ier &&& m.ierTx = 0#8) := by
    rw [hasBit, decide_not, Bool.not_not]
  simp only [StdDev.write, hdlab, hasBit_or, hself, Bool.or_true, hoff, true_and, Bool.false_eq_true, if_false]
  cases d.txf <;> cases decide (d.ier &&& m.ierTx = 0#8) <;> simp

end EnableValues

/-- Settles O27: the accesses first, then their effect on a present device by `StdDev.write_ier_rx`,
`StdDev.write_ier_tx` and `StdDev.write_ier_zero`. -/
theorem halEnables : Obligations.HalEnables := by
  intro s q hwf hregs
  refine ⟨fun c hk => ⟨?enRx, ?enTx, ?disInt, ?disTx⟩, fun hk => ⟨?rx, ?tx, ?int, ?dtx⟩,
    fun c hk hp hdlab => ?chip, fun hk hp => ?device⟩
  case enRx =>
    obtain ⟨v, t, u, hread, hwrite⟩ := std_readModifyWrite hwf c .ier (· ||| s.cfg.stdMap.ierRx)
    exact ⟨v, t, u, hread, hwrite, by rw [exec_halEnRx, runHal_setBit hregs hk rfl hread hwrite]; rfl⟩
  case enTx =>
    obtain ⟨v, t, u, hread, hwrite⟩ := std_readModifyWrite hwf c .ier (· ||| s.cfg.stdMap.ierTx)
    exact ⟨v, t, u, hread, hwrite, by rw [exec_halEnTx, runHal_setBit hregs hk rfl hread hwrite]; rfl⟩
  case disInt =>
    obtain ⟨u, hwrite⟩ := ioWr8_std_ok hwf c .ier 0x00#8
    exact ⟨u, hwrite, by rw [exec_halDisInt, runHal_disInt hregs hk hwrite]; rfl⟩
  case disTx => rw [exec_halDisTx, halDisTx, regs_std hregs hk]; rfl
  case rx =>
    obtain ⟨v, t, u, hread, hwrite⟩ := integ_readModifyWrite hwf .ien (.orV s.cfg.imRxie)
    exact ⟨v, t, u, hread, hwrite, by rw [exec_halEnRx, runHal_changeIen hregs hk rfl hread hwrite]; rfl⟩
  case tx =>
    obtain ⟨v, t, u, hread, hwrite⟩ := integ_readModifyWrite hwf .ien (.orV s.cfg.imTxie)
    exact ⟨v, t, u, hread, hwrite, by rw [exec_halEnTx, runHal_changeIen hregs hk rfl hread hwrite]; rfl⟩
  case int =>
    obtain ⟨v, t, u, hread, hwrite⟩ := integ_readModifyWrite hwf .ien (.andNotV (s.cfg.imRxie ||| s.cfg.imTxie))
    exact ⟨v, t, u, hread, hwrite, by rw [exec_halDisInt, runHal_changeIen hregs hk rfl hread hwrite]; rfl⟩
  case dtx =>
    obtain ⟨v, t, u, hread, hwrite⟩ := integ_readModifyWrite hwf .ien (.andNotV s.cfg.imTxie)
    exact ⟨v, t, u, hread, hwrite, by
      rw [exec_halDisTx, halDisTx_integ hregs hk, runHal_changeIen hregs hk rfl hread hwrite]; rfl⟩
  case chip =>
    have hm := Config.wf_stdMap hwf
    have hlatch := hasBit_eq_false.2 hdlab
    have hread := ioRd8_ier hwf hp hlatch
    refine ⟨?_, ?_, ?_⟩
    · rw [exec_halEnRx, runHal_setBit hregs hk rfl hread (ioWr8_chip hwf hp .ier _), StdDev.write_ier_rx hm hlatch,
        List.append_assoc]; rfl
    · rw [exec_halEnTx, runHal_setBit hregs hk rfl hread (ioWr8_chip hwf hp .ier _), StdDev.write_ier_tx hm hlatch,
        List.append_assoc]; rfl
    · rw [exec_halDisInt, runHal_disInt hregs hk (ioWr8_chip (D := s.dev) (es := s.trace) hwf hp .ier _),
        StdDev.write_ier_zero hlatch]; rfl
  case device =>
    have hread := ioRd16_device (D := s.dev) (es := s.trace) hwf hp .ien
    have hwrite (v : Half) := ioWr16_device (D := s.dev) (es := s.trace ++ [.rd16 s.cfg.iIen s.dev.integ.ien]) hwf hp
      .ien v
    simp only [List.append_assoc] at hwrite
    refine ⟨?_, ?_, ?_, ?_⟩
    · rw [exec_halEnRx, runHal_changeIen hregs hk rfl hread (hwrite _)]; rfl
    · rw [exec_halEnTx, runHal_changeIen hregs hk rfl hread (hwrite _)]; rfl
    · rw [exec_halDisInt, runHal_changeIen hregs hk rfl hread (hwrite _)]; rfl
    · rw [exec_halDisTx, halDisTx_integ hregs hk, runHal_changeIen hregs hk rfl hread (hwrite _)]; rfl

/-! ### HAL.DETECT and HAL.INIT (spec/43_hal_variant_mux.md R165, R166) -/

section DetectInit

variable {s t u : State} {q : Slot} {c : StdSlot} {v : Byte} (hregs : s.regs q = regsOf s.cfg q)
include hregs

theorem halDetect_std (hk : q.kind = .std c)
    (hwrite : ioWr8 (s.cfg.stdMap.addr (s.cfg.stdBase.get c) .ier) 0#8 s = .ok () t)
    (hread : ioRd8 (s.cfg.stdMap.addr (s.cfg.stdBase.get c) .ier) t = .ok v u) :
    exec (.halDetect q.sel) s = .next { u with ret := .bool (v = 0#8) } := by
  have hzero : BitVec.setWidth 8 0#16 = 0#8 := rfl
  have hwide : (v.setWidth 16 = 0#16) = (v = 0#8) := propext
    ⟨fun h => by rw [← setWidth_half_byte v, h]; rfl, fun h => by rw [h]; rfl⟩
  have hrun : runHal q accDetect s = .ok (v.setWidth 16) u := by
    rw [runHal_std hregs _ hk, accDetect, withIo_self]
    simp only [runAccs_wr8, WVal.eval, hzero, hwrite, andThen_ok, runAccs_rd8, hread, runAccs_nil]
  rw [exec_halDetect, halDetect_eq_ok.2 ⟨_, hrun, rfl⟩, regs_std hregs hk, returning_ok, detectOf, Regs.variant]
  simp only [hwide]

theorem halDetect_integ (hk : q.kind = .integ) :
    exec (.halDetect q.sel) s = .next { s with ret := .bool true } := by
  have hrun : runHal q accDetect s = .ok 0#16 s := by rw [runHal_integ hregs _ hk]; rfl
  rw [exec_halDetect, halDetect_eq_ok.2 ⟨_, hrun, rfl⟩, regs_integ hregs hk]; rfl

theorem halInit_std (hk : q.kind = .std c)
    (hwrite : ioWr8 (s.cfg.stdMap.addr (s.cfg.stdBase.get c) .iir) s.cfg.fcrInit s = .ok () t) :
    exec (.halInit q.sel) s = .next { t with ret := .unit } := by
  rw [exec_halInit, runHal_std hregs _ hk, accInit, withIo_self, runAccs_wr8, WVal.eval, setWidth_half_byte, hwrite]
  rfl

theorem halInit_integ (hk : q.kind = .integ)
    (hwrite : ioWr16 (integAddr s.cfg .lctl) s.cfg.integInitWord s = .ok () t) :
    exec (.halInit q.sel) s = .next { t with ret := .unit } := by
  rw [exec_halInit, runHal_integ hregs _ hk, accInit, withIo_self, runAccs_wr16, WVal.eval, hwrite]; rfl

end DetectInit

/-- The FCR write of HAL.INIT empties both FIFOs and sets the trigger (spec/48_environment_device.md R277). -/
theorem StdDev.write_fcrInit {cfg : Config} (hwf : cfg.wf = true) (d : StdDev) :
    d.write cfg.stdMap .iir cfg.fcrInit = { d with
      fifoEn := true, trigger := cfg.stdRxTrigger, rxf := [], txf := [], rxTo := false
      threInt := d.threInt || !d.txf.isEmpty } := by
  obtain ⟨hen, hrx, htx⟩ := fcrInit_bits hwf
  simp only [StdDev.write, StdDev.writeFcr, hen, hrx, htx, ofFcr_fcrInit hwf]
  cases d.txf <;> cases d.threInt <;> simp

/-! ### HAL.SNAPSHOT and HAL.RESTORE (spec/43_hal_variant_mux.md R167, R168) -/

section Saved

variable {s : State} {q : Slot} {as : List Acc} {v : Half} {D : Devices} {es : List HostEvent} {cfg : Config}

theorem drawn1_setSavedInteg (s : State) (k : CfgReg) (x : Half) :
    (s.setSavedInteg k x).drawn1 = s.drawn1.setSavedInteg k x := by
  unfold State.drawn1 State.setSavedInteg
  cases s.draws <;> rfl

/-- The three registers of `saved_integ` are all there is to it. -/
theorem setSavedInteg_all (s : State) (x y z : Half) :
    ((s.setSavedInteg .ien x).setSavedInteg .lctl y).setSavedInteg .baud z = { s with savedInteg := ⟨x, y, z⟩ } := rfl

/-- A configuration register of the INTEG device is copied to `saved_integ`. -/
theorem runAccs_snap_device (hcfg : s.cfg = cfg) (hwf : cfg.wf = true) (hp : cfg.integPresent = true) {r : IReg}
    (hr : r ∈ [IReg.ien, .lctl, .baud]) (k : CfgReg) :
    runAccs q (.snap (integAddr cfg r) k :: as) v (s.withIo D es) =
      runAccs q as v ((s.setSavedInteg k (D.integ.readValue cfg r s.drawValue)).withIo D
        (es ++ [.rd16 (integAddr cfg r) (D.integ.readValue cfg r s.drawValue)])) := by
  subst hcfg
  have hquiet : D.integ.readDraws r = false ∧ D.integ.afterRead r = D.integ := by
    simp only [List.mem_cons, List.not_mem_nil, or_false] at hr
    obtain rfl | rfl | rfl := hr <;> exact ⟨rfl, rfl⟩
  obtain ⟨hdraw, hafter⟩ := hquiet
  rw [runAccs_snap, ioRd16_device hwf hp, hdraw, hafter]; rfl

/-- Where the INTEG device is absent, `saved_integ` takes draws. -/
theorem runAccs_snap_noDevice (hcfg : s.cfg = cfg) (hwf : cfg.wf = true) (hp : cfg.integPresent = false) (r : IReg)
    (k : CfgReg) : runAccs q (.snap (integAddr cfg r) k :: as) v (s.withIo D es) =
      runAccs q as v ((s.drawn1.setSavedInteg k s.drawValue).withIo D
        (es ++ [.rd16 (integAddr cfg r) s.drawValue])) := by
  subst hcfg
  rw [runAccs_snap, ioRd16_noDevice hwf hp]; rfl

variable (hwf : s.cfg.wf = true) (hregs : s.regs q = regsOf s.cfg q) (hk : q.kind = .integ)
include hwf hregs hk

theorem halSnapshot_device (hp : s.cfg.integPresent = true) : exec (.halSnapshot q.sel) s = .next { s with
    savedInteg := ⟨s.dev.integ.ien, s.dev.integ.lctl, s.dev.integ.baud⟩
    trace := s.trace ++ [.rd16 s.cfg.iIen s.dev.integ.ien, .rd16 s.cfg.iLctl s.dev.integ.lctl,
      .rd16 s.cfg.iBaud s.dev.integ.baud]
    ret := .unit } := by
  rw [exec_halSnapshot, runHal_integ hregs _ hk, accSnapshot, runAccs_snap_device ?_ hwf hp ?_,
    runAccs_snap_device ?_ hwf hp ?_, runAccs_snap_device ?_ hwf hp ?_, List.append_assoc, List.append_assoc]
  · simp only [IntegDev.readValue, setSavedInteg_all, runAccs_nil, returning_ok]; rfl
  all_goals simp

theorem halSnapshot_noDevice (hp : s.cfg.integPresent = false) : ∃ x y z,
    exec (.halSnapshot q.sel) s = .next { s.drawn1.drawn1.drawn1 with
      savedInteg := ⟨x, y, z⟩
      trace := s.trace ++ [.rd16 s.cfg.iIen x, .rd16 s.cfg.iLctl y, .rd16 s.cfg.iBaud z], ret := .unit } := by
  rw [exec_halSnapshot, runHal_integ hregs _ hk, accSnapshot, runAccs_snap_noDevice ?_ hwf hp,
    runAccs_snap_noDevice ?_ hwf hp, runAccs_snap_noDevice ?_ hwf hp, List.append_assoc, List.append_assoc]
  · have hdev : s.dev = s.drawn1.drawn1.drawn1.dev := by simp
    simp only [drawn1_setSavedInteg, setSavedInteg_all, runAccs_nil, returning_ok]
    rw [State.withIo, hdev]
    exact ⟨_, _, _, rfl⟩
  all_goals simp

theorem halRestore_integ : exec (.halRestore q.sel) s = .next { s with
    dev := if s.cfg.integPresent then { s.dev with integ := { s.dev.integ with
      ien := s.savedInteg.ien, lctl := s.savedInteg.lctl, baud := s.savedInteg.baud } } else s.dev
    trace := s.trace ++ [.wr16 s.cfg.iIen s.savedInteg.ien, .wr16 s.cfg.iLctl s.savedInteg.lctl,
      .wr16 s.cfg.iBaud s.savedInteg.baud]
    ret := .unit } := by
  have hsaved {D es} : (s.withIo D es).savedInteg = s.savedInteg := rfl
  rw [exec_halRestore, runHal_integ hregs _ hk, accRestore]
  cases hp : s.cfg.integPresent with
  | false =>
    simp only [runAccs_rest, hsaved, ioWr16_noDevice hwf hp, andThen_ok, runAccs_nil, List.append_assoc]; rfl
  | true =>
    simp only [runAccs_rest, hsaved, ioWr16_device hwf hp, andThen_ok, runAccs_nil, List.append_assoc]; rfl

end Saved

/-- Settles O35: the capabilities one by one, on each variant. -/
theorem lifecycleCapabilities : Obligations.LifecycleCapabilities := by
  intro s q hwf hregs
  refine ⟨fun c hk => ⟨fun hm ht => ?value, fun hp => ⟨fun hdlab => ?found, ?init⟩, fun hp => ⟨?absent, ?noInit⟩⟩,
    fun hk => ⟨halDetect_integ hregs hk, ?integInit⟩, fun c hk => ⟨?noSnap, ?noRestore⟩,
    fun hk => ⟨halSnapshot_device hwf hregs hk, halSnapshot_noDevice hwf hregs hk, halRestore_integ hwf hregs hk⟩⟩
  case value =>
    have hinit : s.cfg.fcrInit = 0xC7#8 := by rw [Config.fcrInit, ht, hm]; rfl
    exact hinit
  case found =>
    have hlatch := hasBit_eq_false.2 hdlab
    have hwrite := ioWr8_chip (D := s.dev) (es := s.trace) hwf hp .ier 0#8
    rw [StdDev.write_ier_zero hlatch] at hwrite
    have hread := ioRd8_chip (D := s.dev.setStd c { s.dev.std.get c with ier := 0#8 })
      (es := s.trace ++ [.wr8 (s.cfg.stdMap.addr (s.cfg.stdBase.get c) .ier) 0#8]) hwf hp .ier
    have hlatch' : ({ s.dev.std.get c with ier := 0#8 } : StdDev).dlab s.cfg.stdMap = false := hlatch
    simp only [Devices.setStd_get, Devices.setStd_setStd, StdDev.readValue, StdDev.readDraws, StdDev.afterRead,
      hlatch', List.append_assoc, Bool.false_eq_true, if_false] at hread
    rw [halDetect_std hregs hk hwrite hread]; rfl
  case init =>
    rw [halInit_std hregs hk (ioWr8_chip (D := s.dev) (es := s.trace) hwf hp .iir _), StdDev.write_fcrInit hwf]; rfl
  case absent =>
    have hread := ioRd8_noChip (D := s.dev)
      (es := s.trace ++ [.wr8 (s.cfg.stdMap.addr (s.cfg.stdBase.get c) .ier) 0#8]) hwf hp .ier
    rw [withIo_drawn1_dev, List.append_assoc] at hread
    exact halDetect_std hregs hk (ioWr8_noChip (D := s.dev) (es := s.trace) hwf hp .ier 0#8) hread
  case noInit => exact halInit_std hregs hk (ioWr8_noChip (D := s.dev) (es := s.trace) hwf hp .iir _)
  case integInit =>
    dsimp only
    cases hp : s.cfg.integPresent with
    | false => exact halInit_integ hregs hk (ioWr16_noDevice (D := s.dev) (es := s.trace) hwf hp .lctl _)
    | true => exact halInit_integ hregs hk (ioWr16_device (D := s.dev) (es := s.trace) hwf hp .lctl _)
  case noSnap => rw [exec_halSnapshot, runHal_std hregs _ hk]; rfl
  case noRestore => rw [exec_halRestore, runHal_std hregs _ hk]; rfl

/-! ### The bytes a drain takes (spec/43_hal_variant_mux.md R158) -/

/-- A port after a byte a drain has read: it is queued, or dropped and counted (spec/10_state.md R30). -/
def PortState.take (max : Nat) (ps : PortState) (b : Byte) : PortState :=
  if ps.rx.count = ps.rx.capacity then { ps with rxDropped := BitVec.ofNat 32 (min (ps.rxDropped.toNat + 1) max) }
  else { ps with rx := ps.rx.putAll [b] }

/-- A port after the bytes of a drain, in order. -/
def PortState.takeAll (max : Nat) (ps : PortState) (bs : List Byte) : PortState := bs.foldl (PortState.take max) ps

section Take

variable {q : Slot} {s : State} {ps : PortState} {b : Byte} {max : Nat}

theorem PortState.take_full (h : ps.rx.count = ps.rx.capacity) :
    ps.take max b = { ps with rxDropped := BitVec.ofNat 32 (min (ps.rxDropped.toNat + 1) max) } := if_pos h

theorem PortState.take_room (h : ps.rx.count ≠ ps.rx.capacity) :
    ps.take max b = { ps with rx := ps.rx.putAll [b] } := if_neg h

/-- The step of a drain on a ring that the issuing condition allows. -/
theorem takeByte_eq (hp : s.slots.get q = some ps) (ho : s.ringOwned q = true) :
    takeByte q b s = .ok () (s.setSlot q (some (ps.take s.cfg.rxdropMax b))) := by
  by_cases hfull : ps.rx.count = ps.rx.capacity
  · rw [takeByte, ringPush_full (d := .rx) hp ho hfull, andThen_ok, if_neg Bool.false_ne_true, withPort_some hp,
      PortState.take_full hfull]
  · rw [takeByte, ringPush_takes (d := .rx) hp ho hfull, andThen_ok, if_pos rfl, PortState.take_room hfull]; rfl

theorem setSlot_withIo (s : State) (q : Slot) (v w : Option PortState) (D : Devices) (es : List HostEvent) :
    ((s.setSlot q v).withIo D es).setSlot q w = (s.setSlot q w).withIo D es :=
  congrArg (fun u : State => u.withIo D es) (setSlot_setSlot s q v w)

theorem takeByte_withIo (ho : s.ringOwned q = true) {D : Devices} {es : List HostEvent} :
    takeByte q b ((s.setSlot q (some ps)).withIo D es)
      = .ok () ((s.setSlot q (some (ps.take s.cfg.rxdropMax b))).withIo D es) := by
  rw [takeByte_eq (s := (s.setSlot q (some ps)).withIo D es) (get_setSlot s q _) ho, setSlot_withIo]; rfl

/-- The counter of dropped bytes saturates. -/
theorem dropped_toNat (hmax : max ≤ 4294967295) (n : Nat) : (BitVec.ofNat 32 (min n max)).toNat = min n max := by
  rw [BitVec.toNat_ofNat, Nat.mod_eq_of_lt (by omega)]

/-- The bytes go to `rx` as far as there is room, the others are counted; the rest of the port stays. -/
theorem PortState.takeAll_eq (hmax : max ≤ 4294967295) (bs : List Byte) (hok : ps.rx.ok = true) :
    ∃ rx dropped, ps.takeAll max bs = { ps with rx := rx, rxDropped := dropped }
      ∧ rx.ok = true ∧ rx.capacity = ps.rx.capacity
      ∧ rx.queued = ps.rx.queued ++ (bs.take ps.rx.room).map some
      ∧ dropped.toNat = if bs.length - ps.rx.room = 0 then ps.rxDropped.toNat
          else min (ps.rxDropped.toNat + (bs.length - ps.rx.room)) max := by
  induction bs generalizing ps with
  | nil => exact ⟨ps.rx, ps.rxDropped, rfl, hok, rfl, by simp, by simp⟩
  | cons b bs ih =>
    by_cases hfull : ps.rx.count = ps.rx.capacity
    · have hroom : ps.rx.room = 0 := by rw [RingBuffer.room, hfull, Nat.sub_self]
      have hstep := PortState.take_full (max := max) (b := b) hfull
      obtain ⟨rx, dropped, heq, hok', hcap, hqueued, hdropped⟩ := ih (ps := ps.take max b) (by rw [hstep]; exact hok)
      rw [hstep] at heq hcap hqueued hdropped
      refine ⟨rx, dropped, ?_, hok', hcap, ?_, ?_⟩
      · rw [PortState.takeAll, List.foldl_cons, hstep]; exact heq
      · rw [hqueued]; simp only [hroom, List.take_zero]
      · simp only [dropped_toNat hmax, hroom, List.length_cons, Nat.sub_zero] at hdropped ⊢
        rw [hdropped, if_neg (Nat.succ_ne_zero _)]
        split <;> omega
    · have hlen : [b].length ≤ ps.rx.room := RingBuffer.room_pos hok hfull
      have hstep := PortState.take_room (max := max) (b := b) hfull
      have hroom : (ps.rx.putAll [b]).room = ps.rx.room - 1 := RingBuffer.putAll_room hok hlen
      obtain ⟨rx, dropped, heq, hok', hcap, hqueued, hdropped⟩ := ih (ps := ps.take max b)
        (by rw [hstep]; exact RingBuffer.putAll_ok hok hlen)
      rw [hstep] at heq hcap hqueued hdropped
      obtain ⟨n, hn⟩ : ∃ n, ps.rx.room = n + 1 := ⟨ps.rx.room - 1, by rw [List.length_singleton] at hlen; omega⟩
      refine ⟨rx, dropped, ?_, hok', hcap, ?_, ?_⟩
      · rw [PortState.takeAll, List.foldl_cons, hstep]; exact heq
      · rw [hqueued, RingBuffer.queued_putAll hok hlen, hroom, hn, List.take_succ_cons]; simp
      · simp only [hroom, hn, List.length_cons, Nat.add_sub_cancel, Nat.add_sub_add_right] at hdropped ⊢
        exact hdropped

end Take

/-! ### The drain of a STD port -/

/-- The chip after `n` rounds of a drain at most. -/
def StdDev.drained : Nat → StdDev → StdDev
  | 0, d => d
  | n + 1, d =>
    match d.rxf with
    | [] => { d with lsErr := 0#4 }
    | _ :: rest => drained n { d with rxf := rest, lsErr := 0#4, rxTo := false }

/-- The accesses of `n` rounds of a drain at most, with the values they read. -/
def StdDev.drainEvents (m : StdMap) (base : Half) : Nat → StdDev → List HostEvent
  | 0, _ => []
  | n + 1, d =>
    match d.rxf with
    | [] => [.rd8 (m.addr base .lsr) (d.lsr m)]
    | b :: rest => .rd8 (m.addr base .lsr) (d.lsr m) :: .rd8 (m.addr base .data) b
        :: drainEvents m base n { d with rxf := rest, lsErr := 0#4, rxTo := false }

/-- The status read of round `k`: the line errors show in the first round alone
(spec/48_environment_device.md R279). -/
def StdDev.statusRead (m : StdMap) (base : Half) (d : StdDev) (k : Nat) (ready : Bool) : HostEvent :=
  .rd8 (m.addr base .lsr) ((if ready then m.lsrDr else 0#8)
    ||| ((if k = 0 then d.lsErr else 0#4).setWidth 8 <<< m.lsrErr)
    ||| (if d.txf = [] then m.lsrThre ||| m.lsrTemt else 0#8))

section Drained

variable {m : StdMap} {base : Half}

theorem StdDev.drained_nil {d : StdDev} (h : d.rxf = []) (n : Nat) : d.drained (n + 1) = { d with lsErr := 0#4 } := by
  rw [StdDev.drained, h]

theorem StdDev.drained_cons {d : StdDev} {b : Byte} {rest : List Byte} (h : d.rxf = b :: rest) (n : Nat) :
    d.drained (n + 1) = StdDev.drained n { d with rxf := rest, lsErr := 0#4, rxTo := false } := by
  rw [StdDev.drained, h]

theorem StdDev.drainEvents_nil {d : StdDev} (h : d.rxf = []) (n : Nat) :
    d.drainEvents m base (n + 1) = [.rd8 (m.addr base .lsr) (d.lsr m)] := by
  rw [StdDev.drainEvents, h]

theorem StdDev.drainEvents_cons {d : StdDev} {b : Byte} {rest : List Byte} (h : d.rxf = b :: rest) (n : Nat) :
    d.drainEvents m base (n + 1) = [.rd8 (m.addr base .lsr) (d.lsr m)] ++ [.rd8 (m.addr base .data) b]
      ++ StdDev.drainEvents m base n { d with rxf := rest, lsErr := 0#4, rxTo := false } := by
  rw [StdDev.drainEvents, h]; rfl

theorem StdDev.drained_succ (n : Nat) (d : StdDev) : d.drained (n + 1) = { d with
    rxf := d.rxf.drop (n + 1), lsErr := 0#4, rxTo := d.rxTo && d.rxf.isEmpty } := by
  induction n generalizing d with
  | zero => cases h : d.rxf <;> simp [StdDev.drained, h]
  | succ n ih =>
    cases h : d.rxf with
    | nil => rw [StdDev.drained_nil h]; simp [h]
    | cons b rest => rw [StdDev.drained_cons h, ih]; simp

/-- The next round sees the line errors cleared. -/
theorem StdDev.statusRead_next (d : StdDev) (rest : List Byte) (k : Nat) (ready : Bool) :
    StdDev.statusRead m base { d with rxf := rest, lsErr := 0#4, rxTo := false } k ready
      = d.statusRead m base (k + 1) ready := by
  simp [StdDev.statusRead]

theorem StdDev.drainEvents_eq (n : Nat) (d : StdDev) : d.drainEvents m base n
    = ((d.rxf.take n).zipIdx.flatMap fun x => [d.statusRead m base x.2 true, .rd8 (m.addr base .data) x.1])
      ++ (if d.rxf.length < n then [d.statusRead m base d.rxf.length false] else []) := by
  have hlsr (d : StdDev) : HostEvent.rd8 (m.addr base .lsr) (d.lsr m) = d.statusRead m base 0 (!d.rxf.isEmpty) := by
    cases h : d.rxf <;> cases h' : d.txf <;> simp [StdDev.statusRead, StdDev.lsr, h, h']
  induction n generalizing d with
  | zero => simp [StdDev.drainEvents]
  | succ n ih =>
    cases h : d.rxf with
    | nil => rw [StdDev.drainEvents_nil h, hlsr]; simp [h]
    | cons b rest =>
      rw [StdDev.drainEvents_cons h, hlsr, ih, List.take_succ_cons, List.zipIdx_cons, List.zipIdx_succ,
        List.flatMap_cons, List.flatMap_map]
      simp only [StdDev.statusRead_next, List.length_cons, Nat.add_lt_add_iff_right]
      simp [h]

end Drained

section DataRegisters

variable {s : State} {c : StdSlot} {D : Devices} {es : List HostEvent} {cfg : Config} (hcfg : s.cfg = cfg)
  (hwf : cfg.wf = true) (hp : cfg.stdPresent.get c = true)
include hcfg hwf hp

/-- A read of the LSR shows and clears the line errors (spec/48_environment_device.md R279). -/
theorem ioRd8_lsr : ioRd8 (cfg.stdMap.addr (cfg.stdBase.get c) .lsr) (s.withIo D es) =
    .ok ((D.std.get c).lsr cfg.stdMap) (s.withIo (D.setStd c { D.std.get c with lsErr := 0#4 })
      (es ++ [.rd8 (cfg.stdMap.addr (cfg.stdBase.get c) .lsr) ((D.std.get c).lsr cfg.stdMap)])) := by
  subst hcfg
  rw [ioRd8_chip hwf hp]; rfl

/-- A read of the data register takes the oldest byte (spec/48_environment_device.md R275). -/
theorem ioRd8_data (hlatch : (D.std.get c).dlab cfg.stdMap = false) {b : Byte} {rest : List Byte}
    (hrxf : (D.std.get c).rxf = b :: rest) :
    ioRd8 (cfg.stdMap.addr (cfg.stdBase.get c) .data) (s.withIo D es) =
      .ok b (s.withIo (D.setStd c { D.std.get c with rxf := rest, rxTo := false })
        (es ++ [.rd8 (cfg.stdMap.addr (cfg.stdBase.get c) .data) b])) := by
  subst hcfg
  have hvalue (free : Half) : (D.std.get c).readValue s.cfg.stdMap .data free = b := by
    simp [StdDev.readValue, hlatch, hrxf]
  have hdraw : (D.std.get c).readDraws s.cfg.stdMap .data = false := by simp [StdDev.readDraws, hrxf]
  have hafter : (D.std.get c).afterRead s.cfg.stdMap .data = { D.std.get c with rxf := rest, rxTo := false } := by
    simp [StdDev.afterRead, hlatch, hrxf]
  rw [ioRd8_chip hwf hp, hvalue, hdraw, hafter]; rfl

end DataRegisters

section DrainStd

variable {s : State} {q : Slot} {c : StdSlot} (hwf : s.cfg.wf = true) (ho : s.ringOwned q = true)
  (hp : s.cfg.stdPresent.get c = true)
include hwf ho hp

/-- A drain of a present chip with the divisor latch off, round by round. -/
theorem runAccs_drainStd (n : Nat) (v : Half) (ps : PortState) (D : Devices) (es : List HostEvent)
    (hlatch : (D.std.get c).dlab s.cfg.stdMap = false) :
    ∃ r, runAccs q (List.replicate n [Acc.test8 (s.cfg.stdMap.addr (s.cfg.stdBase.get c) .lsr) s.cfg.stdMap.lsrDr,
        .take8 (s.cfg.stdMap.addr (s.cfg.stdBase.get c) .data)]).flatten v ((s.setSlot q (some ps)).withIo D es)
      = .ok r ((s.setSlot q (some (ps.takeAll s.cfg.rxdropMax ((D.std.get c).rxf.take n)))).withIo
          (D.setStd c ((D.std.get c).drained n))
          (es ++ (D.std.get c).drainEvents s.cfg.stdMap (s.cfg.stdBase.get c) n)) := by
  induction n generalizing v ps D es with
  | zero => exact ⟨v, by simp [StdDev.drained, StdDev.drainEvents, PortState.takeAll]⟩
  | succ n ih =>
    rw [List.replicate_succ, List.flatten_cons, List.cons_append, runAccs_test8,
      ioRd8_lsr (s := s.setSlot q (some ps)) (cfg := s.cfg) rfl hwf hp, andThen_ok, hasBit_lsr_dr (Config.wf_stdMap hwf)]
    cases hrxf : (D.std.get c).rxf with
    | nil =>
      rw [List.isEmpty_nil, Bool.not_true, if_neg Bool.false_ne_true, StdDev.drained_nil hrxf,
        StdDev.drainEvents_nil hrxf]
      exact ⟨_, rfl⟩
    | cons b rest =>
      have hrxf' : ((D.setStd c { D.std.get c with lsErr := 0#4 }).std.get c).rxf = b :: rest := by
        rw [Devices.setStd_get, hrxf]
      rw [List.isEmpty_cons, Bool.not_false, if_pos rfl, List.cons_append, List.nil_append, runAccs_take8,
        ioRd8_data (s := s.setSlot q (some ps)) (cfg := s.cfg) rfl hwf hp (by rw [Devices.setStd_get]; exact hlatch)
          hrxf', andThen_ok, takeByte_withIo ho, andThen_ok, Devices.setStd_get, Devices.setStd_setStd,
        StdDev.drained_cons hrxf, StdDev.drainEvents_cons hrxf]
      obtain ⟨r, hr⟩ := ih ((D.std.get c).lsr s.cfg.stdMap |>.setWidth 16) (ps.take s.cfg.rxdropMax b)
        (D.setStd c { D.std.get c with rxf := rest, lsErr := 0#4, rxTo := false })
        (es ++ [.rd8 (s.cfg.stdMap.addr (s.cfg.stdBase.get c) .lsr) ((D.std.get c).lsr s.cfg.stdMap)]
          ++ [.rd8 (s.cfg.stdMap.addr (s.cfg.stdBase.get c) .data) b]) (by rw [Devices.setStd_get]; exact hlatch)
      rw [Devices.setStd_get, Devices.setStd_setStd] at hr
      exact ⟨r, hr.trans (by simp only [List.append_assoc, List.take_succ_cons]; rfl)⟩

end DrainStd

/-! ### HAL.DRAIN_RX and the two receive actions (spec/43_hal_variant_mux.md R158, spec/44_dispatcher.md R196, R197) -/

/-- A word that drains does what HAL.DRAIN_RX does; its result is its own. -/
theorem exec_drain {i : Instr} {q : Slot} {s u : State} {v : Half}
    (hi : i ∈ [Instr.halDrainRx q.sel, .dspOnRxReady q.sel, .dspOnRxTimeout q.sel])
    (h : runHal q accDrainRx s = .ok v u) : ∃ t, exec i s = .next t ∧ t = { u with ret := t.ret } := by
  simp only [List.mem_cons, List.not_mem_nil, or_false] at hi
  obtain rfl | rfl | rfl := hi
  · exact ⟨_, by rw [exec_halDrainRx, h]; rfl, rfl⟩
  · exact ⟨_, by rw [exec_dspOnRxReady, h]; rfl, rfl⟩
  · exact ⟨_, by rw [exec_dspOnRxTimeout, h]; rfl, rfl⟩

/-- The address record of an open port (spec/10_state.md R37). -/
theorem regs_of_port {s : State} {q : Slot} {ps : PortState} (hp : s.slots.get q = some ps)
    (h : ps.regs = regsOf s.cfg q) : s.regs q = regsOf s.cfg q := by
  rw [State.regs, hp]; exact h

/-- HAL.DRAIN_RX of a present chip with the divisor latch off. -/
theorem runHal_drainStd {s : State} {q : Slot} {c : StdSlot} {ps : PortState} (hwf : s.cfg.wf = true)
    (hk : q.kind = .std c) (hps : s.slots.get q = some ps) (hregs : ps.regs = regsOf s.cfg q)
    (ho : s.ringOwned q = true) (hp : s.cfg.stdPresent.get c = true)
    (hlatch : (s.dev.std.get c).dlab s.cfg.stdMap = false) :
    ∃ r, runHal q accDrainRx s = .ok r
      ((s.setSlot q (some (ps.takeAll s.cfg.rxdropMax ((s.dev.std.get c).rxf.take s.cfg.rxDrainCap.std)))).withIo
        (s.dev.setStd c ((s.dev.std.get c).drained s.cfg.rxDrainCap.std))
        (s.trace ++ (s.dev.std.get c).drainEvents s.cfg.stdMap (s.cfg.stdBase.get c) s.cfg.rxDrainCap.std)) := by
  have hsame : s.setSlot q (some ps) = s := by rw [← hps, State.setSlot, PerSlot.set_get]
  obtain ⟨r, hr⟩ := runAccs_drainStd hwf ho hp s.cfg.rxDrainCap.std 0#16 ps s.dev s.trace hlatch
  rw [hsame] at hr
  exact ⟨r, by rw [runHal_std (regs_of_port hps hregs) _ hk]; exact hr⟩

/-- Settles O30: the drain goes round by round (`runAccs_drainStd`); what the rounds leave in the chip, in the ring and
in the trace has a closed form. -/
theorem drainTakesTheStdBytes : Obligations.DrainTakesTheStdBytes := by
  intro s q c ps i hwf hk hps hregs ho hok hp hlatch hi m base d cap bytes lost status
  obtain ⟨-, -, hmax, -, -, hcap, -⟩ := Config.wf_limits hwf
  have hdlab : d.dlab m = false := hasBit_eq_false.2 hlatch
  obtain ⟨r, hrun⟩ := runHal_drainStd hwf hk hps hregs ho hp hdlab
  obtain ⟨t, hexec, ht⟩ := exec_drain hi hrun
  obtain ⟨rx, dropped, htake, hok', hcap', hqueued, hdropped⟩ := PortState.takeAll_eq (ps := ps) hmax bytes hok
  obtain ⟨n, hn⟩ : ∃ n, cap = n + 1 := ⟨cap - 1, by omega⟩
  refine ⟨t, rx, dropped, hexec, ht.trans ?_, hok', hcap', hqueued, hdropped⟩
  have hdrained : d.drained cap = { d with rxf := d.rxf.drop cap, lsErr := 0#4, rxTo := d.rxTo && d.rxf.isEmpty } := by
    rw [hn, StdDev.drained_succ]
  rw [htake, hdrained, StdDev.drainEvents_eq, ← List.append_assoc]
  rfl

/-! ### The drain of the INTEG port -/

theorem drawn1_setSlot (s : State) (q : Slot) (v : Option PortState) :
    (s.setSlot q v).drawn1 = s.drawn1.setSlot q v := by
  unfold State.drawn1 State.setSlot
  cases s.draws <;> rfl

section DrainInteg

variable {s : State} {D : Devices} {es : List HostEvent} {cfg : Config} (hcfg : s.cfg = cfg) (hwf : cfg.wf = true)
  (hp : cfg.integPresent = true)
include hcfg hwf hp

/-- A read of the status word shows whether a byte waits, and clears the line error
(spec/48_environment_device.md R282). -/
theorem ioRd16_stat : ∃ v, hasBit v cfg.isRxrdy = D.integ.rxd.isSome
    ∧ ioRd16 (integAddr cfg .stat) (s.withIo D es) = .ok v
      (s.drawn1.withIo (D.setInteg { D.integ with lineErr := false }) (es ++ [.rd16 (integAddr cfg .stat) v])) := by
  subst hcfg
  obtain ⟨hready, -⟩ := hasBit_status hwf D.integ s.drawValue
  exact ⟨_, hready, ioRd16_device hwf hp .stat⟩

/-- A read of the receive word takes the byte waiting (spec/48_environment_device.md R285). -/
theorem ioRd16_rxd {b : Byte} (hrxd : D.integ.rxd = some b) :
    ioRd16 (integAddr cfg .rxd) (s.withIo D es) = .ok (b.setWidth 16)
      (s.withIo (D.setInteg { D.integ with rxd := none }) (es ++ [.rd16 (integAddr cfg .rxd) (b.setWidth 16)])) := by
  subst hcfg
  rw [ioRd16_device hwf hp]
  have hvalue (free : Half) : D.integ.readValue s.cfg .rxd free = b.setWidth 16 := by
    simp [IntegDev.readValue, hrxd]
  have hdraw : D.integ.readDraws .rxd = false := by simp [IntegDev.readDraws, hrxd]
  rw [hvalue, hdraw]; rfl

variable {q : Slot} {as : List Acc} {v : Half}

/-- A round of a drain that finds nothing ends it. -/
theorem runAccs_drainInteg_none (hrxd : D.integ.rxd = none) :
    ∃ x, runAccs q (.test16 (integAddr cfg .stat) cfg.isRxrdy :: as) v (s.withIo D es) = .ok x
      (s.drawn1.withIo (D.setInteg { D.integ with lineErr := false }) (es ++ [.rd16 (integAddr cfg .stat) x])) := by
  obtain ⟨x, hready, hread⟩ := ioRd16_stat (D := D) (es := es) hcfg hwf hp
  rw [hrxd, Option.isSome_none] at hready
  exact ⟨x, by rw [runAccs_test16, hread, andThen_ok, hready, if_neg Bool.false_ne_true]⟩

end DrainInteg

section DrainIntegRound

variable {s : State} {D : Devices} {es : List HostEvent} (hwf : s.cfg.wf = true) (hp : s.cfg.integPresent = true)
  {q : Slot} (ho : s.ringOwned q = true) {ps : PortState} {as : List Acc} {v : Half}
include hwf hp ho

/-- A round of a drain that finds a byte takes it. -/
theorem runAccs_drainInteg_some {b : Byte} (hrxd : D.integ.rxd = some b) :
    ∃ x, runAccs q (.test16 (integAddr s.cfg .stat) s.cfg.isRxrdy :: .take16 (integAddr s.cfg .rxd) :: as) v
        ((s.setSlot q (some ps)).withIo D es)
      = runAccs q as x (((s.drawn1.setSlot q (some (ps.take s.cfg.rxdropMax b)))).withIo
          (D.setInteg { D.integ with rxd := none, lineErr := false })
          (es ++ [.rd16 (integAddr s.cfg .stat) x] ++ [.rd16 (integAddr s.cfg .rxd) (b.setWidth 16)])) := by
  obtain ⟨x, hready, hread⟩ :=
    ioRd16_stat (s := s.setSlot q (some ps)) (D := D) (es := es) (cfg := s.cfg) rfl hwf hp
  rw [hrxd, Option.isSome_some] at hready
  have hrxd' : (D.setInteg { D.integ with lineErr := false }).integ.rxd = some b := hrxd
  have hown : s.drawn1.ringOwned q = true := by simpa [State.ringOwned] using ho
  refine ⟨x, ?_⟩
  rw [runAccs_test16, hread, andThen_ok, hready, if_pos rfl, drawn1_setSlot, runAccs_take16,
    ioRd16_rxd (cfg := s.cfg) (by simp) hwf hp hrxd', andThen_ok, setWidth_half_byte, takeByte_withIo hown,
    andThen_ok, drawn1_cfg]
  rfl

end DrainIntegRound

/-! ### HAL.DRAIN_RX of the present device -/

section DrainIntegRuns

variable {s : State} {ps : PortState} (hwf : s.cfg.wf = true) (hps : s.slots.get .p2 = some ps)
  (hregs : ps.regs = regsOf s.cfg .p2)
include hwf hps hregs

/-- The accesses of a drain: one round and those after it. -/
theorem runHal_drainInteg : ∃ as, runHal .p2 accDrainRx s =
      runAccs .p2 (.test16 (integAddr s.cfg .stat) s.cfg.isRxrdy :: .take16 (integAddr s.cfg .rxd) :: as) 0#16
        ((s.setSlot .p2 (some ps)).withIo s.dev s.trace)
    ∧ (s.cfg.rxDrainCap.integ = 1 → as = [])
    ∧ (1 < s.cfg.rxDrainCap.integ → ∃ bs, as = .test16 (integAddr s.cfg .stat) s.cfg.isRxrdy :: bs) := by
  obtain ⟨-, -, -, -, -, -, hcap⟩ := Config.wf_limits hwf
  obtain ⟨n, hn⟩ : ∃ n, s.cfg.rxDrainCap.integ = n + 1 := ⟨s.cfg.rxDrainCap.integ - 1, by omega⟩
  have hsame : s.setSlot .p2 (some ps) = s := by rw [← hps, State.setSlot, PerSlot.set_get]
  refine ⟨(List.replicate n [Acc.test16 (integAddr s.cfg .stat) s.cfg.isRxrdy, .take16 (integAddr s.cfg .rxd)]).flatten,
    ?_, fun h => ?_, fun h => ?_⟩
  · rw [runHal_integ (regs_of_port hps hregs) _ rfl, accDrainRx, hn, List.replicate_succ, List.flatten_cons, hsame]; rfl
  · obtain rfl : n = 0 := by omega
    rfl
  · obtain ⟨k, rfl⟩ : ∃ k, n = k + 1 := ⟨n - 1, by omega⟩
    exact ⟨_, by rw [List.replicate_succ, List.flatten_cons]; rfl⟩

variable (hp : s.cfg.integPresent = true) (ho : s.ringOwned .p2 = true)
include hp

/-- A drain that finds no byte. -/
theorem runHal_drainInteg_none (hrxd : s.dev.integ.rxd = none) : ∃ x, runHal .p2 accDrainRx s = .ok x
    ((s.drawn1.setSlot .p2 (some ps)).withIo (s.dev.setInteg { s.dev.integ with lineErr := false })
      (s.trace ++ [.rd16 (integAddr s.cfg .stat) x])) := by
  obtain ⟨as, hrun, -⟩ := runHal_drainInteg hwf hps hregs
  obtain ⟨x, hx⟩ := runAccs_drainInteg_none (q := .p2) (s := s.setSlot .p2 (some ps)) (cfg := s.cfg)
    (as := .take16 (integAddr s.cfg .rxd) :: as) (v := 0#16) (es := s.trace) rfl hwf hp hrxd
  exact ⟨x, by rw [hrun, hx, drawn1_setSlot]⟩

include ho

/-- A drain that takes the byte waiting; where the cap allows a second round, that one finds nothing. -/
theorem runHal_drainInteg_some {b : Byte} (hrxd : s.dev.integ.rxd = some b) : ∃ r x y, runHal .p2 accDrainRx s = .ok r
    (((if 1 < s.cfg.rxDrainCap.integ then s.drawn1.drawn1 else s.drawn1).setSlot .p2
        (some (ps.take s.cfg.rxdropMax b))).withIo (s.dev.setInteg { s.dev.integ with rxd := none, lineErr := false })
      (s.trace ++ [.rd16 (integAddr s.cfg .stat) x] ++ [.rd16 (integAddr s.cfg .rxd) (b.setWidth 16)]
        ++ (if 1 < s.cfg.rxDrainCap.integ then [.rd16 (integAddr s.cfg .stat) y] else []))) := by
  obtain ⟨as, hrun, hlast, hmore⟩ := runHal_drainInteg hwf hps hregs
  obtain ⟨-, -, -, -, -, -, hcap⟩ := Config.wf_limits hwf
  obtain ⟨x, hx⟩ := runAccs_drainInteg_some (as := as) (v := 0#16) (es := s.trace) (ps := ps) hwf hp ho hrxd
  rw [hx] at hrun
  by_cases hagain : 1 < s.cfg.rxDrainCap.integ
  · obtain ⟨bs, rfl⟩ := hmore hagain
    obtain ⟨y, hy⟩ := runAccs_drainInteg_none (q := .p2) (as := bs) (v := x) (cfg := s.cfg)
      (s := s.drawn1.setSlot .p2 (some (ps.take s.cfg.rxdropMax b)))
      (D := s.dev.setInteg { s.dev.integ with rxd := none, lineErr := false }) (by simp) hwf hp rfl
    exact ⟨y, x, y, by rw [hrun, hy, if_pos hagain, if_pos hagain, drawn1_setSlot]; rfl⟩
  · obtain rfl := hlast (by omega)
    exact ⟨x, x, x, by rw [hrun, if_neg hagain, if_neg hagain, List.append_nil]; rfl⟩

end DrainIntegRuns

/-- What a drain makes of a port with one byte. -/
theorem PortState.take_eq {ps : PortState} {max : Nat} (hmax : max ≤ 4294967295) (hok : ps.rx.ok = true) (b : Byte) :
    ∃ rx dropped, ps.take max b = { ps with rx := rx, rxDropped := dropped }
      ∧ rx.ok = true ∧ rx.capacity = ps.rx.capacity
      ∧ (ps.rx.count ≠ ps.rx.capacity → rx.queued = ps.rx.queued ++ [some b] ∧ dropped = ps.rxDropped)
      ∧ (ps.rx.count = ps.rx.capacity → rx = ps.rx ∧ dropped.toNat = min (ps.rxDropped.toNat + 1) max) := by
  by_cases hfull : ps.rx.count = ps.rx.capacity
  · exact ⟨ps.rx, _, PortState.take_full hfull, hok, rfl, fun h => absurd hfull h, fun _ => ⟨rfl, dropped_toNat hmax _⟩⟩
  · have hlen : [b].length ≤ ps.rx.room := RingBuffer.room_pos hok hfull
    exact ⟨_, ps.rxDropped, PortState.take_room hfull, RingBuffer.putAll_ok hok hlen, rfl,
      fun _ => ⟨RingBuffer.queued_putAll hok hlen, rfl⟩, fun h => absurd h hfull⟩

/-- Settles O31: no byte waits; or one does, and is the last the cap allows, or is followed by a status read that finds
nothing. -/
theorem drainTakesTheIntegByte : Obligations.DrainTakesTheIntegByte := by
  intro s ps i hwf hp hps hregs ho hok hi d again
  obtain ⟨-, -, hmax, -⟩ := Config.wf_limits hwf
  obtain hnone | ⟨b, hsome⟩ := Option.eq_none_or_eq_some d.rxd
  · obtain ⟨x, hrun⟩ := runHal_drainInteg_none hwf hps hregs hp hnone
    obtain ⟨t, hexec, ht⟩ := exec_drain (q := .p2) hi hrun
    have hagain : ¬again := fun h => h.1 hnone
    have hd : ({ d with lineErr := false } : IntegDev) = { d with rxd := none, lineErr := false } := by rw [← hnone]
    refine ⟨t, ps.rx, ps.rxDropped, x, 0#16, hexec, ht.trans ?_, hok, rfl, fun _ => ⟨rfl, rfl⟩,
      fun b hb => absurd (hnone.symm.trans hb) (by simp), fun h => absurd hnone h⟩
    rw [if_neg hagain, if_neg hagain, State.setSlot, drawn1_slots, hd, List.append_nil, hnone, Option.toList_none,
      List.map_nil, List.append_nil]
    rfl
  · obtain ⟨r, x, y, hrun⟩ := runHal_drainInteg_some hwf hps hregs hp ho hsome
    obtain ⟨t, hexec, ht⟩ := exec_drain (q := .p2) hi hrun
    obtain ⟨rx, dropped, htake, hok', hcap', hroom, hfull⟩ := PortState.take_eq hmax hok b
    have hagain : again ↔ 1 < s.cfg.rxDrainCap.integ := and_iff_right (by rw [hsome]; exact Option.some_ne_none b)
    refine ⟨t, rx, dropped, x, y, hexec, ht.trans ?_, hok', hcap', fun h => absurd (hsome.symm.trans h) (by simp), fun b' hb h => ?_, fun _ => hfull⟩
    · rw [htake]
      simp only [hsome, hagain, State.setSlot, apply_ite State.slots, drawn1_slots, ite_self]
      rfl
    · obtain rfl := Option.some.inj (hsome.symm.trans hb)
      exact hroom h

/-! ### The moves of HAL.FILL_TX (spec/43_hal_variant_mux.md R160) -/

/-- An access that moves the oldest byte of `tx` to the device: `W` is what the write does to the devices, `ev` its
entry in the trace. A ring that is empty ends the capability. -/
structure FillsBy (q : Slot) (s : State) (acc : Acc) (W : Devices → Byte → Devices) (ev : Byte → HostEvent) : Prop where
  stop : ∀ {as v t u}, ringPop q .tx t = .ok none u → runAccs q (acc :: as) v t = .ok v u
  move : ∀ {as v t ps D es b}, ringPop q .tx t = .ok (some b) ((s.setSlot q (some ps)).withIo D es) →
    runAccs q (acc :: as) v t = runAccs q as v ((s.setSlot q (some ps)).withIo (W D b) (es ++ [ev b]))

section Fill

variable {q : Slot} {s : State} {W : Devices → Byte → Devices} {ev : Byte → HostEvent} {a : Half} {acc : Acc}

theorem FillsBy.of_wr8 (h : ∀ ps D es b, ioWr8 a b ((s.setSlot q (some ps)).withIo D es)
      = .ok () ((s.setSlot q (some ps)).withIo (W D b) (es ++ [ev b]))) : FillsBy q s (.fill8 a) W ev where
  stop hpop := by simp only [runAccs, accStep, hpop, andThen_ok, if_true]
  move hpop := by simp only [runAccs, accStep, hpop, h, andThen_ok, Bool.false_eq_true, if_false]

theorem FillsBy.of_wr16 (h : ∀ ps D es b, ioWr16 a (b.setWidth 16) ((s.setSlot q (some ps)).withIo D es)
      = .ok () ((s.setSlot q (some ps)).withIo (W D b) (es ++ [ev b]))) : FillsBy q s (.fill16 a) W ev where
  stop hpop := by simp only [runAccs, accStep, hpop, andThen_ok, if_true]
  move hpop := by simp only [runAccs, accStep, hpop, h, andThen_ok, Bool.false_eq_true, if_false]

variable {D : Devices} {es : List HostEvent} {ps : PortState}

/-- The pop of a fill, where the ring holds a byte. -/
theorem ringPop_withIo (ho : s.ringOwned q = true) (hok : ps.tx.ok = true) {b : Byte} {rest : List (Option Byte)}
    (hqueued : ps.tx.queued = some b :: rest) :
    ringPop q .tx ((s.setSlot q (some ps)).withIo D es)
        = .ok (some b) ((s.setSlot q (some { ps with tx := ps.tx.drop 1 })).withIo D es)
      ∧ (ps.tx.drop 1).ok = true ∧ (ps.tx.drop 1).queued = rest := by
  have hpos : 1 ≤ ps.tx.count.toNat := by
    rw [← RingBuffer.queued_length, hqueued, List.length_cons]; exact Nat.le_add_left 1 _
  have hne : ps.tx.count ≠ 0#16 := fun h0 => by rw [h0] at hpos; exact absurd hpos (by decide)
  have hpop := ringPop_takes (s := (s.setSlot q (some ps)).withIo D es) (d := .tx) (get_setSlot s q _) ho hne
  rw [RingBuffer.queued_eq_cons hok hpos, List.cons.injEq] at hqueued
  obtain ⟨hread, hrest⟩ := hqueued
  refine ⟨?_, RingBuffer.drop_ok hok hpos, hrest⟩
  have hbyte : cellsRead (ps.ring .tx).storage (ps.ring .tx).tail.toNat = some b := hread
  rw [hpop, storageByte_written hbyte, setSlot_withIo]; rfl

/-- HAL.FILL_TX of `m` moves the oldest bytes, `m` at most, in order. -/
theorem FillsBy.run (h : FillsBy q s acc W ev) (ho : s.ringOwned q = true) {m : Nat} {bytes : List Byte} {v : Half}
    (hok : ps.tx.ok = true) (hbytes : ps.tx.queued.take m = bytes.map some) :
    ∃ r tx, runAccs q (List.replicate m acc) v ((s.setSlot q (some ps)).withIo D es)
        = .ok r ((s.setSlot q (some { ps with tx := tx })).withIo (bytes.foldl W D) (es ++ bytes.map ev))
      ∧ tx.ok = true ∧ tx.capacity = ps.tx.capacity ∧ tx.queued = ps.tx.queued.drop m := by
  induction m generalizing ps D es bytes with
  | zero =>
    obtain rfl : bytes = [] := List.map_eq_nil_iff.1 (hbytes.symm.trans (List.take_zero))
    exact ⟨v, ps.tx, by simp, hok, rfl, rfl⟩
  | succ m ih =>
    rw [List.replicate_succ]
    cases hqueued : ps.tx.queued with
    | nil =>
      rw [hqueued, List.take_nil] at hbytes
      obtain rfl : bytes = [] := List.map_eq_nil_iff.1 hbytes.symm
      have hempty : ps.tx.count = 0#16 := BitVec.eq_of_toNat_eq (by rw [← RingBuffer.queued_length, hqueued]; rfl)
      have hpop := ringPop_empty (s := (s.setSlot q (some ps)).withIo D es) (d := .tx) (get_setSlot s q _) ho hempty
      exact ⟨v, ps.tx, by rw [h.stop hpop]; simp, hok, rfl, by rw [hqueued]; rfl⟩
    | cons o rest =>
      rw [hqueued, List.take_succ_cons] at hbytes
      cases bytes with
      | nil => cases hbytes
      | cons b bytes =>
        rw [List.map_cons, List.cons.injEq] at hbytes
        obtain ⟨rfl, hrest⟩ := hbytes
        obtain ⟨hpop, hok', hqueued'⟩ := ringPop_withIo (D := D) (es := es) ho hok hqueued
        rw [h.move hpop]
        obtain ⟨r, tx, hrun, htx, hcap, hdrop⟩ :=
          ih (ps := { ps with tx := ps.tx.drop 1 }) (D := W D b) (es := es ++ [ev b]) hok' (by rw [hqueued', hrest])
        exact ⟨r, tx, by rw [hrun]; simp, htx, hcap, by rw [hdrop, hqueued']; rfl⟩

/-- The word of HAL.FILL_TX, from the access of its port. -/
theorem FillsBy.exec_halFillTx (h : FillsBy q s acc W ev) (ho : s.ringOwned q = true) {m : Byte}
    {bytes : List Byte} (hacc : accFillTx m.toNat s.cfg (s.regs q) = List.replicate m.toNat acc)
    (hps : s.slots.get q = some ps) (hok : ps.tx.ok = true) (hbytes : ps.tx.queued.take m.toNat = bytes.map some) :
    ∃ t tx, exec (.halFillTx q.sel m) s = .next t
      ∧ tx.ok = true ∧ tx.capacity = ps.tx.capacity ∧ tx.queued = ps.tx.queued.drop m.toNat
      ∧ t = { s with slots := s.slots.set q (some { ps with tx := tx }), dev := t.dev, trace := t.trace, ret := .unit }
      ∧ t.trace = s.trace ++ bytes.map ev ∧ t.dev = bytes.foldl W s.dev := by
  obtain ⟨r, tx, hrun, htx, hcap, hdrop⟩ := h.run (D := s.dev) (es := s.trace) (v := 0#16) ho hok hbytes
  rw [setSlot_same hps, withIo_self] at hrun
  exact ⟨_, tx, by rw [Machine.exec_halFillTx, runHal, hacc, hrun]; rfl, htx, hcap, hdrop, rfl, rfl, rfl⟩

/-- The fill of a STD port, present or not. -/
theorem fillsBy_std (hwf : s.cfg.wf = true) (c : StdSlot) : ∃ W,
    FillsBy q s (.fill8 (s.cfg.stdMap.addr (s.cfg.stdBase.get c) .data)) W
      (.wr8 (s.cfg.stdMap.addr (s.cfg.stdBase.get c) .data))
    ∧ (s.cfg.stdPresent.get c = false → W = fun D _ => D)
    ∧ (s.cfg.stdPresent.get c = true →
      W = fun D b => D.setStd c ((D.std.get c).write s.cfg.stdMap .data b)) := by
  cases hp : s.cfg.stdPresent.get c with
  | false => exact ⟨_, .of_wr8 fun ps _ _ => ioWr8_noChip (s := s.setSlot q (some ps)) hwf hp .data, fun _ => rfl, nofun⟩
  | true => exact ⟨fun D b => D.setStd c ((D.std.get c).write s.cfg.stdMap .data b),
      .of_wr8 fun ps _ _ => ioWr8_chip (s := s.setSlot q (some ps)) hwf hp .data, nofun, fun _ => rfl⟩

/-- The fill of the INTEG port, present or not. -/
theorem fillsBy_integ (hwf : s.cfg.wf = true) : ∃ W,
    FillsBy q s (.fill16 (integAddr s.cfg .txd)) W (fun b => .wr16 (integAddr s.cfg .txd) (b.setWidth 16))
    ∧ (s.cfg.integPresent = false → W = fun D _ => D)
    ∧ (s.cfg.integPresent = true → W = fun D b => D.setInteg (D.integ.write .txd (b.setWidth 16))) := by
  cases hp : s.cfg.integPresent with
  | false => exact ⟨_, .of_wr16 fun ps _ _ _ => ioWr16_noDevice (s := s.setSlot q (some ps)) hwf hp .txd _,
      fun _ => rfl, nofun⟩
  | true => exact ⟨_, .of_wr16 fun ps _ _ _ => ioWr16_device (s := s.setSlot q (some ps)) hwf hp .txd _,
      nofun, fun _ => rfl⟩

end Fill

/-! ### What the moves leave in the device -/

/-- The writes of a fill change the chip alone. -/
theorem foldl_setStd (c : StdSlot) (f : StdDev → Byte → StdDev) (bs : List Byte) (D : Devices) :
    bs.foldl (fun D b => D.setStd c (f (D.std.get c) b)) D = D.setStd c (bs.foldl f (D.std.get c)) := by
  induction bs generalizing D with
  | nil => exact (Devices.setStd_same D c).symm
  | cons b bs ih => rw [List.foldl_cons, ih, Devices.setStd_get, Devices.setStd_setStd, List.foldl_cons]

theorem foldl_setInteg (f : IntegDev → Byte → IntegDev) (bs : List Byte) (D : Devices) :
    bs.foldl (fun D b => D.setInteg (f D.integ b)) D = D.setInteg (bs.foldl f D.integ) := by
  induction bs generalizing D with
  | nil => rfl
  | cons b bs ih => rw [List.foldl_cons, ih, Devices.setInteg_setInteg, List.foldl_cons]; rfl

section WriteData

variable {m : StdMap} {d : StdDev} (hdlab : d.dlab m = false)
include hdlab

theorem StdDev.write_data_room (h : d.txf.length < d.depth) (b : Byte) :
    d.write m .data b = { d with txf := d.txf ++ [b], threInt := false } := by
  simp only [StdDev.write, hdlab, if_pos h, Bool.false_eq_true, if_false]

theorem StdDev.write_data_full (h : ¬d.txf.length < d.depth) (b : Byte) :
    d.write m .data b = { d with threInt := false } := by
  simp only [StdDev.write, hdlab, if_neg h, Bool.false_eq_true, if_false]

end WriteData

/-- The transmit FIFO takes the bytes it has room for (spec/48_environment_device.md R274). -/
theorem StdDev.foldl_write_data {m : StdMap} (bs : List Byte) {d : StdDev} (hdlab : d.dlab m = false) :
    bs.foldl (fun d b => d.write m .data b) d = { d with
      txf := d.txf ++ bs.take (d.depth - d.txf.length), threInt := d.threInt && bs.isEmpty } := by
  induction bs generalizing d with
  | nil => simp
  | cons b bs ih =>
    rw [List.foldl_cons]
    by_cases hroom : d.txf.length < d.depth
    · obtain ⟨k, hk⟩ : ∃ k, d.depth - d.txf.length = k + 1 := ⟨d.depth - d.txf.length - 1, by omega⟩
      have hwrite := StdDev.write_data_room hdlab hroom b
      have hk' : (d.write m .data b).depth - (d.txf.length + 1) = k := by rw [hwrite, ← Nat.sub_sub]; exact hk ▸ rfl
      rw [ih (by rw [hwrite]; exact hdlab)]
      rw [hwrite] at hk' ⊢
      simp [hk, hk']
    · have hwrite := StdDev.write_data_full hdlab hroom b
      have hfull : d.depth - d.txf.length = 0 := by omega
      have hfull' : (d.write m .data b).depth - d.txf.length = 0 := by rw [hwrite]; exact hfull
      rw [ih (by rw [hwrite]; exact hdlab)]
      rw [hwrite] at hfull' ⊢
      simp [hfull, hfull']

/-- The transmit word takes the first byte, if it is empty (spec/48_environment_device.md R286). -/
theorem IntegDev.foldl_write_txd (bs : List Byte) (d : IntegDev) :
    bs.foldl (fun d b => d.write .txd (b.setWidth 16)) d
      = { d with txd := if d.txd = none then bs.head? else d.txd } := by
  induction bs generalizing d with
  | nil => cases h : d.txd <;> simp <;> rw [← h]
  | cons b bs ih =>
    rw [List.foldl_cons, ih]
    cases h : d.txd <;> simp [IntegDev.write, h]

/-- Settles O32: the moves by induction on `m` (`FillsBy.run`), then what the writes leave in a present device. -/
theorem fillMovesTheOldestBytes : Obligations.FillMovesTheOldestBytes := by
  intro s q ps m bytes hwf hps hregs ho hok hbytes
  have hregs := regs_of_port hps hregs
  cases hk : q.kind with
  | std c =>
    obtain ⟨W, hfill, habsent, hpresent⟩ := fillsBy_std (q := q) hwf c
    obtain ⟨t, tx, hexec, htx, hcap, hdrop, ht, htrace, hdev⟩ :=
      hfill.exec_halFillTx ho (by rw [regs_std hregs hk]; rfl) hps hok hbytes
    refine ⟨t, tx, hexec, htx, hcap, hdrop, ht, fun c' hc' => ?_, nofun⟩
    obtain rfl := SlotKind.std.inj hc'
    refine ⟨htrace, fun hp => ?_, fun hp hlatch => ?_⟩
    · rw [hdev, habsent hp, List.foldl_fixed]
    · rw [hdev, hpresent hp, foldl_setStd c fun d b => d.write s.cfg.stdMap .data b,
        StdDev.foldl_write_data bytes (hasBit_eq_false.2 hlatch)]
      rfl
  | integ =>
    obtain ⟨W, hfill, habsent, hpresent⟩ := fillsBy_integ (q := q) hwf
    obtain ⟨t, tx, hexec, htx, hcap, hdrop, ht, htrace, hdev⟩ :=
      hfill.exec_halFillTx ho (by rw [regs_integ hregs hk]; rfl) hps hok hbytes
    refine ⟨t, tx, hexec, htx, hcap, hdrop, ht, nofun, fun _ => ⟨htrace, fun hp => ?_, fun hp => ?_⟩⟩
    · rw [hdev, habsent hp, List.foldl_fixed]
    · rw [hdev, hpresent hp, foldl_setInteg fun d b => d.write .txd (b.setWidth 16), IntegDev.foldl_write_txd]
      rfl

/-! ### The devices an access reaches (spec/43_hal_variant_mux.md R152) -/

/-- The devices of the other ports are as they were. -/
structure OwnDevice (q : Slot) (s t : State) : Prop where
  std : ∀ c, q.kind ≠ .std c → t.dev.std.get c = s.dev.std.get c
  integ : q.kind ≠ .integ → t.dev.integ = s.dev.integ

/-- No device but that of the port answers at the address. -/
structure OwnAddr (cfg : Config) (q : Slot) (a : Half) : Prop where
  std : ∀ c r, route cfg a = .std c r → q.kind = .std c
  integ : ∀ r, route cfg a = .integ r → q.kind = .integ

section OwnDevice

variable {q : Slot} {s t u : State} {a : Half}

theorem OwnDevice.of_dev (h : t.dev = s.dev) : OwnDevice q s t := ⟨fun c _ => by rw [h], fun _ => by rw [h]⟩

theorem OwnDevice.trans (h : OwnDevice q s t) (k : OwnDevice q t u) : OwnDevice q s u :=
  ⟨fun c hc => (k.std c hc).trans (h.std c hc), fun hi => (k.integ hi).trans (h.integ hi)⟩

theorem OwnDevice.of_setStd {c : StdSlot} {d : StdDev} (hk : q.kind = .std c)
    (h : t.dev = s.dev.setStd c d) : OwnDevice q s t := by
  refine ⟨fun c' hc => ?_, fun _ => by rw [h]; rfl⟩
  have hne : c' ≠ c := fun he => hc (by rw [hk, he])
  rw [h, Devices.setStd, PerStd.get_set_ne _ _ hne]

theorem OwnDevice.of_setInteg {d : IntegDev} (hk : q.kind = .integ) (h : t.dev = s.dev.setInteg d) :
    OwnDevice q s t :=
  ⟨fun c _ => by rw [h]; rfl, fun hne => absurd hk hne⟩

theorem ioRd8_ownDevice {v : Byte} (ha : OwnAddr s.cfg q a) (h : ioRd8 a s = .ok v t) : OwnDevice q s t := by
  unfold ioRd8 at h
  cases hr : route s.cfg a <;> rw [hr] at h <;> cases h
  case std c r => exact .of_setStd (ha.std c r hr) (congrArg (Devices.setStd · c _) (drawnIf_dev s _))
  case stdAbsent => exact .of_dev (drawn1_dev s)
  case nobody => exact .of_dev (drawn1_dev s)

theorem ioRd16_ownDevice {v : Half} (ha : OwnAddr s.cfg q a) (h : ioRd16 a s = .ok v t) : OwnDevice q s t := by
  unfold ioRd16 at h
  cases hr : route s.cfg a <;> rw [hr] at h <;> cases h
  case integ r => exact .of_setInteg (ha.integ r hr) (congrArg (Devices.setInteg · _) (drawnIf_dev s _))
  case eoi => exact .of_dev (drawn1_dev s)
  case nobody => exact .of_dev (drawn1_dev s)

theorem ioWr8_ownDevice {v : Byte} (ha : OwnAddr s.cfg q a) (h : ioWr8 a v s = .ok () t) : OwnDevice q s t := by
  unfold ioWr8 at h
  cases hr : route s.cfg a <;> rw [hr] at h <;> cases h
  case std c r => exact .of_setStd (ha.std c r hr) rfl
  case stdAbsent => exact .of_dev rfl
  case nobody => exact .of_dev rfl

theorem ioWr16_ownDevice {v : Half} (ha : OwnAddr s.cfg q a) (h : ioWr16 a v s = .ok () t) : OwnDevice q s t := by
  cases hr : route s.cfg a <;> simp only [ioWr16, hr] at h
  case std => cases h
  case stdAbsent => cases h; exact .of_dev rfl
  case integ r => cases h; exact .of_setInteg (ha.integ r hr) rfl
  case eoi => split at h <;> cases h; exact .of_dev rfl
  case nobody => cases h; exact .of_dev rfl

/-- A ring operation reaches no device. -/
theorem RingDeed.ownDevice (h : RingDeed q s t) : OwnDevice q s t := .of_dev (by rw [h.frame])

theorem takeByte_ownDevice {b : Byte} (h : takeByte q b s = .ok () t) : OwnDevice q s t := by
  obtain ⟨r, u, hpush, h⟩ := andThen_eq_ok.1 h
  refine (RingDeed.push hpush).ownDevice.trans (.of_dev ?_)
  split at h
  · rw [(ok_eq_ok.1 h).2]
  · obtain ⟨ps, -, h⟩ := withPort_eq_ok.1 h
    rw [(ok_eq_ok.1 h).2]; rfl

end OwnDevice

/-! ### The addresses of the capabilities -/

/-- The address an access names. -/
def Acc.addr : Acc → Half
  | .rd8 a | .rd16 a | .wr8 a _ | .wr16 a _ | .snap a _ | .rest a _ | .test8 a _ | .test16 a _ | .take8 a | .take16 a
  | .fill8 a | .fill16 a => a

section Reach

variable {q : Slot} {s t u : State}

/-- An access at an address of the port reaches no other device. -/
theorem accStep_ownDevice {a : Acc} {v : Half} {r : Half × Bool} (ha : OwnAddr s.cfg q a.addr)
    (h : accStep q a v s = .ok r t) : OwnDevice q s t := by
  cases a <;> simp only [accStep] at h <;> obtain ⟨x, u, h₁, h₂⟩ := andThen_eq_ok.1 h
  case rd8 => cases h₂; exact ioRd8_ownDevice ha h₁
  case rd16 => cases h₂; exact ioRd16_ownDevice ha h₁
  case wr8 => cases h₂; exact ioWr8_ownDevice ha h₁
  case wr16 => cases h₂; exact ioWr16_ownDevice ha h₁
  case snap => cases h₂; exact (ioRd16_ownDevice ha h₁).trans (.of_dev rfl)
  case rest => cases h₂; exact ioWr16_ownDevice ha h₁
  case test8 => cases h₂; exact ioRd8_ownDevice ha h₁
  case test16 => cases h₂; exact ioRd16_ownDevice ha h₁
  case take8 =>
    obtain ⟨y, w, h₃, h₄⟩ := andThen_eq_ok.1 h₂
    cases h₄; exact (ioRd8_ownDevice ha h₁).trans (takeByte_ownDevice h₃)
  case take16 =>
    obtain ⟨y, w, h₃, h₄⟩ := andThen_eq_ok.1 h₂
    cases h₄; exact (ioRd16_ownDevice ha h₁).trans (takeByte_ownDevice h₃)
  case fill8 =>
    refine (RingDeed.pop h₁).ownDevice.trans ?_
    rw [← (ringPop_frame h₁).cfg_eq] at ha
    cases x with
    | none => cases h₂; exact .of_dev rfl
    | some b => obtain ⟨y, w, h₃, h₄⟩ := andThen_eq_ok.1 h₂; cases h₄; exact ioWr8_ownDevice ha h₃
  case fill16 =>
    refine (RingDeed.pop h₁).ownDevice.trans ?_
    rw [← (ringPop_frame h₁).cfg_eq] at ha
    cases x with
    | none => cases h₂; exact .of_dev rfl
    | some b => obtain ⟨y, w, h₃, h₄⟩ := andThen_eq_ok.1 h₂; cases h₄; exact ioWr16_ownDevice ha h₃

theorem runAccs_ownDevice {as : List Acc} {v w : Half} (has : ∀ a ∈ as, OwnAddr s.cfg q a.addr)
    (h : runAccs q as v s = .ok w t) : OwnDevice q s t := by
  induction as generalizing v s with
  | nil => rw [(ok_eq_ok.1 h).2]; exact .of_dev rfl
  | cons a as ih =>
    obtain ⟨x, u, h₁, h₂⟩ := andThen_eq_ok.1 h
    refine (accStep_ownDevice (has a (List.mem_cons_self ..)) h₁).trans ?_
    split at h₂
    · rw [(ok_eq_ok.1 h₂).2]; exact .of_dev rfl
    · refine ih (fun b hb => ?_) h₂
      rw [(accStep_frame h₁).cfg_eq]
      exact has b (List.mem_cons_of_mem _ hb)

end Reach

/-- The access is at a register of the address record (spec/10_state.md R37). -/
def Acc.On (cfg : Config) (a : Acc) : Regs → Prop
  | .std b => ∃ r, a.addr = cfg.stdMap.addr b r
  | .integ ien lctl baud stat txd rxd => a.addr ∈ [ien, lctl, baud, stat, txd, rxd]

/-- No device but that of the port answers at the registers of its record. -/
theorem Acc.On.ownAddr {cfg : Config} {q : Slot} {a : Acc} (hwf : cfg.wf = true) (h : a.On cfg (regsOf cfg q)) :
    OwnAddr cfg q a.addr := by
  unfold regsOf at h
  cases hk : q.kind with
  | std c =>
    rw [hk] at h
    obtain ⟨r, hr⟩ := h
    have hroute := route_std hwf c r
    rw [hr]
    cases hp : cfg.stdPresent.get c <;> rw [hp] at hroute
    · exact ⟨fun c' r' h' => (nomatch hroute.symm.trans h'), fun r' h' => (nomatch hroute.symm.trans h')⟩
    · refine ⟨fun c' r' h' => ?_, fun r' h' => (nomatch hroute.symm.trans h')⟩
      cases hroute.symm.trans h'; exact hk
  | integ =>
    rw [hk] at h
    obtain ⟨r, hr⟩ : ∃ r, a.addr = integAddr cfg r := by
      simp only [Acc.On, List.mem_cons, List.not_mem_nil, or_false] at h
      obtain h | h | h | h | h | h := h
      exacts [⟨.ien, h⟩, ⟨.lctl, h⟩, ⟨.baud, h⟩, ⟨.stat, h⟩, ⟨.txd, h⟩, ⟨.rxd, h⟩]
    have hroute := route_integ hwf r
    rw [hr]
    refine ⟨fun c' r' h' => ?_, fun _ _ => hk⟩
    cases hp : cfg.integPresent <;> rw [hp] at hroute <;> exact nomatch hroute.symm.trans h'

section Tables

variable (cfg : Config) (r : Regs)

/-- The mux table names registers of the port alone (spec/43_hal_variant_mux.md R151). -/
theorem capability_on : ∀ accs ∈ [accEnRx, accEnTx, accDisInt, accDisTx, accCause, accClrMs, accClrLs, accTxEmpty,
    accDetect, accInit, accSnapshot, accRestore], ∀ a ∈ accs cfg r, a.On cfg r := by
  cases r <;> simp [accEnRx, accEnTx, accDisInt, accDisTx, accCause, accClrMs, accClrLs, accTxEmpty, accDetect, accInit,
    accSnapshot, accRestore, Acc.On, Acc.addr]

theorem accConfig_on (baud par data stop : Word) : ∀ a ∈ accConfig baud par data stop cfg r, a.On cfg r := by
  cases r <;> simp [accConfig, Acc.On, Acc.addr]

theorem accDrainRx_on : ∀ a ∈ accDrainRx cfg r, a.On cfg r := by
  cases r <;>
  · simp only [accDrainRx, List.mem_flatten, List.mem_replicate, forall_exists_index, and_imp]
    rintro a _ - rfl ha
    simp only [List.mem_cons, List.not_mem_nil, or_false] at ha
    obtain rfl | rfl := ha <;> simp [Acc.On, Acc.addr]

theorem accFillTx_on (m : Nat) : ∀ a ∈ accFillTx m cfg r, a.On cfg r := by
  intro a ha
  cases r <;> rw [(List.mem_replicate.1 ha).2] <;> simp [Acc.On, Acc.addr]

theorem accOnTxEmpty_on (ps : PortState) : ∀ a ∈ accOnTxEmpty cfg ps, a.On cfg ps.regs := by
  unfold accOnTxEmpty
  split
  · exact accFillTx_on cfg _ _
  · exact capability_on cfg _ _ (by simp)

theorem accAction_on (ps : PortState) (c : Cause) : ∀ a ∈ accAction cfg ps c, a.On cfg ps.regs := by
  cases c with
  | none => nofun
  | modemStatus => exact capability_on cfg _ accClrMs (by simp)
  | lineStatus => exact capability_on cfg _ accClrLs (by simp)
  | txEmpty => exact accOnTxEmpty_on cfg ps
  | rxReady => exact accDrainRx_on cfg _
  | rxTimeout => exact accDrainRx_on cfg _

end Tables

/-! ### What stays on its port (spec/43_hal_variant_mux.md R152, spec/44_dispatcher.md R192) -/

/-- A step touches no other port and no other device; its own port stays open or closed and keeps its modes. -/
structure StaysOnPort (q : Slot) (s t : State) : Prop where
  slots : ∀ k, k ≠ q → t.slots.get k = s.slots.get k
  std : ∀ c, q.kind ≠ .std c → t.dev.std.get c = s.dev.std.get c
  integ : q.kind ≠ .integ → t.dev.integ = s.dev.integ
  present : (t.slots.get q).isSome = (s.slots.get q).isSome
  modes : ∀ ps ps', s.slots.get q = some ps → t.slots.get q = some ps' → ps.sameModes ps'

/-- What accesses of the port do, with whatever else a word writes that is neither a slot nor a device. -/
theorem AccFrame.staysOnPort {q : Slot} {s t u : State} (h : AccFrame q s u) (hd : OwnDevice q s u)
    (hslots : t.slots = u.slots) (hdev : t.dev = u.dev) : StaysOnPort q s t where
  slots k hk := by rw [hslots, h.frame, PerSlot.get_set_ne _ _ hk]
  std c hc := by rw [hdev, hd.std c hc]
  integ hi := by rw [hdev, hd.integ hi]
  present := by rw [hslots, h.present]
  modes ps ps' hs ht := by
    obtain ⟨pu, hu, hmodes⟩ := h.port ps hs
    rw [hslots, hu] at ht
    cases ht; exact hmodes

/-- The words of class 4 on a port, but for HAL.ACK_LINE, which is on a line. -/
def halWords (q : Slot) (m : Byte) : List Instr :=
  [.halEnRx q.sel, .halEnTx q.sel, .halDisInt q.sel, .halCause q.sel, .halDrainRx q.sel, .halFillTx q.sel m,
    .halConfig q.sel, .halTxEmpty q.sel, .halDetect q.sel, .halInit q.sel, .halSnapshot q.sel, .halRestore q.sel,
    .halClrMs q.sel, .halClrLs q.sel, .halDisTx q.sel]

/-- The words of class 5 on a port. -/
def dspWords (q : Slot) : List Instr :=
  [.dspVisit q.sel, .dspOnModem q.sel, .dspOnLine q.sel, .dspOnTxEmpty q.sel, .dspOnRxReady q.sel,
    .dspOnRxTimeout q.sel]

section Stays

variable {s t u : State} {q : Slot} (hwf : s.cfg.wf = true) (hregs : s.regs q = regsOf s.cfg q)
include hwf hregs

/-- The accesses of a port reach its own device alone. -/
theorem runAccs_on_ownDevice {as : List Acc} {v w : Half} (has : ∀ a ∈ as, a.On s.cfg (s.regs q))
    (h : runAccs q as v s = .ok w t) : OwnDevice q s t :=
  runAccs_ownDevice (fun a ha => Acc.On.ownAddr hwf (hregs ▸ has a ha)) h

theorem StaysOnPort.of_runAccs {as : List Acc} {v w : Half} (has : ∀ a ∈ as, a.On s.cfg (s.regs q))
    (h : runAccs q as v s = .ok w u) (hslots : t.slots = u.slots) (hdev : t.dev = u.dev) : StaysOnPort q s t :=
  (runAccs_frame h).staysOnPort (runAccs_on_ownDevice hwf hregs has h) hslots hdev

/-- A word of class 4 that is a plain capability. -/
theorem StaysOnPort.of_runHal {accs : Config → Regs → List Acc} {g : Half → Ret}
    (has : ∀ a ∈ accs s.cfg (s.regs q), a.On s.cfg (s.regs q)) (h : (runHal q accs s).returning g = .next t) :
    StaysOnPort q s t := by
  obtain ⟨v, u, hrun, rfl⟩ := returning_eq_next.1 h
  exact .of_runAccs hwf hregs has hrun rfl rfl

/-- A word of class 5 that is an action. -/
theorem StaysOnPort.of_action {as : List Acc}
    (has : ∀ a ∈ as, a.On s.cfg (s.regs q))
    (h : ((runAccs q as 0#16 s).andThen fun _ s => .ok () s).outcome = .next t) : StaysOnPort q s t := by
  obtain ⟨v, u, hrun, hend⟩ := andThen_eq_ok.1 (outcome_eq_next.1 h)
  obtain ⟨-, rfl⟩ := ok_eq_ok.1 hend
  exact .of_runAccs hwf hregs has hrun rfl rfl

/-- The rounds of a visit. -/
theorem visitLoop_ownDevice {n : Nat} {e : Bool} (h : visitLoop q n s = .ok e t) : OwnDevice q s t := by
  induction n generalizing s with
  | zero => rw [(ok_eq_ok.1 h).2]; exact .of_dev rfl
  | succ n ih =>
    obtain ⟨ps, hp, h⟩ := withPort_eq_ok.1 h
    obtain ⟨c, u, hc, h⟩ := andThen_eq_ok.1 h
    obtain ⟨v, hrun, -⟩ := halCause_eq_ok.1 hc
    have hu := runHal_frame hrun
    have hps : ps.regs = s.regs q := by rw [State.regs, hp]
    refine (runAccs_on_ownDevice hwf hregs (capability_on _ _ accCause (by simp)) hrun).trans ?_
    split at h
    · rw [(ok_eq_ok.1 h).2]; exact .of_dev rfl
    · obtain ⟨x, w, hacts, h⟩ := andThen_eq_ok.1 h
      have hwfu : u.cfg.wf = true := by rw [hu.cfg_eq]; exact hwf
      have hregsu : u.regs q = regsOf u.cfg q := by rw [hu.regs_eq, hu.cfg_eq]; exact hregs
      have hw := runAccs_frame hacts
      have hon : ∀ a ∈ accAction u.cfg ps c, a.On u.cfg (u.regs q) := by
        rw [hu.regs_eq, ← hps]; exact accAction_on _ ps c
      exact (runAccs_on_ownDevice hwfu hregsu hon hacts).trans
        (ih (by rw [hw.cfg_eq]; exact hwfu) (by rw [hw.regs_eq, hw.cfg_eq]; exact hregsu) h)

theorem visitWhole_staysOnPort (h : visitWhole q s = .ok () t) : StaysOnPort q s t := by
  obtain ⟨-, rfl⟩ | ⟨-, e, u, hloop, rfl⟩ := visitWhole_eq_ok.1 h
  · exact (AccFrame.refl q s).staysOnPort (.of_dev rfl) (by rw [visited_frame]) (by rw [visited_frame])
  · have hstays {t : State} := (visitLoop_frame hloop).staysOnPort (t := t) (visitLoop_ownDevice hwf hregs hloop)
    cases e with
    | true => exact hstays (by rw [if_pos rfl, visited_frame]) (by rw [if_pos rfl, visited_frame])
    | false => exact hstays rfl rfl

theorem hal_staysOnPort {m : Byte} {i : Instr} (hi : i ∈ halWords q m) (h : exec i s = .next t) : StaysOnPort q s t := by
  have hon := capability_on s.cfg (s.regs q)
  simp only [halWords, List.mem_cons, List.not_mem_nil, or_false] at hi
  obtain rfl | rfl | rfl | rfl | rfl | rfl | rfl | rfl | rfl | rfl | rfl | rfl | rfl | rfl | rfl := hi
  · exact .of_runHal hwf hregs (hon accEnRx (by simp)) (exec_halEnRx.symm.trans h)
  · exact .of_runHal hwf hregs (hon accEnTx (by simp)) (exec_halEnTx.symm.trans h)
  · exact .of_runHal hwf hregs (hon accDisInt (by simp)) (exec_halDisInt.symm.trans h)
  · obtain ⟨c, u, hc, rfl⟩ := returning_eq_next.1 (exec_halCause.symm.trans h)
    obtain ⟨v, hrun, -⟩ := halCause_eq_ok.1 hc
    exact .of_runAccs hwf hregs (hon accCause (by simp)) hrun rfl rfl
  · exact .of_runHal hwf hregs (accDrainRx_on _ _) (exec_halDrainRx.symm.trans h)
  · exact .of_runHal hwf hregs (accFillTx_on _ _ _) ((exec_halFillTx m).symm.trans h)
  · exact .of_runHal hwf hregs (accConfig_on _ _ _ _ _ _) (exec_halConfig.symm.trans h)
  · obtain ⟨e, u, he, rfl⟩ := returning_eq_next.1 (exec_halTxEmpty.symm.trans h)
    obtain ⟨v, hrun, -⟩ := halTxEmpty_eq_ok.1 he
    exact .of_runAccs hwf hregs (hon accTxEmpty (by simp)) hrun rfl rfl
  · obtain ⟨e, u, he, rfl⟩ := returning_eq_next.1 (exec_halDetect.symm.trans h)
    obtain ⟨v, hrun, -⟩ := halDetect_eq_ok.1 he
    exact .of_runAccs hwf hregs (hon accDetect (by simp)) hrun rfl rfl
  · exact .of_runHal hwf hregs (hon accInit (by simp)) (exec_halInit.symm.trans h)
  · exact .of_runHal hwf hregs (hon accSnapshot (by simp)) (exec_halSnapshot.symm.trans h)
  · exact .of_runHal hwf hregs (hon accRestore (by simp)) (exec_halRestore.symm.trans h)
  · exact .of_runHal hwf hregs (hon accClrMs (by simp)) (exec_halClrMs.symm.trans h)
  · exact .of_runHal hwf hregs (hon accClrLs (by simp)) (exec_halClrLs.symm.trans h)
  · obtain ⟨v, u, hrun, rfl⟩ := returning_eq_next.1 (exec_halDisTx.symm.trans h)
    cases hk : q.kind with
    | std c => rw [halDisTx, regs_std hregs hk] at hrun; cases hrun
    | integ =>
      rw [halDisTx_integ hregs hk] at hrun
      exact .of_runAccs hwf hregs (hon accDisTx (by simp)) hrun rfl rfl

theorem dsp_staysOnPort {i : Instr} (hi : i ∈ dspWords q) (h : exec i s = .next t) : StaysOnPort q s t := by
  have hon := capability_on s.cfg (s.regs q)
  simp only [dspWords, List.mem_cons, List.not_mem_nil, or_false] at hi
  obtain rfl | rfl | rfl | rfl | rfl | rfl := hi
  · have hvisit : exec (.dspVisit q.sel) s = (visitWhole q s).outcome := onSlot_sel_outcome _ _
    exact visitWhole_staysOnPort hwf hregs (outcome_eq_next.1 (hvisit.symm.trans h))
  · exact .of_action hwf hregs (hon accClrMs (by simp)) (exec_dspOnModem.symm.trans h)
  · exact .of_action hwf hregs (hon accClrLs (by simp)) (exec_dspOnLine.symm.trans h)
  · have haction : exec (.dspOnTxEmpty q.sel) s = (withPort q s fun ps =>
        (runAccs q (accOnTxEmpty s.cfg ps) 0#16 s).andThen fun _ s => .ok () s).outcome := onSlot_sel_outcome _ _
    obtain ⟨ps, hp, hport⟩ := withPort_eq_ok.1 (outcome_eq_next.1 (haction.symm.trans h))
    have hps : s.regs q = ps.regs := by rw [State.regs, hp]
    exact .of_action hwf hregs (hps ▸ accOnTxEmpty_on s.cfg ps) (outcome_eq_next.2 hport)
  · exact .of_action hwf hregs (accDrainRx_on _ _) (exec_dspOnRxReady.symm.trans h)
  · exact .of_action hwf hregs (accDrainRx_on _ _) (exec_dspOnRxTimeout.symm.trans h)

end Stays

/-! ### A drain completes (spec/44_dispatcher.md R201) -/

/-- A row of accesses completes where each does in every state the others lead to. -/
theorem runAccs_completes {q : Slot} {as : List Acc} {s : State} {v : Half}
    (h : ∀ a ∈ as, ∀ u, AccFrame q s u → ∀ v, ∃ r t, accStep q a v u = .ok r t) :
    ∃ w t, runAccs q as v s = .ok w t := by
  induction as generalizing v s with
  | nil => exact ⟨v, s, rfl⟩
  | cons a as ih =>
    obtain ⟨r, u, hstep⟩ := h a (List.mem_cons_self ..) s (.refl q s) v
    rw [runAccs, hstep, andThen_ok]
    split
    · exact ⟨_, _, rfl⟩
    · exact ih fun b hb w hw => h b (List.mem_cons_of_mem _ hb) w ((accStep_frame hstep).trans hw)

section Completes

variable {s : State} {q : Slot} (hport : (s.slots.get q).isSome = true) (ho : s.ringOwned q = true)
include hport ho

/-- The byte a drain has read is queued or dropped. -/
theorem takeByte_completes {u : State} (hu : AccFrame q s u) (b : Byte) : ∃ t, takeByte q b u = .ok () t := by
  obtain ⟨ps, hp⟩ := Option.isSome_iff_exists.1 ((hu.present q).trans hport)
  exact ⟨_, takeByte_eq hp (hu.owned_eq.trans ho)⟩

/-- The accesses of a drain answer whatever the device, present or not. -/
theorem accDrainRx_completes (hwf : s.cfg.wf = true) : ∀ a ∈ accDrainRx s.cfg (regsOf s.cfg q), ∀ v,
    ∃ r t, accStep q a v s = .ok r t := by
  intro a ha v
  unfold regsOf at ha
  cases hk : q.kind with
  | std c =>
    simp only [hk, accDrainRx, List.mem_flatten, List.mem_replicate] at ha
    obtain ⟨round, ⟨-, rfl⟩, ha⟩ := ha
    simp only [List.mem_cons, List.not_mem_nil, or_false] at ha
    obtain rfl | rfl := ha
    · obtain ⟨x, t, hread⟩ := ioRd8_std_ok hwf c .lsr
      exact ⟨_, t, by rw [accStep, hread, andThen_ok]⟩
    · obtain ⟨b, t, hread⟩ := ioRd8_std_ok hwf c .data
      obtain ⟨u, htake⟩ := takeByte_completes hport ho (.of_io (ioRd8_frame hread)) b
      exact ⟨_, u, by rw [accStep, hread, andThen_ok, htake, andThen_ok]⟩
  | integ =>
    simp only [hk, accDrainRx, List.mem_flatten, List.mem_replicate] at ha
    obtain ⟨round, ⟨-, rfl⟩, ha⟩ := ha
    simp only [List.mem_cons, List.not_mem_nil, or_false] at ha
    obtain rfl | rfl := ha
    · obtain ⟨x, t, hread⟩ := ioRd16_integ_ok hwf .stat
      exact ⟨_, t, by rw [accStep, ← integAddr, hread, andThen_ok]⟩
    · obtain ⟨b, t, hread⟩ := ioRd16_integ_ok hwf .rxd
      obtain ⟨u, htake⟩ := takeByte_completes hport ho (.of_io (ioRd16_frame hread)) (b.setWidth 8)
      exact ⟨_, u, by rw [accStep, ← integAddr, hread, andThen_ok, htake, andThen_ok]⟩

/-- HAL.DRAIN_RX completes. -/
theorem runHal_drainRx_completes (hwf : s.cfg.wf = true) (hregs : s.regs q = regsOf s.cfg q) :
    ∃ w t, runHal q accDrainRx s = .ok w t := by
  refine runAccs_completes fun a ha u hu v => ?_
  rw [hregs] at ha
  refine accDrainRx_completes ((hu.present q).trans hport) (hu.owned_eq.trans ho) ?_ a ?_ v
  · rw [hu.cfg_eq]; exact hwf
  · rw [hu.cfg_eq]; exact ha

end Completes

/-- Settles O37: an access at a register of the port reaches its own device alone, and each word is a row of such
accesses; a drain completes because each access of it answers. -/
theorem portOperationsStayOnTheirPort : Obligations.PortOperationsStayOnTheirPort := by
  refine ⟨fun s t q m i hwf hregs hi h => ?_, fun s q i hwf hregs hport ho hi => ?_⟩
  · have hstays : StaysOnPort q s t := by
      have hi : i ∈ halWords q m ++ dspWords q := hi
      exact (List.mem_append.1 hi).elim (hal_staysOnPort hwf hregs · h) (dsp_staysOnPort hwf hregs · h)
    exact ⟨hstays.slots, hstays.std, hstays.integ, hstays.present, hstays.modes⟩
  · obtain ⟨w, u, hrun⟩ := runHal_drainRx_completes hport ho hwf hregs
    obtain ⟨t, hexec, ht⟩ := exec_drain hi hrun
    have hframe := (runHal_frame hrun).frame
    rw [runAccs_savedInteg (accDrainRx_saves _ _) hrun] at hframe
    refine ⟨t, hexec, ?_⟩
    rw [ht, hframe]
    simp

end Sys2Proof.Machine

/-! ## The dispatcher

Entry and return, the walk of a handler through its ports, and the visit of a port, which ends because every action
removes the condition that caused it (spec/44_dispatcher.md). -/

namespace Sys2Proof.Machine

open Sys2Proof

/-! ### Entry and return (spec/44_dispatcher.md R190, R198) -/

section EntryAndReturn

variable {s : State} {l : Line} {q : Slot}

/-- When a line is pending (spec/10_state.md R35). -/
theorem pending_iff : s.pending l = true ↔
    (s.cfg.trigger = .level ∧ ∃ q ∈ s.cfg.portsOf l, s.devIrq q = true)
      ∨ (s.cfg.trigger = .edge ∧ s.latched.get l = true) := by
  rw [State.pending]
  cases s.cfg.trigger <;> simp [State.irqLevel]

theorem exec_dspEnter :
    exec (.dspEnter l.sel) s = .next (if s.canEnter l then s.takeInterrupt l else s) := by
  cases l <;> rfl

theorem exec_dspExit : exec (.dspExit l.sel) s = (exitLine l s).outcome := by
  cases l <;> rfl

theorem exec_dspVisit : exec (.dspVisit q.sel) s = (visitWhole q s).outcome := onSlot_sel_outcome _ _

end EntryAndReturn

/-- Settles O38: `canEnter_iff` says when the line is entered, `takeInterrupt_eq` what that writes. -/
theorem enterTakesTheInterrupt : Obligations.EnterTakesTheInterrupt := by
  intro s l pending enabled
  have henabled : s.canEnter l = true ↔ enabled := by rw [canEnter_iff, pending_iff]
  refine ⟨fun h => ?_, fun h => ?_⟩
  · rw [exec_dspEnter, if_pos (henabled.2 h), takeInterrupt_eq]
  · rw [exec_dspEnter, if_neg (mt henabled.1 h)]

/-- Settles O39: the acknowledge by `ackLine_eq`, then the return by `leaveInterrupt_eq`. -/
theorem exitReturnsFromTheHandler : Obligations.ExitReturnsFromTheHandler := by
  refine fun s l => ⟨fun rest hwf hctx => ?_, fun hother => ?_⟩
  · obtain ⟨-, -, hlines⟩ := Config.wf_tables hwf
    obtain ⟨-, -, hack⟩ := hlines l
    have hexit := exitLine_eq_ok.2 ⟨by rw [hctx]; rfl, _, ackLine_eq hwf l, rfl⟩
    rw [exec_dspExit, hexit, outcome_ok, leaveInterrupt_eq]
    simp only [hack]
    split <;> simp only [State.observe, hctx, List.tail_cons]
  · rw [exec_dspExit, exitLine, if_neg hother]; rfl

/-! ### The walk through the ports (spec/44_dispatcher.md R191) -/

/-- Past its last port the running handler is left. -/
theorem coreStep_pastLast {s : State} {l : Line} {rest : List Line} {i : Nat} (hctx : s.ctx = l :: rest)
    (hd : s.dseq.get l = .run 1 i .none [] 0#16) (hi : (s.cfg.portsOf l)[i]? = none) :
    coreStep s = exitLine l s := by
  simp only [coreStep, hctx, isrStep, hd, hi]

/-- Settles O40: the steps of the handler by `coreStep_port` and `coreStep_pastLast`; the word passes a closed port as
`State.visited` does. -/
theorem handlerVisitsItsPortsInOrder : Obligations.HandlerVisitsItsPortsInOrder := by
  refine ⟨fun s l rest i hctx hd => ⟨fun q hi hq => ?closed, fun q hi hq => ?opened, fun hi => ?last⟩,
    fun s q hq => ?word⟩
  case closed => rw [coreStep_port hctx hd hi, hq]; rfl
  case opened => rw [coreStep_port hctx hd hi, if_neg (by simpa using Option.isSome_iff_ne_none.1 hq)]; rfl
  case last => rw [coreStep_pastLast hctx hd hi, exec_dspExit]
  case word =>
    rw [exec_dspVisit, outcome_eq_next.2 (visitWhole_eq_ok.2 (.inl ⟨hq, rfl⟩)), visited_frame]
    refine congrArg (fun d => (.next { s with dseq := d } : Out)) ?_
    rw [State.visited]
    cases s.ctx with
    | nil => rfl
    | cons l rest =>
      dsimp only
      cases s.dseq.get l with
      | idle => rfl
      | run line i x accs v =>
        match line with
        | 0 => rfl
        | 1 => exact apply_ite State.dseq _ _ _
        | _ + 2 => rfl

/-! ### The accesses of an open port (spec/10_state.md R37) -/

section OpenPort

variable {q : Slot} {s : State} {ps : PortState} (hps : s.slots.get q = some ps)
include hps

theorem regs_eq_port : s.regs q = ps.regs := by rw [State.regs, hps]

theorem runHal_of_port (accs : Config → Regs → List Acc) :
    runHal q accs s = runAccs q (accs s.cfg ps.regs) 0#16 s := by
  rw [runHal, regs_eq_port hps]

end OpenPort

/-! ### A burst, whatever the ring holds (spec/43_hal_variant_mux.md R160) -/

/-- What a write of transmit data to a STD chip, present or not, does to the devices. -/
def sendStd (cfg : Config) (c : StdSlot) (D : Devices) (b : Byte) : Devices :=
  if cfg.stdPresent.get c then D.setStd c ((D.std.get c).write cfg.stdMap .data b) else D

/-- What a write of transmit data to the INTEG device, present or not, does to the devices. -/
def sendInteg (cfg : Config) (D : Devices) (b : Byte) : Devices :=
  if cfg.integPresent then D.setInteg (D.integ.write .txd (b.setWidth 16)) else D

section Burst

variable {q : Slot} {s : State} {ps : PortState}

theorem fillsBy_sendStd (hwf : s.cfg.wf = true) (c : StdSlot) :
    FillsBy q s (.fill8 (s.cfg.stdMap.addr (s.cfg.stdBase.get c) .data)) (sendStd s.cfg c)
      (.wr8 (s.cfg.stdMap.addr (s.cfg.stdBase.get c) .data)) := by
  obtain ⟨W, hfill, habsent, hpresent⟩ := fillsBy_std (q := q) hwf c
  have hW : W = sendStd s.cfg c := by
    funext D b
    cases hp : s.cfg.stdPresent.get c <;> simp [sendStd, hp, habsent, hpresent]
  exact hW ▸ hfill

theorem fillsBy_sendInteg (hwf : s.cfg.wf = true) :
    FillsBy q s (.fill16 (integAddr s.cfg .txd)) (sendInteg s.cfg)
      (fun b => .wr16 (integAddr s.cfg .txd) (b.setWidth 16)) := by
  obtain ⟨W, hfill, habsent, hpresent⟩ := fillsBy_integ (q := q) hwf
  have hW : W = sendInteg s.cfg := by
    funext D b
    cases hp : s.cfg.integPresent <;> simp [sendInteg, hp, habsent, hpresent]
  exact hW ▸ hfill

/-- The pop of a ring that is not empty answers a byte, a draw where nothing has written it (log entry 13), and leaves
the devices alone. -/
theorem ringPop_queued (hps : s.slots.get q = some ps) (ho : s.ringOwned q = true) (h : ps.tx.count ≠ 0#16) :
    ∃ (b : Byte) (u : State) (ps' : PortState), ringPop q .tx s = .ok (some b) (u.setSlot q (some ps'))
      ∧ u.cfg = s.cfg ∧ u.dev = s.dev ∧ u.ringOwned q = true := by
  have hframe := storageByte_frame (ps.ring .tx) (ps.ring .tx).tail.toNat s
  refine ⟨_, _, _, ringPop_takes (d := .tx) hps ho h, ?_, ?_, ?_⟩
  · rw [hframe]
  · rw [hframe]
  · rw [hframe]; exact ho

variable {cfg : Config} {acc : Acc} {W : Devices → Byte → Devices} {ev : Byte → HostEvent}

/-- A fill completes whatever `tx` holds, bytes that nothing has written among them; it sends something if `tx` is not
empty. -/
theorem FillsBy.completes (h : ∀ u : State, u.cfg = cfg → FillsBy q u acc W ev) (m : Nat) (v : Half)
    (hcfg : s.cfg = cfg) (hps : s.slots.get q = some ps) (ho : s.ringOwned q = true) :
    ∃ (r : Half) (t : State) (bytes : List Byte), runAccs q (List.replicate m acc) v s = .ok r t
      ∧ t.dev = bytes.foldl W s.dev ∧ (0 < m → ps.tx.count ≠ 0#16 → bytes ≠ []) := by
  induction m generalizing s ps v with
  | zero => exact ⟨v, s, [], rfl, rfl, fun h => absurd h (Nat.lt_irrefl 0)⟩
  | succ m ih =>
    rw [List.replicate_succ]
    by_cases hempty : ps.tx.count = 0#16
    · have hpop := ringPop_empty (d := .tx) hps ho hempty
      exact ⟨v, s, [], (h s hcfg).stop hpop, rfl, fun _ hne => absurd hempty hne⟩
    · obtain ⟨b, u, ps', hpop, hcfgu, hdevu, hou⟩ := ringPop_queued hps ho hempty
      rw [← withIo_self (u.setSlot q (some ps'))] at hpop
      obtain ⟨r, t, bytes, hrun, hdev, -⟩ := ih v (ps := ps')
        (s := (u.setSlot q (some ps')).withIo (W u.dev b) (u.trace ++ [ev b]))
        (hcfgu.trans hcfg) (get_setSlot u q _) hou
      rw [(h u (hcfgu.trans hcfg)).move hpop]
      exact ⟨r, t, b :: bytes, hrun, by rw [hdev, ← hdevu]; rfl, fun _ _ => List.cons_ne_nil _ _⟩

variable (hwf : s.cfg.wf = true) (hps : s.slots.get q = some ps) (hregs : ps.regs = regsOf s.cfg q)
  (ho : s.ringOwned q = true) (v : Half)
include hwf hps hregs ho

theorem runAccs_burst_std {c : StdSlot} (hk : q.kind = .std c) :
    ∃ (r : Half) (t : State) (bytes : List Byte), runAccs q (accBurst s.cfg ps.regs) v s = .ok r t
      ∧ t.dev = bytes.foldl (sendStd s.cfg c) s.dev := by
  have hacc : accBurst s.cfg ps.regs = List.replicate s.cfg.txBurst.std.toNat
      (.fill8 (s.cfg.stdMap.addr (s.cfg.stdBase.get c) .data)) := by rw [hregs, regsOf, hk]; rfl
  obtain ⟨r, t, bytes, hrun, hdev, -⟩ := FillsBy.completes (cfg := s.cfg)
    (fun u hu => hu ▸ fillsBy_sendStd (q := q) (s := u) (hu ▸ hwf) c) s.cfg.txBurst.std.toNat v rfl hps ho
  exact ⟨r, t, bytes, hacc ▸ hrun, hdev⟩

theorem runAccs_burst_integ (hk : q.kind = .integ) :
    ∃ (r : Half) (t : State) (bytes : List Byte), runAccs q (accBurst s.cfg ps.regs) v s = .ok r t
      ∧ t.dev = bytes.foldl (sendInteg s.cfg) s.dev ∧ (ps.tx.count ≠ 0#16 → bytes ≠ []) := by
  obtain ⟨-, -, -, -, hburst, -⟩ := Config.wf_limits hwf
  have hacc : accBurst s.cfg ps.regs = List.replicate s.cfg.txBurst.integ.toNat
      (.fill16 (integAddr s.cfg .txd)) := by rw [hregs, regsOf, hk]; rfl
  obtain ⟨r, t, bytes, hrun, hdev, hbytes⟩ := FillsBy.completes (cfg := s.cfg)
    (fun u hu => hu ▸ fillsBy_sendInteg (q := q) (s := u) (hu ▸ hwf)) s.cfg.txBurst.integ.toNat v rfl hps ho
  exact ⟨r, t, bytes, hacc ▸ hrun, hdev, hbytes hburst⟩

end Burst

/-! ### DSP.ON_TXEMPTY (spec/44_dispatcher.md R195) -/

section OnTxEmpty

variable {q : Slot} {s : State} {ps : PortState}

theorem AccFrame.ret_eq {t : State} (h : AccFrame q s t) : t.ret = s.ret := by rw [h.frame]

/-- The accesses of the action with bytes queued. -/
theorem accOnTxEmpty_queued (h : ps.tx.count ≠ 0#16) (cfg : Config) :
    accOnTxEmpty cfg ps = accBurst cfg ps.regs := if_pos h

/-- The accesses of the action with none. -/
theorem accOnTxEmpty_none (h : ps.tx.count = 0#16) (cfg : Config) :
    accOnTxEmpty cfg ps = accDisTx cfg ps.regs := if_neg (not_not.2 h)

theorem exec_dspOnTxEmpty (hps : s.slots.get q = some ps) : exec (.dspOnTxEmpty q.sel) s
    = ((runAccs q (accOnTxEmpty s.cfg ps) 0#16 s).andThen fun _ s => .ok () s).outcome :=
  (onSlot_sel_outcome _ _).trans (by rw [withPort_some hps])

/-- The action is its accesses; its result is that of the word before it. -/
theorem exec_dspOnTxEmpty_of_runAccs (hps : s.slots.get q = some ps) {v : Half} {t : State}
    (h : runAccs q (accOnTxEmpty s.cfg ps) 0#16 s = .ok v t) :
    exec (.dspOnTxEmpty q.sel) s = .next { t with ret := s.ret } := by
  rw [exec_dspOnTxEmpty hps, h, andThen_ok, outcome_ok, ← (runAccs_frame h).ret_eq]

/-- HAL.FILL_TX of the burst of the variant is the accesses of a burst. -/
theorem exec_halFillTx_burst (hps : s.slots.get q = some ps) {m : Byte} (hm : m = s.cfg.txBurst.get ps.regs.variant) :
    exec (.halFillTx q.sel m) s = (runAccs q (accBurst s.cfg ps.regs) 0#16 s).returning fun _ => .unit := by
  rw [exec_halFillTx, runHal_of_port hps, hm, accBurst]

end OnTxEmpty

/-- Settles O43: with bytes queued both words are the accesses of a burst, which complete on each variant; with none
the action is HAL.DIS_TX on INTEG and has no access on STD. -/
theorem onTxEmpty : Obligations.OnTxEmpty := by
  intro s q ps hwf hps hregs ho
  have hport := regs_of_port hps hregs
  refine ⟨fun hqueued => ?burst, fun hnone c hk => ?std, fun hnone hk => ?integ⟩
  case burst =>
    obtain ⟨r, t, hrun⟩ : ∃ r t, runAccs q (accBurst s.cfg ps.regs) 0#16 s = .ok r t := by
      cases hk : q.kind with
      | std c => obtain ⟨r, t, -, hrun, -⟩ := runAccs_burst_std hwf hps hregs ho 0#16 hk; exact ⟨r, t, hrun⟩
      | integ => obtain ⟨r, t, -, hrun, -⟩ := runAccs_burst_integ hwf hps hregs ho 0#16 hk; exact ⟨r, t, hrun⟩
    refine ⟨t, ?_, exec_dspOnTxEmpty_of_runAccs hps (by rw [accOnTxEmpty_queued hqueued]; exact hrun)⟩
    rw [exec_halFillTx_burst hps (by rw [hregs, regsOf]; cases q.kind <;> rfl), hrun, returning_ok]
  case std =>
    have haccs : accDisTx s.cfg ps.regs = [] := by rw [hregs, regsOf, hk]; rfl
    exact exec_dspOnTxEmpty_of_runAccs (v := 0#16) hps (by rw [accOnTxEmpty_none hnone, haccs, runAccs_nil])
  case integ =>
    obtain ⟨x, t, u, hread, hwrite⟩ := integ_readModifyWrite hwf .ien (.andNotV s.cfg.imTxie)
    have hrun := runHal_changeIen hport hk (accs := accDisTx) rfl hread hwrite
    refine ⟨u, ?_, exec_dspOnTxEmpty_of_runAccs (v := x) hps ?_⟩
    · rw [exec_halDisTx, halDisTx_integ hport hk, hrun, returning_ok]
    · rw [accOnTxEmpty_none hnone, ← runHal_of_port hps, hrun]

/-! ### The rounds of a visit (spec/44_dispatcher.md R192, R200) -/

section Rounds

variable {q : Slot} {s u : State}

/-- A visit ends where each round that finds a cause makes a measure smaller; its last reading finds none. -/
theorem visitLoop_ends {I : State → Prop} {μ : State → Nat}
    (round : ∀ s, I s → ∃ ps x u, s.slots.get q = some ps ∧ halCause q s = .ok x u
      ∧ (x ≠ .none → ∃ r w, runAccs q (accAction u.cfg ps x) 0#16 u = .ok r w ∧ I w ∧ μ w < μ s))
    {n : Nat} (hI : I s) (hn : μ s < n) :
    ∃ w u, I w ∧ halCause q w = .ok .none u ∧ visitLoop q n s = .ok true u := by
  induction n generalizing s with
  | zero => exact absurd hn (Nat.not_lt_zero _)
  | succ n ih =>
    obtain ⟨ps, x, u, hps, hcause, haction⟩ := round s hI
    rw [visitLoop, withPort_some hps, hcause, andThen_ok]
    by_cases hx : x = .none
    · exact ⟨s, u, hI, hx ▸ hcause, if_pos hx⟩
    · obtain ⟨r, w, hrun, hIw, hless⟩ := haction hx
      rw [if_neg hx, hrun, andThen_ok]
      exact ih hIw (by omega)

/-- A visit that ends within the rounds of one step. -/
theorem exec_dspVisit_ended (hport : (s.slots.get q).isSome = true)
    (h : visitLoop q (visitBound q s) s = .ok true u) : exec (.dspVisit q.sel) s = .next (u.visited q) := by
  have hopen : s.slots.get q ≠ none := Option.isSome_iff_ne_none.1 hport
  rw [exec_dspVisit, outcome_eq_next.2 (visitWhole_eq_ok.2 (.inr ⟨hopen, _, _, h, rfl⟩)), if_pos rfl]

theorem visited_dev (s : State) (q : Slot) : (s.visited q).dev = s.dev := by rw [visited_frame]
theorem visited_cfg (s : State) (q : Slot) : (s.visited q).cfg = s.cfg := by rw [visited_frame]
theorem visited_moves (s : State) (q : Slot) : (s.visited q).moves = s.moves := by rw [visited_frame]
theorem AccFrame.moves_eq (h : AccFrame q s u) : u.moves = s.moves := by rw [h.frame]

end Rounds

/-! ### The cause a STD chip reports (spec/48_environment_device.md R273) -/

/-- The identity field of the IIR and the bits beside it (spec/43_hal_variant_mux.md R161). -/
theorem StdMap.wf_iir {m : StdMap} (h : m.wf = true) : (∀ b ∈ m.iirIds, b &&& ~~~m.iirId = 0#8)
    ∧ hasBit m.iirId m.iirNone = false ∧ hasBit m.iirFifo (m.iirId ||| m.iirNone) = false := by
  simp only [StdMap.wf, Bool.and_eq_true, List.all_eq_true, decide_eq_true_eq, Bool.not_eq_true'] at h; tauto

/-- A value without bits outside a mask is unchanged by it. -/
theorem and_eq_self_of_and_not {n : Nat} {v m : BitVec n} (h : v &&& ~~~m = 0#n) : v &&& m = v := by
  calc v &&& m = v &&& m ||| v &&& ~~~m := by rw [h, BitVec.or_zero]
    _ = v := by rw [← BitVec.and_or_distrib_left, BitVec.or_not_self, BitVec.and_allOnes]

section Cause

variable {m : StdMap} (h : m.wf = true)
include h

/-- An identity beside the FIFO bits is read back from its field. -/
theorem stdCauseOf_id {fifo id : Byte} (hfifo : fifo = 0#8 ∨ fifo = m.iirFifo) (hid : id ∈ m.iirIds) :
    (fifo ||| id) &&& m.iirNone = 0#8 ∧ (fifo ||| id) &&& m.iirId = id := by
  obtain ⟨hids, hnone, hbits⟩ := StdMap.wf_iir h
  rw [hasBit_or_mask, Bool.or_eq_false_iff] at hbits
  obtain ⟨hfid, hfnone⟩ := hbits
  have hself := and_eq_self_of_and_not (hids id hid)
  have hidnone : id &&& m.iirNone = 0#8 := by
    rw [← hself, BitVec.and_assoc, hasBit_eq_false.1 hnone, BitVec.and_zero]
  have hclear {b : Byte} (hb : hasBit m.iirFifo b = false) : fifo &&& b = 0#8 := by
    obtain rfl | rfl := hfifo
    · exact BitVec.zero_and
    · exact hasBit_eq_false.1 hb
  rw [BitVec.and_or_distrib_right, BitVec.and_or_distrib_right, hclear hfid, hclear hfnone, hself, hidnone]
  exact ⟨rfl, BitVec.zero_or⟩

/-- The IIR names the cause pending. -/
theorem stdCauseOf_iir (d : StdDev) : stdCauseOf m (d.iir m) = some (d.cause m) := by
  have hfifo : (if d.fifoEn then m.iirFifo else 0#8) = 0#8 ∨ (if d.fifoEn then m.iirFifo else 0#8) = m.iirFifo := by
    cases d.fifoEn <;> simp
  rw [StdDev.iir]
  generalize (if d.fifoEn then m.iirFifo else 0#8) = fifo at hfifo
  have hpending {id : Byte} (hid : id ∈ m.iirIds) :=
    have hread := stdCauseOf_id h hfifo hid
    And.intro hread.2 (stdCauseOf_pending h hread.1)
  cases d.cause m with
  | none =>
    refine stdCauseOf_idle (hasBit_eq_true.1 ?_)
    rw [StdMap.iirBits, hasBit_or, hasBit_self (StdMap.wf_bits h (by simp)), Bool.or_true]
  | modemStatus => obtain ⟨e, hms, -⟩ := hpending (id := m.iirMs) (by simp [StdMap.iirIds]); exact hms e
  | txEmpty => obtain ⟨e, -, htx, -⟩ := hpending (id := m.iirTx) (by simp [StdMap.iirIds]); exact htx e
  | rxReady => obtain ⟨e, -, -, hrx, -⟩ := hpending (id := m.iirRx) (by simp [StdMap.iirIds]); exact hrx e
  | lineStatus => obtain ⟨e, -, -, -, hls, -⟩ := hpending (id := m.iirLs) (by simp [StdMap.iirIds]); exact hls e
  | rxTimeout => obtain ⟨e, -, -, -, -, hto, -⟩ := hpending (id := m.iirTo) (by simp [StdMap.iirIds]); exact hto e

end Cause

/-! ### A round of a visit on a STD port -/

/-- What waits to be served in a STD chip: each action of a visit makes it less. -/
def StdDev.toServe (d : StdDev) : Nat :=
  d.rxf.length + d.rxTo.toNat + d.threInt.toNat + (d.lsErr != 0#4).toNat + (d.msDelta != 0#4).toNat

/-- The modes that a visit leaves as they are. -/
structure StdDev.SameModes (d e : StdDev) : Prop where
  lcr : e.lcr = d.lcr
  ier : e.ier = d.ier

theorem StdDev.SameModes.trans {d e f : StdDev} (h : d.SameModes e) (k : e.SameModes f) : d.SameModes f :=
  ⟨k.lcr.trans h.lcr, k.ier.trans h.ier⟩

/-- What the action of a cause makes of a STD chip, with `cap` rounds of a drain. -/
def StdDev.Acted (cap : Nat) (d : StdDev) : Cause → StdDev → Prop
  | .none, d' => d' = d
  | .modemStatus, d' => d' = { d with msDelta := 0#4 }
  | .lineStatus, d' => d' = { d with lsErr := 0#4 }
  | .txEmpty, d' => ∃ txf b, d' = { d with txf := txf, threInt := d.threInt && b }
  | .rxReady, d' | .rxTimeout, d' => d' = d.drained cap

/-- The condition behind a cause (spec/48_environment_device.md R272). -/
def StdDev.Asserts (d : StdDev) : Cause → Prop
  | .none => True
  | .modemStatus => d.msDelta ≠ 0#4
  | .lineStatus => d.lsErr ≠ 0#4
  | .txEmpty => d.threInt = true
  | .rxReady | .rxTimeout => d.rxf ≠ []

theorem StdDev.asserts_cause (m : StdMap) (d : StdDev) : d.Asserts (d.cause m) := by
  have hlevel : 0 < d.trigger.level := by cases d.trigger <;> decide
  unfold StdDev.cause
  split
  next h => exact h.1
  split
  next h => exact List.length_pos_iff.1 (hlevel.trans_le h.1)
  split
  next h => exact List.length_pos_iff.1 h.2.1
  split
  next h => exact h.1
  split
  next h => exact h.1
  trivial

/-- Reading the cause takes away a reported transmit-empty condition alone (spec/48_environment_device.md R273). -/
theorem StdDev.afterRead_iir (m : StdMap) (d : StdDev) :
    d.afterRead m .iir = if d.cause m = .txEmpty then { d with threInt := false } else d := rfl

theorem StdDev.afterRead_iir_sameModes (m : StdMap) (d : StdDev) : d.SameModes (d.afterRead m .iir) := by
  rw [afterRead_iir]; split <;> exact ⟨rfl, rfl⟩

/-- A drain of a chip in which a byte waits leaves less to serve. -/
theorem StdDev.drained_progress {cap : Nat} {d : StdDev} (hcap : 1 ≤ cap) (hrxf : d.rxf ≠ []) :
    d.SameModes (d.drained cap) ∧ (d.drained cap).toServe < d.toServe := by
  obtain ⟨n, rfl⟩ : ∃ n, cap = n + 1 := ⟨cap - 1, by omega⟩
  have hlen := List.length_pos_iff.2 hrxf
  rw [StdDev.drained_succ]
  refine ⟨⟨rfl, rfl⟩, ?_⟩
  simp only [StdDev.toServe, List.length_drop, List.isEmpty_eq_false_iff.2 hrxf, Bool.and_false, Bool.toNat_false,
    bne_self_eq_false]
  omega

/-- Reading the cause and performing its action leaves less to serve, and the modes as they are. -/
theorem StdDev.Acted.progress {m : StdMap} {cap : Nat} {d d' : StdDev} (hcap : 1 ≤ cap) (hx : d.cause m ≠ .none)
    (h : (d.afterRead m .iir).Acted cap (d.cause m) d') : d.SameModes d' ∧ d'.toServe < d.toServe := by
  have hasserts := d.asserts_cause m
  rw [afterRead_iir] at h
  generalize d.cause m = x at hasserts h hx
  cases x with
  | none => exact absurd rfl hx
  | modemStatus =>
    obtain rfl : d' = { d with msDelta := 0#4 } := h
    have hflag : (d.msDelta != 0#4) = true := bne_iff_ne.2 hasserts
    exact ⟨⟨rfl, rfl⟩, by simp [StdDev.toServe, hflag]⟩
  | lineStatus =>
    obtain rfl : d' = { d with lsErr := 0#4 } := h
    have hflag : (d.lsErr != 0#4) = true := bne_iff_ne.2 hasserts
    exact ⟨⟨rfl, rfl⟩, by simp [StdDev.toServe, hflag]⟩
  | txEmpty =>
    obtain ⟨txf, b, rfl⟩ := h
    have hflag : d.threInt = true := hasserts
    exact ⟨⟨rfl, rfl⟩, by simp [StdDev.toServe, hflag]⟩
  | rxReady => obtain rfl : d' = d.drained cap := h; exact drained_progress hcap hasserts
  | rxTimeout => obtain rfl : d' = d.drained cap := h; exact drained_progress hcap hasserts

theorem withIo_setStd_get (s : State) (D : Devices) (es : List HostEvent) (c : StdSlot) (d : StdDev) :
    (s.withIo (D.setStd c d) es).dev.std.get c = d := Devices.setStd_get D c d

/-- An open STD port whose chip is present, with the divisor latch off and its rings the issuer's. -/
structure StdServed (q : Slot) (c : StdSlot) (s : State) : Prop where
  wf : s.cfg.wf = true
  kind : q.kind = .std c
  regs : s.regs q = regsOf s.cfg q
  port : (s.slots.get q).isSome = true
  owned : s.ringOwned q = true
  present : s.cfg.stdPresent.get c = true
  latch : (s.dev.std.get c).dlab s.cfg.stdMap = false

section StdRound

variable {q : Slot} {c : StdSlot} {s t : State} (h : StdServed q c s)
include h

theorem StdServed.of_frame (hf : AccFrame q s t) (hmodes : (s.dev.std.get c).SameModes (t.dev.std.get c)) :
    StdServed q c t where
  wf := by rw [hf.cfg_eq]; exact h.wf
  kind := h.kind
  regs := by rw [hf.regs_eq, hf.cfg_eq]; exact h.regs
  port := (hf.present q).trans h.port
  owned := hf.owned_eq.trans h.owned
  present := by rw [hf.cfg_eq]; exact h.present
  latch := by rw [StdDev.dlab, hmodes.lcr, hf.cfg_eq]; exact h.latch

/-- HAL.CAUSE on a present chip answers the cause pending (spec/48_environment_device.md R273). -/
theorem StdServed.cause_read : ∃ es, halCause q s = .ok ((s.dev.std.get c).cause s.cfg.stdMap)
    (s.withIo (s.dev.setStd c ((s.dev.std.get c).afterRead s.cfg.stdMap .iir)) es) := by
  refine ⟨_, halCause_eq_ok.2 ⟨_, runHal_read8 h.regs h.kind rfl (ioRd8_chip h.wf h.present .iir), ?_⟩⟩
  rw [regs_std h.regs h.kind, causeOf, Regs.variant, setWidth_half_byte]
  exact stdCauseOf_iir (Config.wf_stdMap h.wf) _

variable {ps : PortState} (hps : s.slots.get q = some ps)
include hps

/-- The action of a cause completes. -/
theorem StdServed.action (x : Cause) : ∃ r w, runAccs q (accAction s.cfg ps x) 0#16 s = .ok r w
    ∧ (s.dev.std.get c).Acted s.cfg.rxDrainCap.std x (w.dev.std.get c) := by
  have hport := regs_eq_port hps
  have hregs : ps.regs = regsOf s.cfg q := hport.symm.trans h.regs
  have hread (r : SReg) := ioRd8_chip (D := s.dev) (es := s.trace) h.wf h.present r
  have hdrain : ∃ r w, runAccs q (accDrainRx s.cfg ps.regs) 0#16 s = .ok r w
      ∧ w.dev.std.get c = (s.dev.std.get c).drained s.cfg.rxDrainCap.std := by
    obtain ⟨r, hrun⟩ := runHal_drainStd h.wf h.kind hps hregs h.owned h.present h.latch
    exact ⟨r, _, (runHal_of_port hps _).symm.trans hrun, withIo_setStd_get ..⟩
  cases x with
  | none => exact ⟨_, s, rfl, rfl⟩
  | modemStatus =>
    have hrun := runHal_read8 (accs := accClrMs) h.regs h.kind rfl (hread .msr)
    exact ⟨_, _, (runHal_of_port hps _).symm.trans hrun, withIo_setStd_get ..⟩
  | lineStatus =>
    have hrun := runHal_read8 (accs := accClrLs) h.regs h.kind rfl (hread .lsr)
    exact ⟨_, _, (runHal_of_port hps _).symm.trans hrun, withIo_setStd_get ..⟩
  | txEmpty =>
    rw [accAction]
    by_cases hqueued : ps.tx.count = 0#16
    · have hnone : accOnTxEmpty s.cfg ps = [] := by
        rw [accOnTxEmpty_none hqueued, ← hport, regs_std h.regs h.kind]; rfl
      exact ⟨_, s, by rw [hnone]; rfl, (s.dev.std.get c).txf, true, by rw [Bool.and_true]⟩
    · obtain ⟨r, w, bytes, hrun, hdev⟩ := runAccs_burst_std h.wf hps hregs h.owned 0#16 h.kind
      have hsend : sendStd s.cfg c = fun D b => D.setStd c ((D.std.get c).write s.cfg.stdMap .data b) := by
        funext D b; rw [sendStd, if_pos h.present]
      rw [hsend, foldl_setStd c fun d b => d.write s.cfg.stdMap .data b, StdDev.foldl_write_data bytes h.latch] at hdev
      exact ⟨r, w, by rw [accOnTxEmpty_queued hqueued]; exact hrun, _, _, by rw [hdev, Devices.setStd_get]⟩
  | rxReady => exact hdrain
  | rxTimeout => exact hdrain

end StdRound

/-- A round that finds a cause leaves less to serve. -/
theorem StdServed.round {q : Slot} {c : StdSlot} {s : State} (h : StdServed q c s) :
    ∃ ps x u, s.slots.get q = some ps ∧ halCause q s = .ok x u
      ∧ (x ≠ .none → ∃ r w, runAccs q (accAction u.cfg ps x) 0#16 u = .ok r w ∧ StdServed q c w
        ∧ (s.dev.std.get c).SameModes (w.dev.std.get c)
        ∧ (w.dev.std.get c).toServe < (s.dev.std.get c).toServe) := by
  obtain ⟨ps, hps⟩ := Option.isSome_iff_exists.1 h.port
  obtain ⟨es, hcause⟩ := h.cause_read
  obtain ⟨-, -, -, -, -, hcap, -⟩ := Config.wf_limits h.wf
  refine ⟨ps, _, _, hps, hcause, fun hx => ?_⟩
  have hchip := withIo_setStd_get s s.dev es c ((s.dev.std.get c).afterRead s.cfg.stdMap .iir)
  have hu := h.of_frame (halCause_frame hcause) (by rw [hchip]; exact StdDev.afterRead_iir_sameModes _ _)
  obtain ⟨r, w, hrun, hacted⟩ := hu.action hps ((s.dev.std.get c).cause s.cfg.stdMap)
  rw [hchip] at hacted
  obtain ⟨hmodes, hless⟩ := hacted.progress hcap hx
  exact ⟨r, w, hrun, h.of_frame ((halCause_frame hcause).trans (runAccs_frame hrun)) hmodes, hmodes, hless⟩

/-- What waits in a chip is served within the rounds of one step of the word. -/
theorem toServe_lt_visitBound {q : Slot} {c : StdSlot} (hk : q.kind = .std c) (s : State) :
    (s.dev.std.get c).toServe < visitBound q s := by
  have hto := Bool.toNat_le (s.dev.std.get c).rxTo
  have hthre := Bool.toNat_le (s.dev.std.get c).threInt
  have hls := Bool.toNat_le ((s.dev.std.get c).lsErr != 0#4)
  have hms := Bool.toNat_le ((s.dev.std.get c).msDelta != 0#4)
  simp only [visitBound, hk, StdDev.toServe]
  omega

/-- The visit of a present chip ends with no cause left, and keeps its modes. -/
theorem StdServed.visit {q : Slot} {c : StdSlot} {s : State} (h : StdServed q c s) :
    ∃ u, visitLoop q (visitBound q s) s = .ok true u ∧ (u.dev.std.get c).cause s.cfg.stdMap = .none
      ∧ (s.dev.std.get c).SameModes (u.dev.std.get c) := by
  obtain ⟨w, u, ⟨hw, hmodes⟩, hcause, hloop⟩ := visitLoop_ends
    (I := fun w => StdServed q c w ∧ (s.dev.std.get c).SameModes (w.dev.std.get c))
    (μ := fun w => (w.dev.std.get c).toServe)
    (fun v ⟨hv, hmodes⟩ => by
      obtain ⟨ps, x, u, hps, hcause, haction⟩ := hv.round
      refine ⟨ps, x, u, hps, hcause, fun hx => ?_⟩
      obtain ⟨r, w, hrun, hw, hmodes', hless⟩ := haction hx
      exact ⟨r, w, hrun, ⟨hw, hmodes.trans hmodes'⟩, hless⟩)
    ⟨h, rfl, rfl⟩ (toServe_lt_visitBound h.kind s)
  obtain ⟨es, hlast⟩ := hw.cause_read
  obtain ⟨hnone, rfl⟩ := ok_eq_ok.1 (hlast.symm.trans hcause)
  have hcfg : w.cfg = s.cfg := by
    rw [← (halCause_frame hcause).cfg_eq, (visitLoop_frame hloop).cfg_eq]
  refine ⟨_, hloop, ?_⟩
  rw [withIo_setStd_get, StdDev.afterRead_iir, ← hnone, if_neg nofun, ← hcfg]
  exact ⟨hnone.symm, hmodes⟩

/-- Settles O41: the rounds end by `visitLoop_ends`, since each that finds a cause leaves less to serve
(`StdServed.round`); the last reading of the IIR finds none and changes nothing. -/
theorem visitServesTheStdPort : Obligations.VisitServesTheStdPort := by
  intro s q c hwf hk hregs hport ho hp hlatch
  obtain ⟨u, hloop, hcause, hmodes⟩ :=
    (StdServed.mk hwf hk hregs hport ho hp (hasBit_eq_false.2 hlatch)).visit
  have hf := visitLoop_frame hloop
  refine ⟨_, exec_dspVisit_ended hport hloop, (visited_moves u q).trans hf.moves_eq, ?_, ?_, ?_, ?_⟩
  · rw [visited_dev, hcause]
  · rw [State.devIrq, hk]
    simp only [visited_dev, visited_cfg, hf.cfg_eq, hcause, ne_eq, not_true_eq_false, decide_false, Bool.and_false]
  · rw [visited_dev, hmodes.lcr]
  · rw [visited_dev, hmodes.ier]

/-! ### A round of a visit on the INTEG port -/

/-- The cause the INTEG device reports (spec/43_hal_variant_mux.md R161, spec/48_environment_device.md R282). -/
def IntegDev.cause (cfg : Config) (d : IntegDev) : Cause :=
  if d.lineErr then .lineStatus
  else if d.rxd.isSome then .rxReady
  else if d.txd.isNone && d.txMore cfg then .txEmpty else .none

/-- What waits to be served in the INTEG device: each action of a visit makes it less. -/
def IntegDev.toServe (cfg : Config) (d : IntegDev) : Nat :=
  d.lineErr.toNat + d.rxd.isSome.toNat + (d.txd.isNone && d.txMore cfg).toNat

/-- What the action of a cause makes of the INTEG device. -/
def IntegDev.Acted (cfg : Config) (d : IntegDev) : Cause → IntegDev → Prop
  | .none, d' | .modemStatus, d' => d' = d
  | .lineStatus, d' => d' = { d with lineErr := false }
  | .txEmpty, d' => d' = { d with ien := d.ien &&& ~~~cfg.imTxie }
      ∨ ∃ b, d' = { d with txd := if d.txd = none then some b else d.txd }
  | .rxReady, d' | .rxTimeout, d' => d' = { d with rxd := none, lineErr := false }

section IntegCause

/-- A mask that is shown under a condition is set exactly under it. -/
theorem hasBit_ite_self {n : Nat} {a : BitVec n} (ha : oneBit a = true) (c : Prop) [Decidable c] :
    hasBit (if c then a else 0#n) a = decide c := by
  split <;> simp [hasBit_self ha, *]

/-- A mask that is shown under a condition is no bit of another. -/
theorem hasBit_ite_ne {n : Nat} {a b : BitVec n} (ha : oneBit a = true) (hb : oneBit b = true) (hne : a ≠ b)
    (c : Prop) [Decidable c] : hasBit (if c then a else 0#n) b = false := by
  split <;> simp [hasBit_oneBit_ne ha hb hne]

variable {cfg : Config}

/-- The bits of the status word that ask for service beside a waiting byte (spec/48_environment_device.md R282). -/
theorem hasBit_status_service (h : cfg.wf = true) (d : IntegDev) (free : Half) :
    hasBit (d.status cfg free) cfg.isTxint = (d.txd.isNone && d.txMore cfg)
    ∧ hasBit (d.status cfg free) cfg.isLineerr = d.lineErr := by
  obtain ⟨hbits, hnodup⟩ := Config.wf_masks h
  have hrx := hbits cfg.isRxrdy (by simp)
  have hthre := hbits cfg.isThre (by simp)
  have htx := hbits cfg.isTxint (by simp)
  have herr := hbits cfg.isLineerr (by simp)
  simp only [List.nodup_cons, List.mem_cons, not_or] at hnodup
  obtain ⟨⟨-, hne₁, hne₂, -⟩, ⟨hne₃, hne₄, -⟩, ⟨hne₅, -⟩, -⟩ := hnodup
  simp only [IntegDev.status, hasBit_or]
  constructor
  · rw [hasBit_statusFree (by simp), hasBit_ite_self htx, hasBit_ite_ne hrx htx hne₁, hasBit_ite_ne hthre htx hne₃,
      hasBit_ite_ne herr htx (Ne.symm hne₅)]
    cases d.txd <;> simp
  · rw [hasBit_statusFree (by simp), hasBit_ite_self herr, hasBit_ite_ne hrx herr hne₂,
      hasBit_ite_ne hthre herr hne₄, hasBit_ite_ne htx herr hne₅]
    simp

/-- The status word names the cause pending, whatever its open bits. -/
theorem integCauseOf_status (h : cfg.wf = true) (d : IntegDev) (free : Half) :
    integCauseOf cfg (d.status cfg free) = d.cause cfg := by
  obtain ⟨hrx, -⟩ := hasBit_status h d free
  obtain ⟨htx, herr⟩ := hasBit_status_service h d free
  simp only [integCauseOf, IntegDev.cause, ← hasBit_eq_true, hrx, htx, herr]

/-- A device with no cause left (spec/48_environment_device.md R281). -/
theorem IntegDev.cause_eq_none {d : IntegDev} : d.cause cfg = .none ↔
    d.lineErr = false ∧ d.rxd = none ∧ (d.txd ≠ none ∨ d.txMore cfg = false) := by
  simp only [IntegDev.cause]
  cases d.lineErr <;> cases d.rxd <;> cases d.txd <;> cases d.txMore cfg <;> simp

/-- HAL.DIS_TX clears the TX-more latch (spec/43_hal_variant_mux.md R171). -/
theorem IntegDev.txMore_disabled (cfg : Config) (d : IntegDev) :
    ({ d with lineErr := false, ien := d.ien &&& ~~~cfg.imTxie } : IntegDev).txMore cfg = false := by
  refine hasBit_eq_false.2 ?_
  show d.ien &&& ~~~cfg.imTxie &&& cfg.imTxie = 0#16
  rw [BitVec.and_assoc, BitVec.and_comm (~~~_), BitVec.and_not_self]
  exact BitVec.and_zero

/-- Reading the cause and performing its action leaves less to serve. -/
theorem IntegDev.Acted.progress {d d' : IntegDev} (hx : d.cause cfg ≠ .none)
    (h : ({ d with lineErr := false } : IntegDev).Acted cfg (d.cause cfg) d') : d'.toServe cfg < d.toServe cfg := by
  unfold IntegDev.cause at h hx
  split at h
  next herr =>
    obtain rfl : d' = { d with lineErr := false } := h
    simp [IntegDev.toServe, herr, IntegDev.txMore]
  next herr =>
    split at h
    next hrxd =>
      obtain rfl : d' = { d with rxd := none, lineErr := false } := h
      simp [IntegDev.toServe, herr, hrxd, IntegDev.txMore]
    next hrxd =>
      split at h
      next htx =>
        obtain ⟨htxd, hmore⟩ := Bool.and_eq_true_iff.1 htx
        obtain rfl | ⟨b, rfl⟩ := h
        · have hoff := d.txMore_disabled cfg
          simp [IntegDev.toServe, herr, hrxd, htxd, hmore, hoff]
        · simp [IntegDev.toServe, herr, hrxd, hmore, Option.isNone_iff_eq_none.1 htxd]
      next htx => simp [herr, hrxd, htx] at hx

end IntegCause

/-- The open INTEG port with its device present and its rings the issuer's. -/
structure IntegServed (s : State) : Prop where
  wf : s.cfg.wf = true
  regs : s.regs .p2 = regsOf s.cfg .p2
  port : (s.slots.get .p2).isSome = true
  owned : s.ringOwned .p2 = true
  present : s.cfg.integPresent = true

section IntegRound

variable {s t : State} (h : IntegServed s)
include h

theorem IntegServed.of_frame (hf : AccFrame .p2 s t) : IntegServed t where
  wf := by rw [hf.cfg_eq]; exact h.wf
  regs := by rw [hf.regs_eq, hf.cfg_eq]; exact h.regs
  port := (hf.present .p2).trans h.port
  owned := hf.owned_eq.trans h.owned
  present := by rw [hf.cfg_eq]; exact h.present

/-- HAL.CAUSE on the present device answers the cause pending and clears the line error
(spec/48_environment_device.md R285). -/
theorem IntegServed.cause_read : ∃ es, halCause .p2 s = .ok (s.dev.integ.cause s.cfg)
    (s.drawn1.withIo (s.dev.setInteg { s.dev.integ with lineErr := false }) es) := by
  refine ⟨_, halCause_eq_ok.2 ⟨_, runHal_read16 h.regs rfl rfl (ioRd16_device h.wf h.present .stat), ?_⟩⟩
  rw [regs_integ h.regs rfl, ← integCauseOf_status h.wf _ s.drawValue]; rfl

variable {ps : PortState} (hps : s.slots.get .p2 = some ps)
include hps

/-- The action of a cause completes. -/
theorem IntegServed.action (x : Cause) : ∃ r w, runAccs .p2 (accAction s.cfg ps x) 0#16 s = .ok r w
    ∧ s.dev.integ.Acted s.cfg x w.dev.integ := by
  have hregs : ps.regs = regsOf s.cfg .p2 := (regs_eq_port hps).symm.trans h.regs
  have hdrain : ∃ r w, runAccs .p2 (accDrainRx s.cfg ps.regs) 0#16 s = .ok r w
      ∧ w.dev.integ = { s.dev.integ with rxd := none, lineErr := false } := by
    rw [← runHal_of_port hps accDrainRx]
    obtain hrxd | ⟨b, hrxd⟩ := Option.eq_none_or_eq_some s.dev.integ.rxd
    · obtain ⟨r, hrun⟩ := runHal_drainInteg_none h.wf hps hregs h.present hrxd
      exact ⟨r, _, hrun, by rw [← hrxd]; rfl⟩
    · obtain ⟨r, x, y, hrun⟩ := runHal_drainInteg_some h.wf hps hregs h.present h.owned hrxd
      exact ⟨r, _, hrun, rfl⟩
  cases x with
  | none => exact ⟨_, s, rfl, rfl⟩
  | modemStatus =>
    have hrun : runHal .p2 accClrMs s = .ok 0#16 s := by rw [runHal_integ h.regs _ rfl]; rfl
    exact ⟨_, s, (runHal_of_port hps _).symm.trans hrun, rfl⟩
  | lineStatus =>
    have hrun := runHal_read16 (accs := accClrLs) h.regs rfl rfl
      (ioRd16_device (D := s.dev) (es := s.trace) h.wf h.present .stat)
    exact ⟨_, _, (runHal_of_port hps _).symm.trans hrun, rfl⟩
  | txEmpty =>
    rw [accAction]
    by_cases hqueued : ps.tx.count = 0#16
    · have hread := ioRd16_device (D := s.dev) (es := s.trace) h.wf h.present .ien
      have hrun := runHal_changeIen (accs := accDisTx) (e := .andNotV s.cfg.imTxie) h.regs rfl rfl hread
        (ioWr16_device h.wf h.present .ien _)
      exact ⟨_, _, by rw [accOnTxEmpty_none hqueued, ← runHal_of_port hps]; exact hrun, .inl rfl⟩
    · obtain ⟨r, w, bytes, hrun, hdev, hbytes⟩ := runAccs_burst_integ h.wf hps hregs h.owned 0#16 rfl
      obtain ⟨b, rest, rfl⟩ := List.exists_cons_of_ne_nil (hbytes hqueued)
      have hsend : sendInteg s.cfg = fun D b => D.setInteg (D.integ.write .txd (b.setWidth 16)) := by
        funext D b; rw [sendInteg, if_pos h.present]
      rw [hsend, foldl_setInteg fun d b => d.write .txd (b.setWidth 16), IntegDev.foldl_write_txd] at hdev
      exact ⟨r, w, by rw [accOnTxEmpty_queued hqueued]; exact hrun, .inr ⟨b, by rw [hdev]; rfl⟩⟩
  | rxReady => exact hdrain
  | rxTimeout => exact hdrain

end IntegRound

/-- A round that finds a cause leaves less to serve. -/
theorem IntegServed.round {s : State} (h : IntegServed s) :
    ∃ ps x u, s.slots.get .p2 = some ps ∧ halCause .p2 s = .ok x u
      ∧ (x ≠ .none → ∃ r w, runAccs .p2 (accAction u.cfg ps x) 0#16 u = .ok r w ∧ IntegServed w
        ∧ w.dev.integ.toServe w.cfg < s.dev.integ.toServe s.cfg) := by
  obtain ⟨ps, hps⟩ := Option.isSome_iff_exists.1 h.port
  obtain ⟨es, hcause⟩ := h.cause_read
  have hf := halCause_frame hcause
  have hu := h.of_frame hf
  refine ⟨ps, _, _, hps, hcause, fun hx => ?_⟩
  obtain ⟨r, w, hrun, hacted⟩ := hu.action (ps := ps) (by rw [State.withIo, drawn1_slots]; exact hps)
    (s.dev.integ.cause s.cfg)
  rw [hf.cfg_eq] at hacted
  refine ⟨r, w, hrun, hu.of_frame (runAccs_frame hrun), ?_⟩
  rw [(runAccs_frame hrun).cfg_eq, hf.cfg_eq]
  exact hacted.progress hx

/-- The visit of the present device ends with no cause left. -/
theorem IntegServed.visit {s : State} (h : IntegServed s) :
    ∃ u, visitLoop .p2 (visitBound .p2 s) s = .ok true u ∧ u.dev.integ.cause s.cfg = .none := by
  have hbound : s.dev.integ.toServe s.cfg < visitBound .p2 s := by
    have herr := Bool.toNat_le s.dev.integ.lineErr
    have hrxd := Bool.toNat_le s.dev.integ.rxd.isSome
    have htx := Bool.toNat_le (s.dev.integ.txd.isNone && s.dev.integ.txMore s.cfg)
    simp only [visitBound, Slot.kind, IntegDev.toServe]
    omega
  obtain ⟨w, u, hw, hcause, hloop⟩ :=
    visitLoop_ends (μ := fun w => w.dev.integ.toServe w.cfg) (fun v hv => hv.round) h hbound
  obtain ⟨es, hlast⟩ := hw.cause_read
  obtain ⟨hnone, rfl⟩ := ok_eq_ok.1 (hlast.symm.trans hcause)
  have hcfg : w.cfg = s.cfg := by
    rw [← (halCause_frame hcause).cfg_eq, (visitLoop_frame hloop).cfg_eq]
  obtain ⟨-, hrxd, htx⟩ := IntegDev.cause_eq_none.1 hnone.symm
  exact ⟨_, hloop, by rw [← hcfg]; exact IntegDev.cause_eq_none.2 ⟨rfl, hrxd, htx⟩⟩

/-- Settles O42: as for a STD port (`visitLoop_ends`, `IntegServed.round`); the cause the device reports is none
exactly when nothing asks for service (`IntegDev.cause_eq_none`). -/
theorem visitServesTheIntegPort : Obligations.VisitServesTheIntegPort := by
  intro s hwf hp hregs hport ho
  obtain ⟨u, hloop, hcause⟩ := (IntegServed.mk hwf hregs hport ho hp).visit
  have hf := visitLoop_frame hloop
  obtain ⟨herr, hrxd, htx⟩ := IntegDev.cause_eq_none.1 hcause
  refine ⟨_, exec_dspVisit_ended hport hloop, (visited_moves u .p2).trans hf.moves_eq, ?_, ?_, ?_, ?_⟩
  · rw [visited_dev, hrxd]
  · rw [visited_dev, herr]
  · rw [visited_dev]
    exact htx.imp_right hasBit_eq_false.1
  · have htx' : (u.dev.integ.txd.isNone && u.dev.integ.txMore s.cfg) = false := by
      rw [Bool.and_eq_false_iff]
      exact htx.imp_left fun h => Option.isNone_eq_false_iff.2 (Option.isSome_iff_ne_none.2 h)
    simp only [State.devIrq, Slot.kind, visited_dev, visited_cfg, hf.cfg_eq, IntegDev.irq, herr, hrxd, htx',
      Option.isSome_none, Bool.false_and, Bool.or_false, Bool.and_false]

end Sys2Proof.Machine

/-! ## The lifecycle of a port

OPEN, CONFIGURE and CLOSE are made of the capabilities of the mux and the primitives of a line: each state after a
command is put together from the states its capabilities leave (spec/45_lifecycle.md). -/

namespace Sys2Proof.Machine

open Sys2Proof

/-- A word of class 4 that completes is its capability; what it answers goes to `ret` (log entry 5). -/
theorem answer_of_word {α : Type} {q : Slot} {r : Res α} {g : α → Ret} {s u : State} {x : Ret}
    (hframe : ∀ a t, r = .ok a t → AccFrame q s t) (h : r.returning g = .next { u with ret := x })
    (hret : u.ret = s.ret) : ∃ a, r = .ok a u ∧ g a = x := by
  obtain ⟨a, t, hrun, ht⟩ := returning_eq_next.1 h
  have hu : u = t := by
    calc u = { { u with ret := x } with ret := s.ret } := by rw [← hret]
      _ = { { t with ret := g a } with ret := s.ret } := by rw [ht]
      _ = t := by rw [← (hframe a t hrun).ret_eq]
  exact ⟨a, by rw [hrun, hu], (congrArg State.ret ht).symm⟩

theorem runHal_of_word {q : Slot} {accs : Config → Regs → List Acc} {g : Half → Ret} {s u : State} {x : Ret}
    (h : (runHal q accs s).returning g = .next { u with ret := x }) (hret : u.ret = s.ret) :
    ∃ v, runHal q accs s = .ok v u := by
  obtain ⟨v, hrun, -⟩ := answer_of_word (fun _ _ => runHal_frame) h hret
  exact ⟨v, hrun⟩

/-- A command issued as a word with no other running and no handler entered is performed (log entry 4). -/
theorem issueCommand_idle {c : Cmd} {whole : State → Res Unit} {s : State} (hm : s.mseq = .idle) (hctx : s.ctx = []) :
    issueCommand c whole s = (whole s).outcome := by
  rw [issueCommand, if_neg (not_not_intro hm), if_neg (not_not_intro hctx)]

/-! ### The settings CONFIGURE accepts (spec/43_hal_variant_mux.md R172) -/

theorem stdSettingsOk_iff {cfg : Config} {baud par data stop : Word} : stdSettingsOk cfg baud par data stop = true ↔
    5 ≤ data.toNat ∧ data.toNat ≤ 8 ∧ par.toNat ≤ 4 ∧ (stop.toNat = 1 ∨ stop.toNat = 2)
      ∧ (cfg.stdBaud.lookup baud).isSome = true := by
  have hone : stop = 1#32 ↔ stop.toNat = 1 := BitVec.toNat_inj.symm
  have htwo : stop = 2#32 ↔ stop.toNat = 2 := BitVec.toNat_inj.symm
  simp [stdSettingsOk, Config.stdDivisor?, hone, htwo, and_assoc]

theorem integSettingsOk_iff {cfg : Config} {baud par data stop : Word} :
    integSettingsOk cfg baud par data stop = true ↔ (data.toNat = 7 ∨ data.toNat = 8) ∧ par.toNat ≤ 2
      ∧ baud ∈ cfg.integBaudOk ∧ stop ∈ cfg.integStopOk := by
  have hseven : data = 7#32 ↔ data.toNat = 7 := BitVec.toNat_inj.symm
  have height : data = 8#32 ↔ data.toNat = 8 := BitVec.toNat_inj.symm
  simp [integSettingsOk, hseven, height, and_assoc]

theorem regsOf_variant (cfg : Config) (q : Slot) : (regsOf cfg q).variant = q.kind.variant := by cases q <;> rfl

/-- The tests of CONFIGURE on an open port (spec/45_lifecycle.md R214). -/
theorem configureCheck_sel {s : State} {q : Slot} {ps : PortState} (hps : s.slots.get q = some ps) :
    configureCheck q.sel s = if settingsOk s.cfg ps.regs.variant s.a0 s.a1 s.a2 s.a3 then .ok q
      else .error .illegalSetting := by
  rw [configureCheck, prologue_eq_ok.2 ⟨slotOfSel_sel q, hps⟩]

/-- HAL.CONFIG completes (spec/43_hal_variant_mux.md R162). -/
theorem exec_halConfig_completes {s : State} {q : Slot} (hwf : s.cfg.wf = true) (hregs : s.regs q = regsOf s.cfg q) :
    ∃ t, exec (.halConfig q.sel) s = .next t := by
  obtain ⟨hstd, hinteg⟩ := Sys2Proof.halConfig s q hwf hregs
  cases hk : q.kind with
  | std c => obtain ⟨_, _, -, -, -, hexec⟩ := hstd c hk; exact ⟨_, hexec⟩
  | integ => exact ⟨_, hinteg hk⟩

/-- What a draw does depends on the draws alone (log entry 2). -/
theorem drawn1_of_draws {s u : State} (hdraws : s.draws = u.draws) (hdrawn : s.drawn = u.drawn) :
    s.drawn1 = { s with draws := u.drawn1.draws, drawn := u.drawn1.drawn } := by
  unfold State.drawn1
  rw [hdraws, hdrawn]
  cases u.draws <;> rfl

theorem drawnIf_of_draws {s u : State} (hdraws : s.draws = u.draws) (hdrawn : s.drawn = u.drawn) (b : Bool) :
    s.drawnIf b = { s with draws := (u.drawnIf b).draws, drawn := (u.drawnIf b).drawn } := by
  cases b with
  | false => simp only [State.drawnIf, Bool.false_eq_true, if_false, ← hdraws, ← hdrawn]
  | true => exact drawn1_of_draws hdraws hdrawn

/-- The end of a command, by the draws that are left. -/
theorem finish_of_draws {s u : State} (hdraws : s.draws = u.draws) (hdrawn : s.drawn = u.drawn) (v : Word) :
    s.finish v = { s with r0 := v, lasterr := u.drawValue.setWidth 8, mseq := .idle, draws := u.drawn1.draws,
                          drawn := u.drawn1.drawn } := by
  have hvalue : s.drawValue = u.drawValue := by rw [State.drawValue, State.drawValue, hdraws, hdrawn]
  rw [finish_eq, drawn1_of_draws hdraws hdrawn, hvalue]

/-- The end of CONFIGURE: the line is unmasked and the command ends with 0. -/
theorem finish_unmaskLine {q : Slot} {s u : State} {l : Line} (hm : s.mseq = .idle) (hu : AccFrame q (s.maskLine l) u) :
    (u.unmaskLine l).finish 0#32 = { u.drawn1 with
      r0 := 0#32, lasterr := u.drawValue.setWidth 8, ret := s.ret,
      masked := s.masked.set l false, trace := u.trace ++ [.unmask l] } := by
  have hmasked : u.masked = s.masked.set l true := by rw [hu.frame]; rfl
  have hmseq : u.mseq = .idle := by rw [hu.frame]; exact hm
  have hret : u.ret = s.ret := hu.ret_eq
  simp [finish_of_draws (u := u) (s := u.unmaskLine l) rfl rfl, hmasked, hmseq, hret, -drawn1_draws, -drawn1_drawn]

/-- Settles O52: the tests by `configureCheck_sel`; HAL.CONFIG completes, and leaves the masks as they are. -/
theorem configure : Obligations.Configure := by
  intro s q ps hwf hm hctx hps hregs l accepted
  have hport := regs_of_port hps hregs
  have hsettings : settingsOk s.cfg ps.regs.variant s.a0 s.a1 s.a2 s.a3 = true ↔ accepted := by
    rw [hregs, regsOf_variant]
    cases hk : q.kind with
    | std c => simp only [accepted, hk]; exact stdSettingsOk_iff
    | integ => simp only [accepted, hk]; exact integSettingsOk_iff
  have hexec : exec (.configure q.sel) s = (configureWhole q.sel s).outcome := issueCommand_idle hm hctx
  rw [hexec, configureWhole, configureCheck_sel hps]
  refine ⟨fun hrejected => ?rejected, fun haccepted => ?performed⟩
  case rejected =>
    simp only [if_neg (mt hsettings.1 hrejected), fail_eq, outcome_ok, ← hm]
  case performed =>
    obtain ⟨t, ht⟩ := exec_halConfig_completes (s := s.maskLine l) (q := q) hwf hport
    obtain ⟨v, u, hrun, rfl⟩ := returning_eq_next.1 (exec_halConfig.symm.trans ht)
    have hrun : halConfig q s.a0 s.a1 s.a2 s.a3 (s.maskLine (s.lineOf q)) = .ok v u := hrun
    have hu : AccFrame q (s.maskLine l) u := halConfig_frame hrun
    have hl : u.lineOf q = l := by rw [State.lineOf, hu.cfg_eq]; rfl
    refine ⟨u, ht, ?_⟩
    simp only [if_pos (hsettings.2 haccepted), hrun, andThen_ok, outcome_ok, hl]
    rw [finish_unmaskLine hm hu]

/-! ### CLOSE (spec/45_lifecycle.md R216 to R218) -/

/-- What the last line of CLOSE leaves of the masks. -/
theorem unmaskIfUsed_eq (s : State) (l : Line) : s.unmaskIfUsed l = { s with
    masked := if s.lineRefs.get l = 0 then s.masked else s.masked.set l false
    trace := if s.lineRefs.get l = 0 then s.trace else s.trace ++ [.unmask l] } := by
  unfold State.unmaskIfUsed
  by_cases h : s.lineRefs.get l = 0
  · rw [if_neg (by omega), if_pos h, if_pos h]
  · rw [if_pos (by omega), if_neg h, if_neg h]; rfl

/-- The state after CLOSE, with the devices `D`; `es` are the accesses of HAL.DIS_INT, `gs` those of HAL.RESTORE. -/
def State.afterClose (s : State) (q : Slot) (D : Devices) (es gs : List HostEvent) : State :=
  let l := s.lineOf q
  let left := s.lineRefs.get l - 1
  State.finish { s with
    slots := s.slots.set q none, life := s.life.set q .closed, lineRefs := s.lineRefs.set l left,
    handler := if left = 0 then s.handler.set l (s.savedHandler.get l) else s.handler,
    masked := s.masked.set l (decide (left = 0)), dev := D,
    trace := s.trace ++ [.mask l] ++ es ++ (if left = 0 then [.restore l (s.savedHandler.get l)] else []) ++ gs
      ++ (if left = 0 then [] else [.unmask l]) } 0#32

/-- The lifecycle state CLOSE finds does not show in what it leaves. -/
theorem afterClose_setLife (s : State) (q : Slot) (f : Life) (D : Devices) (es gs : List HostEvent) :
    (s.setLife q f).afterClose q D es gs = s.afterClose q D es gs := by
  simp only [State.afterClose, State.setLife, PerSlot.set_set]; rfl

section CloseTail

variable {s : State} {q : Slot} {D D' : Devices} {es gs : List HostEvent}

/-- CLOSE from line 3, by what HAL.DIS_INT and HAL.RESTORE do. -/
theorem closeTail_of_runs
    (hdis : ∃ v, runHal q accDisInt (s.maskLine (s.lineOf q))
      = .ok v ((s.maskLine (s.lineOf q)).withIo D (s.trace ++ [.mask (s.lineOf q)] ++ es)))
    (hrest : ∀ u, u.regs q = s.regs q → u.cfg = s.cfg → u.savedInteg = s.savedInteg → u.dev = D →
      ∃ v, runHal q accRestore u = .ok v (u.withIo D' (u.trace ++ gs))) :
    closeTail q s = .ok () (s.afterClose q D' es gs) := by
  obtain ⟨v, hdis⟩ := hdis
  rw [closeTail, hdis, andThen_ok]
  generalize hu : State.unhookLine _ _ = u
  have hu := hu.symm.trans (unhookLine_eq _ _)
  obtain ⟨w, hrest⟩ := hrest u (by rw [hu]; rfl) (by rw [hu]; rfl) (by rw [hu]; rfl) (by rw [hu]; rfl)
  rw [hrest, andThen_ok, State.afterClose]
  congr 2
  rw [unmaskIfUsed_eq, hu]
  by_cases hlast : s.lineRefs.get (s.cfg.lineOf.get q) - 1 = 0
  · simp [State.withIo, State.dropPort, State.lineOf, hlast]
  · simp [State.withIo, State.dropPort, State.lineOf, hlast]

variable (hwf : s.cfg.wf = true)
include hwf

/-- What a write to a register of a STD block does, present or not (spec/47_host_primitives.md R252, R254). -/
theorem ioWr8_std (c : StdSlot) (r : SReg) (v : Byte) : ioWr8 (s.cfg.stdMap.addr (s.cfg.stdBase.get c) r) v s = .ok ()
    (s.withIo (if s.cfg.stdPresent.get c then s.dev.setStd c ((s.dev.std.get c).write s.cfg.stdMap r v) else s.dev)
      (s.trace ++ [.wr8 (s.cfg.stdMap.addr (s.cfg.stdBase.get c) r) v])) := by
  cases hp : s.cfg.stdPresent.get c with
  | false => exact ioWr8_noChip (D := s.dev) (es := s.trace) hwf hp r v
  | true => exact ioWr8_chip (D := s.dev) (es := s.trace) hwf hp r v

end CloseTail

/-- A write of 0 to the IER turns every enable off, or the high byte of the divisor with the divisor latch on
(spec/48_environment_device.md R276). -/
theorem StdDev.write_ier_off (m : StdMap) (d : StdDev) : d.write m .ier 0#8 =
    if d.lcr &&& m.lcrDlab ≠ 0#8 then { d with dlm := 0#8 } else { d with ier := 0#8 } := by
  by_cases hlatch : d.lcr &&& m.lcrDlab = 0#8
  · rw [if_neg (not_not_intro hlatch), StdDev.write_ier_zero (hasBit_eq_false.2 hlatch)]
  · rw [if_pos hlatch]; exact if_pos (hasBit_eq_true.2 hlatch)

section CloseVariants

variable {s : State} {q : Slot} (hwf : s.cfg.wf = true) (hregs : s.regs q = regsOf s.cfg q)
include hwf hregs

/-- HAL.DIS_INT on the INTEG port, its hardware present (spec/43_hal_variant_mux.md R157). -/
theorem runHal_disInt_device (hk : q.kind = .integ) (hp : s.cfg.integPresent = true) : let d := s.dev.integ
    let ien := d.ien &&& ~~~(s.cfg.imRxie ||| s.cfg.imTxie)
    ∃ v, runHal q accDisInt s = .ok v (s.withIo (s.dev.setInteg { d with ien := ien })
      (s.trace ++ [.rd16 s.cfg.iIen d.ien, .wr16 s.cfg.iIen ien])) := by
  obtain ⟨-, -, -, hdevice⟩ := halEnables s q hwf hregs
  obtain ⟨-, -, hword, -⟩ := hdevice hk hp
  exact runHal_of_word (exec_halDisInt.symm.trans hword) rfl

/-- HAL.RESTORE on the INTEG port, its hardware present (spec/43_hal_variant_mux.md R168). -/
theorem runHal_restore_device (hk : q.kind = .integ) (hp : s.cfg.integPresent = true) : let g := s.savedInteg
    ∃ v, runHal q accRestore s = .ok v (s.withIo
      (s.dev.setInteg { s.dev.integ with ien := g.ien, lctl := g.lctl, baud := g.baud })
      (s.trace ++ [.wr16 s.cfg.iIen g.ien, .wr16 s.cfg.iLctl g.lctl, .wr16 s.cfg.iBaud g.baud])) := by
  have hword := halRestore_integ hwf hregs hk
  rw [if_pos hp] at hword
  exact runHal_of_word (exec_halRestore.symm.trans hword) rfl

/-- CLOSE of a STD port from line 3 (spec/45_lifecycle.md R216). -/
theorem closeTail_std {c : StdSlot} (hk : q.kind = .std c) : let d := s.dev.std.get c
    closeTail q s = .ok () (s.afterClose q
      (if s.cfg.stdPresent.get c then s.dev.setStd c
          (if d.lcr &&& s.cfg.stdMap.lcrDlab ≠ 0#8 then { d with dlm := 0#8 } else { d with ier := 0#8 })
        else s.dev)
      [.wr8 (s.cfg.stdMap.addr (s.cfg.stdBase.get c) .ier) 0#8] []) := by
  dsimp only
  rw [← StdDev.write_ier_off]
  refine closeTail_of_runs ⟨_, runHal_disInt hregs hk (ioWr8_std (s := s.maskLine (s.lineOf q)) hwf c .ier 0#8)⟩
    fun u hu hcfg _ hdev => ⟨0#16, ?_⟩
  have hnone : runHal q accRestore u = .ok 0#16 (u.withIo u.dev u.trace) :=
    runHal_std (hu.trans (hregs.trans (hcfg ▸ rfl))) _ hk
  rw [hdev] at hnone
  rw [hnone, List.append_nil]; rfl

/-- CLOSE of the INTEG port from line 3, its hardware present (spec/45_lifecycle.md R216). -/
theorem closeTail_integ (hk : q.kind = .integ) (hp : s.cfg.integPresent = true) : let d := s.dev.integ
    let g := s.savedInteg
    closeTail q s = .ok () (s.afterClose q
      (s.dev.setInteg { d with ien := g.ien, lctl := g.lctl, baud := g.baud })
      [.rd16 s.cfg.iIen d.ien, .wr16 s.cfg.iIen (d.ien &&& ~~~(s.cfg.imRxie ||| s.cfg.imTxie))]
      [.wr16 s.cfg.iIen g.ien, .wr16 s.cfg.iLctl g.lctl, .wr16 s.cfg.iBaud g.baud]) := by
  refine closeTail_of_runs (runHal_disInt_device (s := s.maskLine (s.lineOf q)) hwf hregs hk hp)
    fun u hu hcfg hsaved hdev => ?_
  have hrest := runHal_restore_device (hcfg ▸ hwf) (hu.trans (hregs.trans (hcfg ▸ rfl))) hk (hcfg ▸ hp)
  rw [hcfg, hsaved, hdev] at hrest
  exact hrest

end CloseVariants


/-! ### The status read of a waiting CLOSE (spec/45_lifecycle.md R216 line 2) -/

/-- What a status read may write: the devices, the trace and the draws. -/
def ReadFrame (s t : State) : Prop := t = { s with dev := t.dev, trace := t.trace, draws := t.draws, drawn := t.drawn }

section Status

variable {s t : State} {q : Slot}

theorem ReadFrame.refl (s : State) : ReadFrame s s := rfl

/-- The result of a word aside, nothing but what the read wrote differs. -/
theorem ReadFrame.restore_ret (h : ReadFrame s t) (r : Ret) : { { t with ret := r } with ret := s.ret } = t := by
  rw [h]

theorem ReadFrame.setLife_self (h : ReadFrame s t) : t.setLife q (s.life.get q) = t := by
  rw [h]; simp [State.setLife]

theorem drawn1_setLife (s : State) (k : Slot) (f : Life) : (s.setLife k f).drawn1 = s.drawn1.setLife k f := by
  unfold State.drawn1 State.setLife
  cases s.draws <;> rfl

theorem drawnIf_setLife (s : State) (b : Bool) (k : Slot) (f : Life) :
    (s.setLife k f).drawnIf b = (s.drawnIf b).setLife k f := by
  cases b
  · rfl
  · exact drawn1_setLife s k f

theorem ioRd8_setLife (a : Half) (s : State) (k : Slot) (f : Life) :
    ioRd8 a (s.setLife k f) = (ioRd8 a s).andThen fun v t => .ok v (t.setLife k f) := by
  have hroute : route (s.setLife k f).cfg a = route s.cfg a := rfl
  unfold ioRd8
  rw [hroute]
  cases route s.cfg a <;> simp only [drawnIf_setLife, drawn1_setLife] <;> rfl

theorem ioRd16_setLife (a : Half) (s : State) (k : Slot) (f : Life) :
    ioRd16 a (s.setLife k f) = (ioRd16 a s).andThen fun v t => .ok v (t.setLife k f) := by
  have hroute : route (s.setLife k f).cfg a = route s.cfg a := rfl
  unfold ioRd16
  rw [hroute]
  cases route s.cfg a <;> simp only [drawnIf_setLife, drawn1_setLife] <;> rfl

/-- HAL.TX_EMPTY does not see the lifecycle states (spec/10_state.md R29). -/
theorem halTxEmpty_setLife (q : Slot) (s : State) (k : Slot) (f : Life) :
    halTxEmpty q (s.setLife k f) = (halTxEmpty q s).andThen fun e t => .ok e (t.setLife k f) := by
  have hregs : (s.setLife k f).regs q = s.regs q := rfl
  unfold halTxEmpty runHal
  rw [hregs]
  cases s.regs q with
  | std b => simp only [setLife_cfg, accTxEmpty, runAccs_rd8, ioRd8_setLife, andThen_assoc, andThen_ok, runAccs_nil]
  | integ => simp only [setLife_cfg, accTxEmpty, runAccs_rd16, ioRd16_setLife, andThen_assoc, andThen_ok, runAccs_nil]

/-- HAL.TX_EMPTY completes on an open port, as a status read (spec/43_hal_variant_mux.md R164). -/
theorem halTxEmpty_completes (hwf : s.cfg.wf = true) (hregs : s.regs q = regsOf s.cfg q) : ∃ e t,
    halTxEmpty q s = .ok e t ∧ ReadFrame s t ∧ exec (.halTxEmpty q.sel) s = .next { t with ret := .bool e } := by
  have hread : ∃ v t, runHal q accTxEmpty s = .ok v t ∧ ReadFrame s t := by
    cases hk : q.kind with
    | std c =>
      obtain ⟨v, t, hread⟩ := ioRd8_std_ok hwf c .lsr
      exact ⟨_, t, runHal_read8 hregs hk rfl hread, ioRd8_frame hread⟩
    | integ =>
      obtain ⟨v, t, hread⟩ := ioRd16_integ_ok hwf .stat
      exact ⟨_, t, runHal_read16 hregs hk rfl hread, ioRd16_frame hread⟩
  obtain ⟨v, t, hrun, hframe⟩ := hread
  have hanswer := halTxEmpty_eq_ok.2 ⟨v, hrun, rfl⟩
  exact ⟨_, t, hanswer, hframe, by rw [exec_halTxEmpty, hanswer, returning_ok]⟩

end Status

section Spin

variable {s t : State} {q : Slot} {p : BitVec 4} {ps : PortState}

theorem closeSpin_nonBlocking (hb : ps.blocking = false) : closeSpin p q ps s = closeTail q s := by
  rw [closeSpin, if_pos (by rw [hb]; rfl)]

theorem closeSpin_queued (hb : ps.blocking = true) (hc : ps.tx.count ≠ 0#16) :
    closeSpin p q ps s = .ok () (s.closeWait p) := by
  rw [closeSpin, if_neg (by rw [hb]; decide), if_pos hc]

theorem closeSpin_status (hb : ps.blocking = true) (hc : ps.tx.count = 0#16) {e : Bool} (h : halTxEmpty q s = .ok e t) :
    closeSpin p q ps s = if e then closeTail q t else .ok () (t.closeWait p) := by
  rw [closeSpin, if_neg (by rw [hb]; decide), if_neg (not_not_intro hc), h, andThen_ok]

/-- M stands where CLOSE waits. -/
theorem closeWait_self (h : s.mseq = .run ⟨.close, p⟩ 2 (.at_ 0#32 0#32)) : s.closeWait p = s := by
  rw [State.closeWait, State.atLine, ← h]; rfl

/-- CLOSE of an open port is a round of its spin (spec/45_lifecycle.md R216 line 1). -/
theorem closeWhole_open (hps : s.slots.get q = some ps) :
    closeWhole q.sel s = closeSpin q.sel q ps (s.setLife q .closing) := by
  simp only [closeWhole, slotOfSel_sel, hps]

/-- CLOSE of a closed port ends with 0 (spec/45_lifecycle.md R218). -/
theorem closeWhole_closed (hps : s.slots.get q = none) : closeWhole q.sel s = .ok () (s.finish 0#32) := by
  simp only [closeWhole, slotOfSel_sel, hps]

variable (hctx : s.ctx = []) (hq : slotOfSel p = some q) (hps : s.slots.get q = some ps)
include hctx hq hps

/-- A step of a CLOSE that waits with bytes queued (spec/45_lifecycle.md R217). -/
theorem coreStep_close_queued (hb : ps.blocking = true) (hc : ps.tx.count ≠ 0#16) :
    coreStep (s.closeWait p) = .ok () (s.closeWait p) := by
  have hps' (m : MSeq) : (s.setMseq m).slots.get q = some ps := hps
  rw [State.closeWait, State.atLine, coreStep_later hctx hq (by decide)]
  simp [laterLine, closeStep, withPort_some (hps' _), hb, hc, MLocals.at_, State.atLine]

/-- A round of the spin of CLOSE that finds the device not empty is two steps (log entry 37). -/
theorem coreSteps_close_notEmpty (hb : ps.blocking = true) (hc : ps.tx.count = 0#16)
    (h : halTxEmpty q s = .ok false t) : coreSteps 2 (s.closeWait p) (t.closeWait p) := by
  have hps' (m : MSeq) : (s.setMseq m).slots.get q = some ps := hps
  obtain ⟨v, hrun, hfull⟩ := halTxEmpty_eq_ok.1 h
  obtain ⟨a, ha⟩ := accTxEmpty_single s.cfg (s.regs q)
  obtain ⟨r, hstep, rfl⟩ := runAccs_single (as := accTxEmpty s.cfg (s.regs q)) ha hrun
  refine ⟨s.setMseq (.run ⟨.close, p⟩ 2 ⟨0#32, 0#32, 1, accTxEmpty s.cfg (s.regs q), 0#16⟩), ?count, _, ?status, rfl⟩
  case count =>
    rw [State.closeWait, State.atLine, coreStep_later hctx hq (by decide)]
    simp [laterLine, closeStep, withPort_some (hps' _), hb, hc, MLocals.at_]
  case status =>
    rw [coreStep_later hctx hq (by decide)]
    simp only [laterLine, closeStep, withPort_some (hps' _), hb, Bool.not_true, Bool.false_eq_true, Nat.one_ne_zero,
      if_false]
    rw [mainHal_last (a := a) (by simpa using ha)]
    simp only [accStep_setMseq hstep, andThen_ok, setMseq_cfg, setMseq_regs, (accStep_frame hstep).cfg_eq, ← hfull,
      Bool.false_eq_true, if_false]
    rfl

omit hq in
/-- CLOSE of an open port issued as a word. -/
theorem exec_close_of_spin (hm : s.mseq = .idle)
    (h : closeSpin q.sel q ps (s.setLife q .closing) = .ok () t) : exec (.close q.sel) s = .next t :=
  issueCommand_eq_next.2 ⟨hm, .inr ⟨hctx, (closeWhole_open hps).trans h⟩⟩

/-- CLOSE from its wait. -/
theorem reaches_of_spin (hm : s.mseq = .run ⟨.close, p⟩ 2 (.at_ 0#32 0#32))
    (h : closeSpin p q ps s = .ok () t) : Reaches s t := by
  have hreach := closeSpin_reaches hctx hq hps h
  rwa [← State.closeWait, closeWait_self hm] at hreach

end Spin

/-- Settles O53: what CLOSE gives back is `closeTail_std` and `closeTail_integ`; a round of its spin is `closeSpin`,
which the word performs from the lifecycle state `Closing` and M from where it waits. -/
theorem close : Obligations.Close := by
  intro s q hwf hctx l ok left last closed closesFrom waiting
  have hclosed {u : State} (hu : ReadFrame s u) (D : Devices) (es gs : List HostEvent) :
      u.afterClose q D es gs = closed u D es gs := by
    obtain ⟨D', es', ds, n, rfl⟩ : ∃ D es ds n, u = { s with dev := D, trace := es, draws := ds, drawn := n } :=
      ⟨_, _, _, _, hu⟩
    rfl
  have closes {reaches : State → Prop} {u : State} (f : Life) (hu : ReadFrame s u)
      (hregs : s.regs q = regsOf s.cfg q) (h : ∀ t, closeTail q (u.setLife q f) = .ok () t → reaches t) :
      closesFrom reaches u := by
    have hcfg : u.cfg = s.cfg := by rw [hu]
    have hsaved : u.savedInteg = s.savedInteg := by rw [hu]
    have hregs : u.regs q = regsOf s.cfg q := by rw [hu]; exact hregs
    refine ⟨fun c hk => ?_, fun hk hp => ?_⟩
    · have htail := closeTail_std (s := u.setLife q f) (hcfg ▸ hwf) (hcfg ▸ hregs) hk
      simp only [afterClose_setLife, setLife_cfg, hcfg, setLife_dev, hclosed hu] at htail
      exact h _ htail
    · have htail := closeTail_integ (s := u.setLife q f) (hcfg ▸ hwf) (hcfg ▸ hregs) hk (hcfg ▸ hp)
      simp only [afterClose_setLife, setLife_cfg, hcfg, setLife_dev, setLife_savedInteg, hsaved, hclosed hu] at htail
      exact h _ htail
  refine ⟨fun hm => ⟨fun hps => ?closed, fun ps hps hregs => ?word⟩, fun hm ps hps hregs => ?resumed⟩
  case closed => exact issueCommand_eq_next.2 ⟨hm, .inr ⟨hctx, closeWhole_closed hps⟩⟩
  case word =>
    have hport := regs_of_port hps hregs
    have round {t} := exec_close_of_spin (t := t) hctx hps hm
    refine ⟨fun hb => ?_, fun hb hc => round (closeSpin_queued hb hc), fun hb hc => ?_⟩
    · exact closes .closing (.refl s) hport fun t h => round ((closeSpin_nonBlocking hb).trans h)
    obtain ⟨e, t, hread, ht, hword⟩ := halTxEmpty_completes hwf hport
    have hspin := closeSpin_status (p := q.sel) hb hc
      ((halTxEmpty_setLife q s q .closing).trans (by rw [hread, andThen_ok]))
    refine ⟨e, _, hword, rfl, ?_⟩
    rw [ht.restore_ret]
    refine ⟨fun he => ?_, fun he => closes .closing ht hport fun x h => round (hspin.trans ((if_pos he).trans h))⟩
    refine (round (hspin.trans (if_neg (by rw [he]; decide)))).trans ?_
    rw [ht]; rfl
  case resumed =>
    have hport := regs_of_port hps hregs
    have hq := slotOfSel_sel q
    have round {t} := reaches_of_spin (t := t) hctx hq hps hm
    have hself {t : State} (ht : ReadFrame s t) : t.closeWait q.sel = t := closeWait_self (by rw [ht]; exact hm)
    refine ⟨fun hb => ?_, fun hb hc => ?_, fun hb hc => ?_⟩
    · exact closes (s.life.get q) (.refl s) hport fun t h =>
        round ((closeSpin_nonBlocking hb).trans ((ReadFrame.refl s).setLife_self ▸ h))
    · exact hself (.refl s) ▸ coreStep_close_queued hctx hq hps hb hc
    obtain ⟨e, t, hread, ht, hword⟩ := halTxEmpty_completes hwf hport
    have hspin := closeSpin_status (p := q.sel) hb hc hread
    refine ⟨e, _, hword, rfl, ?_⟩
    rw [ht.restore_ret]
    refine ⟨fun he => ?_, fun he => closes (reaches := Reaches s) (s.life.get q) ht hport fun x h =>
      round (hspin.trans ((if_pos he).trans (ht.setLife_self ▸ h)))⟩
    have hsteps := coreSteps_close_notEmpty hctx hq hps hb hc (he ▸ hread)
    rwa [hself (.refl s), hself ht] at hsteps

/-! ### OPEN (spec/45_lifecycle.md R210) -/

/-- The `mode` operand has no bit but bit 0 (spec/30_encoding.md R104). -/
theorem modeOk_iff {mode : Word} : modeOk mode = true ↔ mode.toNat ≤ 1 := by
  have hlt := mode.isLt
  rw [modeOk, decide_eq_true_eq, ← BitVec.toNat_inj, BitVec.extractLsb'_toNat, Nat.shiftRight_eq_div_pow,
    BitVec.toNat_ofNat]
  omega

/-- The tests of OPEN on a closed slot with legal operands (spec/60_exceptions.md R312). -/
theorem openCheck_sel {s : State} {q : Slot} (hwf : s.cfg.wf = true)
    (hfound : q.kind = .integ → s.cfg.integPresent = true) (habs : s.slots.get q = none) (hmode : s.a0.toNat ≤ 1)
    (htx : capacityOk s.cfg s.a1 = true) (hrx : capacityOk s.cfg s.a2 = true) : openCheck q.sel s = .ok q := by
  obtain ⟨hvariant, -⟩ := Config.wf_tables hwf
  have hpresent : ¬(s.cfg.variantOf.get q = .integ ∧ (!s.cfg.integPresent) = true) := by
    rw [hvariant]
    rintro ⟨hv, hp⟩
    cases hk : q.kind with
    | std c => rw [hk] at hv; cases hv
    | integ => rw [hfound hk] at hp; cases hp
  have hclosed : regLookup q.sel s ≠ .present := by rw [regLookup_sel, if_pos habs]; decide
  simp only [openCheck, slotOfSel_sel, if_neg hpresent, if_neg hclosed, modeOk_iff.2 hmode, htx, hrx, Bool.and_true,
    Bool.not_true, Bool.false_eq_true, if_false]

/-- The state after OPEN from line 5 on, with the devices `D`; `es` are the accesses of HAL.INIT and HAL.EN_RX. -/
def State.afterOpen (s : State) (q : Slot) (D : Devices) (es : List HostEvent) : State :=
  let l := s.lineOf q
  let first := s.lineRefs.get l = 0
  State.finish { s with
    life := s.life.set q .opened, lineRefs := s.lineRefs.set l (s.lineRefs.get l + 1),
    handler := if first then s.handler.set l .dispatcher else s.handler,
    savedHandler := if first then s.savedHandler.set l (s.handler.get l) else s.savedHandler,
    masked := s.masked.set l false, dev := D,
    trace := s.trace ++ [.mask l] ++ (if first then [.install l .dispatcher (s.handler.get l)] else []) ++ es
      ++ [.unmask l] } 0#32

section OpenHook

variable {s t : State} {q : Slot} {D D' : Devices} {es gs : List HostEvent} {b : Bool}

/-- OPEN from line 4, by what HAL.SNAPSHOT, HAL.INIT and HAL.EN_RX do. -/
theorem openHook_of_runs (hsnap : ∃ v, runHal q accSnapshot s = .ok v t)
    (hinit : ∀ u, u.regs q = t.regs q → u.cfg = t.cfg → u.dev = t.dev →
      ∃ v, runHal q accInit u = .ok v (u.withIo D (u.trace ++ es)))
    (hen : ∀ u, u.regs q = t.regs q → u.cfg = t.cfg → u.dev = D → u.drawValue = t.drawValue →
      ∃ v, runHal q accEnRx u = .ok v ((u.drawnIf b).withIo D' (u.trace ++ gs))) :
    openHook q s = .ok () ((t.drawnIf b).afterOpen q D' (es ++ gs)) := by
  obtain ⟨_, hsnap⟩ := hsnap
  rw [openHook, hsnap, andThen_ok]
  generalize hu : State.hookLine _ _ = u
  have hu := hu.symm.trans (hookLine_eq _ _)
  obtain ⟨_, hinit⟩ := hinit u (by rw [hu]; rfl) (by rw [hu]; rfl) (by rw [hu]; rfl)
  obtain ⟨_, hen⟩ := hen (u.withIo D (u.trace ++ es)) (by rw [hu]; rfl) (by rw [hu]; rfl) rfl (by rw [hu]; rfl)
  rw [hinit, andThen_ok, hen, andThen_ok, State.afterOpen, openEnd]
  congr 2
  have hdraw := drawnIf_of_draws (s := u.withIo D (u.trace ++ es)) (u := t) (by rw [hu]; rfl) (by rw [hu]; rfl) b
  rw [hdraw, hu]
  by_cases hfirst : t.lineRefs.get (t.cfg.lineOf.get q) = 0
  · simp [State.withIo, State.lineOf, hfirst, State.setLife]
  · simp [State.withIo, State.lineOf, hfirst, State.setLife]

end OpenHook

/-- The answer of HAL.DETECT, by what it answers as a word. -/
theorem halDetect_of_word {q : Slot} {s u : State} {b : Bool}
    (h : (halDetect q s).returning .bool = .next { u with ret := .bool b }) (hret : u.ret = s.ret) :
    halDetect q s = .ok b u := by
  have hframe (a : Bool) (t : State) (ha : halDetect q s = .ok a t) : AccFrame q s t := by
    obtain ⟨v, hrun, -⟩ := halDetect_eq_ok.1 ha
    exact runHal_frame hrun
  obtain ⟨b', hanswer, hb⟩ := answer_of_word hframe h hret
  rw [hanswer, Ret.bool.inj hb]

theorem regs_of_same {s u : State} {q : Slot} (hu : u.regs q = s.regs q) (hcfg : u.cfg = s.cfg)
    (hregs : s.regs q = regsOf s.cfg q) : u.regs q = regsOf u.cfg q := by rw [hu, hregs, hcfg]

/-- A STD chip after HAL.INIT (spec/43_hal_variant_mux.md R166). -/
def StdDev.afterInit (cfg : Config) (d : StdDev) : StdDev := { d with
  fifoEn := true, trigger := cfg.stdRxTrigger, rxf := [], txf := [], rxTo := false,
  threInt := d.threInt || !d.txf.isEmpty }

section Capabilities

variable {s : State} {q : Slot} (hwf : s.cfg.wf = true) (hregs : s.regs q = regsOf s.cfg q)
include hwf hregs

section Std

variable {c : StdSlot} (hk : q.kind = .std c)
include hk

/-- HAL.DETECT finds a present chip and turns its enables off (spec/43_hal_variant_mux.md R165). -/
theorem halDetect_chip (hp : s.cfg.stdPresent.get c = true)
    (hlatch : (s.dev.std.get c).lcr &&& s.cfg.stdMap.lcrDlab = 0#8) :
    let a := s.cfg.stdMap.addr (s.cfg.stdBase.get c) .ier
    halDetect q s = .ok true (s.withIo (s.dev.setStd c { s.dev.std.get c with ier := 0#8 })
      (s.trace ++ [.wr8 a 0#8, .rd8 a 0#8])) := by
  obtain ⟨hstd, -⟩ := lifecycleCapabilities s q hwf hregs
  obtain ⟨-, hpresent, -⟩ := hstd c hk
  obtain ⟨hdetect, -⟩ := hpresent hp
  exact halDetect_of_word (exec_halDetect.symm.trans (hdetect hlatch)) rfl

/-- HAL.DETECT lets an absent chip through where the read-back draws 0 (spec/20_memory.md R69). -/
theorem halDetect_noChip (hp : s.cfg.stdPresent.get c = false) (hzero : s.drawValue.setWidth 8 = 0#8) :
    let a := s.cfg.stdMap.addr (s.cfg.stdBase.get c) .ier
    halDetect q s = .ok true (s.drawn1.withIo s.dev (s.trace ++ [.wr8 a 0#8, .rd8 a 0#8])) := by
  obtain ⟨hstd, -⟩ := lifecycleCapabilities s q hwf hregs
  obtain ⟨-, -, habsent⟩ := hstd c hk
  obtain ⟨hdetect, -⟩ := habsent hp
  dsimp only at hdetect
  rw [hzero, decide_eq_true rfl] at hdetect
  dsimp only
  rw [withIo_drawn1_dev]
  exact halDetect_of_word (exec_halDetect.symm.trans hdetect) (drawn1_ret s)

omit hwf in
/-- HAL.SNAPSHOT of a STD port does nothing (spec/43_hal_variant_mux.md R167). -/
theorem runHal_snapshot_std : runHal q accSnapshot s = .ok 0#16 s := runHal_std hregs accSnapshot hk

/-- HAL.INIT of a STD port (spec/43_hal_variant_mux.md R166). -/
theorem runHal_init_std : ∃ v, runHal q accInit s = .ok v (s.withIo
    (if s.cfg.stdPresent.get c then s.dev.setStd c ((s.dev.std.get c).afterInit s.cfg) else s.dev)
    (s.trace ++ [.wr8 (s.cfg.stdMap.addr (s.cfg.stdBase.get c) .iir) s.cfg.fcrInit])) := by
  rw [StdDev.afterInit, ← StdDev.write_fcrInit hwf]
  exact runHal_of_word (exec_halInit.symm.trans (halInit_std hregs hk (ioWr8_std hwf c .iir _))) rfl

theorem runHal_init_chip (hp : s.cfg.stdPresent.get c = true) {d : StdDev} (hd : s.dev.std.get c = d) :
    ∃ v, runHal q accInit s = .ok v (s.withIo (s.dev.setStd c (d.afterInit s.cfg))
      (s.trace ++ [.wr8 (s.cfg.stdMap.addr (s.cfg.stdBase.get c) .iir) s.cfg.fcrInit])) := by
  have hinit := runHal_init_std hwf hregs hk
  rwa [if_pos hp, hd] at hinit

theorem runHal_init_noChip (hp : s.cfg.stdPresent.get c = false) : ∃ v, runHal q accInit s = .ok v
    (s.withIo s.dev (s.trace ++ [.wr8 (s.cfg.stdMap.addr (s.cfg.stdBase.get c) .iir) s.cfg.fcrInit])) := by
  have hinit := runHal_init_std hwf hregs hk
  rwa [if_neg (Bool.eq_false_iff.1 hp)] at hinit

/-- HAL.EN_RX of a present chip with every enable off (spec/43_hal_variant_mux.md R155). -/
theorem runHal_enRx_chip (hp : s.cfg.stdPresent.get c = true) {d : StdDev} (hd : s.dev.std.get c = d)
    (hlatch : d.lcr &&& s.cfg.stdMap.lcrDlab = 0#8) (hier : d.ier = 0#8) :
    ∃ v, runHal q accEnRx s = .ok v (s.withIo (s.dev.setStd c { d with ier := s.cfg.stdMap.ierRx })
      (s.trace ++ [.rd8 (s.cfg.stdMap.addr (s.cfg.stdBase.get c) .ier) 0#8,
        .wr8 (s.cfg.stdMap.addr (s.cfg.stdBase.get c) .ier) (0#8 ||| s.cfg.stdMap.ierRx)])) := by
  obtain ⟨-, -, hchip, -⟩ := halEnables s q hwf hregs
  obtain ⟨hword, -⟩ := hchip c hk hp (hd ▸ hlatch)
  have hmask : s.cfg.stdMap.ierRx &&& s.cfg.stdMap.ierMask = s.cfg.stdMap.ierRx := by
    ext i hi; simp [StdMap.ierMask]; tauto
  dsimp only at hword ⊢
  rw [hd, hier, BitVec.zero_or, ← StdMap.ierMask, hmask] at hword
  rw [BitVec.zero_or]
  exact runHal_of_word (exec_halEnRx.symm.trans hword) rfl

/-- HAL.EN_RX where the chip is absent: the value read is a draw (spec/20_memory.md R69). -/
theorem runHal_enRx_noChip (hp : s.cfg.stdPresent.get c = false) :
    let a := s.cfg.stdMap.addr (s.cfg.stdBase.get c) .ier
    let x : Byte := s.drawValue.setWidth 8
    ∃ v, runHal q accEnRx s = .ok v (s.drawn1.withIo s.dev
      (s.trace ++ [.rd8 a x, .wr8 a (x ||| s.cfg.stdMap.ierRx)])) := by
  have hwrite := ioWr8_noChip (s := s.drawn1) (D := s.dev) (c := c)
    (es := s.trace ++ [.rd8 (s.cfg.stdMap.addr (s.cfg.stdBase.get c) .ier) (s.drawValue.setWidth 8)])
    (by rw [drawn1_cfg]; exact hwf) (by rw [drawn1_cfg]; exact hp) .ier (s.drawValue.setWidth 8 ||| s.cfg.stdMap.ierRx)
  rw [drawn1_cfg, List.append_assoc] at hwrite
  exact ⟨_, runHal_setBit hregs hk rfl (ioRd8_noChip (D := s.dev) (es := s.trace) hwf hp .ier) hwrite⟩

end Std

section Integ

variable (hk : q.kind = .integ) (hp : s.cfg.integPresent = true)
include hk hp

/-- HAL.SNAPSHOT of the present device (spec/43_hal_variant_mux.md R167). -/
theorem runHal_snapshot_device : let d := s.dev.integ
    ∃ v, runHal q accSnapshot s = .ok v (State.withIo { s with savedInteg := ⟨d.ien, d.lctl, d.baud⟩ } s.dev
      (s.trace ++ [.rd16 s.cfg.iIen d.ien, .rd16 s.cfg.iLctl d.lctl, .rd16 s.cfg.iBaud d.baud])) :=
  runHal_of_word (exec_halSnapshot.symm.trans (halSnapshot_device hwf hregs hk hp)) rfl

/-- HAL.INIT of the present device (spec/43_hal_variant_mux.md R166). -/
theorem runHal_init_device : ∃ v, runHal q accInit s = .ok v (s.withIo
    (s.dev.setInteg { s.dev.integ with lctl := s.cfg.integInitWord })
    (s.trace ++ [.wr16 s.cfg.iLctl s.cfg.integInitWord])) :=
  runHal_of_word (exec_halInit.symm.trans
    (halInit_integ hregs hk (ioWr16_device (D := s.dev) (es := s.trace) hwf hp .lctl _))) rfl

/-- HAL.EN_RX of the present device (spec/43_hal_variant_mux.md R155). -/
theorem runHal_enRx_device : let d := s.dev.integ
    ∃ v, runHal q accEnRx s = .ok v (s.withIo (s.dev.setInteg { d with ien := d.ien ||| s.cfg.imRxie })
      (s.trace ++ [.rd16 s.cfg.iIen d.ien, .wr16 s.cfg.iIen (d.ien ||| s.cfg.imRxie)])) := by
  obtain ⟨-, -, -, hdevice⟩ := halEnables s q hwf hregs
  obtain ⟨hword, -⟩ := hdevice hk hp
  exact runHal_of_word (exec_halEnRx.symm.trans hword) rfl

end Integ

omit hwf in
theorem openDetect_std {c : StdSlot} (hk : q.kind = .std c) : openDetect q s = halDetect q s := by
  rw [openDetect, regs_std hregs hk]; rfl

/-- OPEN of a STD port from line 3, its chip present with the divisor latch off (spec/45_lifecycle.md R210). -/
theorem openTail_chip {c : StdSlot} (hk : q.kind = .std c) (hp : s.cfg.stdPresent.get c = true)
    (hlatch : (s.dev.std.get c).lcr &&& s.cfg.stdMap.lcrDlab = 0#8) :
    let m := s.cfg.stdMap
    let ier := m.addr (s.cfg.stdBase.get c) .ier
    let d := s.dev.std.get c
    openTail q s = .ok () ((s.withIo s.dev (s.trace ++ [.wr8 ier 0#8, .rd8 ier 0#8])).afterOpen q
      (s.dev.setStd c { d with
        ier := m.ierRx, fifoEn := true, trigger := s.cfg.stdRxTrigger, rxf := [], txf := [], rxTo := false,
        threInt := d.threInt || !d.txf.isEmpty })
      [.wr8 (m.addr (s.cfg.stdBase.get c) .iir) s.cfg.fcrInit, .rd8 ier 0#8, .wr8 ier (0#8 ||| m.ierRx)]) := by
  intro m ier d
  have hdetect : openDetect q s = .ok true _ := (openDetect_std hregs hk).trans (halDetect_chip hwf hregs hk hp hlatch)
  rw [openTail, hdetect, andThen_ok, if_pos rfl]
  refine openHook_of_runs (t := s.withIo (s.dev.setStd c { d with ier := 0#8 }) _) (b := false)
    (D := s.dev.setStd c (StdDev.afterInit s.cfg { d with ier := 0#8 }))
    (D' := s.dev.setStd c _) (es := [_]) (gs := [_, _])
    ⟨0#16, runHal_snapshot_std (s := s.withIo _ _) hregs hk⟩
    (fun u hu (hcfg : u.cfg = s.cfg) (hdev : u.dev = s.dev.setStd c { d with ier := 0#8 }) => ?_) fun u hu hcfg hdev _ => ?_
  · have hinit := runHal_init_chip (hcfg ▸ hwf) (regs_of_same hu hcfg hregs) hk (hcfg ▸ hp)
      (d := { d with ier := 0#8 }) (by rw [hdev]; exact Devices.setStd_get ..)
    rw [hcfg, hdev, Devices.setStd_setStd] at hinit
    exact hinit
  · have hen := runHal_enRx_chip (hcfg ▸ hwf) (regs_of_same hu hcfg hregs) hk (hcfg ▸ hp)
      (d := StdDev.afterInit s.cfg { d with ier := 0#8 }) (by rw [hdev, Devices.setStd_get]) (hcfg ▸ hlatch) rfl
    rw [hcfg, hdev, Devices.setStd_setStd] at hen
    exact hen

/-- OPEN of a STD port from line 3, its chip absent and its read-back 0 (spec/20_memory.md R69). -/
theorem openTail_noChip {c : StdSlot} (hk : q.kind = .std c) (hp : s.cfg.stdPresent.get c = false)
    (hzero : s.drawValue.setWidth 8 = 0#8) :
    let m := s.cfg.stdMap
    let ier := m.addr (s.cfg.stdBase.get c) .ier
    let x : Byte := s.drawn1.drawValue.setWidth 8
    openTail q s = .ok () ((s.drawn1.withIo s.dev (s.trace ++ [.wr8 ier 0#8, .rd8 ier 0#8])).drawn1.afterOpen q s.dev
      [.wr8 (m.addr (s.cfg.stdBase.get c) .iir) s.cfg.fcrInit, .rd8 ier x, .wr8 ier (x ||| m.ierRx)]) := by
  have hdetect : openDetect q s = .ok true _ := (openDetect_std hregs hk).trans (halDetect_noChip hwf hregs hk hp hzero)
  rw [openTail, hdetect, andThen_ok, if_pos rfl]
  have hregs₁ : s.drawn1.regs q = regsOf s.drawn1.cfg q :=
    regs_of_same (by simp only [State.regs, drawn1_slots, drawn1_cfg]) (drawn1_cfg s) hregs
  refine openHook_of_runs (t := s.drawn1.withIo s.dev _) (b := true) (D := s.dev) (D' := s.dev) (es := [_])
    (gs := [_, _]) ⟨0#16, runHal_snapshot_std (s := s.drawn1.withIo _ _) hregs₁ hk⟩
    (fun u hu (hcfg : u.cfg = s.drawn1.cfg) (hdev : u.dev = s.dev) => ?_)
    fun u hu (hcfg : u.cfg = s.drawn1.cfg) hdev (hvalue : u.drawValue = s.drawn1.drawValue) => ?_
  · have hport := regs_of_same hu hcfg hregs₁
    rw [drawn1_cfg] at hcfg
    have hinit := runHal_init_noChip (hcfg ▸ hwf) hport hk (hcfg ▸ hp)
    rw [hcfg, hdev] at hinit
    exact hinit
  · have hport := regs_of_same hu hcfg hregs₁
    rw [drawn1_cfg] at hcfg
    have hen := runHal_enRx_noChip (hcfg ▸ hwf) hport hk (hcfg ▸ hp)
    rw [hcfg, hdev, hvalue] at hen
    exact hen

/-- OPEN of the INTEG port from line 3, its hardware present (spec/45_lifecycle.md R210). -/
theorem openTail_device (hk : q.kind = .integ) (hp : s.cfg.integPresent = true) :
    let g := s.cfg
    let d := s.dev.integ
    openTail q s = .ok () ((State.withIo { s with savedInteg := ⟨d.ien, d.lctl, d.baud⟩ } s.dev
        (s.trace ++ [.rd16 g.iIen d.ien, .rd16 g.iLctl d.lctl, .rd16 g.iBaud d.baud])).afterOpen q
      (s.dev.setInteg { d with ien := d.ien ||| g.imRxie, lctl := g.integInitWord })
      [.wr16 g.iLctl g.integInitWord, .rd16 g.iIen d.ien, .wr16 g.iIen (d.ien ||| g.imRxie)]) := by
  have hdetect : openDetect q s = .ok true s := by rw [openDetect, regs_integ hregs hk]; rfl
  rw [openTail, hdetect, andThen_ok, if_pos rfl]
  refine openHook_of_runs (b := false) (D := s.dev.setInteg { s.dev.integ with lctl := s.cfg.integInitWord })
    (D' := s.dev.setInteg _) (es := [_]) (gs := [_, _]) (runHal_snapshot_device hwf hregs hk hp)
    (fun u hu hcfg hdev => ?_) fun u hu hcfg hdev _ => ?_
  · have hinit := runHal_init_device (hcfg ▸ hwf) (regs_of_same hu hcfg hregs) hk (hcfg ▸ hp)
    rw [hcfg, hdev] at hinit
    exact hinit
  · have hen := runHal_enRx_device (hcfg ▸ hwf) (regs_of_same hu hcfg hregs) hk (hcfg ▸ hp)
    rw [hcfg, hdev] at hen
    exact hen

end Capabilities

/-- The state OPEN line 3 starts from: the port is allocated (spec/45_lifecycle.md R210 line 2). -/
def State.allocated (s : State) (q : Slot) : State := { s with
  slots := s.slots.set q (some (newPort s.cfg q s.a0 s.a1 s.a2)), life := s.life.set q .opening,
  draws := s.drawn1.draws, drawn := s.drawn1.drawn }

/-- REG.ALLOC granted takes one draw (spec/42_registry.md R141, R142). -/
theorem allocated_eq (s : State) (q : Slot) :
    (s.drawn1.setSlot q (some (newPort s.cfg q s.a0 s.a1 s.a2))).setLife q .opening = s.allocated q := by
  rw [drawn1_of_draws (s := s) rfl rfl]
  rfl

/-- The second draw of OPEN. -/
theorem allocated_drawn1 (s : State) (q : Slot) : (s.allocated q).drawn1 =
    { s.allocated q with draws := s.drawn1.drawn1.draws, drawn := s.drawn1.drawn1.drawn } := drawn1_of_draws rfl rfl

theorem allocated_drawn1_drawValue (s : State) (q : Slot) :
    (s.allocated q).drawn1.drawValue = s.drawn1.drawn1.drawValue := by
  rw [allocated_drawn1]
  rfl

/-- The third draw of OPEN. -/
theorem allocated_drawn1_withIo (s : State) (q : Slot) (D : Devices) (es : List HostEvent) :
    ((s.allocated q).drawn1.withIo D es).drawn1 = State.withIo
      { s.allocated q with draws := s.drawn1.drawn1.drawn1.draws, drawn := s.drawn1.drawn1.drawn1.drawn } D es := by
  rw [allocated_drawn1]
  exact drawn1_of_draws (u := s.drawn1.drawn1) rfl rfl

theorem allocated_regs (s : State) (q : Slot) : (s.allocated q).regs q = regsOf s.cfg q := by
  simp [State.regs, State.allocated, newPort]

/-- OPEN issued as a word, with legal operands and the allocation granted, goes on from line 3. -/
theorem exec_open_of_tail {s t : State} {q : Slot} (hwf : s.cfg.wf = true) (hm : s.mseq = .idle) (hctx : s.ctx = [])
    (hfound : q.kind = .integ → s.cfg.integPresent = true) (habs : s.slots.get q = none) (hmode : s.a0.toNat ≤ 1)
    (htx : capacityOk s.cfg s.a1 = true) (hrx : capacityOk s.cfg s.a2 = true) (hgrant : s.drawValue.getLsbD 0 = true)
    (h : openTail q (s.allocated q) = .ok () t) : exec (.openPort q.sel) s = .next t := by
  refine issueCommand_eq_next.2 ⟨hm, .inr ⟨hctx, ?_⟩⟩
  rw [openWhole, openCheck_sel hwf hfound habs hmode htx hrx]
  dsimp only
  rw [regAlloc_eq_ok.2 ⟨habs, htx, hrx, hgrant.symm, rfl⟩, andThen_ok]
  simp only [if_true, allocated_eq]
  exact h

/-- `u` is `s` after some draws. -/
def DrawFrame (s u : State) : Prop := ∃ draws drawn, u = { s with draws := draws, drawn := drawn }

theorem DrawFrame.refl (s : State) : DrawFrame s s := ⟨_, _, rfl⟩

theorem DrawFrame.drawn1 {s u : State} (h : DrawFrame s u) : DrawFrame s u.drawn1 := by
  obtain ⟨a, b, rfl⟩ := h
  exact ⟨_, _, drawn1_of_draws rfl rfl⟩

/-- The state after OPEN, from the allocation on: `u` holds the draws that are left, `ds` are the accesses before the
line is hooked and `k` what HAL.SNAPSHOT kept. -/
theorem afterOpen_allocated {s u : State} {q : Slot} {ds es : List HostEvent} {D D' : Devices} {k : IntegRegs}
    (hm : s.mseq = .idle) (hu : DrawFrame s u) :
    let l := s.cfg.lineOf.get q
    let first := s.lineRefs.get l = 0
    (State.withIo { s.allocated q with savedInteg := k, draws := u.draws, drawn := u.drawn } D (s.trace ++ ds)).afterOpen
      q D' es = { u.drawn1 with
      r0 := 0#32, lasterr := u.drawValue.setWidth 8,
      slots := s.slots.set q (some (newPort s.cfg q s.a0 s.a1 s.a2)),
      life := s.life.set q .opened,
      lineRefs := s.lineRefs.set l (s.lineRefs.get l + 1),
      handler := if first then s.handler.set l .dispatcher else s.handler,
      savedHandler := if first then s.savedHandler.set l (s.handler.get l) else s.savedHandler,
      masked := s.masked.set l false, savedInteg := k, dev := D',
      trace := s.trace ++ ds ++ [.mask l] ++ (if first then [.install l .dispatcher (s.handler.get l)] else [])
        ++ es ++ [.unmask l] } := by
  dsimp only
  rw [State.afterOpen, finish_of_draws (u := u) (hdraws := ?draws) (hdrawn := ?drawn)]
  case draws => rfl
  case drawn => rfl
  obtain ⟨a, b, rfl⟩ := hu
  simp [State.withIo, State.allocated, State.lineOf, hm, -drawn1_draws, -drawn1_drawn]

/-- Settles O51: each kind of slot by the lemma that says what OPEN does from line 3 on, at the allocated state. -/
theorem openSucceeds : Obligations.OpenSucceeds := by
  refine ⟨fun s q c hwf hm hctx hk habs hmode htx₁ htx₂ hrx₁ hrx₂ hgrant => ?std, ?integ⟩
  case std =>
    dsimp only
    have hopen {t : State} (h : openTail q (s.allocated q) = .ok () t) := exec_open_of_tail hwf hm hctx
      (fun hi => by rw [hk] at hi; cases hi) habs hmode (capacityOk_iff.2 ⟨htx₁, htx₂⟩) (capacityOk_iff.2 ⟨hrx₁, hrx₂⟩)
      hgrant h
    refine ⟨fun hp hlatch => ?present, fun hp hzero => ?absent⟩
    case present =>
      rw [hopen (openTail_chip (s := s.allocated q) hwf (allocated_regs s q) hk hp hlatch)]
      refine congrArg Host.Outcome.next
        ((afterOpen_allocated (k := s.savedInteg) hm (DrawFrame.refl s).drawn1).trans ?_)
      simp [newPort, regsOf, hk, modeBlocking, RingBuffer.new, State.allocated, Devices.setStd, StdMap.addr,
        StdMap.off, -drawn1_draws, -drawn1_drawn]
    case absent =>
      rw [hopen (openTail_noChip (s := s.allocated q) hwf (allocated_regs s q) hk hp hzero), allocated_drawn1_withIo,
        allocated_drawn1_drawValue]
      refine congrArg Host.Outcome.next
        ((afterOpen_allocated (k := s.savedInteg) hm (DrawFrame.refl s).drawn1.drawn1.drawn1).trans ?_)
      simp [newPort, regsOf, hk, modeBlocking, RingBuffer.new, State.allocated, StdMap.addr, StdMap.off,
        -drawn1_draws, -drawn1_drawn]
  case integ =>
    intro s hwf hm hctx habs hmode htx₁ htx₂ hrx₁ hrx₂ hgrant hp
    have hopen {t : State} (h : openTail .p2 (s.allocated .p2) = .ok () t) := exec_open_of_tail hwf hm hctx
      (fun _ => hp) habs hmode (capacityOk_iff.2 ⟨htx₁, htx₂⟩) (capacityOk_iff.2 ⟨hrx₁, hrx₂⟩) hgrant h
    refine (hopen (openTail_device (s := s.allocated .p2) hwf (allocated_regs s .p2) rfl hp)).trans ?_
    refine congrArg Host.Outcome.next ((afterOpen_allocated hm (DrawFrame.refl s).drawn1).trans ?_)
    have hk : Slot.p2.kind = .integ := rfl
    simp [newPort, regsOf, hk, modeBlocking, RingBuffer.new, State.allocated, Devices.setInteg, -drawn1_draws,
      -drawn1_drawn]

end Sys2Proof.Machine

/-! ## The transfer engine

The kick by the words of its capabilities, and SEND and RECV by what a pass moves, from the start of the command and
from its spin boundary (spec/46_transfer.md). -/

namespace Sys2Proof.Machine

open Sys2Proof

/-! ### A command on an open port (spec/46_transfer.md R230) -/

section OpenPortCommand

variable {s : State} {q : Slot} {ps : PortState}

/-- The prologue finds an open port. -/
theorem withOpen_sel (hps : s.slots.get q = some ps) (f : Slot → PortState → Res Unit) :
    withOpen q.sel s f = f q ps := by
  rw [withOpen, prologue_eq_ok.2 ⟨slotOfSel_sel q, hps⟩]

/-- A command that ends leaves M idle, as it found it. -/
theorem finish_idle (hm : s.mseq = .idle) (v : Word) :
    s.finish v = { s.drawn1 with r0 := v, lasterr := s.drawValue.setWidth 8 } := by
  rw [finish_eq, ← hm, ← drawn1_mseq]

/-- Under the mask of its line, M may move the rings of a port (spec/41_ring_buffer.md R121). -/
theorem ringOwned_maskLine (hctx : s.ctx = []) (q : Slot) : (s.maskLine (s.lineOf q)).ringOwned q = true := by
  simp [State.ringOwned, State.lineOf, hctx]

/-- The mask and the unmask of a line around a change that leaves the masks and the trace alone. -/
theorem unmaskLine_maskLine_setSlot (s : State) (l : Line) (q : Slot) (v : Option PortState) :
    ((s.maskLine l).setSlot q v).unmaskLine l = { s with
      slots := s.slots.set q v, masked := s.masked.set l false, trace := s.trace ++ [.mask l, .unmask l] } := by
  simp [State.maskLine, State.unmaskLine, State.setSlot, State.setMasked, State.observe]

end OpenPortCommand

/-- Settles O58: CLEAR by RB.CLEAR under the mask, AVAILABLE by RB.AVAIL, RXDROPPED by a read of the port. -/
theorem clearAvailableRxDropped : Obligations.ClearAvailableRxDropped := by
  intro s q ps d hm hctx hps l ok
  have hexec (c : Cmd) (whole : State → Res Unit) : issueCommand c whole s = (whole s).outcome :=
    issueCommand_idle hm hctx
  refine ⟨?clear, ?available, ?rxDropped⟩
  case clear =>
    have hclear := (ringClear_eq_ok (s := s.maskLine (s.lineOf q)) (d := d)).2 ⟨ps, hps, ringOwned_maskLine hctx q, rfl⟩
    refine (hexec _ _).trans ?_
    rw [clearWhole, withOpen_sel hps, hclear, andThen_ok, outcome_ok]
    refine congrArg Host.Outcome.next
      ((congrArg (·.finish 0#32) (unmaskLine_maskLine_setSlot s l q _)).trans (finish_idle ?_ 0#32))
    exact hm
  case available =>
    refine (hexec _ _).trans ?_
    rw [availableWhole, withOpen_sel hps, ringAvail_eq_ok.2 ⟨ps, hps, rfl, rfl⟩, andThen_ok, outcome_ok,
      finish_idle hm]
    rfl
  case rxDropped =>
    refine (hexec _ _).trans ?_
    rw [rxDroppedWhole, withOpen_sel hps, outcome_ok, finish_idle hm]
    rfl

/-! ### Micro-operations do not see the result of the word before (log entry 5) -/

/-- `s` with another result of the word before. -/
def State.setRet (s : State) (x : Ret) : State := { s with ret := x }

section SetRet

variable (s : State) (x : Ret)

theorem drawn1_setRet : (s.setRet x).drawn1 = s.drawn1.setRet x := by
  unfold State.drawn1 State.setRet
  cases s.draws <;> rfl

theorem drawnIf_setRet (b : Bool) : (s.setRet x).drawnIf b = (s.drawnIf b).setRet x := by
  cases b
  · rfl
  · exact drawn1_setRet s x

theorem ioRd8_setRet (a : Half) : ioRd8 a (s.setRet x) = (ioRd8 a s).andThen fun v t => .ok v (t.setRet x) := by
  have hroute : route (s.setRet x).cfg a = route s.cfg a := rfl
  unfold ioRd8
  rw [hroute]
  cases route s.cfg a <;> simp only [drawnIf_setRet, drawn1_setRet] <;> rfl

theorem ioRd16_setRet (a : Half) : ioRd16 a (s.setRet x) = (ioRd16 a s).andThen fun v t => .ok v (t.setRet x) := by
  have hroute : route (s.setRet x).cfg a = route s.cfg a := rfl
  unfold ioRd16
  rw [hroute]
  cases route s.cfg a <;> simp only [drawnIf_setRet, drawn1_setRet] <;> rfl

theorem ioWr8_setRet (a : Half) (b : Byte) :
    ioWr8 a b (s.setRet x) = (ioWr8 a b s).andThen fun v t => .ok v (t.setRet x) := by
  have hroute : route (s.setRet x).cfg a = route s.cfg a := rfl
  unfold ioWr8
  rw [hroute]
  cases route s.cfg a <;> rfl

theorem ioWr16_setRet (a b : Half) :
    ioWr16 a b (s.setRet x) = (ioWr16 a b s).andThen fun v t => .ok v (t.setRet x) := by
  have hroute : route (s.setRet x).cfg a = route s.cfg a := rfl
  have hknown : eoiKnown (s.setRet x).cfg b = eoiKnown s.cfg b := rfl
  unfold ioWr16
  rw [hroute, hknown]
  cases route s.cfg a <;> cases eoiKnown s.cfg b <;> rfl

theorem storageByte_setRet (rb : RingBuffer) (i : Nat) :
    storageByte rb i (s.setRet x) = ((storageByte rb i s).1, (storageByte rb i s).2.setRet x) := by
  unfold storageByte
  cases cellsRead rb.storage i with
  | some b => rfl
  | none => simp only [drawn1_setRet]; rfl

theorem ringPop_setRet (q : Slot) (d : Dir) :
    ringPop q d (s.setRet x) = (ringPop q d s).andThen fun b t => .ok b (t.setRet x) := by
  have hslot : (s.setRet x).slots.get q = s.slots.get q := rfl
  have howned : (s.setRet x).ringOwned q = s.ringOwned q := rfl
  unfold ringPop mutateRing withPort
  simp only [hslot, howned, storageByte_setRet]
  cases s.slots.get q with
  | none => rfl
  | some ps =>
    cases s.ringOwned q with
    | false => rfl
    | true =>
      by_cases hempty : (ps.ring d).count = 0#16
      · simp only [if_true, if_pos hempty]; rfl
      · simp only [if_true, if_neg hempty]; rfl

/-- An access of the kick: a register is read, written, or given the next byte of `tx`. -/
def Acc.ofKick : Acc → Prop
  | .rd8 _ | .rd16 _ | .wr8 _ _ | .wr16 _ _ | .fill8 _ | .fill16 _ => True
  | _ => False

theorem accStep_setRet {q : Slot} {a : Acc} (ha : a.ofKick) (v : Half) :
    accStep q a v (s.setRet x) = (accStep q a v s).andThen fun r t => .ok r (t.setRet x) := by
  cases a <;> simp only [Acc.ofKick] at ha
  all_goals simp only [accStep, ioRd8_setRet, ioRd16_setRet, ioWr8_setRet, ioWr16_setRet, ringPop_setRet,
    andThen_assoc, andThen_ok]
  case fill8 =>
    congr; funext b t
    cases b with
    | none => rfl
    | some b => simp only [andThen_assoc, andThen_ok]
  case fill16 =>
    congr; funext b t
    cases b with
    | none => rfl
    | some b => simp only [andThen_assoc, andThen_ok]

theorem runAccs_setRet {q : Slot} {as : List Acc} (has : ∀ a ∈ as, a.ofKick) (v : Half) :
    runAccs q as v (s.setRet x) = (runAccs q as v s).andThen fun r t => .ok r (t.setRet x) := by
  induction as generalizing s v with
  | nil => rfl
  | cons a as ih =>
    obtain ⟨ha, has⟩ := List.forall_mem_cons.1 has
    simp only [runAccs, accStep_setRet s x ha, andThen_assoc, andThen_ok]
    congr; funext r t
    split
    · rfl
    · exact ih t has r.1

theorem runHal_setRet {q : Slot} {accs : Config → Regs → List Acc} (haccs : ∀ cfg r, ∀ a ∈ accs cfg r, a.ofKick) :
    runHal q accs (s.setRet x) = (runHal q accs s).andThen fun r t => .ok r (t.setRet x) :=
  runAccs_setRet s x (haccs _ _) _

theorem accEnTx_ofKick (cfg : Config) (r : Regs) : ∀ a ∈ accEnTx cfg r, a.ofKick := by
  cases r <;> simp [accEnTx, Acc.ofKick]

theorem accBurst_ofKick (cfg : Config) (r : Regs) : ∀ a ∈ accBurst cfg r, a.ofKick := by
  intro a ha
  cases r <;> rw [List.eq_of_mem_replicate ha] <;> trivial

end SetRet

/-! ### The kick (spec/46_transfer.md R232) -/

section Kick

variable {s t u w : State} {q : Slot} {ps : PortState} {v v' : Half}

/-- HAL.EN_TX as a word, after any other. -/
theorem exec_halEnTx_setRet (h : runHal q accEnTx s = .ok v t) (x : Ret) :
    exec (.halEnTx q.sel) (s.setRet x) = .next (t.setRet .unit) := by
  rw [exec_halEnTx, runHal_setRet s x accEnTx_ofKick, h]; rfl

/-- HAL.FILL_TX of the burst of the variant as a word, after any other. -/
theorem exec_halFillTx_setRet (h : runHal q accBurst s = .ok v t) (x : Ret) {m : Byte}
    (hm : m = s.cfg.txBurst.get (s.regs q).variant) :
    exec (.halFillTx q.sel m) (s.setRet x) = .next (t.setRet .unit) := by
  have hburst : runHal q (accFillTx m.toNat) (s.setRet x) = runHal q accBurst (s.setRet x) := by rw [hm]; rfl
  rw [exec_halFillTx, hburst, runHal_setRet s x accBurst_ofKick, h]; rfl

/-- HAL.EN_TX completes (spec/43_hal_variant_mux.md R156). -/
theorem halEnTx_completes (hwf : s.cfg.wf = true) (hregs : s.regs q = regsOf s.cfg q) :
    ∃ v t, runHal q accEnTx s = .ok v t := by
  cases hk : q.kind with
  | std c =>
    obtain ⟨v, t, u, hread, hwrite⟩ := std_readModifyWrite hwf c .ier (· ||| s.cfg.stdMap.ierTx)
    exact ⟨_, u, runHal_setBit hregs hk rfl hread hwrite⟩
  | integ =>
    obtain ⟨v, t, u, hread, hwrite⟩ := integ_readModifyWrite hwf .ien (.orV s.cfg.imTxie)
    exact ⟨_, u, runHal_changeIen hregs hk rfl hread hwrite⟩

/-- A burst completes on an open port (spec/43_hal_variant_mux.md R160). -/
theorem burst_completes (hwf : s.cfg.wf = true) (hps : s.slots.get q = some ps) (hregs : ps.regs = regsOf s.cfg q)
    (ho : s.ringOwned q = true) : ∃ v t, runHal q accBurst s = .ok v t := by
  rw [runHal_of_port hps]
  cases hk : q.kind with
  | std c => obtain ⟨r, t, -, hrun, -⟩ := runAccs_burst_std hwf hps hregs ho 0#16 hk; exact ⟨r, t, hrun⟩
  | integ => obtain ⟨r, t, -, hrun, -⟩ := runAccs_burst_integ hwf hps hregs ho 0#16 hk; exact ⟨r, t, hrun⟩

variable (hps : s.slots.get q = some ps)
include hps

/-- With nothing queued there is nothing to start. -/
theorem kick_empty (hc : ps.tx.count = 0#16) : kick q s = .ok () s :=
  kick_eq_ok.2 ⟨ps, hps, .inl ⟨hc, rfl⟩⟩

/-- A transmitter that is busy goes on by itself. -/
theorem kick_busy (hc : ps.tx.count ≠ 0#16) (h : halTxEmpty q s = .ok false t) : kick q s = .ok () t :=
  kick_eq_ok.2 ⟨ps, hps, .inr ⟨hc, false, t, h, .inl ⟨rfl, rfl⟩⟩⟩

/-- A transmitter that is empty is enabled and loaded. -/
theorem kick_loads (hc : ps.tx.count ≠ 0#16) (h : halTxEmpty q s = .ok true t) (hen : runHal q accEnTx t = .ok v u)
    (hburst : runHal q accBurst u = .ok v' w) : kick q s = .ok () w :=
  kick_eq_ok.2 ⟨ps, hps, .inr ⟨hc, true, t, h, .inr ⟨rfl, v, v', u, hen, hburst⟩⟩⟩

/-- What the enable and the load find, and that both complete. -/
theorem enable_and_load_complete (hwf : s.cfg.wf = true) (hregs : ps.regs = regsOf s.cfg q)
    (ho : s.ringOwned q = true) (h : AccFrame q s t) :
    ∃ v u v' w, runHal q accEnTx t = .ok v u ∧ runHal q accBurst u = .ok v' w ∧ AccFrame q s u ∧ AccFrame q s w := by
  have hport : t.regs q = regsOf t.cfg q := by rw [h.regs_eq, h.cfg_eq]; exact regs_of_port hps hregs
  obtain ⟨v, u, hen⟩ := halEnTx_completes (by rw [h.cfg_eq]; exact hwf) hport
  have hu := h.trans (runHal_frame hen)
  obtain ⟨pu, hpu, hsame, -⟩ := hu.port ps hps
  obtain ⟨v', w, hburst⟩ := burst_completes (by rw [hu.cfg_eq]; exact hwf) hpu
    (by rw [← hsame, hregs, hu.cfg_eq]) (by rw [hu.owned_eq]; exact ho)
  exact ⟨v, u, v', w, hen, hburst, hu, hu.trans (runHal_frame hburst)⟩

/-- The kick completes on an open port (spec/46_transfer.md R232). -/
theorem kick_completes (hwf : s.cfg.wf = true) (hregs : ps.regs = regsOf s.cfg q) (ho : s.ringOwned q = true) :
    ∃ w, kick q s = .ok () w := by
  by_cases hc : ps.tx.count = 0#16
  · exact ⟨s, kick_empty hps hc⟩
  obtain ⟨e, t, hread, ht, -⟩ := halTxEmpty_completes hwf (regs_of_port hps hregs)
  cases e with
  | false => exact ⟨t, kick_busy hps hc hread⟩
  | true =>
    obtain ⟨v, u, v', w, hen, hburst, -⟩ := enable_and_load_complete hps hwf hregs ho (.of_io ht)
    exact ⟨w, kick_loads hps hc hread hen hburst⟩

end Kick

end Sys2Proof.Machine

namespace Sys2Proof

open Machine

/-- Settles O54: the status read completes (`halTxEmpty_completes`), and so do the enable and the load; none of the
words sees the result of the one before it (`runHal_setRet`). -/
theorem kick : Obligations.Kick := by
  intro s q ps hwf hps hregs ho
  refine ⟨kick_empty hps, fun hc => ?_⟩
  obtain ⟨e, t, hread, ht, hword⟩ := halTxEmpty_completes hwf (regs_of_port hps hregs)
  refine ⟨e, t.setRet (.bool e), hword, rfl, fun he => ?busy, fun he => ?loads⟩
  case busy => exact (kick_busy hps hc (he ▸ hread)).trans (congrArg _ (ht.restore_ret _).symm)
  case loads =>
    obtain ⟨v, u, v', w, hen, hburst, hu, hw⟩ := enable_and_load_complete hps hwf hregs ho (.of_io ht)
    refine ⟨u.setRet .unit, w.setRet .unit, exec_halEnTx_setRet hen _, exec_halFillTx_setRet hburst _ ?_, ?_⟩
    · rw [hu.regs_eq, hu.cfg_eq, regs_eq_port hps, hregs, regsOf_variant]
      cases q.kind <;> rfl
    · refine (kick_loads hps hc (he ▸ hread) hen hburst).trans (congrArg _ ?_)
      rw [← hw.ret_eq]; rfl

end Sys2Proof

namespace Sys2Proof.Machine

open Sys2Proof

/-! ### A transfer, whatever its pass (spec/46_transfer.md R231, R233) -/

/-- A transfer performed undisturbed: the tests, the first pass, and its end. -/
def transferWhole (c : Cmd) (pass : Slot → State → Res Word) (s : State) : Res Unit :=
  withOpen c.p s fun q ps =>
    if !bufferInside s.cfg s.a0.toNat s.a1.toNat then .refuse .bufferOutside
    else if s.a1 = 0#32 then .ok () (s.finish 0#32)
    else (pass q s).andThen fun k u => .ok () (afterPass c ps.blocking k u)

theorem sendWhole_eq (p : BitVec 4) (s : State) :
    sendWhole p s = transferWhole ⟨.send, p⟩ (fun q => sendPass q 0#32) s := rfl

theorem recvWhole_eq (p : BitVec 4) (s : State) :
    recvWhole p s = transferWhole ⟨.recv, p⟩ (fun q => recvPass q 0#32) s := rfl

theorem bufferInside_iff {cfg : Config} {a n : Nat} : bufferInside cfg a n = true ↔
    a + n ≤ 2 ^ cfg.haddrBits ∧ (a < 2 ^ cfg.haddrBits ∨ n = 0) := by
  rw [bufferInside, Bool.and_eq_true, Bool.or_eq_true, decide_eq_true_eq, decide_eq_true_eq, decide_eq_true_eq]; rfl

/-- The word that counts the bytes moved is the length exactly when all are moved. -/
theorem ofNat_eq_iff {a : Word} {k : Nat} (hk : k ≤ a.toNat) : BitVec.ofNat 32 k = a ↔ k = a.toNat := by
  rw [← BitVec.toNat_inj, BitVec.toNat_ofNat, Nat.mod_eq_of_lt (hk.trans_lt a.isLt)]

/-- After the first pass a blocking transfer with bytes missing waits; any other ends. -/
theorem afterPass_eq {c : Cmd} {b : Bool} {k : Nat} {u : State} (hk : k ≤ u.a1.toNat) :
    afterPass c b (BitVec.ofNat 32 k) u = if b = true ∧ k ≠ u.a1.toNat then u.atLine c 2 (BitVec.ofNat 32 k) 0#32
      else u.finish (BitVec.ofNat 32 k) := by
  unfold afterPass
  by_cases hall : k = u.a1.toNat <;> cases b <;> simp [ofNat_eq_iff hk, hall]

section FirstPass

variable {op : ApiOp} {q : Slot} {pass : Slot → State → Res Word} {s : State} {ps : PortState}
  (hps : s.slots.get q = some ps)
include hps

theorem transferWhole_outside (hout : bufferInside s.cfg s.a0.toNat s.a1.toNat = false) :
    transferWhole ⟨op, q.sel⟩ pass s = .refuse .bufferOutside := by
  rw [transferWhole, withOpen_sel hps, hout]; rfl

variable (hin : bufferInside s.cfg s.a0.toNat s.a1.toNat = true)
include hin

theorem transferWhole_nothing (hlen : s.a1.toNat = 0) : transferWhole ⟨op, q.sel⟩ pass s = .ok () (s.finish 0#32) := by
  have hzero : s.a1 = 0#32 := BitVec.eq_of_toNat_eq hlen
  rw [transferWhole, withOpen_sel hps, hin, if_pos hzero]; rfl

theorem transferWhole_pass (hlen : s.a1.toNat ≠ 0) : transferWhole ⟨op, q.sel⟩ pass s
    = (pass q s).andThen fun k u => .ok () (afterPass ⟨op, q.sel⟩ ps.blocking k u) := by
  have hne : s.a1 ≠ 0#32 := fun h => hlen (by rw [h]; rfl)
  rw [transferWhole, withOpen_sel hps, hin, if_neg hne]; rfl

/-- A first pass that moves `k` bytes, and the end of the command or its wait. -/
theorem transferWhole_moves (hlen : s.a1.toNat ≠ 0) {k : Nat} {u : State} (hk : k ≤ s.a1.toNat)
    (hpass : pass q s = .ok (BitVec.ofNat 32 k) u) (hu : u.a1 = s.a1) :
    transferWhole ⟨op, q.sel⟩ pass s = .ok ()
      (if ps.blocking = true ∧ k ≠ s.a1.toNat then u.atLine ⟨op, q.sel⟩ 2 (BitVec.ofNat 32 k) 0#32
        else u.finish (BitVec.ofNat 32 k)) := by
  rw [transferWhole_pass hps hin hlen, hpass, andThen_ok, afterPass_eq (hu ▸ hk), hu]

end FirstPass

section LaterPass

variable {c : Cmd} {n : Nat} {q : Slot} {s u : State} {moved k : Word} {ps : PortState}

/-- M stands at its spin boundary. -/
theorem atLine_self (h : s.mseq = .run c n (.at_ moved k)) : s.atLine c n moved k = s := by
  rw [State.atLine, ← h]; rfl

variable (hl : TransferLines c n) (hctx : s.ctx = []) (hq : slotOfSel c.p = some q)
include hl hctx hq

/-- A transfer that has moved all ends at its spin boundary. -/
theorem coreStep_transfer_done (hm : s.mseq = .run c 2 (.at_ moved 0#32)) (hall : moved = s.a1) :
    coreStep s = .ok () (s.finish moved) := by
  calc coreStep s = coreStep (s.atLine c 2 moved 0#32) := by rw [atLine_self hm]
    _ = .ok () ((s.atLine c 2 moved 0#32).finish moved) :=
      (coreStep_later hctx hq (by decide) _).trans ((hl.test _ _ _).trans (if_pos hall))
    _ = .ok () (s.finish moved) := congrArg _ (finish_setMseq s _ moved)

/-- From line `n` a non-blocking transfer returns, and a blocking one comes to its spin boundary. -/
theorem passEnd_reaches (hps : s.slots.get q = some ps) : Reaches (s.atLine c n moved k)
    (if ps.blocking = true then s.atLine c 2 (moved + k) 0#32 else s.finish (moved + k)) := by
  have hps' (m : MSeq) : (s.setMseq m).slots.get q = some ps := hps
  have hlater := hl.later
  cases hb : ps.blocking with
  | false =>
    refine .line hctx hq (by omega) ?_ (.refl _)
    simp [hl.done, withPort_some (hps' _), hb, MLocals.at_]
  | true =>
    refine .line hctx hq (by omega) (u := s.atLine c (n + 1) (moved + k) 0#32) ?_
      (.line hctx hq (by omega) (hl.back _ _ _) (.refl _))
    simp only [hl.done, withPort_some (hps' _), hb, MLocals.at_, Bool.not_true, Bool.false_eq_true, if_false]
    rfl

/-- A transfer with bytes missing makes a pass from its spin boundary. -/
theorem transfer_resumes (hm : s.mseq = .run c 2 (.at_ moved 0#32)) (hmore : moved ≠ s.a1)
    (hpass : ∀ e, Reaches (u.atLine c n moved k) e → Reaches (s.atLine c 3 moved 0#32) e)
    (hu : u.ctx = []) (hpu : u.slots.get q = some ps) :
    Reaches s (if ps.blocking = true then u.atLine c 2 (moved + k) 0#32 else u.finish (moved + k)) := by
  rw [← atLine_self hm]
  refine .line hctx hq (by decide) (u := s.atLine c 3 moved 0#32) ?_ (hpass _ (passEnd_reaches hl hu hq hpu))
  rw [hl.test]
  exact if_neg hmore

end LaterPass

/-- The part of the buffer that a pass works on lies inside `HBUF` (spec/20_memory.md R70). -/
theorem pass_fits_hbuf {cfg : Config} {a n moved k : Nat} (hin : a + n ≤ 2 ^ cfg.haddrBits) (hmoved : moved ≤ n)
    (hk : k ≤ n - moved) : a + moved + k ≤ 2 ^ cfg.haddrBits := by omega

/-! ### A pass of SEND (spec/46_transfer.md R231) -/

section SendPass

theorem map_some_of_cellsReadList {m : List Host.Cell} {a k : Nat} {bs : List Byte}
    (h : cellsReadList m a k = some bs) : bs.map some = (List.range k).map fun j => cellsRead m (a + j) := by
  obtain ⟨rfl, hread⟩ := cellsReadList_eq_some.1 h
  refine List.ext_getElem (by simp) fun j hj _ => ?_
  have hlt : j < bs.length := by simpa using hj
  simp [hread j hlt, hlt]

/-- The unmask after a critical section that has left the masks alone. -/
theorem unmaskLine_of_masked {s w : State} {l : Line} (h : w.masked = s.masked.set l true) :
    w.unmaskLine l = { w with masked := s.masked.set l false, trace := w.trace ++ [.unmask l] } := by
  simp [State.unmaskLine, State.setMasked, State.observe, h]

variable {s : State} {q : Slot} {ps : PortState} {moved : Word} {k : Nat} (hctx : s.ctx = [])
  (hps : s.slots.get q = some ps) (hk : k = sendCount ps moved s.a1)
  (hin : s.a0.toNat + s.a1.toNat ≤ 2 ^ s.cfg.haddrBits) (hmoved : moved.toNat ≤ s.a1.toNat)
include hctx hps hk hin hmoved

/-- Line 4 of SEND queues the bytes read. -/
theorem sendCopy_takes {bs : List Byte} (hread : cellsReadList s.hbuf (s.a0.toNat + moved.toNat) k = some bs) :
    sendCopy q moved (s.maskLine (s.lineOf q)) = .ok (BitVec.ofNat 32 k)
      ((s.maskLine (s.lineOf q)).setSlot q (some { ps with tx := ps.tx.putAll bs })) := by
  have hfits := pass_fits_hbuf hin hmoved (hk.trans_le (Nat.min_le_right _ _))
  subst hk
  exact sendCopy_eq_ok.2 ⟨ps, hps, rfl, ringPushN_takes (s := s.maskLine (s.lineOf q)) (d := .tx) hps
    (ringOwned_maskLine hctx q) (Nat.min_le_left _ _) (.inr hfits) hread⟩

/-- A source byte that nothing has written stops the pass (spec/20_memory.md R60). -/
theorem sendPass_unwritten {j : Nat} (hj : j < k)
    (hnone : cellsRead s.hbuf (s.a0.toNat + moved.toNat + j) = none) : sendPass q moved s = .fault .hbufUnwritten := by
  have hfits := pass_fits_hbuf hin hmoved (hk.trans_le (Nat.min_le_right _ _))
  subst hk
  have hpush := ringPushN_unwritten (s := s.maskLine (s.lineOf q)) (d := .tx) hps (ringOwned_maskLine hctx q)
    (Nat.min_le_left _ _) hfits hj hnone
  have hport : (s.maskLine (s.lineOf q)).slots.get q = some ps := hps
  rw [sendPass, sendCopy, withPort_some hport]
  exact congrArg (fun r => (Res.andThen r _).andThen _) hpush

/-- A pass queues `k` bytes of the buffer and kicks, between the mask and the unmask of the line. -/
theorem sendPass_takes (hwf : s.cfg.wf = true) (hregs : ps.regs = regsOf s.cfg q) (hok : ps.tx.ok = true)
    (hread : ∀ j < k, (cellsRead s.hbuf (s.a0.toNat + moved.toNat + j)).isSome = true) :
    ∃ tx w, tx.ok = true ∧ tx.capacity = ps.tx.capacity
      ∧ tx.queued = ps.tx.queued ++ (List.range k).map (fun j => cellsRead s.hbuf (s.a0.toNat + moved.toNat + j))
      ∧ kick q ((s.maskLine (s.lineOf q)).setSlot q (some { ps with tx := tx })) = .ok () w
      ∧ sendPass q moved s = .ok (BitVec.ofNat 32 k) { w with
          masked := s.masked.set (s.lineOf q) false, trace := w.trace ++ [.unmask (s.lineOf q)] } := by
  obtain ⟨bs, hbs⟩ := cellsReadList_of_written hread
  have hcopy := sendCopy_takes hctx hps hk hin hmoved hbs
  have hroom : bs.length ≤ ps.tx.room := by
    rw [(cellsReadList_eq_some.1 hbs).1, hk]; exact Nat.min_le_left _ _
  obtain ⟨w, hkick⟩ := kick_completes
    (get_setSlot (s.maskLine (s.lineOf q)) q (some { ps with tx := ps.tx.putAll bs })) hwf hregs
    (ringOwned_maskLine hctx q)
  have hw := kick_frame hkick
  have hmasked : w.masked = s.masked.set (s.lineOf q) true := by rw [hw.frame]; rfl
  have hline : w.lineOf q = s.lineOf q := by rw [State.lineOf, hw.cfg_eq]; rfl
  refine ⟨ps.tx.putAll bs, w, RingBuffer.putAll_ok hok hroom, rfl, ?_, hkick, ?_⟩
  · rw [RingBuffer.queued_putAll hok hroom, map_some_of_cellsReadList hbs]
  · exact sendPass_eq_ok.2 ⟨_, w, hcopy, hkick, by rw [hline, unmaskLine_of_masked hmasked]⟩

end SendPass

/-! ### A pass of RECV (spec/46_transfer.md R233) -/

section RecvPass

variable {s : State} {q : Slot} {ps : PortState} {moved : Word} {k : Nat} (hctx : s.ctx = [])
  (hps : s.slots.get q = some ps) (hk : k = recvCount ps moved s.a1) (hok : ps.rx.ok = true)
  (hin : s.a0.toNat + s.a1.toNat ≤ 2 ^ s.cfg.haddrBits) (hmoved : moved.toNat ≤ s.a1.toNat)
  (hw : ∀ x ∈ ps.rx.queued.take k, x.isSome = true)
include hctx hps hk hok hin hmoved

/-- Line 4 of RECV moves the oldest bytes. -/
theorem recvCopy_takes (u : State) (hu : u = s.maskLine (s.lineOf q)) : recvCopy q moved u = .ok (BitVec.ofNat 32 k)
    (((ps.rx.oldest k u).2.setHbuf (cellsWriteList s.hbuf (s.a0.toNat + moved.toNat) (ps.rx.oldest k u).1)).setSlot q
      (some { ps with rx := ps.rx.drop k })) := by
  have hfits := pass_fits_hbuf hin hmoved (hk.trans_le (Nat.min_le_right _ _))
  subst hk hu
  exact recvCopy_eq_ok.2 ⟨ps, hps, rfl, ringPopN_takes (s := s.maskLine (s.lineOf q)) (d := .rx) hps
    (ringOwned_maskLine hctx q) hok (Nat.min_le_left _ _) (.inr hfits)⟩

include hw

/-- A pass moves the `k` oldest bytes to the buffer, between the mask and the unmask of the line. -/
theorem recvPass_takes :
    ∃ h rx, rx.ok = true ∧ rx.capacity = ps.rx.capacity ∧ rx.queued = ps.rx.queued.drop k
      ∧ (∀ j, j < k → some (cellsRead h (s.a0.toNat + moved.toNat + j)) = ps.rx.queued[j]?)
      ∧ (∀ x, x < s.a0.toNat + moved.toNat ∨ s.a0.toNat + moved.toNat + k ≤ x → cellsRead h x = cellsRead s.hbuf x)
      ∧ recvPass q moved s = .ok (BitVec.ofNat 32 k) { s with
          hbuf := h, slots := s.slots.set q (some { ps with rx := rx }),
          masked := s.masked.set (s.lineOf q) false,
          trace := s.trace ++ [.mask (s.lineOf q), .unmask (s.lineOf q)] } := by
  obtain ⟨u, hu⟩ : ∃ u, u = s.maskLine (s.lineOf q) := ⟨_, rfl⟩
  have hcount : k ≤ ps.rx.count.toNat := hk ▸ Nat.min_le_left _ _
  have hqueued (j) (hj : j < k) : ps.rx.queued[j]? = some (cellsRead ps.rx.storage (ps.rx.indexOf j)) := by
    rw [RingBuffer.queued_getElem?, if_pos (hj.trans_le hcount)]
  have hwritten (j) (hj : j < k) : (cellsRead ps.rx.storage (ps.rx.indexOf j)).isSome = true :=
    hw _ (List.mem_of_getElem? (i := j) (by rw [List.getElem?_take_of_lt hj, hqueued j hj]))
  have hsame : (ps.rx.oldest k u).2 = u := RingBuffer.oldest_written hwritten
  have hlen := RingBuffer.oldest_length ps.rx k u
  have hcopy := recvCopy_takes hctx hps hk hok hin hmoved u hu
  rw [hsame] at hcopy
  generalize hmem : cellsWriteList s.hbuf (s.a0.toNat + moved.toNat) (ps.rx.oldest k u).1 = mem at hcopy
  refine ⟨mem, ps.rx.drop k, RingBuffer.drop_ok hok hcount, rfl, RingBuffer.queued_drop hok hcount,
    fun j hj => ?moved, fun x hx => ?kept, recvPass_eq_ok.2 ⟨_, hu ▸ hcopy, ?state⟩⟩
  case moved =>
    obtain ⟨b, hb⟩ := Option.isSome_iff_exists.1 (hwritten j hj)
    obtain ⟨v, hv, heq⟩ := RingBuffer.oldest_getElem? ps.rx u hj
    rw [← hmem, cellsRead_writeList, if_pos (by omega), Nat.add_sub_cancel_left, hv, heq b hb, hqueued j hj, hb]
  case kept => rw [← hmem, cellsRead_writeList, if_neg (by omega)]
  case state =>
    subst hu
    exact (unmaskLine_maskLine_setSlot (s.setHbuf mem) (s.lineOf q) q (some { ps with rx := ps.rx.drop k })).symm

end RecvPass

/-! ### SEND and RECV -/

/-- Settles O57: the tests and the first pass by `transferWhole_outside`, `transferWhole_nothing` and
`transferWhole_moves`, a later pass by `transfer_resumes`; what a pass moves is `recvPass_takes`. -/
theorem recv : Obligations.Recv := by
  intro s q ps hctx hps l len inside ok wait pass written
  have hport := slotOfSel_sel q
  have hlines := transferLines_recv q.sel
  refine ⟨fun hm => ?first, fun moved hm => ⟨fun hall => ?done, fun hmore hin hok hw => ?later⟩⟩
  case first =>
    have hexec : exec (.recv q.sel) s = (transferWhole ⟨.recv, q.sel⟩ (fun q => recvPass q 0#32) s).outcome :=
      (issueCommand_idle hm hctx).trans (congrArg Res.outcome (recvWhole_eq q.sel s))
    refine ⟨fun hout => ?_, fun hin hlen => ?_, fun hin hlen hok hw => ?_⟩
    · rw [hexec, transferWhole_outside hps (Bool.eq_false_iff.2 (mt bufferInside_iff.1 hout)), outcome_refuse]
    · rw [hexec, transferWhole_nothing hps (bufferInside_iff.2 hin) hlen, outcome_ok]; rfl
    · obtain ⟨h, rx, hrx, hcap, hrest, hbytes, hkept, hpass⟩ :=
        recvPass_takes (moved := 0#32) hctx hps rfl hok hin.1 (Nat.zero_le _) hw
      have hmoves := transferWhole_moves (op := .recv) (pass := fun q => recvPass q 0#32) hps
        (bufferInside_iff.2 hin) hlen (Nat.min_le_right _ _) hpass rfl
      exact ⟨h, rx, hrx, hcap, hrest, hbytes, hkept, hexec.trans (congrArg Res.outcome hmoves)⟩
  case done => exact coreStep_transfer_done hlines hctx hport hm hall
  case later =>
    obtain ⟨h, rx, hrx, hcap, hrest, hbytes, hkept, hpass⟩ :=
      recvPass_takes hctx hps rfl hok hin.1 (Nat.le_of_lt hmore) hw
    have hne : moved ≠ s.a1 := fun he => Nat.ne_of_lt hmore (congrArg BitVec.toNat he)
    exact ⟨h, rx, hrx, hcap, hrest, hbytes, hkept, transfer_resumes (ps := { ps with rx := rx }) hlines hctx hport hm
      hne (fun e => recvPass_reaches hctx hport hpass) hctx (PerSlot.get_set_same _ _ _)⟩

/-- Settles O55: as `recv`, with the passes of `sendPass_takes` and the fault of `sendPass_unwritten`. -/
theorem send : Obligations.Send := by
  intro s q ps hwf hctx hps hregs l len inside room ok wait pass readable
  have hport := slotOfSel_sel q
  have hlines := transferLines_send q.sel
  refine ⟨fun hm => ?first, fun moved hm => ⟨fun hall => ?done, fun hmore hin hok hw => ?later⟩⟩
  case first =>
    have hexec : exec (.send q.sel) s = (transferWhole ⟨.send, q.sel⟩ (fun q => sendPass q 0#32) s).outcome :=
      (issueCommand_idle hm hctx).trans (congrArg Res.outcome (sendWhole_eq q.sel s))
    refine ⟨fun hout => ?_, fun hin hlen => ?_, fun hin hlen ⟨j, hj, hnone⟩ => ?_, fun hin hlen hok hread => ?_⟩
    · rw [hexec, transferWhole_outside hps (Bool.eq_false_iff.2 (mt bufferInside_iff.1 hout)), outcome_refuse]
    · rw [hexec, transferWhole_nothing hps (bufferInside_iff.2 hin) hlen, outcome_ok]; rfl
    · have hfault := sendPass_unwritten (moved := 0#32) hctx hps rfl hin.1 (Nat.zero_le _) hj hnone
      rw [hexec, transferWhole_pass hps (bufferInside_iff.2 hin) hlen, hfault, andThen_fault, outcome_fault]
    · obtain ⟨tx, w, htx, hcap, hqueued, hkick, hpass⟩ :=
        sendPass_takes (moved := 0#32) hctx hps rfl hin.1 (Nat.zero_le _) hwf hregs hok hread
      have hmoves := transferWhole_moves (op := .send) (pass := fun q => sendPass q 0#32) hps
        (bufferInside_iff.2 hin) hlen (Nat.min_le_right _ _) hpass (by rw [(kick_frame hkick).frame]; rfl)
      exact ⟨tx, w, htx, hcap, hqueued, hkick, hexec.trans (congrArg Res.outcome hmoves)⟩
  case done => exact coreStep_transfer_done hlines hctx hport hm hall
  case later =>
    obtain ⟨tx, w, htx, hcap, hqueued, hkick, hpass⟩ :=
      sendPass_takes hctx hps rfl hin.1 (Nat.le_of_lt hmore) hwf hregs hok hw
    have hne : moved ≠ s.a1 := fun he => Nat.ne_of_lt hmore (congrArg BitVec.toNat he)
    obtain ⟨hctxw, pw, hpw, hb⟩ := sendPass_port hpass hps
    refine ⟨tx, w, htx, hcap, hqueued, hkick, ?_⟩
    rw [← hb]
    exact transfer_resumes hlines hctx hport hm hne (fun e => sendPass_reaches hctx hport hpass)
      (hctxw.trans hctx) hpw

end Sys2Proof.Machine

namespace Sys2Proof.Machine

open Sys2Proof

/-! ### The load of an idle chip (spec/46_transfer.md R239) -/

/-- A ring holds nothing exactly when its count is 0. -/
theorem RingBuffer.count_eq_zero_iff {rb : RingBuffer} : rb.count = 0#16 ↔ rb.queued = [] := by
  rw [← List.length_eq_zero_iff, queued_length, ← BitVec.toNat_inj]; rfl

/-- HAL.EN_TX leaves the transmit enable set, whatever the IER held. -/
theorem StdMap.ierTx_enabled {m : StdMap} (hm : m.wf = true) (i : Byte) :
    (i ||| m.ierTx) &&& m.ierMask &&& m.ierTx ≠ 0#8 := by
  have hsame : (i ||| m.ierTx) &&& m.ierMask &&& m.ierTx = m.ierTx := by
    ext j hj; simp [StdMap.ierMask]; tauto
  rw [hsame]
  exact oneBit_ne_zero (StdMap.wf_bits hm (by simp))

/-- `t` is `s` but for the devices and the trace, and the chip of `c` is now `d`. -/
structure ChipFrame (c : StdSlot) (d : StdDev) (s t : State) : Prop where
  frame : t = s.withIo t.dev t.trace
  chip : t.dev.std.get c = d

section ChipFrame

variable {s t : State} {q : Slot} {c : StdSlot} {d : StdDev} {ps : PortState} (h : ChipFrame c d s t)
include h

theorem ChipFrame.cfg_eq : t.cfg = s.cfg := by rw [h.frame]; rfl

theorem ChipFrame.slots_eq : t.slots = s.slots := by rw [h.frame]; rfl

theorem ChipFrame.owned_eq : t.ringOwned q = s.ringOwned q := by rw [h.frame]; rfl

theorem ChipFrame.regs_eq : t.regs q = s.regs q := by rw [h.frame]; rfl

end ChipFrame

section IdleChip

variable {s : State} {q : Slot} {c : StdSlot} {d : StdDev} (hwf : s.cfg.wf = true)
  (hregs : s.regs q = regsOf s.cfg q) (hk : q.kind = .std c) (hp : s.cfg.stdPresent.get c = true)
  (hd : s.dev.std.get c = d)
include hwf hregs hk hp hd

/-- HAL.TX_EMPTY of a present chip (spec/43_hal_variant_mux.md R164). -/
theorem halTxEmpty_chip :
    ∃ t, halTxEmpty q s = .ok d.txf.isEmpty t ∧ ChipFrame c { d with lsErr := 0#4 } s t := by
  have hread := runHal_read8 (accs := accTxEmpty) hregs hk rfl (ioRd8_chip (D := s.dev) (es := s.trace) hwf hp .lsr)
  rw [halTxEmpty, hread, andThen_ok, regs_std hregs hk, txEmptyOf, Regs.variant, setWidth_half_byte,
    StdDev.readValue, hasBit_lsr_thre (Config.wf_stdMap hwf), hd]
  exact ⟨_, rfl, rfl, Devices.setStd_get _ _ _⟩

variable (hlatch : d.lcr &&& s.cfg.stdMap.lcrDlab = 0#8)
include hlatch

/-- HAL.EN_TX of a present chip with the divisor latch off (spec/43_hal_variant_mux.md R156). -/
theorem runHal_enTx_chip : ∃ v t, runHal q accEnTx s = .ok v t ∧ ChipFrame c { d with
    ier := (d.ier ||| s.cfg.stdMap.ierTx) &&& s.cfg.stdMap.ierMask
    threInt := d.threInt || (decide (d.ier &&& s.cfg.stdMap.ierTx = 0#8) && d.txf.isEmpty) } s t := by
  have hdlab : (s.dev.std.get c).dlab s.cfg.stdMap = false := hasBit_eq_false.2 (hd ▸ hlatch)
  have hrun := runHal_setBit (accs := accEnTx) hregs hk rfl (ioRd8_ier hwf hp hdlab) (ioWr8_chip hwf hp .ier _)
  rw [StdDev.write_ier_tx (Config.wf_stdMap hwf) hdlab, hd] at hrun
  exact ⟨_, _, hrun, rfl, Devices.setStd_get _ _ _⟩

variable {ps : PortState} {bytes : List Byte} (hps : s.slots.get q = some ps) (ho : s.ringOwned q = true)
  (hok : ps.tx.ok = true) (hqueued : ps.tx.queued = bytes.map some) (hburst : bytes.length ≤ s.cfg.txBurst.std.toNat)
include hps ho hok hqueued hburst

/-- A burst that holds all that is queued, to a present chip with the divisor latch off
(spec/43_hal_variant_mux.md R160, spec/48_environment_device.md R274). -/
theorem runHal_burst_chip : ∃ v t tx, runHal q accBurst s = .ok v t
    ∧ t.slots = s.slots.set q (some { ps with tx := tx }) ∧ tx.ok = true ∧ tx.queued = []
    ∧ t.dev.std.get c = { d with
      txf := d.txf ++ bytes.take (d.depth - d.txf.length), threInt := d.threInt && bytes.isEmpty } := by
  subst hd
  have hport : ps.regs = regsOf s.cfg q := (regs_eq_port hps).symm.trans hregs
  have hall : ps.tx.queued.take s.cfg.txBurst.std.toNat = bytes.map some := by
    rw [hqueued, List.take_of_length_le (by simpa using hburst)]
  have hnone : ps.tx.queued.drop s.cfg.txBurst.std.toNat = [] := by
    rw [hqueued, List.drop_eq_nil_iff]; simpa using hburst
  obtain ⟨t, tx, hword, htx, -, hrest, ht, hstd, -⟩ := fillMovesTheOldestBytes s q ps _ bytes hwf hps hport ho hok hall
  obtain ⟨-, -, hdev⟩ := hstd c hk
  obtain ⟨v, hrun⟩ := runHal_of_word (u := (s.setSlot q (some { ps with tx := tx })).withIo t.dev t.trace)
    ((exec_halFillTx _).symm.trans (hword.trans (congrArg Host.Outcome.next ht))) rfl
  have hacc : runHal q accBurst s = runHal q (accFillTx s.cfg.txBurst.std.toNat) s := by
    rw [runHal, runHal, regs_std hregs hk]; rfl
  refine ⟨v, _, tx, hacc.trans hrun, rfl, htx, hrest.trans hnone, ?_⟩
  rw [State.withIo, hdev hp hlatch]
  exact PerStd.get_set_same _ _ _

/-- The kick of a port whose chip is present, its latch off and its transmitter empty: the enable is set, and what is
queued goes to the chip where a burst holds it. -/
theorem kick_idleChip (hidle : d.txf = []) (hne : bytes ≠ []) :
    ∃ w tx, kick q s = .ok () w ∧ w.slots = s.slots.set q (some { ps with tx := tx }) ∧ tx.ok = true
      ∧ tx.queued = [] ∧ (w.dev.std.get c).txf = bytes.take d.depth
      ∧ (w.dev.std.get c).ier &&& s.cfg.stdMap.ierTx ≠ 0#8 := by
  have hcount : ps.tx.count ≠ 0#16 := by
    rw [ne_eq, RingBuffer.count_eq_zero_iff, hqueued, List.map_eq_nil_iff]; exact hne
  obtain ⟨t, hread, ht⟩ := halTxEmpty_chip hwf hregs hk hp hd
  rw [hidle] at hread
  have htc := ht.cfg_eq
  obtain ⟨v, u, hen, hu⟩ := runHal_enTx_chip (htc ▸ hwf) (by rw [ht.regs_eq, htc]; exact hregs) hk (htc ▸ hp) ht.chip
    (htc ▸ hlatch)
  have huc := hu.cfg_eq.trans htc
  have hus := hu.slots_eq.trans ht.slots_eq
  obtain ⟨v', w, tx, hload, hw, htx, hrest, hchip⟩ := runHal_burst_chip (huc ▸ hwf)
    (by rw [hu.regs_eq, ht.regs_eq, huc]; exact hregs) hk (huc ▸ hp) hu.chip (huc ▸ hlatch) (hus ▸ hps)
    (hu.owned_eq.trans (ht.owned_eq.trans ho)) hok hqueued (huc ▸ hburst)
  refine ⟨w, tx, kick_loads hps hcount hread hen hload, hus ▸ hw, htx, hrest, ?loaded, ?enabled⟩
  case loaded => rw [hchip]; simp [hidle, StdDev.depth]
  case enabled => rw [hchip, htc]; exact StdMap.ierTx_enabled (Config.wf_stdMap hwf) _

end IdleChip

/-- Settles O56: the bytes of the buffer are what the pass queues (`send`), and the kick loads them all
(`kick_idleChip`). -/
theorem sendLoadsAnIdleDevice : Obligations.SendLoadsAnIdleDevice := by
  intro s q c ps bytes hwf hm hctx hk hps hregs hok hcount hp hlatch hfifo hidle hfit hburst hcap hlen hin hstart hbytes
  obtain ⟨hfirst, -⟩ := send s q ps hwf hctx hps hregs
  obtain ⟨-, hnothing, -, hpass⟩ := hfirst hm
  have hinside : s.a0.toNat + s.a1.toNat ≤ 2 ^ s.cfg.haddrBits := hlen ▸ hin
  by_cases hne : bytes = []
  case pos =>
    subst hne
    refine ⟨_, ps, hnothing ⟨hinside, .inl hstart⟩ hlen, rfl, (BitVec.eq_of_toNat_eq hlen).symm, ?_,
      fun h => absurd rfl h, ?_, hcount, hok, rfl, ?_⟩
    · rw [drawn1_dev]; exact hidle
    · rw [drawn1_slots]; exact hps
    · exact drawn1_hbuf s
  case neg =>
    have hmoved : min (ps.tx.capacity.toNat - ps.tx.count.toNat) s.a1.toNat = bytes.length := by
      rw [hcount, hlen]; exact Nat.min_eq_right hcap
    obtain ⟨-, hread⟩ := cellsReadList_eq_some.1 hbytes
    rw [hmoved] at hpass
    obtain ⟨tx, w, htx, -, hqueued, hkick, hexec⟩ := hpass ⟨hinside, .inl hstart⟩
      (hlen ▸ mt List.length_eq_zero_iff.1 hne) hok fun j hj => by rw [hread j hj]; simpa using hj
    rw [RingBuffer.count_eq_zero_iff.1 hcount, List.nil_append, ← map_some_of_cellsReadList hbytes] at hqueued
    obtain ⟨w', tx', hload, hw, htx', hrest, hchip, henabled⟩ := kick_idleChip
      (s := (s.maskLine (s.lineOf q)).setSlot q (some { ps with tx := tx })) (d := s.dev.std.get c) hwf
      (regs_of_port (get_setSlot _ _ _) hregs) hk hp rfl hlatch (get_setSlot _ _ _) (ringOwned_maskLine hctx q)
      htx hqueued hburst hidle hne
    obtain rfl : w = w' := (ok_eq_ok.1 (hload.symm.trans hkick)).2
    have hhbuf : w.hbuf = s.hbuf := by rw [(kick_frame hkick).frame]
    rw [if_neg fun h => h.2 hlen.symm] at hexec
    refine ⟨_, { ps with tx := tx' }, hexec, rfl, (ofNat_eq_iff hlen.ge).2 hlen.symm, ?_, fun _ => ⟨?_, ?_⟩, ?_,
      RingBuffer.count_eq_zero_iff.2 hrest, htx', rfl, ?_⟩
    · rw [drawn1_dev, hchip, StdDev.depth, if_pos hfifo, List.take_of_length_le hfit]
    · rw [drawn1_dev]; exact henabled
    · rw [drawn1_masked]; exact PerLine.get_set_same _ _ _
    · rw [drawn1_slots, hw]; simp
    · rw [drawn1_hbuf]; exact hhbuf

end Sys2Proof.Machine

/-! ## The registers of INTEG and the line primitives -/

namespace Sys2Proof.Machine

open Sys2Proof

/-! ### The words of the line primitives (spec/47_host_primitives.md R256 to R259) -/

section LineWords

variable {s : State} {l : Line}

theorem onLine_sel_returning {α : Type} (l : Line) (f : Line → Res α) (g : α → Ret) :
    (onLine l.sel f).returning g = (f l).returning g := by rw [onLine_sel]

theorem exec_hostMask : exec (.hostMask l.sel) s = .next { s.maskLine l with ret := .unit } :=
  onLine_sel_returning l (fun m => .ok () (s.maskLine m)) _

theorem exec_hostUnmask : exec (.hostUnmask l.sel) s = .next { s.unmaskLine l with ret := .unit } :=
  onLine_sel_returning l (fun m => .ok () (s.unmaskLine m)) _

theorem exec_hostInstall : exec (.hostInstall l.sel) s
    = .next { s.installHandler l s.side.handler with ret := .handler (s.handler.get l) } :=
  onLine_sel_returning l (fun m => .ok (s.handler.get m) (s.installHandler m s.side.handler)) _

theorem exec_hostRestore : exec (.hostRestore l.sel) s
    = .next { s.restoreHandler l s.side.handler with ret := .unit } :=
  onLine_sel_returning l (fun m => .ok () (s.restoreHandler m s.side.handler)) _

end LineWords

/-- Settles O47: each word by the line primitive it performs. -/
theorem linePrimitives : Obligations.LinePrimitives := fun _ _ =>
  ⟨exec_hostMask, exec_hostUnmask, exec_hostInstall, exec_hostRestore⟩

/-! ### The words at a register of the INTEG device (spec/47_host_primitives.md R251, R253) -/

section IntegWords

variable {s : State} (hwf : s.cfg.wf = true) (hp : s.cfg.integPresent = true)
include hwf hp

/-- HOST.RD16 of a register of the present INTEG device. -/
theorem exec_hostRd16_device (r : IReg) :
    let d := s.dev.integ
    let v := d.readValue s.cfg r s.drawValue
    exec (.hostRd16 (integAddr s.cfg r)) s = .next { s.drawnIf (d.readDraws r) with
      dev := s.dev.setInteg (d.afterRead r), trace := s.trace ++ [.rd16 (integAddr s.cfg r) v], ret := .u16 v } :=
  congrArg (·.returning .u16) (ioRd16_device (D := s.dev) (es := s.trace) hwf hp r)

/-- HOST.WR16 of a register of the present INTEG device. -/
theorem exec_hostWr16_device (r : IReg) :
    exec (.hostWr16 (integAddr s.cfg r)) s = .next { s with
      dev := s.dev.setInteg (s.dev.integ.write r s.side.value),
      trace := s.trace ++ [.wr16 (integAddr s.cfg r) s.side.value], ret := .unit } :=
  congrArg (·.returning fun _ => .unit) (ioWr16_device (D := s.dev) (es := s.trace) hwf hp r s.side.value)

end IntegWords

/-! ### The registers that depend on a waiting byte -/

section IntegBytes

variable {cfg : Config} {d : IntegDev} {free : Half}

/-- A read of the receive word with no byte waiting is a draw (spec/48_environment_device.md R287). -/
theorem IntegDev.read_rxd_none (h : d.rxd = none) :
    d.readValue cfg .rxd free = free ∧ d.readDraws .rxd = true ∧ d.afterRead .rxd = d := by
  cases d
  subst h
  exact ⟨rfl, rfl, rfl⟩

/-- A read of the receive word takes the byte waiting (spec/48_environment_device.md R287). -/
theorem IntegDev.read_rxd_some {b : Byte} (h : d.rxd = some b) :
    d.readValue cfg .rxd free = b.setWidth 16 ∧ d.readDraws .rxd = false := by
  simp [readValue, readDraws, h]

/-- The transmit word is taken by an empty transmitter (spec/48_environment_device.md R286). -/
theorem IntegDev.write_txd (d : IntegDev) (w : Half) :
    d.write .txd w = if d.txd = none then { d with txd := some (w.extractLsb' 0 8) } else d := by
  simp only [write, Option.isNone_iff_eq_none, BitVec.setWidth_eq_extractLsb' (show 8 ≤ 16 by decide)]

/-- The four bits of the status word (spec/48_environment_device.md R282). -/
theorem IntegDev.status_bits (h : cfg.wf = true) :
    let v := d.status cfg free
    (v &&& cfg.isRxrdy ≠ 0#16 ↔ d.rxd ≠ none) ∧ (v &&& cfg.isThre ≠ 0#16 ↔ d.txd = none)
    ∧ (v &&& cfg.isTxint ≠ 0#16 ↔ d.txd = none ∧ d.ien &&& cfg.imTxie ≠ 0#16)
    ∧ (v &&& cfg.isLineerr ≠ 0#16 ↔ d.lineErr = true) := by
  obtain ⟨hrx, hthre⟩ := hasBit_status h d free
  obtain ⟨htx, herr⟩ := hasBit_status_service h d free
  simp only [← hasBit_eq_true, hrx, hthre, htx, herr]
  simp [txMore, hasBit, Option.isSome_iff_ne_none]

end IntegBytes

/-- Settles O45: each access by `exec_hostRd16_device` or `exec_hostWr16_device` at its register; the status word by
`IntegDev.status_bits`, the receive word by whether a byte waits. -/
theorem integRegisters : Obligations.IntegRegisters := by
  intro s hwf hp
  have read := exec_hostRd16_device hwf hp
  have write := exec_hostWr16_device hwf hp
  refine ⟨read .ien, read .lctl, read .baud, ⟨_, read .stat, IntegDev.status_bits hwf⟩, read .txd, fun b hb => ?byte,
    fun hnone => ?empty, write .ien, write .lctl, write .baud, write .stat, write .rxd, ?transmit⟩
  case byte =>
    obtain ⟨hvalue, hdraw⟩ := IntegDev.read_rxd_some (cfg := s.cfg) (free := s.drawValue) hb
    have hread := read .rxd
    simp only [hvalue, hdraw] at hread
    exact hread
  case empty =>
    obtain ⟨hvalue, hdraw, hafter⟩ := IntegDev.read_rxd_none (cfg := s.cfg) (free := s.drawValue) hnone
    have hread := read .rxd
    simp only [hvalue, hdraw, hafter] at hread
    exact hread
  case transmit =>
    rw [← IntegDev.write_txd]
    exact write .txd

end Sys2Proof.Machine

/-! ## The registers of a STD chip

HOST.RD8 and HOST.WR8 of a present chip are the reads and writes of its registers; what is left to say is how these
look where the divisor latch or a waiting byte decides (spec/48_environment_device.md R273 to R279). -/

namespace Sys2Proof.Machine

open Sys2Proof

/-- A read of location `r` with the value `v` and the device `d'` after it; `b` tells whether it takes a draw. -/
def StdDev.Reads (m : StdMap) (d : StdDev) (free : Half) (r : SReg) (v : Byte) (b : Bool) (d' : StdDev) : Prop :=
  d.readValue m r free = v ∧ d.readDraws m r = b ∧ d.afterRead m r = d'

section StdWords

variable {s : State} {c : StdSlot} (hwf : s.cfg.wf = true) (hp : s.cfg.stdPresent.get c = true)
include hwf hp

/-- HOST.RD8 of a location of a present STD chip (spec/47_host_primitives.md R250). -/
theorem exec_hostRd8_chip (r : SReg) {v : Byte} {b : Bool} {d' : StdDev}
    (h : (s.dev.std.get c).Reads s.cfg.stdMap s.drawValue r v b d') :
    let a := s.cfg.stdMap.addr (s.cfg.stdBase.get c) r
    exec (.hostRd8 a) s = .next { s.drawnIf b with
      dev := s.dev.setStd c d', trace := s.trace ++ [.rd8 a v], ret := .u8 v } := by
  obtain ⟨rfl, rfl, rfl⟩ := h
  exact congrArg (·.returning .u8) (ioRd8_chip (D := s.dev) (es := s.trace) hwf hp r)

/-- HOST.WR8 of a location of a present STD chip (spec/47_host_primitives.md R252). -/
theorem exec_hostWr8_chip (r : SReg) {d' : StdDev}
    (h : (s.dev.std.get c).write s.cfg.stdMap r (s.side.value.setWidth 8) = d') :
    let a := s.cfg.stdMap.addr (s.cfg.stdBase.get c) r
    exec (.hostWr8 a) s = .next { s with
      dev := s.dev.setStd c d', trace := s.trace ++ [.wr8 a (s.side.value.setWidth 8)], ret := .unit } := by
  subst h
  exact congrArg (·.returning fun _ => .unit) (ioWr8_chip (D := s.dev) (es := s.trace) hwf hp r _)

end StdWords

section StdReads

variable {m : StdMap} {d : StdDev} {free : Half}

/-- With the divisor latch on the first two locations are read as the divisor (spec/48_environment_device.md R275,
R276). -/
theorem StdDev.reads_latch (h : d.dlab m = true) :
    d.Reads m free .data d.dll false d ∧ d.Reads m free .ier d.dlm false d := by
  simp [Reads, readValue, readDraws, afterRead, h]

/-- A read of the receive location takes the oldest byte and ends a timeout (spec/48_environment_device.md R275). -/
theorem StdDev.reads_data_byte (h : d.dlab m = false) {b : Byte} {rest : List Byte} (hb : d.rxf = b :: rest) :
    d.Reads m free .data b false { d with rxf := rest, rxTo := false } := by
  simp [Reads, readValue, readDraws, afterRead, h, hb]

/-- With no byte waiting it is a draw (spec/48_environment_device.md R275). -/
theorem StdDev.reads_data_none (h : d.dlab m = false) (hb : d.rxf = []) :
    d.Reads m free .data (free.setWidth 8) true d := by
  simp [Reads, readValue, readDraws, afterRead, h, hb]

theorem StdDev.reads_ier (h : d.dlab m = false) : d.Reads m free .ier d.ier false d := by
  simp [Reads, readValue, readDraws, afterRead, h]

/-- The IIR names the cause pending; the read ends a reported transmit-empty condition
(spec/48_environment_device.md R273). -/
theorem StdDev.reads_iir (m : StdMap) (d : StdDev) (free : Half) : d.Reads m free .iir
    ((if d.fifoEn then m.iirFifo else 0#8) ||| m.iirBits (d.cause m)) false
    (if d.cause m = .txEmpty then { d with threInt := false } else d) := ⟨rfl, rfl, rfl⟩

/-- The LSR shows what waits, the line errors and an empty transmitter (spec/48_environment_device.md R279). -/
theorem StdDev.reads_lsr (m : StdMap) (d : StdDev) (free : Half) : d.Reads m free .lsr
    ((if d.rxf = [] then 0#8 else m.lsrDr) ||| (d.lsErr.setWidth 8 <<< m.lsrErr)
      ||| (if d.txf = [] then m.lsrThre ||| m.lsrTemt else 0#8)) false { d with lsErr := 0#4 } := by
  simp only [Reads, readValue, lsr, List.isEmpty_iff, readDraws, afterRead, and_self]

end StdReads

section StdWrites

variable {m : StdMap} {d : StdDev} {v : Byte}

/-- With the divisor latch on the first two locations are the divisor (spec/48_environment_device.md R274, R276). -/
theorem StdDev.write_latch (h : d.dlab m = true) :
    d.write m .data v = { d with dll := v } ∧ d.write m .ier v = { d with dlm := v } := by
  simp [write, h]

/-- A byte written to the transmit location is queued or lost (spec/48_environment_device.md R274). -/
theorem StdDev.write_data (h : d.dlab m = false) : d.write m .data v = { d with
    txf := if d.txf.length < (if d.fifoEn then 16 else 1) then d.txf ++ [v] else d.txf, threInt := false } :=
  if_neg (Bool.eq_false_iff.1 h)

/-- A write of the enables raises the transmit-empty condition where it turns that enable on with nothing to send
(spec/48_environment_device.md R276). -/
theorem StdDev.write_ier (h : d.dlab m = false) : d.write m .ier v = { d with
    ier := v &&& m.ierMask
    threInt := d.threInt || (decide (d.ier &&& m.ierTx = 0#8) && hasBit v m.ierTx && d.txf.isEmpty) } := by
  have hoff : (!hasBit d.ier m.ierTx) = decide (d.ier &&& m.ierTx = 0#8) := by
    rw [hasBit, decide_not, Bool.not_not]
  simp only [write, h, hoff, Bool.false_eq_true, if_false]
  cases decide (d.ier &&& m.ierTx = 0#8) <;> cases hasBit v m.ierTx <;> cases d.txf <;> simp

/-- The trigger a write of the FCR selects; without the FIFOs it is one byte (spec/48_environment_device.md R277). -/
theorem RxTrigger.ofFcr_eq (m : StdMap) (v : Byte) : RxTrigger.ofFcr m v =
    let code := (v >>> m.fcrTrig).extractLsb' 0 2
    if hasBit v m.fcrEn = false then .t1
    else if code = m.fcrT1 then .t1 else if code = m.fcrT4 then .t4 else if code = m.fcrT8 then .t8 else .t14 := by
  simp only [RxTrigger.ofFcr, ← Bool.not_eq_true, ite_not]

/-- A FIFO is emptied with the FIFOs off, by its reset bit, and where the FIFOs are turned on or off
(spec/48_environment_device.md R277). -/
theorem fcr_resets {on reset fifoEn : Bool} :
    (!on || reset || on != fifoEn) = true ↔ on = false ∨ reset = true ∨ on ≠ fifoEn := by
  rw [Bool.or_eq_true, Bool.or_eq_true, Bool.not_eq_true', bne_iff_ne, or_assoc]

/-- A write of the FCR (spec/48_environment_device.md R277). -/
theorem StdDev.write_fcr (m : StdMap) (d : StdDev) (v : Byte) :
    let on := hasBit v
    let resetRx := on m.fcrEn = false ∨ on m.fcrRx = true ∨ on m.fcrEn ≠ d.fifoEn
    let resetTx := on m.fcrEn = false ∨ on m.fcrTx = true ∨ on m.fcrEn ≠ d.fifoEn
    let code := (v >>> m.fcrTrig).extractLsb' 0 2
    d.write m .iir v = { d with
      fifoEn := on m.fcrEn
      rxf := if resetRx then [] else d.rxf, rxTo := if resetRx then false else d.rxTo
      txf := if resetTx then [] else d.txf, threInt := d.threInt || decide (resetTx ∧ d.txf ≠ [])
      trigger := if on m.fcrEn = false then .t1
        else if code = m.fcrT1 then .t1 else if code = m.fcrT4 then .t4 else if code = m.fcrT8 then .t8
        else .t14 } := by
  simp only [write, writeFcr, fcr_resets, RxTrigger.ofFcr_eq, Bool.if_true_left, Bool.or_comm d.threInt]

end StdWrites

/-- Settles O44: each access by `exec_hostRd8_chip` or `exec_hostWr8_chip` at its location; what the divisor latch, a
waiting byte and the bits of the FCR decide is said by the lemmas on the reads and writes of a chip. -/
theorem stdRegisters : Obligations.StdRegisters := by
  have hoff {m : StdMap} {d : StdDev} (h : ¬ d.lcr &&& m.lcrDlab ≠ 0#8) : d.dlab m = false :=
    hasBit_eq_false.2 (not_not.1 h)
  refine ⟨fun s c hwf hp => ?reads, fun s c hwf hp => ?writes⟩
  case reads =>
    refine ⟨fun hlatch => ?latch, fun hlatch => ⟨fun b rest hb => ?byte, fun hnone => ?empty, ?ier⟩, ?iir,
      exec_hostRd8_chip hwf hp .lcr ⟨rfl, rfl, rfl⟩, exec_hostRd8_chip hwf hp .mcr ⟨rfl, rfl, rfl⟩,
      exec_hostRd8_chip hwf hp .lsr (StdDev.reads_lsr _ _ _), exec_hostRd8_chip hwf hp .msr ⟨rfl, rfl, rfl⟩,
      exec_hostRd8_chip hwf hp .scr ⟨rfl, rfl, rfl⟩⟩
    case latch =>
      obtain ⟨hdll, hdlm⟩ := StdDev.reads_latch (hasBit_eq_true.2 hlatch)
      exact ⟨exec_hostRd8_chip hwf hp .data hdll, exec_hostRd8_chip hwf hp .ier hdlm⟩
    case byte => exact exec_hostRd8_chip hwf hp .data (StdDev.reads_data_byte (hoff hlatch) hb)
    case empty => exact exec_hostRd8_chip hwf hp .data (StdDev.reads_data_none (hoff hlatch) hnone)
    case ier => exact exec_hostRd8_chip hwf hp .ier (StdDev.reads_ier (hoff hlatch))
    case iir =>
      refine (exec_hostRd8_chip hwf hp .iir (StdDev.reads_iir _ _ _)).trans ?_
      cases (s.dev.std.get c).cause s.cfg.stdMap <;> rfl
  case writes =>
    refine ⟨fun hlatch => ?latch, fun hlatch => ⟨?data, ?ier⟩, exec_hostWr8_chip hwf hp .iir (StdDev.write_fcr _ _ _),
      exec_hostWr8_chip hwf hp .lcr rfl, exec_hostWr8_chip hwf hp .mcr rfl, exec_hostWr8_chip hwf hp .lsr rfl,
      exec_hostWr8_chip hwf hp .msr rfl, exec_hostWr8_chip hwf hp .scr rfl⟩
    case latch =>
      obtain ⟨hdll, hdlm⟩ := StdDev.write_latch (hasBit_eq_true.2 hlatch)
      exact ⟨exec_hostWr8_chip hwf hp .data hdll, exec_hostWr8_chip hwf hp .ier hdlm⟩
    case data => exact exec_hostWr8_chip hwf hp .data (StdDev.write_data (hoff hlatch))
    case ier => exact exec_hostWr8_chip hwf hp .ier (StdDev.write_ier (hoff hlatch))

end Sys2Proof.Machine

/-! ## The wires of a port

ENV.RX_ARRIVE and ENV.TX_SHIFT as equations of states, the edge latch apart (spec/48_environment_device.md R291,
R292). -/

namespace Sys2Proof.Machine

open Sys2Proof

section WireWords

variable {s : State} {q : Slot} {b : Byte}

theorem exec_envRxArrive : exec (.envRxArrive q.sel b) s
    = .next (if s.cfg.present q then devStep s q (arriveAt q b s) else s) :=
  onSlot_sel_outcome q fun q => envMove q (s.cfg.present q) s (arriveAt q b)

theorem exec_envTxShift (hb : shiftByte q s = some b) : exec (.envTxShift q.sel) s
    = .next (if s.cfg.present q then devStep s q (shiftAt q b s) else s) := by
  refine (onSlot_sel_outcome q _).trans ?_
  simp only [hb]; rfl

/-- With nothing to send the transmit wire does not move (log entry 14). -/
theorem exec_envTxShift_none (hb : shiftByte q s = none) : exec (.envTxShift q.sel) s = .next s := by
  refine (onSlot_sel_outcome q _).trans ?_
  simp only [hb]; rfl

/-- The wire of a port whose device is absent does not move (log entry 14). -/
theorem exec_envTxShift_absent (hp : s.cfg.present q = false) : exec (.envTxShift q.sel) s = .next s := by
  cases hb : shiftByte q s with
  | none => exact exec_envTxShift_none hb
  | some b => rw [exec_envTxShift hb, hp]; rfl

end WireWords

section Arrival

variable (s : State) (q : Slot) (b : Byte)

/-- A byte that arrives goes onto the receive wire and into the device. -/
theorem arriveAt_eq : arriveAt q b s
    = { s with dev := (arriveAt q b s).dev, wireRx := s.wireRx.set q (s.wireRx.get q ++ [b]) } := by
  unfold arriveAt
  cases q.kind <;> rfl

/-- An arrival changes the devices and the receive wire alone. -/
theorem arriveAt_frame : arriveAt q b s
    = { s with dev := (arriveAt q b s).dev, wireRx := (arriveAt q b s).wireRx } := by
  unfold arriveAt
  cases q.kind <;> rfl

/-- The devices after a byte has arrived depend on the devices before it alone. -/
theorem arriveAt_dev_std {q : Slot} {c : StdSlot} (hk : q.kind = .std c) :
    (arriveAt q b s).dev = s.dev.setStd c ((s.dev.std.get c).arrive b) := by
  simp only [arriveAt, hk]; rfl

theorem arriveAt_dev_integ {q : Slot} (hk : q.kind = .integ) :
    (arriveAt q b s).dev = s.dev.setInteg (s.dev.integ.arrive b) := by
  simp only [arriveAt, hk]; rfl

/-- A full receiver keeps its byte and reports an overrun (spec/48_environment_device.md R291). -/
theorem IntegDev.arrive_eq (d : IntegDev) (b : Byte) :
    d.arrive b = if d.rxd = none then { d with rxd := some b } else { d with lineErr := true } := by
  simp only [arrive, Option.isNone_iff_eq_none]

end Arrival

section Departure

variable {s : State} {q : Slot} {b : Byte}

/-- The oldest byte of a STD transmitter leaves; the last one raises the transmit-empty condition
(spec/48_environment_device.md R292). -/
theorem shiftDevice_std {c : StdSlot} (hk : q.kind = .std c) {rest : List Byte}
    (htx : (s.dev.std.get c).txf = b :: rest) :
    let d := s.dev.std.get c
    shiftByte q s = some b
    ∧ shiftDevice q s = { s with
        dev := s.dev.setStd c { d with txf := rest, threInt := d.threInt || rest.isEmpty } } := by
  simp only [shiftByte, shiftDevice, hk, htx, List.head?_cons, List.tail_cons, true_and]
  cases rest <;> cases (s.dev.std.get c).threInt <;> rfl

/-- The byte of the INTEG transmitter leaves (spec/48_environment_device.md R292). -/
theorem shiftDevice_integ (hk : q.kind = .integ) (htx : s.dev.integ.txd = some b) :
    shiftByte q s = some b
    ∧ shiftDevice q s = { s with dev := s.dev.setInteg { s.dev.integ with txd := none } } := by
  simp only [shiftByte, shiftDevice, hk, htx, true_and]; rfl

/-- A byte that is sent: `u` is the state with the byte on the transmit wire, and where the loopback is wired the byte
arrives at the same port in the same step (spec/48_environment_device.md R292). -/
theorem envTxShift_sends {u : State} (hp : s.cfg.present q = true) (hb : shiftByte q s = some b)
    (hu : (shiftDevice q s).onTxWire q b = u) (hcfg : u.cfg = s.cfg) :
    ∃ g dv wr, exec (.envTxShift q.sel) s = .next { u with latched := g, dev := dv, wireRx := wr }
      ∧ (s.cfg.loopback.get q = false → dv = u.dev ∧ wr = u.wireRx)
      ∧ (s.cfg.loopback.get q = true → ∃ t, exec (.envRxArrive q.sel b) u = .next t ∧ dv = t.dev ∧ wr = t.wireRx) := by
  have hexec : exec (.envTxShift q.sel) s = .next (devStep s q (shiftAt q b s)) := by
    rw [exec_envTxShift hb, if_pos hp]
  have harrive : exec (.envRxArrive q.sel b) u = .next (devStep u q (arriveAt q b u)) := by
    rw [exec_envRxArrive, if_pos (hcfg ▸ hp)]
  have hshift : shiftAt q b s = if s.cfg.loopback.get q then arriveAt q b u else u := by
    rw [shiftAt, hu, hcfg]
  rw [hexec, devStep_frame, harrive]
  generalize (devStep s q (shiftAt q b s)).latched = g
  refine ⟨g, (shiftAt q b s).dev, (shiftAt q b s).wireRx, ?frame, fun hl => ?unwired, fun hl => ⟨_, rfl, ?dev, ?wire⟩⟩
  case frame =>
    rw [hshift]
    split
    case isTrue => exact congrArg (fun w : State => Host.Outcome.next { w with latched := g }) (arriveAt_frame u q b)
    case isFalse => rfl
  case unwired => rw [hshift, hl]; exact ⟨rfl, rfl⟩
  case dev => rw [hshift, hl, if_pos rfl, devStep_frame]
  case wire => rw [hshift, hl, if_pos rfl, devStep_frame]

end Departure

/-- Settles O48: an arrival by `arriveAt_eq` and the device it reaches, a byte sent by `envTxShift_sends`. -/
theorem wireMoves : Obligations.WireMoves := by
  refine ⟨fun s q b => ⟨fun hp => ?silent, fun hp => ?arrives⟩, fun s q =>
    ⟨fun c b rest hp hk htx => ?std, fun b hp hk htx => ?integ, fun hnone => ?still⟩⟩
  case silent => rw [exec_envRxArrive, hp]; rfl
  case arrives =>
    have hdev : (devStep s q (arriveAt q b s)).dev = (arriveAt q b s).dev := by rw [devStep_frame]
    refine ⟨devStep s q (arriveAt q b s), by rw [exec_envRxArrive, if_pos hp], ?frame,
      fun c hk => ?chip, fun hk => ?device⟩
    case frame => rw [devStep_frame, arriveAt_eq]
    case chip => exact hdev.trans (arriveAt_dev_std s b hk)
    case device => rw [hdev, arriveAt_dev_integ s b hk, IntegDev.arrive_eq]; rfl
  case std =>
    obtain ⟨hb, hdev⟩ := shiftDevice_std hk htx
    exact envTxShift_sends hp hb (by rw [hdev]; rfl) rfl
  case integ =>
    obtain ⟨hb, hdev⟩ := shiftDevice_integ hk htx
    exact envTxShift_sends hp hb (by rw [hdev]; rfl) rfl
  case still =>
    obtain hp | ⟨c, hk, htx⟩ | ⟨hk, htx⟩ := hnone
    · exact exec_envTxShift_absent hp
    · exact exec_envTxShift_none (by simp only [shiftByte, hk, htx, List.head?_nil])
    · exact exec_envTxShift_none (by simp only [shiftByte, hk, htx])

end Sys2Proof.Machine

/-! ## The pending cause

`std_cause(p)` row by row, the interrupt outputs, and HAL.CAUSE on a present device as an equation of states
(spec/48_environment_device.md R271, R272, R273, R281, R285). -/

namespace Sys2Proof.Machine

open Sys2Proof

/-- The rows of `std_cause(p)`, with each enable as the bit it is (spec/48_environment_device.md R271). -/
theorem StdDev.cause_eq (m : StdMap) (d : StdDev) : d.cause m =
    if d.lsErr ≠ 0#4 ∧ d.ier &&& m.ierLs ≠ 0#8 then .lineStatus
    else if d.trigger.level ≤ d.rxf.length ∧ d.ier &&& m.ierRx ≠ 0#8 then .rxReady
    else if d.rxTo = true ∧ 0 < d.rxf.length ∧ d.rxf.length < d.trigger.level ∧ d.ier &&& m.ierRx ≠ 0#8 then .rxTimeout
    else if d.threInt = true ∧ d.ier &&& m.ierTx ≠ 0#8 then .txEmpty
    else if d.msDelta ≠ 0#4 ∧ d.ier &&& m.ierMs ≠ 0#8 then .modemStatus
    else .none := by
  simp only [StdDev.cause, hasBit_eq_true]

/-- The interrupt output of a STD chip (spec/48_environment_device.md R272). -/
theorem devIrq_std {s : State} {q : Slot} {c : StdSlot} (hk : q.kind = .std c) : s.devIrq q = true
    ↔ s.cfg.stdPresent.get c = true ∧ (s.dev.std.get c).cause s.cfg.stdMap ≠ .none := by
  simp only [State.devIrq, hk, Bool.and_eq_true, decide_eq_true_eq]

/-- The interrupt output of the INTEG device (spec/48_environment_device.md R281). -/
theorem devIrq_integ {s : State} (hp : s.cfg.integPresent = true) :
    let d := s.dev.integ
    s.devIrq .p2 = true ↔ d.rxd ≠ none ∧ d.ien &&& s.cfg.imRxie ≠ 0#16 ∨ d.txd = none ∧ d.ien &&& s.cfg.imTxie ≠ 0#16
      ∨ d.lineErr = true ∧ d.ien &&& s.cfg.imRxie ≠ 0#16 := by
  simp only [State.devIrq, Slot.kind, hp, Bool.true_and, IntegDev.irq, IntegDev.rxEnabled, IntegDev.txMore,
    Bool.or_eq_true, Bool.and_eq_true, decide_eq_true_eq, Option.isSome_iff_ne_none, Option.isNone_iff_eq_none,
    or_assoc]

section CauseOfChip

variable {s : State} (hwf : s.cfg.wf = true)
include hwf

/-- HAL.CAUSE answers the cause of a present STD chip; the read takes away a reported transmit-empty condition alone
(spec/48_environment_device.md R273). -/
theorem exec_halCause_chip {q : Slot} {c : StdSlot} (hregs : s.regs q = regsOf s.cfg q) (hk : q.kind = .std c)
    (hp : s.cfg.stdPresent.get c = true) :
    let d := s.dev.std.get c
    exec (.halCause q.sel) s = .next { s with
      dev := s.dev.setStd c (if d.cause s.cfg.stdMap = .txEmpty then { d with threInt := false } else d)
      trace := s.trace ++ [.rd8 (s.cfg.stdBase.get c + s.cfg.stdMap.offIir.setWidth 16) (d.iir s.cfg.stdMap)]
      ret := .cause (d.cause s.cfg.stdMap) } :=
  halCause_std hregs hk (ioRd8_chip (D := s.dev) (es := s.trace) hwf hp .iir)
    (stdCauseOf_iir (Config.wf_stdMap hwf) _)

/-- HAL.CAUSE answers the cause of the present INTEG device; the read clears its line error
(spec/48_environment_device.md R285). -/
theorem exec_halCause_device (hregs : s.regs .p2 = regsOf s.cfg .p2) (hp : s.cfg.integPresent = true) :
    let d := s.dev.integ
    exec (.halCause 2#4) s = .next { s.drawn1 with
      dev := s.dev.setInteg { d with lineErr := false }
      trace := s.trace ++ [.rd16 s.cfg.iStat (d.status s.cfg s.drawValue)]
      ret := .cause (d.cause s.cfg) } := by
  have hread := ioRd16_device (D := s.dev) (es := s.trace) hwf hp .stat
  have hcause := integCauseOf_status hwf s.dev.integ s.drawValue
  exact (halCause_integ (q := .p2) hregs rfl hread).trans (by rw [← hcause]; rfl)

end CauseOfChip

/-- Settles O29: the STD clauses are the rows of `StdDev.cause_eq`, the INTEG ones those of `IntegDev.cause`. -/
theorem causePriority : Obligations.CausePriority := by
  refine ⟨fun s q c hk => ?std, fun s hwf hp => ⟨devIrq_integ hp, fun hregs => ?integ⟩⟩
  case std =>
    intro d m on p1 p2 p3 p4 p5
    have rows : d.cause m = if p1 then .lineStatus else if p2 then .rxReady else if p3 then .rxTimeout
        else if p4 then .txEmpty else if p5 then .modemStatus else .none := StdDev.cause_eq m d
    have timeout_not_ready : p3 → ¬p2 := fun ⟨_, _, hless, _⟩ ⟨hlevel, _⟩ => Nat.not_le_of_lt hless hlevel
    refine ⟨fun h1 => ?_, fun h1 h2 => ?_, fun h1 h3 => ?_, fun h1 h2 h3 h4 => ?_, fun h1 h2 h3 h4 h5 => ?_,
      fun h1 h2 h3 h4 h5 => ?_, devIrq_std hk, fun hwf hregs hp => ⟨_, exec_halCause_chip hwf hregs hk hp⟩⟩
    · rw [rows, if_pos h1]
    · rw [rows, if_neg h1, if_pos h2]
    · rw [rows, if_neg h1, if_neg (timeout_not_ready h3), if_pos h3]
    · rw [rows, if_neg h1, if_neg h2, if_neg h3, if_pos h4]
    · rw [rows, if_neg h1, if_neg h2, if_neg h3, if_neg h4, if_pos h5]
    · rw [rows, if_neg h1, if_neg h2, if_neg h3, if_neg h4, if_neg h5]
  case integ =>
    refine ⟨_, _, exec_halCause_device hwf hregs hp, fun herr => ?_, fun herr hrx => ?_, fun herr hrx htx hon => ?_,
      fun herr hrx hidle => ?_⟩
    · simp only [IntegDev.cause, herr, if_true]
    · simp only [IntegDev.cause, herr, Option.isSome_iff_ne_none.2 hrx, if_true, Bool.false_eq_true, if_false]
    · have hmore : s.dev.integ.txMore s.cfg = true := decide_eq_true hon
      simp only [IntegDev.cause, herr, hrx, htx, hmore]; rfl
    · refine IntegDev.cause_eq_none.2 ⟨herr, hrx, hidle.imp_right fun hoff => ?_⟩
      exact decide_eq_false hoff

end Sys2Proof.Machine

/-! ## The errors of the commands

The prologue and the tests of OPEN in their order, and what a command that fails there writes
(spec/60_exceptions.md R303, R306, R312). -/

namespace Sys2Proof.Machine

open Sys2Proof

section Errors

variable {s : State} {q : Slot} {p : BitVec 4} {e : ErrKind}

/-- What a command that fails writes, where the sequencer of M is idle. -/
theorem fail_idle (hm : s.mseq = .idle) (e : ErrKind) :
    s.fail e = { s with r0 := 0xFFFFFFFF#32, lasterr := s.cfg.errCode.get e } := by
  rw [fail_eq, ← hm]

/-- A command that ends with an error as it is issued writes `R0` and `LASTERR` alone. -/
theorem issueCommand_fails {c : Cmd} {whole : State → Res Unit} (hm : s.mseq = .idle) (hctx : s.ctx = [])
    (h : whole s = .ok () (s.fail e)) : issueCommand c whole s
      = .next { s with r0 := 0xFFFFFFFF#32, lasterr := s.cfg.errCode.get e } := by
  rw [issueCommand_idle hm hctx, h, outcome_ok, fail_idle hm]

/-! ### The prologue (spec/46_transfer.md R230) -/

theorem prologue_invalid (hp : 4 ≤ p.toNat) : prologue p s = .error .invalidPortNumber := by
  rw [prologue, slotOfSel_eq_none.2 hp]

theorem prologue_closed (habs : s.slots.get q = none) : prologue q.sel s = .error .portNotOpen := by
  simp only [prologue, slotOfSel_sel, habs]

theorem withOpen_error (h : prologue p s = .error e) (f : Slot → PortState → Res Unit) :
    withOpen p s f = .ok () (s.fail e) := by rw [withOpen, h]

theorem configureWhole_error (h : prologue p s = .error e) : configureWhole p s = .ok () (s.fail e) := by
  simp only [configureWhole, configureCheck, h]

/-- An error of the prologue ends each of the six commands that begin with it. -/
theorem exec_of_prologue_error (hm : s.mseq = .idle) (hctx : s.ctx = []) (d : Dir) (h : prologue p s = .error e) :
    ∀ i ∈ [Instr.configure p, .send p, .recv p, .clear p d, .available p, .rxDropped p],
      exec i s = .next { s with r0 := 0xFFFFFFFF#32, lasterr := s.cfg.errCode.get e } := by
  have hfails (i : Instr) {c : Cmd} {whole : State → Res Unit} (hi : exec i s = issueCommand c whole s)
      (hw : whole s = .ok () (s.fail e)) := hi.trans (issueCommand_fails hm hctx hw)
  simp only [List.forall_mem_cons]
  exact ⟨hfails _ rfl (configureWhole_error h), hfails _ rfl (withOpen_error h _), hfails _ rfl (withOpen_error h _),
    hfails _ rfl (withOpen_error h _), hfails _ rfl (withOpen_error h _), hfails _ rfl (withOpen_error h _), nofun⟩

/-! ### The tests of OPEN (spec/45_lifecycle.md R210, spec/60_exceptions.md R312) -/

theorem openWhole_error (h : openCheck p s = .error e) : openWhole p s = .ok () (s.fail e) := by
  rw [openWhole, h]

theorem openCheck_invalid (hp : 4 ≤ p.toNat) : openCheck p s = .error .invalidPortNumber := by
  rw [openCheck, slotOfSel_eq_none.2 hp]

theorem closeWhole_invalid (hp : 4 ≤ p.toNat) : closeWhole p s = .ok () (s.fail .invalidPortNumber) := by
  rw [closeWhole, slotOfSel_eq_none.2 hp]

/-- A capacity operand outside the limits of the configuration (spec/45_lifecycle.md R211). -/
theorem capacityOk_eq_false {cfg : Config} {w : Word} :
    capacityOk cfg w = false ↔ w.toNat < cfg.capMin ∨ cfg.capMax < w.toNat := by
  rw [← Bool.not_eq_true, capacityOk_iff]
  omega

/-- The tests of OPEN at a port of the machine, in their order. -/
theorem openCheck_eq (s : State) (q : Slot) : openCheck q.sel s =
    if s.cfg.variantOf.get q = .integ ∧ s.cfg.integPresent = false then .error .unsupportedUart
    else if (s.slots.get q).isSome = true then .error .portAlreadyOpen
    else if 2 ≤ s.a0.toNat then .error .illegalSetting
    else if s.a1.toNat < s.cfg.capMin ∨ s.cfg.capMax < s.a1.toNat ∨ s.a2.toNat < s.cfg.capMin
      ∨ s.cfg.capMax < s.a2.toNat then .error .invalidBufferSize
    else .ok q := by
  have hopen : regLookup q.sel s = .present ↔ (s.slots.get q).isSome = true := by
    rw [regLookup_sel]
    cases s.slots.get q <;> simp
  have hmode : (!modeOk s.a0) = true ↔ 2 ≤ s.a0.toNat := by
    rw [Bool.not_eq_true', ← Bool.not_eq_true, modeOk_iff]
    omega
  have hsize : (!(capacityOk s.cfg s.a1 && capacityOk s.cfg s.a2)) = true ↔ s.a1.toNat < s.cfg.capMin
      ∨ s.cfg.capMax < s.a1.toNat ∨ s.a2.toNat < s.cfg.capMin ∨ s.cfg.capMax < s.a2.toNat := by
    rw [Bool.not_eq_true', Bool.and_eq_false_iff, capacityOk_eq_false, capacityOk_eq_false, or_assoc]
  simp only [openCheck, slotOfSel_sel, Bool.not_eq_true', hopen, hmode, hsize]

/-- OPEN ends with the error of its first test that fails. -/
theorem exec_open_of_check (hm : s.mseq = .idle) (hctx : s.ctx = []) (h : openCheck q.sel s = .error e) :
    exec (.openPort q.sel) s = .next { s with r0 := 0xFFFFFFFF#32, lasterr := s.cfg.errCode.get e } :=
  issueCommand_fails hm hctx (openWhole_error h)

/-- OPEN ends with OutOfMemory where the allocation is not granted; it took one draw (spec/42_registry.md R142). -/
theorem exec_open_outOfMemory (hm : s.mseq = .idle) (hctx : s.ctx = []) (hcheck : openCheck q.sel s = .ok q)
    (halloc : regAlloc q s.a0 s.a1 s.a2 s = .ok false s.drawn1) : exec (.openPort q.sel) s
      = .next { s.drawn1 with r0 := 0xFFFFFFFF#32, lasterr := s.cfg.errCode.get .outOfMemory } := by
  refine (issueCommand_idle hm hctx).trans ?_
  have hm' : s.drawn1.mseq = .idle := by rw [drawn1_mseq, hm]
  simp only [openWhole, hcheck, halloc, andThen_ok, Bool.false_eq_true, if_false, outcome_ok]
  rw [fail_idle hm', drawn1_cfg]

/-! ### The presence test (spec/45_lifecycle.md R212) -/

/-- HAL.DETECT of an absent chip answers no where the read-back draws a bit (spec/20_memory.md R69). -/
theorem halDetect_noChip_fails {c : StdSlot} (hwf : s.cfg.wf = true) (hregs : s.regs q = regsOf s.cfg q)
    (hk : q.kind = .std c) (hp : s.cfg.stdPresent.get c = false) (hbit : s.drawValue.setWidth 8 ≠ 0#8) :
    let a := s.cfg.stdMap.addr (s.cfg.stdBase.get c) .ier
    halDetect q s = .ok false { s.drawn1 with
      trace := s.trace ++ [.wr8 a 0#8, .rd8 a (s.drawValue.setWidth 8)] } := by
  obtain ⟨hstd, -⟩ := lifecycleCapabilities s q hwf hregs
  obtain ⟨-, -, habsent⟩ := hstd c hk
  obtain ⟨hdetect, -⟩ := habsent hp
  dsimp only at hdetect
  rw [decide_eq_false hbit] at hdetect
  exact halDetect_of_word (exec_halDetect.symm.trans hdetect) (drawn1_ret s)

/-- The unwinding of OPEN line 3 closes the slot that line 2 had allocated (spec/45_lifecycle.md R212). -/
theorem openUndo_allocating (habs : s.slots.get q = none) (hclosed : s.life.get q = .closed)
    {port : Option PortState} {D : Devices} {es : List HostEvent} {draws : List Half} {drawn : Nat} :
    State.openUndo { s with
        slots := s.slots.set q port, life := s.life.set q .opening
        dev := D, trace := es, draws := draws, drawn := drawn } q
      = State.fail { s with dev := D, trace := es, draws := draws, drawn := drawn } .noUartDetected := by
  have hslots : s.slots.set q none = s.slots := by rw [← habs, PerSlot.set_get]
  have hlife : s.life.set q .closed = s.life := by rw [← hclosed, PerSlot.set_get]
  simp only [State.openUndo, State.setSlot, State.setLife, PerSlot.set_set, hslots, hlife]

/-- OPEN ends with NoUartDetected where the presence test of an absent chip reads a bit
(spec/45_lifecycle.md R210 line 3). -/
theorem exec_open_noUart {c : StdSlot} (hwf : s.cfg.wf = true) (hm : s.mseq = .idle) (hctx : s.ctx = [])
    (hk : q.kind = .std c) (hp : s.cfg.stdPresent.get c = false) (habs : s.slots.get q = none)
    (hclosed : s.life.get q = .closed) (hmode : s.a0.toNat ≤ 1) (htx : capacityOk s.cfg s.a1 = true)
    (hrx : capacityOk s.cfg s.a2 = true) (hgrant : s.drawValue.getLsbD 0 = true)
    (hbit : s.drawn1.drawValue.setWidth 8 ≠ 0#8) :
    let a := s.cfg.stdMap.addr (s.cfg.stdBase.get c) .ier
    exec (.openPort q.sel) s = .next { s.drawn1.drawn1 with
      trace := s.trace ++ [.wr8 a 0#8, .rd8 a (s.drawn1.drawValue.setWidth 8)]
      r0 := 0xFFFFFFFF#32, lasterr := s.cfg.errCode.get .noUartDetected } := by
  intro a
  refine exec_open_of_tail hwf hm hctx (fun hi => by rw [hk] at hi; cases hi) habs hmode htx hrx hgrant ?_
  have hdetect := halDetect_noChip_fails (s := s.allocated q) hwf (allocated_regs s q) hk hp hbit
  rw [openTail, openDetect_std (allocated_regs s q) hk, hdetect, andThen_ok, if_neg Bool.false_ne_true,
    allocated_drawn1, drawn1_of_draws (s := s.drawn1) (u := s.drawn1) rfl rfl, drawn1_of_draws (s := s) (u := s) rfl rfl]
  exact congrArg (Res.ok ()) ((openUndo_allocating habs hclosed).trans (fail_idle (by exact hm) _))

end Errors

/-- Settles O50: the commands by `exec_of_prologue_error`, the first four errors of OPEN by the order of
`openCheck_eq`, the two later ones by the allocation and the presence test. -/
theorem commandErrorsInOrder : Obligations.CommandErrorsInOrder := by
  refine ⟨by decide, fun s d hm hctx => ⟨fun p hp => ?invalid, fun q habs i hi => ?closed⟩,
    fun s q hm hctx => ?opens⟩
  case invalid =>
    have hprologue := exec_of_prologue_error hm hctx d (prologue_invalid (s := s) hp)
    have hopen := issueCommand_fails (c := ⟨.openPort, p⟩) hm hctx (openWhole_error (openCheck_invalid (s := s) hp))
    have hclose := issueCommand_fails (c := ⟨.close, p⟩) hm hctx (closeWhole_invalid (s := s) hp)
    simp only [List.forall_mem_cons] at hprologue ⊢
    obtain ⟨hconfigure, hsend, hrecv, hclear, havailable, hdropped, -⟩ := hprologue
    exact ⟨hopen, hconfigure, hsend, hrecv, hclear, havailable, hclose, hdropped, nofun⟩
  case closed => exact exec_of_prologue_error hm hctx d (prologue_closed habs) i hi
  case opens =>
    have hlegal (hsize : ¬(s.a1.toNat < s.cfg.capMin ∨ s.cfg.capMax < s.a1.toNat ∨ s.a2.toNat < s.cfg.capMin
        ∨ s.cfg.capMax < s.a2.toNat)) : capacityOk s.cfg s.a1 = true ∧ capacityOk s.cfg s.a2 = true := by
      rw [capacityOk_iff, capacityOk_iff]
      omega
    have hclosed (habs : s.slots.get q = none) : ¬(s.slots.get q).isSome = true := by
      rw [habs]
      exact Bool.false_ne_true
    have hcheck := openCheck_eq s q
    refine ⟨fun hu => ?_, fun hu hopen => ?_, fun hu habs hmode => ?_, fun hu habs hmode hsize => ?_,
      fun hu habs hmode hsize hdraw => ?_, fun c hk hwf hp habs hlife hmode hsize hgrant => ?_⟩
    · exact exec_open_of_check hm hctx (by rw [hcheck, if_pos hu])
    · exact exec_open_of_check hm hctx (by rw [hcheck, if_neg hu, if_pos hopen])
    · exact exec_open_of_check hm hctx (by rw [hcheck, if_neg hu, if_neg (hclosed habs), if_pos hmode])
    · exact exec_open_of_check hm hctx (by rw [hcheck, if_neg hu, if_neg (hclosed habs), if_neg hmode, if_pos hsize])
    · obtain ⟨htx, hrx⟩ := hlegal hsize
      refine exec_open_outOfMemory hm hctx ?_ (regAlloc_eq_ok.2 ⟨habs, htx, hrx, hdraw.symm, rfl⟩)
      rw [hcheck, if_neg hu, if_neg (hclosed habs), if_neg hmode, if_neg hsize]
    · obtain ⟨htx, hrx⟩ := hlegal hsize
      exact exec_open_noUart hwf hm hctx hk hp habs hlife (Nat.le_of_lt_succ (Nat.not_le.1 hmode)) htx hrx hgrant

end Sys2Proof.Machine

/-! ## How a command ends

A command performed undisturbed ends with an error before it has written anything that a later command reads, or
returns a value that is not -1, or waits at one of its lines (spec/60_exceptions.md R302, spec/10_state.md R27). -/

namespace Sys2Proof.Machine

open Sys2Proof

/-- Only the devices, the trace and the draws differ. -/
def OutsideFrame (s t : State) : Prop :=
  t = { s with dev := t.dev, trace := t.trace, draws := t.draws, drawn := t.drawn }

/-- What a command issued in `s` may have come to, in `t`. -/
inductive CommandEnd (s t : State) : Prop
  | failed {u : State} {e : ErrKind} (hu : OutsideFrame s u) (ht : t = u.fail e)
  | returned {u : State} {v : Word} (hv : v ≠ 0xFFFFFFFF#32) (ht : t = u.finish v)
  | waits {u : State} {c : Cmd} {n : Nat} {moved k : Word} (ht : t = u.atLine c n moved k)

section Ends

variable {s t u : State} {p : BitVec 4} {q : Slot} {e : ErrKind} {v k : Word}

theorem OutsideFrame.refl (s : State) : OutsideFrame s s := rfl

theorem OutsideFrame.drawn1 (s : State) : OutsideFrame s s.drawn1 := by
  rw [OutsideFrame, drawn1_of_draws (s := s) (u := s) rfl rfl]

/-- A value below 2^31 is not the result of a command that fails. -/
theorem ne_failure_of_lt (h : v.toNat < 2147483648) : v ≠ 0xFFFFFFFF#32 := by
  rintro rfl
  exact absurd h (by decide)

theorem finish_zero_ends : CommandEnd s (u.finish 0#32) := .returned (by decide) rfl

/-! ### OPEN -/

theorem accDetect_saves (cfg : Config) (r : Regs) : ∀ a ∈ accDetect cfg r, a.saves = false := by
  cases r <;> simp [accDetect, Acc.saves]

/-- The presence test changes the devices, the trace, the draws and its own slot. -/
theorem openDetect_frame {d : Bool} (h : openDetect q s = .ok d t) : ∃ port D es draws drawn,
    t = { s with slots := s.slots.set q port, dev := D, trace := es, draws := draws, drawn := drawn } := by
  unfold openDetect at h
  split at h
  case h_1 =>
    obtain ⟨v, hrun, -⟩ := halDetect_eq_ok.1 h
    have hsaved : t.savedInteg = s.savedInteg := runAccs_savedInteg (accDetect_saves _ _) hrun
    exact ⟨_, _, _, _, _, (runHal_frame hrun).frame.trans (by rw [hsaved])⟩
  case h_2 =>
    obtain ⟨-, rfl⟩ := ok_eq_ok.1 h
    exact ⟨_, _, _, _, _, by rw [PerSlot.set_get]⟩

theorem openHook_ends (h : openHook q u = .ok () t) : CommandEnd s t := by
  obtain ⟨_, _, -, h⟩ := andThen_eq_ok.1 h
  obtain ⟨_, _, -, h⟩ := andThen_eq_ok.1 h
  obtain ⟨_, w, -, h⟩ := andThen_eq_ok.1 h
  obtain ⟨-, rfl⟩ := ok_eq_ok.1 h
  exact finish_zero_ends

theorem openTail_ends (habs : s.slots.get q = none) (hlife : s.life.get q = .closed)
    (h : openTail q (s.allocated q) = .ok () t) : CommandEnd s t := by
  obtain ⟨d, u, hdetect, h⟩ := andThen_eq_ok.1 h
  cases d with
  | true => exact openHook_ends h
  | false =>
    obtain ⟨-, rfl⟩ := ok_eq_ok.1 h
    obtain ⟨port, D, es, draws, drawn, rfl⟩ := openDetect_frame hdetect
    refine .failed (u := { s with dev := D, trace := es, draws := draws, drawn := drawn }) (e := .noUartDetected) rfl ?_
    simp only [State.allocated, PerSlot.set_set]
    exact openUndo_allocating habs hlife

theorem openWhole_ends (hs : s.linesAgree) (h : openWhole p s = .ok () t) : CommandEnd s t := by
  unfold openWhole at h
  cases hcheck : openCheck p s with
  | error e =>
    rw [hcheck] at h
    obtain ⟨-, rfl⟩ := ok_eq_ok.1 h
    exact .failed (.refl s) rfl
  | ok q =>
    rw [hcheck] at h
    obtain ⟨a, u, halloc, h⟩ := andThen_eq_ok.1 h
    obtain ⟨habs, -, -, -, rfl⟩ := regAlloc_eq_ok.1 halloc
    cases a with
    | false =>
      obtain ⟨-, rfl⟩ := ok_eq_ok.1 h
      exact .failed (.drawn1 s) rfl
    | true =>
      obtain ⟨hlife, -⟩ := hs
      have hlife : s.life.get q = .closed := by rw [hlife, habs]; rfl
      simp only [if_true, allocated_eq] at h
      exact openTail_ends habs hlife h

/-! ### The commands on an open port -/

/-- A command that begins with the prologue ends with its error, or as its rest ends on an open port. -/
theorem withOpen_ends {f : Slot → PortState → Res Unit} (h : withOpen p s f = .ok () t)
    (hf : ∀ q ps, f q ps = .ok () t → CommandEnd s t) : CommandEnd s t := by
  obtain ⟨e, -, rfl⟩ | ⟨q, ps, -, h⟩ := withOpen_eq_ok.1 h
  · exact .failed (.refl s) rfl
  · exact hf q ps h

theorem configureWhole_ends (h : configureWhole p s = .ok () t) : CommandEnd s t := by
  unfold configureWhole at h
  split at h
  case h_1 =>
    obtain ⟨-, rfl⟩ := ok_eq_ok.1 h
    exact .failed (.refl s) rfl
  case h_2 =>
    obtain ⟨_, u, -, h⟩ := andThen_eq_ok.1 h
    obtain ⟨-, rfl⟩ := ok_eq_ok.1 h
    exact finish_zero_ends

/-- The count of a pass is what a ring of at most 65535 bytes holds or lacks. -/
theorem sendPass_count (h : sendPass q 0#32 s = .ok k t) : k ≠ 0xFFFFFFFF#32 := by
  obtain ⟨u, w, hcopy, -, -⟩ := sendPass_eq_ok.1 h
  obtain ⟨ps, -, rfl, -⟩ := sendCopy_eq_ok.1 hcopy
  have hroom : ps.tx.room < 65536 := Nat.lt_of_le_of_lt (Nat.sub_le ..) ps.tx.capacity.isLt
  refine ne_failure_of_lt ?_
  rw [sendCount, BitVec.toNat_ofNat]
  omega

theorem recvPass_count (h : recvPass q 0#32 s = .ok k t) : k ≠ 0xFFFFFFFF#32 := by
  obtain ⟨u, hcopy, -⟩ := recvPass_eq_ok.1 h
  obtain ⟨ps, -, rfl, -⟩ := recvCopy_eq_ok.1 hcopy
  have hcount := ps.rx.count.isLt
  refine ne_failure_of_lt ?_
  rw [recvCount, BitVec.toNat_ofNat]
  omega

theorem afterPass_ends {c : Cmd} {blocking : Bool} (hv : v ≠ 0xFFFFFFFF#32) :
    CommandEnd s (afterPass c blocking v u) := by
  unfold afterPass
  split
  · exact .returned hv rfl
  split
  · exact .returned hv rfl
  · exact .waits rfl

/-- SEND and RECV return the count of a pass, or wait. -/
theorem transferWhole_ends {c : Cmd} {pass : Slot → State → Res Word}
    (hpass : ∀ q k u, pass q s = .ok k u → k ≠ 0xFFFFFFFF#32) (h : transferWhole c pass s = .ok () t) :
    CommandEnd s t := by
  refine withOpen_ends h fun q ps h => ?_
  split at h
  · cases h
  split at h
  · obtain ⟨-, rfl⟩ := ok_eq_ok.1 h
    exact finish_zero_ends
  · obtain ⟨k, u, hrun, h⟩ := andThen_eq_ok.1 h
    obtain ⟨-, rfl⟩ := ok_eq_ok.1 h
    exact afterPass_ends (hpass q k u hrun)

theorem clearWhole_ends {d : Dir} (h : clearWhole p d s = .ok () t) : CommandEnd s t := by
  refine withOpen_ends h fun q ps h => ?_
  obtain ⟨_, u, -, h⟩ := andThen_eq_ok.1 h
  obtain ⟨-, rfl⟩ := ok_eq_ok.1 h
  exact finish_zero_ends

theorem availableWhole_ends (h : availableWhole p s = .ok () t) : CommandEnd s t := by
  refine withOpen_ends h fun q ps h => ?_
  obtain ⟨n, u, -, h⟩ := andThen_eq_ok.1 h
  obtain ⟨-, rfl⟩ := ok_eq_ok.1 h
  have hn := n.isLt
  refine .returned (ne_failure_of_lt ?_) rfl
  rw [BitVec.toNat_setWidth]
  omega

theorem rxDroppedWhole_ends (h : rxDroppedWhole p s = .ok () t) : CommandEnd s t := by
  refine withOpen_ends h fun q ps h => ?_
  obtain ⟨-, rfl⟩ := ok_eq_ok.1 h
  refine .returned (ne_failure_of_lt ?_) rfl
  rw [droppedResult, BitVec.toNat_ofNat]
  omega

/-! ### CLOSE -/

theorem closeTail_ends (h : closeTail q u = .ok () t) : CommandEnd s t := by
  obtain ⟨_, _, -, h⟩ := andThen_eq_ok.1 h
  obtain ⟨_, w, -, h⟩ := andThen_eq_ok.1 h
  obtain ⟨-, rfl⟩ := ok_eq_ok.1 h
  exact finish_zero_ends

theorem closeSpin_ends {ps : PortState} (h : closeSpin p q ps u = .ok () t) : CommandEnd s t := by
  unfold closeSpin at h
  split at h
  · exact closeTail_ends h
  split at h
  · obtain ⟨-, rfl⟩ := ok_eq_ok.1 h
    exact .waits rfl
  · obtain ⟨e, w, -, h⟩ := andThen_eq_ok.1 h
    cases e with
    | true => exact closeTail_ends h
    | false =>
      obtain ⟨-, rfl⟩ := ok_eq_ok.1 h
      exact .waits rfl

theorem closeWhole_ends (h : closeWhole p s = .ok () t) : CommandEnd s t := by
  unfold closeWhole at h
  split at h
  · obtain ⟨-, rfl⟩ := ok_eq_ok.1 h
    exact .failed (.refl s) rfl
  split at h
  · obtain ⟨-, rfl⟩ := ok_eq_ok.1 h
    exact finish_zero_ends
  · exact closeSpin_ends h

/-! ### Every command -/

/-- A command issued as a word, with no handler running, ends in one of the three ways. -/
theorem exec_command_ends {i : Instr} (hi : i.cls = 1#4) (hctx : s.ctx = []) (hs : s.linesAgree)
    (h : exec i s = .next t) : CommandEnd s t := by
  have hwhole {c : Cmd} {whole : State → Res Unit} (h : issueCommand c whole s = .next t) : whole s = .ok () t := by
    obtain ⟨-, ⟨hbusy, -⟩ | ⟨-, hok⟩⟩ := issueCommand_eq_next.1 h
    · exact absurd hctx hbusy
    · exact hok
  cases i with
  | openPort p => exact openWhole_ends hs (hwhole h)
  | configure p => exact configureWhole_ends (hwhole h)
  | send p => exact transferWhole_ends (c := ⟨.send, p⟩) (fun _ _ _ => sendPass_count) (hwhole (whole := sendWhole p) h)
  | recv p => exact transferWhole_ends (c := ⟨.recv, p⟩) (fun _ _ _ => recvPass_count) (hwhole (whole := recvWhole p) h)
  | clear p d => exact clearWhole_ends (hwhole h)
  | available p => exact availableWhole_ends (hwhole h)
  | close p => exact closeWhole_ends (hwhole h)
  | rxDropped p => exact rxDroppedWhole_ends (hwhole h)
  | _ => simp [Instr.cls] at hi

end Ends

/-- Settles O16: of the three ways of `exec_command_ends` only an error leaves M idle with -1. -/
theorem failedCommandsLeaveNoTrace : Obligations.FailedCommandsLeaveNoTrace := by
  intro i s t hi hm hctx hs h hidle hminus
  obtain ⟨hu, rfl⟩ | ⟨hv, rfl⟩ | rfl := exec_command_ends hi hctx hs h
  case failed u e =>
    have hcfg : u.cfg = s.cfg := by rw [hu]
    have hcode : (u.fail e).lasterr = s.cfg.errCode.get e := by rw [← hcfg]; rfl
    refine ⟨?_, ⟨e, hcode⟩, fun hwf => hcode ▸ Config.wf_codes hwf e⟩
    rw [fail_eq, hu, ← hm]
  case returned => exact absurd hminus hv
  case waits => cases hidle

end Sys2Proof.Machine
